-- ==== Sys2Proof/Word.lean ====
section
/-! DEFINITION. The word types of the frame decoding block: bytes, 16- and 64-bit words, 64-bit samples. -/

namespace Sys2Proof

/-- One byte of the input stream, a command argument or a sub-cause (`20_memory.md` R60). -/
abbrev Byte := BitVec 8

/-- A command word, a status word or a CRC-16 (`30_encoding.md` R80). -/
abbrev Word16 := BitVec 16

/-- A 64-bit register or operand (`10_state.md` R41). -/
abbrev Word64 := BitVec 64

/-- A sample, residual, prediction or accumulator: 64-bit two's complement, wrapping
(`00_scope.md` R9, decision D6). -/
abbrev Sample := BitVec 64

/-- A channel index, 0 to 7 (`10_state.md` R30). -/
abbrev ChannelIx := Fin 8

end Sys2Proof
end

