-- ==== Sys2Proof/Config.lean ====
section
/-! DEFINITION. What an instance of the block fixes (`00_scope.md` R7) and the values the spec leaves
unspecified. -/

namespace Sys2Proof

/-- The parameter `P_BPS7`: what sample-size code 7 means (`00_scope.md` R7, `30_encoding.md` R95,
decision D16). -/
inductive Bps7
  | bits32
  | reserved
  deriving DecidableEq, Repr

/-- The OPEN parameters of `00_scope.md` R7. An instance is built with one value of each and never
changes it (`70_reset_and_hazards.md` R421). -/
structure Params where
  /-- `BUF_DEPTH`: samples per channel of `CHBUF`, 1 to 65535 (decision D7). -/
  bufDepth : Nat
  /-- `P_BPS7` (decision D16). -/
  bps7 : Bps7
  deriving DecidableEq, Repr

/-- The values R7 recommends: `BUF_DEPTH = 65535`, `P_BPS7 = 32`. DESIGN CHOICE (log 10). -/
def Params.recommended : Params := { bufDepth := 65535, bps7 := .bits32 }

/-- `1 <= BUF_DEPTH <= 65535` (`00_scope.md` R7). -/
def Params.legal (p : Params) : Bool := decide (1 ≤ p.bufDepth) && decide (p.bufDepth ≤ 65535)

/-- FREE VALUE: element `i` of a channel whose contents are unspecified, in the `g`-th batch of
unspecified contents (`10_state.md` R30, `43_subframe.md` R240, `70_reset_and_hazards.md` R420:
"unspecified"; `93_implementation_defined.md`: "any value"). It has no body, so nothing can be proved
of it (log 8). -/
opaque Config.freeSample (g i : Nat) : Sample

end Sys2Proof
end

