-- ==== Sys2Proof/Syntax.lean ====
section
/-! DEFINITION. The instructions: one constructor per mnemonic of spec/opcode_table.json. The first 22
are the commands of `30_encoding.md` R81, each with the 8-bit argument its word carries, legal or not
(R80); then the reserved opcodes (R82); then the bitstream codes (R100, R110, R104, R94), with the
fields the table gives them. -/

namespace Sys2Proof

/-- An instruction of the block. Constructors of the command space keep the argument byte
`CMD[7:0]` as it came; `DATA_IN` is a register of the machine, not part of the word. -/
inductive Instr
  /-- `NOP`, format N (`47_frame.md` R374). -/
  | nop (arg : Byte)
  /-- `SOFT_RESET`, format N (`47_frame.md` R372). -/
  | softReset (arg : Byte)
  /-- `CSR_READ a`, format A (`47_frame.md` R370). -/
  | csrRead (a : Byte)
  /-- `CSR_WRITE a, v`, format A, `v` from `DATA_IN` (`47_frame.md` R371). -/
  | csrWrite (a : Byte)
  /-- `BUF_READ c, i`, format C, `i` from `DATA_IN` (`47_frame.md` R373). -/
  | bufRead (c : Byte)
  /-- `BR_READ_UINT n`, format W (`40_bitreader.md` R143). -/
  | brReadUint (n : Byte)
  /-- `BR_READ_INT n`, format W (`40_bitreader.md` R144). -/
  | brReadInt (n : Byte)
  /-- `BR_READ_UNARY`, format N (`40_bitreader.md` R145). -/
  | brReadUnary (arg : Byte)
  /-- `BR_PEEK_UINT n`, format W (`40_bitreader.md` R146). -/
  | brPeekUint (n : Byte)
  /-- `BR_IS_ALIGNED`, format N (`40_bitreader.md` R147). -/
  | brIsAligned (arg : Byte)
  /-- `BR_ALIGN`, format N (`40_bitreader.md` R148). -/
  | brAlign (arg : Byte)
  /-- `BR_CRC16_RESET`, format N (`40_bitreader.md` R149). -/
  | brCrc16Reset (arg : Byte)
  /-- `BR_CRC16_READ`, format N (`40_bitreader.md` R150). -/
  | brCrc16Read (arg : Byte)
  /-- `BR_CRC8_RESET`, format N (`40_bitreader.md` R151). -/
  | brCrc8Reset (arg : Byte)
  /-- `BR_CRC8_READ`, format N (`40_bitreader.md` R152). -/
  | brCrc8Read (arg : Byte)
  /-- `FR_FIND_SYNC`, format N (`41_sync.md` R160). -/
  | frFindSync (arg : Byte)
  /-- `FR_DECODE_HEADER`, format N (`42_header.md` R180). -/
  | frDecodeHeader (arg : Byte)
  /-- `FR_DECODE_SUBFRAME c`, format C (`43_subframe.md` R230). -/
  | frDecodeSubframe (c : Byte)
  /-- `FR_DECORRELATE`, format N (`46_decorrelate.md` R320). -/
  | frDecorrelate (arg : Byte)
  /-- `FR_CHECK_FOOTER`, format N (`47_frame.md` R340). -/
  | frCheckFooter (arg : Byte)
  /-- `READ_NEXT_FRAME`, format N (`47_frame.md` R350). -/
  | readNextFrame (arg : Byte)
  /-- `DECODE`, format N (`47_frame.md` R360). -/
  | decode (arg : Byte)
  /-- A reserved opcode (`30_encoding.md` R82), with its argument byte. -/
  | reservedOpcode (op arg : Byte)
  /-- Subframe header byte `0000000w`: CONSTANT (`43_subframe.md` R237). -/
  | subframeConstant (w : Bool)
  /-- Subframe header byte `0000001w`: VERBATIM (`43_subframe.md` R238). -/
  | subframeVerbatim (w : Bool)
  /-- Subframe header byte `0001000w`: FIXED order 0 (`44_fixed.md` R261). -/
  | subframeFixed0 (w : Bool)
  /-- Subframe header byte `0001001w`: FIXED order 1 (`44_fixed.md` R262). -/
  | subframeFixed1 (w : Bool)
  /-- Subframe header byte `0001010w`: FIXED order 2 (`44_fixed.md` R263). -/
  | subframeFixed2 (w : Bool)
  /-- Subframe header byte `0001011w`: FIXED order 3 (`44_fixed.md` R264). -/
  | subframeFixed3 (w : Bool)
  /-- Subframe header byte `0001100w`: FIXED order 4 (`44_fixed.md` R265). -/
  | subframeFixed4 (w : Bool)
  /-- Subframe header byte `01ooooow`: LPC of order `o + 1` (`45_lpc_rice.md` R280). -/
  | subframeLpc (orderMinus1 : BitVec 5) (w : Bool)
  /-- Subframe header byte with a reserved type `x[6:1]` (`43_subframe.md` R239). -/
  | subframeReserved (type : BitVec 6) (w : Bool)
  /-- Subframe header byte with `x[7] = 1`; `rest` is `x[6:0]` (`43_subframe.md` R232). -/
  | subframeBadPadding (rest : BitVec 7)
  /-- The sync pattern `0xFF`, `111110rb`: `reserved` is bit 1 and `blocking` bit 0 of the second byte
  (`30_encoding.md` R110, `41_sync.md` R163, `42_header.md` R182). -/
  | frameSync (reserved blocking : Bool)
  /-- Residual coding method `00` (`45_lpc_rice.md` R298). -/
  | residualRice
  /-- Residual coding method `01` (`45_lpc_rice.md` R299). -/
  | residualRice2
  /-- Residual coding method `1l`, reserved (`45_lpc_rice.md` R291). -/
  | residualReserved (low : Bool)
  /-- Channel code `0nnn`: `n + 1` independent channels (`46_decorrelate.md` R321). -/
  | chIndependent (channelsMinus1 : BitVec 3)
  /-- Channel code `1000` (`46_decorrelate.md` R322). -/
  | chLeftSide
  /-- Channel code `1001` (`46_decorrelate.md` R323). -/
  | chRightSide
  /-- Channel code `1010` (`46_decorrelate.md` R324). -/
  | chMidSide
  /-- Channel codes `1011` to `1111`, reserved (`42_header.md` R184). -/
  | chReserved (code : BitVec 4)
  deriving DecidableEq, Repr

/-- An encoded instruction, in the space it is encoded in: a command word (R80), the two sync bytes
(R110), a subframe header byte (R100), a residual method code (R104) or a channel code (R94). -/
inductive CodeWord
  | command (w : Word16)
  | sync (w : Word16)
  | subframeByte (x : Byte)
  | residualMethod (m : BitVec 2)
  | channelCode (c : BitVec 4)
  deriving DecidableEq, Repr

/-- What a subframe header byte `x` selects (`30_encoding.md` R100); `w` is the wasted-bits flag
`x[0]`. -/
inductive SubframeCode
  /-- CONSTANT. -/
  | constant (w : Bool)
  /-- VERBATIM. -/
  | verbatim (w : Bool)
  /-- FIXED of order `o`, 0 to 4. -/
  | fixed (o : Fin 5) (w : Bool)
  /-- LPC of order `orderMinus1 + 1`, 1 to 32. -/
  | lpc (orderMinus1 : BitVec 5) (w : Bool)
  /-- A reserved type `x[6:1]`. -/
  | reserved (type : BitVec 6) (w : Bool)
  /-- The padding bit `x[7]` is 1; `rest` is `x[6:0]`. -/
  | badPadding (rest : BitVec 7)
  deriving DecidableEq, Repr

end Sys2Proof
end

