-- ==== Sys2Proof/WellFormed.lean ====
section
/-! DEFINITION. Which terms of `Instr` stand for an encoding: `Instr.wellFormed`. The argument legality of
`30_encoding.md` R80 is no part of it: the machine checks it before a command starts (Machine/Operands),
and a command that fails it is still executed, ending with ILLEGAL_CMD sub-cause 2 (log 19). -/

namespace Sys2Proof

/-- The opcodes of R81, as ranges: `0x00-0x04`, `0x10-0x19`, `0x20-0x24`, `0x30-0x31`. -/
def opcodeDefined (op : Byte) : Bool :=
  decide (op.toNat ≤ 0x04) ||
  (decide (0x10 ≤ op.toNat) && decide (op.toNat ≤ 0x19)) ||
  (decide (0x20 ≤ op.toNat) && decide (op.toNat ≤ 0x24)) ||
  (decide (0x30 ≤ op.toNat) && decide (op.toNat ≤ 0x31))

/-- The subframe types `x[6:1]` that `30_encoding.md` R100 reserves: `000010-000111` and
`001101-011111`. -/
def subframeTypeReserved (t : BitVec 6) : Bool :=
  (decide (2 ≤ t.toNat) && decide (t.toNat ≤ 7)) ||
  (decide (13 ≤ t.toNat) && decide (t.toNat ≤ 31))

/-- The channel codes that `30_encoding.md` R94 reserves: 11 to 15. -/
def channelCodeReserved (c : BitVec 4) : Bool := decide (11 ≤ c.toNat)

/-- The fields of `i` are those of an encoding of `i`'s own row of the opcode table: a reserved opcode is
one R82 names, a reserved subframe type one R100 names, a reserved channel code one R94 names. Every
other field may take every value of its width. -/
def Instr.wellFormed : Instr → Bool
  | .reservedOpcode op _ => !opcodeDefined op
  | .subframeReserved t _ => subframeTypeReserved t
  | .chReserved c => channelCodeReserved c
  | .nop _ | .softReset _ | .csrRead _ | .csrWrite _ | .bufRead _
  | .brReadUint _ | .brReadInt _ | .brReadUnary _ | .brPeekUint _ | .brIsAligned _
  | .brAlign _ | .brCrc16Reset _ | .brCrc16Read _ | .brCrc8Reset _ | .brCrc8Read _
  | .frFindSync _ | .frDecodeHeader _ | .frDecodeSubframe _ | .frDecorrelate _
  | .frCheckFooter _ | .readNextFrame _ | .decode _
  | .subframeConstant _ | .subframeVerbatim _ | .subframeFixed0 _ | .subframeFixed1 _
  | .subframeFixed2 _ | .subframeFixed3 _ | .subframeFixed4 _ | .subframeLpc _ _
  | .subframeBadPadding _ | .frameSync _ _ | .residualRice | .residualRice2
  | .residualReserved _ | .chIndependent _ | .chLeftSide | .chRightSide | .chMidSide => true

end Sys2Proof
end

