-- ==== Sys2Proof/Decode.lean ====
section
/-! DEFINITION. Decoding and encoding (`30_encoding.md`): the command word of R80 and R81, the reserved
opcodes of R82, and the bitstream codes of R94, R100, R104 and R110. Decoding is total on every code
word; the one word it rejects, by name, is a pair of bytes in sync position that is no sync pattern. -/

namespace Sys2Proof

/-- Why a code word is no instruction. -/
inductive DecodeReject
  /-- Two bytes in sync position that do not match `0xFFF8 / 0xFFFC` (`30_encoding.md` R110). -/
  | notASyncPattern (w : Word16)
  deriving DecidableEq, Repr

/-! ## The command word (R80 to R82) -/

/-- `CMD[15:8]` (R80). -/
def opcodeOf (w : Word16) : Byte := w.extractLsb' 8 8

/-- `CMD[7:0]` (R80). -/
def argumentOf (w : Word16) : Byte := w.extractLsb' 0 8

/-- The opcode map of R81; every opcode it does not list is reserved (R82). -/
def decodeCommand (w : Word16) : Instr :=
  match (opcodeOf w).toNat with
  | 0x00 => .nop (argumentOf w)
  | 0x01 => .softReset (argumentOf w)
  | 0x02 => .csrRead (argumentOf w)
  | 0x03 => .csrWrite (argumentOf w)
  | 0x04 => .bufRead (argumentOf w)
  | 0x10 => .brReadUint (argumentOf w)
  | 0x11 => .brReadInt (argumentOf w)
  | 0x12 => .brReadUnary (argumentOf w)
  | 0x13 => .brPeekUint (argumentOf w)
  | 0x14 => .brIsAligned (argumentOf w)
  | 0x15 => .brAlign (argumentOf w)
  | 0x16 => .brCrc16Reset (argumentOf w)
  | 0x17 => .brCrc16Read (argumentOf w)
  | 0x18 => .brCrc8Reset (argumentOf w)
  | 0x19 => .brCrc8Read (argumentOf w)
  | 0x20 => .frFindSync (argumentOf w)
  | 0x21 => .frDecodeHeader (argumentOf w)
  | 0x22 => .frDecodeSubframe (argumentOf w)
  | 0x23 => .frDecorrelate (argumentOf w)
  | 0x24 => .frCheckFooter (argumentOf w)
  | 0x30 => .readNextFrame (argumentOf w)
  | 0x31 => .decode (argumentOf w)
  | _ => .reservedOpcode (opcodeOf w) (argumentOf w)

/-! ## The bitstream codes -/

/-- The second byte of the sync pattern: its top six bits are `111110` (R110). -/
def syncTail (y : Byte) : Bool := y.extractLsb' 2 6 == 0b111110#6

/-- The sync pattern `0xFF`, `111110rb` (R110: match `0xFFF8`, mask `0xFFFC`). -/
def decodeSync (w : Word16) : Except DecodeReject Instr :=
  if w.extractLsb' 8 8 == 0xFF#8 && syncTail (w.extractLsb' 0 8)
  then .ok (.frameSync (w.getLsbD 1) (w.getLsbD 0))
  else .error (.notASyncPattern w)

/-- The subframe header byte (R100): padding bit `x[7]`, type `x[6:1]`, wasted-bits flag `x[0]`. -/
def decodeSubframeByte (x : Byte) : SubframeCode :=
  let w := x.getLsbD 0
  let t := x.extractLsb' 1 6
  if x.getLsbD 7 then .badPadding (x.extractLsb' 0 7)
  else if t.getLsbD 5 then .lpc (x.extractLsb' 1 5) w
  else match t.toNat with
    | 0 => .constant w
    | 1 => .verbatim w
    | 8 => .fixed 0 w
    | 9 => .fixed 1 w
    | 10 => .fixed 2 w
    | 11 => .fixed 3 w
    | 12 => .fixed 4 w
    | _ => .reserved t w

/-- The instruction a subframe header byte stands for. -/
def SubframeCode.toInstr : SubframeCode → Instr
  | .constant w => .subframeConstant w
  | .verbatim w => .subframeVerbatim w
  | .fixed 0 w => .subframeFixed0 w
  | .fixed 1 w => .subframeFixed1 w
  | .fixed 2 w => .subframeFixed2 w
  | .fixed 3 w => .subframeFixed3 w
  | .fixed 4 w => .subframeFixed4 w
  | .lpc o w => .subframeLpc o w
  | .reserved t w => .subframeReserved t w
  | .badPadding r => .subframeBadPadding r

/-- The residual coding method (R104). -/
def decodeResidualMethod (m : BitVec 2) : Instr :=
  if m.getLsbD 1 then .residualReserved (m.getLsbD 0)
  else if m.getLsbD 0 then .residualRice2
  else .residualRice

/-- The channel-assignment code (R94). -/
def decodeChannelCode (c : BitVec 4) : Instr :=
  if c.getLsbD 3 then
    match c.toNat with
    | 8 => .chLeftSide
    | 9 => .chRightSide
    | 10 => .chMidSide
    | _ => .chReserved c
  else .chIndependent (c.extractLsb' 0 3)

/-- The instruction an encoded word stands for. -/
def decode : CodeWord → Except DecodeReject Instr
  | .command w => .ok (decodeCommand w)
  | .sync w => decodeSync w
  | .subframeByte x => .ok (decodeSubframeByte x).toInstr
  | .residualMethod m => .ok (decodeResidualMethod m)
  | .channelCode c => .ok (decodeChannelCode c)

/-! ## The encoder -/

/-- The command word `{opcode, argument}` (R80). -/
def commandWord (op arg : Byte) : CodeWord := .command (op ++ arg)

/-- The header byte `0 tttttt w` (R100). -/
def subframeWord (t : BitVec 6) (w : Bool) : CodeWord :=
  .subframeByte (0#1 ++ t ++ BitVec.ofBool w)

/-- The word of an instruction, from the tables of R81, R82, R100, R110, R104 and R94. -/
def encode : Instr → CodeWord
  | .nop a => commandWord 0x00 a
  | .softReset a => commandWord 0x01 a
  | .csrRead a => commandWord 0x02 a
  | .csrWrite a => commandWord 0x03 a
  | .bufRead c => commandWord 0x04 c
  | .brReadUint n => commandWord 0x10 n
  | .brReadInt n => commandWord 0x11 n
  | .brReadUnary a => commandWord 0x12 a
  | .brPeekUint n => commandWord 0x13 n
  | .brIsAligned a => commandWord 0x14 a
  | .brAlign a => commandWord 0x15 a
  | .brCrc16Reset a => commandWord 0x16 a
  | .brCrc16Read a => commandWord 0x17 a
  | .brCrc8Reset a => commandWord 0x18 a
  | .brCrc8Read a => commandWord 0x19 a
  | .frFindSync a => commandWord 0x20 a
  | .frDecodeHeader a => commandWord 0x21 a
  | .frDecodeSubframe c => commandWord 0x22 c
  | .frDecorrelate a => commandWord 0x23 a
  | .frCheckFooter a => commandWord 0x24 a
  | .readNextFrame a => commandWord 0x30 a
  | .decode a => commandWord 0x31 a
  | .reservedOpcode op a => commandWord op a
  | .subframeConstant w => subframeWord 0b000000 w
  | .subframeVerbatim w => subframeWord 0b000001 w
  | .subframeFixed0 w => subframeWord 0b001000 w
  | .subframeFixed1 w => subframeWord 0b001001 w
  | .subframeFixed2 w => subframeWord 0b001010 w
  | .subframeFixed3 w => subframeWord 0b001011 w
  | .subframeFixed4 w => subframeWord 0b001100 w
  | .subframeLpc o w => subframeWord (1#1 ++ o) w
  | .subframeReserved t w => subframeWord t w
  | .subframeBadPadding r => .subframeByte (1#1 ++ r)
  | .frameSync r b => .sync (0xFF#8 ++ (0b111110#6 ++ BitVec.ofBool r ++ BitVec.ofBool b))
  | .residualRice => .residualMethod 0b00
  | .residualRice2 => .residualMethod 0b01
  | .residualReserved l => .residualMethod (1#1 ++ BitVec.ofBool l)
  | .chIndependent n => .channelCode (0#1 ++ n)
  | .chLeftSide => .channelCode 8
  | .chRightSide => .channelCode 9
  | .chMidSide => .channelCode 10
  | .chReserved c => .channelCode c

/-! ## The opcode table's numbering -/

/-- The code word that opcode_table.json's row of `nbits` bits with value `w` stands for. The table
names the space of a row by its width: 16 bits a command word or, where the two bytes match the sync
pattern, the sync bytes; 8 bits a subframe header byte; 4 a channel code; 2 a residual method. Widths
above their own are read as the next space's, so a 2- or 4-bit row given as 8 bits reads as a subframe
header byte (log 3). -/
def tableWord (nbits w : Nat) : CodeWord :=
  if nbits ≤ 2 then .residualMethod (BitVec.ofNat 2 w)
  else if nbits ≤ 4 then .channelCode (BitVec.ofNat 4 w)
  else if nbits ≤ 8 then .subframeByte (BitVec.ofNat 8 w)
  else if (w / 4) % 0x4000 = 0x3FFE then .sync (BitVec.ofNat 16 w)
  else .command (BitVec.ofNat 16 w)

/-- The instruction the decoder reads from a row's word, as the opcode table numbers its bits. -/
def decodeTableWord (nbits w : Nat) : Option Instr :=
  match decode (tableWord nbits w) with
  | .ok i => some i
  | .error _ => none

end Sys2Proof
end

