-- ==== Sys2Proof/Machine/State.lean ====
section
/-! DEFINITION. The state of the block: everything `10_state.md` R21 to R46 name, the instance's
parameters (`00_scope.md` R7), the inputs the host drives (R41, R42) and the few fields of the model's own
(`slot`, `host`, `residual`, `freeCount`; INVENTORY.md, State). All of it is plain data. -/

namespace Sys2Proof.Machine

/-! ## Named values -/

/-- `PHASE` (`10_state.md` R25). -/
inductive Phase
  | searching
  | synced
  | headerDone
  | decorrelated
  deriving DecidableEq, Repr

/-- `HDR_ASSIGN` (`10_state.md` R29). -/
inductive Assign
  | independent
  | leftSide
  | rightSide
  | midSide
  deriving DecidableEq, Repr

/-- `SF_INFO[c].KIND` (`10_state.md` R31). -/
inductive SfKind
  | notDecoded
  | constant
  | verbatim
  | fixed
  | lpc
  deriving DecidableEq, Repr

/-- The status codes (`60_exceptions.md` R380). -/
inductive StatusCode
  | ok
  | endOfStream
  | lostSync
  | badHeader
  | badSubframe
  | nonzeroPadding
  | crcMismatch
  | structural
  | illegalCmd
  | stopped
  deriving DecidableEq, Repr

/-- `STATUS_OUT` and `LAST_ERR`: a status code and a sub-cause (`10_state.md` R38, R41). -/
structure Status where
  code : StatusCode
  sub : Byte
  deriving DecidableEq, Repr

/-- OK, sub-cause 0. -/
def Status.okay : Status := { code := .ok, sub := 0 }

/-! ## Storage -/

/-- A byte store: (address, byte) cells. `SRC` lists every byte supplied at its index; an address that
is not listed holds no byte (`20_memory.md` R60; log 18). -/
abbrev Memory := List Host.Cell

/-- One channel of `CHBUF` (`10_state.md` R30): the elements written so far, from index 0 on. Element
`i` beyond them is unspecified: the free value `Config.freeSample gen i` (log 8). -/
structure Channel where
  gen : Nat
  samples : List Sample
  deriving DecidableEq, Repr

/-- The StreamParameters registers (`10_state.md` R39). -/
structure StreamParams where
  minBlock : BitVec 16
  maxBlock : BitVec 16
  minFrame : BitVec 24
  maxFrame : BitVec 24
  sampleRate : BitVec 20
  channels : BitVec 4
  bps : BitVec 6
  totalSamples : BitVec 36
  deriving DecidableEq, Repr

/-- The frame-header registers `HDR_*` (`10_state.md` R29). -/
structure HeaderRegs where
  blockSize : BitVec 16
  sampleRate : BitVec 20
  channels : BitVec 4
  assign : Assign
  bps : BitVec 6
  blocking : Bool
  number : BitVec 36
  startSample : Word64
  crc8 : Byte
  codes : BitVec 15
  deriving DecidableEq, Repr

/-- `SF_INFO[c]` by field (`10_state.md` R31); its 64-bit view is `SfInfo.bits`. -/
structure SfInfo where
  kind : SfKind
  order : BitVec 6
  wasted : BitVec 6
  bpsEff : BitVec 6
  lpcPrec : BitVec 4
  lpcShift : BitVec 4
  rice2 : Bool
  partOrder : BitVec 4
  deriving DecidableEq, Repr

/-- The working registers of the residual decoder inside one subframe (`45_lpc_rice.md` R290): the
order it is called with and what it returns. The model's own; empty outside a subframe (log 17). -/
structure Residual where
  order : BitVec 6
  rice2 : Bool
  partOrder : BitVec 4
  values : List Sample
  deriving DecidableEq, Repr

/-! ## The output queue (`20_memory.md` R67) -/

/-- `Header{bs, rate, C, assign, bps, blocking, number, startSample, crc8, bytePos}`. -/
structure HeaderRecord where
  blockSize : BitVec 16
  sampleRate : BitVec 20
  channels : BitVec 4
  assign : Assign
  bps : BitVec 6
  blocking : Bool
  number : BitVec 36
  startSample : Word64
  crc8 : Byte
  bytePos : Word64
  deriving DecidableEq, Repr

/-- `Frame{startSample, bs, C, assign, bps, crcOk, samples, pcm}`. -/
structure FrameRecord where
  startSample : Word64
  blockSize : BitVec 16
  channels : BitVec 4
  assign : Assign
  bps : BitVec 6
  crcOk : Bool
  samples : List (List Sample)
  pcm : List Byte
  deriving DecidableEq, Repr

/-- `Event{code, sub, bytePos, expected, actual}`. -/
structure EventRecord where
  code : StatusCode
  sub : Byte
  bytePos : Word64
  expected : Word16
  actual : Word16
  deriving DecidableEq, Repr

/-- A record of `OUTQ`. -/
inductive Record
  | header (h : HeaderRecord)
  | frame (f : FrameRecord)
  | event (e : EventRecord)
  deriving DecidableEq, Repr

/-! ## The command interface and the host -/

/-- What the block is doing (`00_scope.md` R13; log 1, log 6). -/
inductive Slot
  /-- No command in progress: `RESULT` and `STATUS_OUT` are valid. -/
  | idle
  /-- A code word is waiting to run, or holds for a byte. -/
  | pending (c : CodeWord)
  /-- Inside `READ_NEXT_FRAME`, between two of its steps (`47_frame.md` R351). -/
  | readingNext
  /-- Inside `DECODE`, which has delivered `frames` frames (`47_frame.md` R361). -/
  | decoding (frames : Nat)
  deriving DecidableEq, Repr

/-- What the host may do between two block steps (`70_reset_and_hazards.md` R448). -/
inductive HostMove
  /-- No move: the block takes its turn. -/
  | yield
  /-- Issue a command with `CMD` and `DATA_IN`. -/
  | issue (cmd : Word16) (dataIn : Word64)
  /-- Append one byte to `SRC`. -/
  | supply (b : Byte)
  /-- Set `SRC_ENDED`. -/
  | endInput
  /-- Take the front record of `OUTQ`. -/
  | drain
  /-- Drive the `STOP` input. -/
  | setStop (level : Bool)
  /-- Power-on reset. -/
  | powerReset
  deriving DecidableEq, Repr

/-- The state of the block. -/
structure State where
  /-- `BUF_DEPTH` and `P_BPS7` (`00_scope.md` R7): fixed per instance. -/
  params : Params
  /-- `SRC` (R21). -/
  src : Memory
  /-- `SRC_ENDED` (R21). -/
  srcEnded : Bool
  /-- `POS`, in bits (R22). -/
  pos : Word64
  /-- `CRC16` (R23). -/
  crc16 : Word16
  /-- `CRC8` (R24). -/
  crc8 : Byte
  /-- `PHASE` (R25). -/
  phase : Phase
  /-- `LOSS_ARMED` (R26). -/
  lossArmed : Bool
  /-- `SYNC_BYTE1` (R27). -/
  syncByte1 : Byte
  /-- `FRAME_START` (R46). -/
  frameStart : Word64
  /-- `SF_DONE` (R28). -/
  sfDone : BitVec 4
  /-- `HDR_*` (R29). -/
  hdr : HeaderRegs
  /-- `CHBUF` (R30). -/
  chbuf : Vector Channel 8
  /-- `SF_INFO` (R31). -/
  sfInfo : Vector SfInfo 8
  /-- `FOOTER`: `[31:16]` computed, `[15:0]` stored (R32). -/
  footer : BitVec 32
  /-- `BUF_VALID` (R33). -/
  bufValid : Bool
  /-- `BAD_FRAMES` (R34). -/
  badFrames : BitVec 32
  /-- `SAMPLES_DECODED` (R35). -/
  samplesDecoded : Word64
  /-- `EOF` (R36). -/
  eof : Bool
  /-- `FATAL` (R37). -/
  fatal : Bool
  /-- `LAST_ERR` (R38). -/
  lastErr : Status
  /-- `SP_*` (R39). -/
  sp : StreamParams
  /-- `SP_VALID` (R39, R40). -/
  spValid : Bool
  /-- The command in progress (R41). -/
  slot : Slot
  /-- `DATA_IN` (R41). -/
  dataIn : Word64
  /-- `RESULT` (R41). -/
  result : Word64
  /-- `STATUS_OUT` (R41). -/
  statusOut : Status
  /-- The `STOP` input (R42). -/
  stop : Bool
  /-- `OUTQ`, oldest record first (R43). -/
  outq : List Record
  /-- The residual decoder's working registers (log 17). -/
  residual : Residual
  /-- The host's moves still to come, next first (log 4). -/
  host : List HostMove
  /-- How many batches of unspecified `CHBUF` contents have been named (log 8). -/
  freeCount : Nat
  deriving DecidableEq, Repr

/-! ## Why a step may stop -/

/-- The machine stops because the host broke its contract. No command of the block raises one; each is
safe: the spec gives the move no effect, so the model stops where the hardware is not specified
(log 13). -/
inductive Fault
  /-- Raised by the host move `issue` while a command is in progress (`70_reset_and_hazards.md` R448,
  "issue a command while one is in progress": assumed never done). Safe. -/
  | commandWhileBusy
  /-- Raised by the host move `supply` after `SRC_ENDED` is set (`10_state.md` R21: set "when no further
  byte will be supplied"). Safe. -/
  | supplyAfterEnd
  /-- Raised by the host move `supply` when `SRC` would reach `2^61` bytes
  (`70_reset_and_hazards.md` R431; `93_implementation_defined.md`: "A model may reject the run"). Safe. -/
  | inputTooLong
  deriving DecidableEq, Repr

/-- A code word has no meaning. -/
inductive Refusal
  /-- Raised by an arm of `exec` for an instruction that has no meaning yet. Safe. -/
  | notModelled (mnemonic : String)
  /-- Raised by `step` when two bytes placed in sync position are no sync pattern
  (`30_encoding.md` R110). The synchronizer never does this: it takes such bytes as lost. Safe. -/
  | notASyncPattern (w : Word16)
  deriving DecidableEq, Repr

/-! ## Reset (`70_reset_and_hazards.md` R420) -/

/-- All `SP_*` registers at 0 (R39). -/
def StreamParams.reset : StreamParams :=
  { minBlock := 0, maxBlock := 0, minFrame := 0, maxFrame := 0, sampleRate := 0, channels := 0,
    bps := 0, totalSamples := 0 }

/-- All `HDR_*` registers at 0 (R29). -/
def HeaderRegs.reset : HeaderRegs :=
  { blockSize := 0, sampleRate := 0, channels := 0, assign := .independent, bps := 0,
    blocking := false, number := 0, startSample := 0, crc8 := 0, codes := 0 }

/-- `SF_INFO[c] = 0` (R31). -/
def SfInfo.zero : SfInfo :=
  { kind := .notDecoded, order := 0, wasted := 0, bpsEff := 0, lpcPrec := 0, lpcShift := 0,
    rice2 := false, partOrder := 0 }

/-- Empty working registers (log 17). -/
def Residual.empty : Residual := { order := 0, rice2 := false, partOrder := 0, values := [] }

/-- `SF_INFO[0..7] = 0`. -/
def sfInfoZero : Vector SfInfo 8 :=
  #v[.zero, .zero, .zero, .zero, .zero, .zero, .zero, .zero]

/-- Eight channels of unspecified contents, batches `g` to `g + 7` (R30; log 8). -/
def chbufUnspecified (g : Nat) : Vector Channel 8 :=
  #v[⟨g, []⟩, ⟨g + 1, []⟩, ⟨g + 2, []⟩, ⟨g + 3, []⟩, ⟨g + 4, []⟩, ⟨g + 5, []⟩, ⟨g + 6, []⟩, ⟨g + 7, []⟩]

/-- The block right after power-on reset, with the recommended parameters and an idle host
(`70_reset_and_hazards.md` R420, R421). -/
def State.reset : State :=
  { params := Params.recommended
    src := []
    srcEnded := false
    pos := 0
    crc16 := 0
    crc8 := 0
    phase := .searching
    lossArmed := true
    syncByte1 := 0
    frameStart := 0
    sfDone := 0
    hdr := HeaderRegs.reset
    chbuf := chbufUnspecified 0
    sfInfo := sfInfoZero
    footer := 0
    bufValid := false
    badFrames := 0
    samplesDecoded := 0
    eof := false
    fatal := false
    lastErr := Status.okay
    sp := StreamParams.reset
    spValid := false
    slot := .idle
    dataIn := 0
    result := 0
    statusOut := Status.okay
    stop := false
    outq := []
    residual := Residual.empty
    host := []
    freeCount := 8 }

end Sys2Proof.Machine
end

