-- ==== Sys2Proof/Machine/Ops.lean ====
section
/-! DEFINITION. The named operations over memory and registers: the input bytes, the channel buffer, the
output queue, the end of a command, the handling of every error (`60_exceptions.md`), and reset. -/

namespace Sys2Proof.Machine

/-- What a meaning answers. -/
abbrev Out := Host.Outcome State Fault Refusal

/-! ## The input bytes (`20_memory.md` R60 to R63) -/

/-- The cells hold the bytes at indexes `a`, `a + 1`, ... in order, each index once. -/
def Memory.wfFrom (a : Nat) : Memory → Bool
  | [] => true
  | (k, _) :: rest => k == a && Memory.wfFrom (a + 1) rest

/-- The canonical form of `SRC`: the cells are the bytes `0` to `len(SRC) - 1`, in order (R60). -/
def Memory.wf (m : Memory) : Bool := Memory.wfFrom 0 m

/-- `MemRead(a, 1)`: the byte at index `a`, when one has been supplied (R60). -/
def Memory.byteAt (m : Memory) (a : Nat) : Option Byte :=
  match m with
  | [] => none
  | (k, b) :: rest => if k = a then some b else Memory.byteAt rest a

/-- `SRC[p div 8][7 - (p mod 8)]`, when available (R62, R63, `40_bitreader.md` R130). -/
def Memory.bitAt (m : Memory) (p : Nat) : Option Bool :=
  match m.byteAt (p / 8) with
  | some b => some (b.getLsbD (7 - p % 8))
  | none => none

/-- The `n` bits from cursor position `p` on, first bit first, when all are available. -/
def Memory.bitsAt (m : Memory) (p : Nat) : Nat → Option (List Bool)
  | 0 => some []
  | n + 1 =>
    match m.bitAt p with
    | none => none
    | some b =>
      match m.bitsAt (p + 1) n with
      | none => none
      | some bs => some (b :: bs)

/-- The number of 0 bits from cursor position `p` up to the first 1 bit, looking at no more than `fuel`
bits; none when a bit is needed that is not available (`40_bitreader.md` R133). -/
def Memory.zerosAt (m : Memory) (p : Nat) : Nat → Option Nat
  | 0 => none
  | fuel + 1 =>
    match m.bitAt p with
    | none => none
    | some true => some 0
    | some false =>
      match m.zerosAt (p + 1) fuel with
      | none => none
      | some z => some (z + 1)

/-- The `k` bytes from index `a` on, as far as supplied. -/
def Memory.bytesAt (m : Memory) (a : Nat) : Nat → List Byte
  | 0 => []
  | k + 1 =>
    match m.byteAt a with
    | none => []
    | some b => b :: m.bytesAt (a + 1) k

/-- The host appends a byte: it stands at index `len(SRC)` (R61). -/
def Memory.append (m : Memory) (b : Byte) : Memory := m ++ [(m.length, b)]

/-- The number a run of bits stands for, most significant bit first (R63). -/
def natOfBits (bits : List Bool) : Nat := bits.foldl (fun v b => 2 * v + b.toNat) 0

/-! ## The channel buffer (`20_memory.md` R66) -/

/-- The unspecified elements `i`, `i + 1`, ... , `n` of them, of batch `g` (log 8). -/
def freeSamples (g i : Nat) : Nat → List Sample
  | 0 => []
  | n + 1 => Config.freeSample g i :: freeSamples g (i + 1) n

/-- Elements `0` to `n - 1` of a channel. -/
def Channel.window (ch : Channel) (n : Nat) : List Sample :=
  ch.samples.take n ++ freeSamples ch.gen ch.samples.length (n - ch.samples.length)

/-- Element `i` of a channel: `CHBUF[c][i]`. -/
def Channel.read (ch : Channel) (i : Nat) : Sample :=
  match ch.samples[i]? with
  | some v => v
  | none => Config.freeSample ch.gen i

/-- Write `CHBUF[c][0..]` with `new`; the elements after it keep what they held (log 11). -/
def Channel.write (ch : Channel) (new : List Sample) : Channel :=
  { ch with samples := new ++ ch.samples.drop new.length }

/-- Channel `c` takes new contents. -/
def State.writeChannel (c : ChannelIx) (new : List Sample) (s : State) : State :=
  { s with chbuf := s.chbuf.set c (s.chbuf[c].write new) }

/-- The contents of channel `c` become unspecified (`43_subframe.md` R240; log 8, log 9). -/
def State.forgetChannel (c : ChannelIx) (s : State) : State :=
  { s with chbuf := s.chbuf.set c ⟨s.freeCount, []⟩, freeCount := s.freeCount + 1 }

/-- The channels of the current frame: `CHBUF[0..C-1][0..bs-1]` (`20_memory.md` R67). -/
def State.frameSamples (s : State) : List (List Sample) :=
  (s.chbuf.toList.take s.hdr.channels.toNat).map fun ch => ch.window s.hdr.blockSize.toNat

/-- Zero `CHBUF[0..C-1][0..bs-1]` (`47_frame.md` R343). -/
def State.zeroFrame (s : State) : State :=
  { s with
    chbuf := Vector.ofFn fun c : ChannelIx =>
      if c.val < s.hdr.channels.toNat
      then s.chbuf[c].write (List.replicate s.hdr.blockSize.toNat 0)
      else s.chbuf[c] }

/-! ## The output queue -/

/-- `Emit(record)` (`20_memory.md` R67). -/
def State.emit (r : Record) (s : State) : State := { s with outq := s.outq ++ [r] }

/-- The byte index of the cursor, `POS div 8`. -/
def State.bytePos (s : State) : Word64 := s.pos >>> 3

/-- The residual decoder's working registers take new contents (log 17). -/
def State.setResidual (r : Residual) (s : State) : State := { s with residual := r }

/-! ## The end of a command -/

/-- A command ends with status `st` and result `res`: `STATUS_OUT` and `RESULT` are written, `LAST_ERR`
too when the status is not OK (`60_exceptions.md` R381, `10_state.md` R38, R41), and the block is idle. -/
def State.endCommand (st : Status) (res : Word64) (s : State) : State :=
  { s with
    slot := .idle
    statusOut := st
    result := res
    lastErr := if st.code = .ok then s.lastErr else st }

/-- An illegal command: no state changes other than `LAST_ERR` (`60_exceptions.md` R388). -/
def illegal (sub : Byte) (s : State) : Out := .next (s.endCommand ⟨.illegalCmd, sub⟩ 0)

/-- STRUCTURAL sub-cause 1: `FATAL <- 1` and nothing else (`60_exceptions.md` R387). -/
def structural (s : State) : Out :=
  .next ({ s with fatal := true }.endCommand ⟨.structural, 1⟩ 0)

/-- One bad frame more (`10_state.md` R34). -/
def State.countBadFrame (s : State) : State := { s with badFrames := s.badFrames + 1 }

/-- The frame in progress is given up: the sequencer searches again. -/
def State.leaveFrame (s : State) : State := { s with phase := .searching, sfDone := 0 }

/-- The writes of `BadFrame(code, sub)` (`60_exceptions.md` R384). -/
def State.badFrame (code : StatusCode) (sub : Byte) (expected actual : Word16) (s : State) : State :=
  (s.emit (.event ⟨code, sub, s.bytePos, expected, actual⟩)).countBadFrame.leaveFrame

/-- The writes of END_OF_STREAM inside a frame (`60_exceptions.md` R386, third case). -/
def State.endOfStreamInFrame (s : State) : State :=
  { s with eof := true, phase := .searching, sfDone := 0 }

/-! ## Reading the input: what a primitive can raise -/

/-- Why a decode step ends before its last line. -/
inductive Raise
  /-- A bit is needed that is not supplied, and the source has not ended (`20_memory.md` R62). -/
  | hold
  /-- A bit is needed past the end of the source (`60_exceptions.md` R386). -/
  | endOfStream
  /-- `BadFrame(code, sub)` with the two CRC values of its event (`60_exceptions.md` R384). -/
  | badFrame (code : StatusCode) (sub : Byte) (expected actual : Word16)
  deriving DecidableEq, Repr

/-- A decode step: it reads and writes the state, and ends with a value or with what it raised and the
state it had reached. -/
abbrev Rd (α : Type) := EStateM Raise State α

/-- A needed bit is not there: END_OF_STREAM when the source has ended, else hold
(`20_memory.md` R62). -/
def unavailable {α : Type} : Rd α := do
  let s ← get
  if s.srcEnded then throw .endOfStream else throw .hold

/-- Raise `r` if the check fails, that is, if `bad` (`60_exceptions.md` R393). -/
def reject (bad : Bool) (r : Raise) : Rd Unit := if bad then throw r else pure ()

/-! ## How a step ends (`00_scope.md` R13) -/

/-- How a primitive step of a frame command ends: with a status, a result and a state, or it holds. -/
inductive Ended
  | done (st : Status) (res : Word64) (t : State)
  | hold

/-- A primitive command ends as its step does; a command that holds changes no state
(`20_memory.md` R62; log 5). -/
def Ended.finish (e : Ended) (s : State) : Out :=
  match e with
  | .done st res t => .next (t.endCommand st res)
  | .hold => .next s

/-- Run a step of the frame decoder: a BadFrame and an END_OF_STREAM are handled as
`60_exceptions.md` R384 and R386 (third case) say. -/
def runFrameStep (act : Rd (Status × Word64)) (s : State) : Ended :=
  match act s with
  | .ok (st, res) t => .done st res t
  | .error .hold _ => .hold
  | .error .endOfStream t => .done ⟨.endOfStream, 0⟩ 0 t.endOfStreamInFrame
  | .error (.badFrame code sub e a) t => .done ⟨code, sub⟩ 0 (t.badFrame code sub e a)

/-! ## Reset (`70_reset_and_hazards.md` R420, R421) -/

/-- Reset from any state. The instance's parameters stay (R421), and so do the inputs of the host that
are no state of the block: the `STOP` level and the moves still to come (log 23). The channel buffer holds
new unspecified contents (log 8). -/
def State.toReset (s : State) : State :=
  { State.reset with
    params := s.params
    chbuf := chbufUnspecified s.freeCount
    freeCount := s.freeCount + 8
    stop := s.stop
    host := s.host }

end Sys2Proof.Machine
end

