-- ==== Sys2Proof/Machine/Flags.lean ====
section
/-! DEFINITION. The computed flags and checks: the CRC accumulators (`40_bitreader.md` R140, R141), the
packed views of `STATUS`, `SF_INFO`, `LAST_ERR` and the named codes (`10_state.md`), the validation of the
StreamParameters (R40) and the admission of a command (`60_exceptions.md` R392). -/

namespace Sys2Proof.Machine

/-! ## CRC accumulators -/

/-- One step of CRC-8, polynomial `0x07` (R140). -/
def crc8Shift (c : Byte) : Byte := if c.getLsbD 7 then (c <<< 1) ^^^ 0x07#8 else c <<< 1

/-- `n` steps of CRC-8. -/
def crc8Shifts (c : Byte) : Nat → Byte
  | 0 => c
  | n + 1 => crc8Shifts (crc8Shift c) n

/-- `crc8_update(c, b)` (R140). -/
def crc8Update (c b : Byte) : Byte := crc8Shifts (c ^^^ b) 8

/-- One step of CRC-16, polynomial `0x8005` (R141). -/
def crc16Shift (c : Word16) : Word16 :=
  if c.getLsbD 15 then (c <<< 1) ^^^ 0x8005#16 else c <<< 1

/-- `n` steps of CRC-16. -/
def crc16Shifts (c : Word16) : Nat → Word16
  | 0 => c
  | n + 1 => crc16Shifts (crc16Shift c) n

/-- `crc16_update(c, b)`: the byte enters at the top, `c XOR (b * 2^8)` (R141). -/
def crc16Update (c : Word16) (b : Byte) : Word16 := crc16Shifts (c ^^^ (b ++ 0#8)) 8

/-- CRC-8 over bytes in order. -/
def crc8Over (c : Byte) (bytes : List Byte) : Byte := bytes.foldl crc8Update c

/-- CRC-16 over bytes in order. -/
def crc16Over (c : Word16) (bytes : List Byte) : Word16 := bytes.foldl crc16Update c

/-! ## Packed views -/

/-- `PHASE` as 2 bits (`10_state.md` R25). -/
def Phase.bits : Phase → BitVec 2
  | .searching => 0
  | .synced => 1
  | .headerDone => 2
  | .decorrelated => 3

/-- `HDR_ASSIGN` as 2 bits (`10_state.md` R29). -/
def Assign.bits : Assign → BitVec 2
  | .independent => 0
  | .leftSide => 1
  | .rightSide => 2
  | .midSide => 3

/-- `KIND` as 3 bits (`10_state.md` R31). -/
def SfKind.bits : SfKind → BitVec 3
  | .notDecoded => 0
  | .constant => 1
  | .verbatim => 2
  | .fixed => 3
  | .lpc => 4

/-- A status code as 8 bits (`60_exceptions.md` R380). -/
def StatusCode.bits : StatusCode → Byte
  | .ok => 0
  | .endOfStream => 1
  | .lostSync => 2
  | .badHeader => 3
  | .badSubframe => 4
  | .nonzeroPadding => 5
  | .crcMismatch => 6
  | .structural => 7
  | .illegalCmd => 8
  | .stopped => 9

/-- `{sub, code}`: `[15:8]` the sub-cause, `[7:0]` the code (`10_state.md` R38, R41). -/
def Status.bits (s : Status) : Word16 := s.sub ++ s.code.bits

/-- `SF_INFO[c]` (`10_state.md` R31): `[33:30]` PART_ORDER, `[29]` RICE2, `[28:25]` LPC_SHIFT,
`[24:21]` LPC_PREC, `[20:15]` BPS_EFF, `[14:9]` WASTED, `[8:3]` ORDER, `[2:0]` KIND. -/
def SfInfo.bits (i : SfInfo) : Word64 :=
  0#30 ++ i.partOrder ++ BitVec.ofBool i.rice2 ++ i.lpcShift ++ i.lpcPrec ++ i.bpsEff ++ i.wasted ++
    i.order ++ i.kind.bits

/-- `STATUS` (`10_state.md` R45): `[11:8]` SF_DONE, then `SRC_ENDED`, `BUF_VALID`, `SP_VALID`, `FATAL`,
`LOSS_ARMED`, `EOF` and `[1:0]` PHASE. -/
def State.statusBits (s : State) : Word64 :=
  0#52 ++ s.sfDone ++ BitVec.ofBool s.srcEnded ++ BitVec.ofBool s.bufValid ++ BitVec.ofBool s.spValid ++
    BitVec.ofBool s.fatal ++ BitVec.ofBool s.lossArmed ++ BitVec.ofBool s.eof ++ s.phase.bits

/-! ## Validation (`10_state.md` R40) -/

/-- `1 <= SP_CHANNELS <= 8`, `4 <= SP_BPS <= 32`, `1 <= SP_MAX_BLOCK <= BUF_DEPTH` and
`SP_MIN_BLOCK <= SP_MAX_BLOCK`. -/
def StreamParams.acceptable (bufDepth : Nat) (sp : StreamParams) : Bool :=
  decide (1 ≤ sp.channels.toNat) && decide (sp.channels.toNat ≤ 8) &&
  decide (4 ≤ sp.bps.toNat) && decide (sp.bps.toNat ≤ 32) &&
  decide (1 ≤ sp.maxBlock.toNat) && decide (sp.maxBlock.toNat ≤ bufDepth) &&
  decide (sp.minBlock.toNat ≤ sp.maxBlock.toNat)

/-! ## Admission (`60_exceptions.md` R392) -/

/-- Check (3): a frame command needs `SP_VALID = 1` and `FATAL = 0` (R387). -/
def State.framesEnabled (s : State) : Bool := s.spValid && !s.fatal

/-- Admission of a frame command, in the order of R392: the argument (2), the structural check (3), the
sequence check (4). -/
def admitFrame (argLegal inSequence : Bool) (s : State) (run : Out) : Out :=
  if !argLegal then illegal 2 s
  else if !s.framesEnabled then structural s
  else if !inSequence then illegal 3 s
  else run

/-- Admission of any other command: the argument (2). -/
def admitPlain (argLegal : Bool) (s : State) (run : Out) : Out :=
  if !argLegal then illegal 2 s else run

end Sys2Proof.Machine
end

