-- ==== Sys2Proof/Machine/Operands.lean ====
section
/-! DEFINITION. The operand forms: the argument formats of a command word (`30_encoding.md` R80), the CSR
operands (`10_state.md` R44), and the bitstream operands read through the cursor (`40_bitreader.md` R130
to R142). -/

namespace Sys2Proof.Machine

/-! ## Command arguments (`30_encoding.md` R80) -/

/-- Format N: the argument must be 0. -/
def legalN (arg : Byte) : Bool := decide (arg = 0)

/-- Format W: a bit count, 0 to 64. -/
def legalW (n : Byte) : Bool := decide (n.toNat ≤ 64)

/-- Format C: a channel index, 0 to 7. -/
def legalC (c : Byte) : Bool := decide (c.toNat ≤ 7)

/-- The channel a legal format-C argument names: its low three bits. -/
def channelOf (c : Byte) : ChannelIx := ⟨c.toNat % 8, Nat.mod_lt _ (by decide)⟩

/-! ## CSR operands (`10_state.md` R44) -/

/-- `CSR[a]` zero-extended to 64 bits; none at a reserved address. -/
def readCsr (s : State) (a : Byte) : Option Word64 :=
  match a.toNat with
  | 0x00 => some s.statusBits
  | 0x01 => some (s.lastErr.bits.setWidth 64)
  | 0x02 => some (s.badFrames.setWidth 64)
  | 0x03 => some s.samplesDecoded
  | 0x04 => some s.pos
  | 0x05 => some (s.crc16.setWidth 64)
  | 0x06 => some (s.crc8.setWidth 64)
  | 0x07 => some (s.syncByte1.setWidth 64)
  | 0x08 => some (s.footer.setWidth 64)
  | 0x09 => some s.frameStart
  | 0x10 => some (s.sp.minBlock.setWidth 64)
  | 0x11 => some (s.sp.maxBlock.setWidth 64)
  | 0x12 => some (s.sp.minFrame.setWidth 64)
  | 0x13 => some (s.sp.maxFrame.setWidth 64)
  | 0x14 => some (s.sp.sampleRate.setWidth 64)
  | 0x15 => some (s.sp.channels.setWidth 64)
  | 0x16 => some (s.sp.bps.setWidth 64)
  | 0x17 => some (s.sp.totalSamples.setWidth 64)
  | 0x18 => some ((BitVec.ofBool s.spValid).setWidth 64)
  | 0x20 => some (s.hdr.blockSize.setWidth 64)
  | 0x21 => some (s.hdr.sampleRate.setWidth 64)
  | 0x22 => some (s.hdr.channels.setWidth 64)
  | 0x23 => some (s.hdr.assign.bits.setWidth 64)
  | 0x24 => some (s.hdr.bps.setWidth 64)
  | 0x25 => some ((BitVec.ofBool s.hdr.blocking).setWidth 64)
  | 0x26 => some (s.hdr.number.setWidth 64)
  | 0x27 => some s.hdr.startSample
  | 0x28 => some (s.hdr.crc8.setWidth 64)
  | 0x29 => some (s.hdr.codes.setWidth 64)
  | 0x30 => some s.sfInfo[0].bits
  | 0x31 => some s.sfInfo[1].bits
  | 0x32 => some s.sfInfo[2].bits
  | 0x33 => some s.sfInfo[3].bits
  | 0x34 => some s.sfInfo[4].bits
  | 0x35 => some s.sfInfo[5].bits
  | 0x36 => some s.sfInfo[6].bits
  | 0x37 => some s.sfInfo[7].bits
  | _ => none

/-- The write of an SP register, addresses `0x10` to `0x17`: the value modulo the register's width
(`10_state.md` R39); none at any other address. -/
def writeSp (sp : StreamParams) (a : Byte) (v : Word64) : Option StreamParams :=
  match a.toNat with
  | 0x10 => some { sp with minBlock := v.setWidth 16 }
  | 0x11 => some { sp with maxBlock := v.setWidth 16 }
  | 0x12 => some { sp with minFrame := v.setWidth 24 }
  | 0x13 => some { sp with maxFrame := v.setWidth 24 }
  | 0x14 => some { sp with sampleRate := v.setWidth 20 }
  | 0x15 => some { sp with channels := v.setWidth 4 }
  | 0x16 => some { sp with bps := v.setWidth 6 }
  | 0x17 => some { sp with totalSamples := v.setWidth 36 }
  | _ => none

/-- The address of `SP_VALID`. -/
def addrSpValid : Byte := 0x18

/-! ## Bitstream operands -/

/-- `Consume(n)` (R142): the cursor moves on, and every byte whose last bit is consumed enters both
accumulators, in byte order. -/
def State.consume (n : Nat) (s : State) : State :=
  let old := s.pos.toNat
  let done := s.src.bytesAt (old / 8) ((old + n) / 8 - old / 8)
  { s with
    pos := s.pos + BitVec.ofNat 64 n
    crc16 := crc16Over s.crc16 done
    crc8 := crc8Over s.crc8 done }

/-- `Consume(n)` as a step. -/
def consume (n : Nat) : Rd Unit := modify (State.consume n)

/-- `PeekBits(n)` (R135): the next `n` bits, first bit most significant, without consuming them. -/
def peekBits (n : Nat) : Rd (BitVec n) := do
  let s ← get
  match s.src.bitsAt s.pos.toNat n with
  | some bits => pure (BitVec.ofNat n (natOfBits bits))
  | none => unavailable

/-- `ReadBits(n)` (R131). -/
def readBits (n : Nat) : Rd (BitVec n) := do
  let v ← peekBits n
  consume n
  pure v

/-- `ReadSigned(n)` (R132), sign-extended to 64 bits; 0 for `n = 0`. -/
def readSigned (n : Nat) : Rd Sample := do
  let v ← readBits n
  pure (v.signExtend 64)

/-- `ReadUnary()` (R133): the count of 0 bits before the next 1 bit; the 1 is consumed too. -/
def readUnary : Rd Nat := do
  let s ← get
  match s.src.zerosAt s.pos.toNat (8 * s.src.length - s.pos.toNat) with
  | some z => do
    consume (z + 1)
    pure z
  | none => unavailable

/-- The number of bits from cursor position `p` to the next byte boundary (R134). -/
def bitsToBoundary (p : Nat) : Nat := (8 - p % 8) % 8

/-- `Align()` (R134): the skipped bits as a number, and how many they are. -/
def align : Rd (Nat × Nat) := do
  let s ← get
  let n := bitsToBoundary s.pos.toNat
  let v ← readBits n
  pure (v.toNat, n)

/-- `n` operands read one after the other. -/
def readMany {α : Type} (act : Rd α) : Nat → Rd (List α)
  | 0 => pure []
  | n + 1 => do
    let x ← act
    let xs ← readMany act n
    pure (x :: xs)

end Sys2Proof.Machine
end

