-- ==== Sys2Proof/Machine/BitReader.lean ====
section
/-! DEFINITION. The bit-reader commands `BR_*` (`40_bitreader.md` R143 to R153). -/

namespace Sys2Proof.Machine

/-- Run the read of a `BR_*` command. END_OF_STREAM ends it with `EOF <- 1` and nothing else changed, and
no event (R153); a hold changes nothing (`20_memory.md` R62). A bit-reader command raises no BadFrame. -/
def runReader (act : Rd Word64) (s : State) : Out :=
  match act s with
  | .ok v t => .next (t.endCommand .okay v)
  | .error .hold _ => .next s
  | .error .endOfStream _ => .next ({ s with eof := true }.endCommand ⟨.endOfStream, 0⟩ 0)
  | .error (.badFrame code sub _ _) _ => .next (s.endCommand ⟨code, sub⟩ 0)

/-- The read of `BR_READ_UINT n`: `zext_64(ReadBits(n))`. -/
def readUint (n : Nat) : Rd Word64 := do
  let v ← readBits n
  pure (v.setWidth 64)

/-- The read of `BR_PEEK_UINT n`: `zext_64(PeekBits(n))`. -/
def peekUint (n : Nat) : Rd Word64 := do
  let v ← peekBits n
  pure (v.setWidth 64)

/-- The read of `BR_READ_UNARY`. -/
def readUnaryWord : Rd Word64 := do
  let z ← readUnary
  pure (BitVec.ofNat 64 z)

/-- The read of `BR_ALIGN`: the number of bits skipped; their value is discarded. -/
def alignWord : Rd Word64 := do
  let (_, n) ← align
  pure (BitVec.ofNat 64 n)

/-- `BR_READ_UINT n` (R143). -/
def execBrReadUint (n : Byte) (s : State) : Out :=
  admitPlain (legalW n) s (runReader (readUint n.toNat) s)

/-- `BR_READ_INT n` (R144): the 64-bit pattern of `ReadSigned(n)`. -/
def execBrReadInt (n : Byte) (s : State) : Out :=
  admitPlain (legalW n) s (runReader (readSigned n.toNat) s)

/-- `BR_READ_UNARY` (R145). -/
def execBrReadUnary (arg : Byte) (s : State) : Out :=
  admitPlain (legalN arg) s (runReader readUnaryWord s)

/-- `BR_PEEK_UINT n` (R146). -/
def execBrPeekUint (n : Byte) (s : State) : Out :=
  admitPlain (legalW n) s (runReader (peekUint n.toNat) s)

/-- `BR_IS_ALIGNED` (R147). -/
def execBrIsAligned (arg : Byte) (s : State) : Out :=
  admitPlain (legalN arg) s
    (.next (s.endCommand .okay (if s.pos.toNat % 8 = 0 then 1 else 0)))

/-- `BR_ALIGN` (R148). -/
def execBrAlign (arg : Byte) (s : State) : Out :=
  admitPlain (legalN arg) s (runReader alignWord s)

/-- `BR_CRC16_RESET` (R149). -/
def execBrCrc16Reset (arg : Byte) (s : State) : Out :=
  admitPlain (legalN arg) s (.next ({ s with crc16 := 0 }.endCommand .okay 0))

/-- `BR_CRC16_READ` (R150). -/
def execBrCrc16Read (arg : Byte) (s : State) : Out :=
  admitPlain (legalN arg) s (.next (s.endCommand .okay (s.crc16.setWidth 64)))

/-- `BR_CRC8_RESET` (R151). -/
def execBrCrc8Reset (arg : Byte) (s : State) : Out :=
  admitPlain (legalN arg) s (.next ({ s with crc8 := 0 }.endCommand .okay 0))

/-- `BR_CRC8_READ` (R152). -/
def execBrCrc8Read (arg : Byte) (s : State) : Out :=
  admitPlain (legalN arg) s (.next (s.endCommand .okay (s.crc8.setWidth 64)))

end Sys2Proof.Machine
end

