-- ==== Sys2Proof/Machine/Control.lean ====
section
/-! DEFINITION. The control commands `NOP`, `SOFT_RESET`, `CSR_READ`, `CSR_WRITE`, `BUF_READ`
(`47_frame.md` R370 to R374) and the reserved opcodes (`30_encoding.md` R82). -/

namespace Sys2Proof.Machine

/-- `NOP` (R374). -/
def execNop (arg : Byte) (s : State) : Out :=
  admitPlain (legalN arg) s (.next (s.endCommand .okay 0))

/-- `SOFT_RESET` (R372): every state element takes its reset value, `RESULT` and `STATUS_OUT` among
them, and the block is idle. -/
def execSoftReset (arg : Byte) (s : State) : Out :=
  admitPlain (legalN arg) s (.next s.toReset)

/-- `CSR_READ a` (R370). -/
def execCsrRead (a : Byte) (s : State) : Out :=
  match readCsr s a with
  | some v => .next (s.endCommand .okay v)
  | none => illegal 4 s

/-- The write of `SP_VALID` (R371; `10_state.md` R40). -/
def writeSpValid (s : State) : Out :=
  if s.spValid then illegal 5 s
  else if s.dataIn ≠ 1 then illegal 2 s
  else if s.sp.acceptable s.params.bufDepth
  then .next ({ s with spValid := true }.endCommand .okay 0)
  else .next (s.endCommand ⟨.structural, 2⟩ 0)

/-- `CSR_WRITE a, v` with `v` in `DATA_IN` (R371). -/
def execCsrWrite (a : Byte) (s : State) : Out :=
  match writeSp s.sp a s.dataIn with
  | some sp =>
    if s.spValid then illegal 5 s
    else .next ({ s with sp := sp }.endCommand .okay 0)
  | none => if a = addrSpValid then writeSpValid s else illegal 4 s

/-- `BUF_READ c, i` with `i` in `DATA_IN` (R373). -/
def execBufRead (c : Byte) (s : State) : Out :=
  admitPlain (legalC c) s
    (if !s.bufValid then illegal 3 s
     else if s.hdr.channels.toNat ≤ c.toNat ∨ s.hdr.blockSize.toNat ≤ s.dataIn.toNat then illegal 6 s
     else .next (s.endCommand .okay (s.chbuf[channelOf c].read s.dataIn.toNat)))

/-- A reserved opcode: an illegal command with sub-cause 1 (`30_encoding.md` R82,
`60_exceptions.md` R388). -/
def execReservedOpcode (_op _arg : Byte) (s : State) : Out := illegal 1 s

end Sys2Proof.Machine
end

