-- ==== Sys2Proof/Machine/Header.lean ====
section
/-! DEFINITION. The frame header decoder: `FR_DECODE_HEADER` (`42_header.md` R180 to R195) over the code
tables of `30_encoding.md` R91 to R97. -/

namespace Sys2Proof.Machine

/-- `BadFrame(BAD_HEADER, sub)` with no CRC values (R181; `60_exceptions.md` R382). -/
def badHeader (sub : Byte) : Raise := .badFrame .badHeader sub 0 0

/-! ## The code tables -/

/-- Block-size codes that need no extra bits (R189, `30_encoding.md` R92): 1 gives 192, 2 to 5
`576 * 2^(code-2)`, 8 to 15 `256 * 2^(code-8)`. -/
def plainBlockSize (bsc : BitVec 4) : Nat :=
  if bsc = 1 then 192
  else if bsc.toNat ≤ 5 then 576 * 2 ^ (bsc.toNat - 2)
  else 256 * 2 ^ (bsc.toNat - 8)

/-- `BlockSize(bsc)` (R189): codes 6 and 7 read the size minus 1 in 8 or 16 bits. -/
def blockSize (bsc : BitVec 4) : Rd Nat :=
  if bsc = 6 then do
    let x ← readBits 8
    pure (x.toNat + 1)
  else if bsc = 7 then do
    let x ← readBits 16
    pure (x.toNat + 1)
  else pure (plainBlockSize bsc)

/-- Sample-rate codes that need no extra bits (R188, `30_encoding.md` R93); code 0 gives
`SP_SAMPLE_RATE`. -/
def plainSampleRate (spRate : Nat) (src : BitVec 4) : Nat :=
  match src.toNat with
  | 1 => 88200
  | 2 => 176400
  | 3 => 192000
  | 4 => 8000
  | 5 => 16000
  | 6 => 22050
  | 7 => 24000
  | 8 => 32000
  | 9 => 44100
  | 10 => 48000
  | 11 => 96000
  | _ => spRate

/-- `SampleRate(src)` (R188): codes 12, 13 and 14 read 8 bits of kHz, 16 bits of Hz, 16 bits of tens of
Hz. -/
def sampleRate (src : BitVec 4) : Rd Nat :=
  if src = 12 then do
    let x ← readBits 8
    pure (x.toNat * 1000)
  else if src = 13 then do
    let x ← readBits 16
    pure x.toNat
  else if src = 14 then do
    let x ← readBits 16
    pure (x.toNat * 10)
  else do
    let s ← get
    pure (plainSampleRate s.sp.sampleRate.toNat src)

/-- `Channels(chc)` for a code that is not reserved (R185, `30_encoding.md` R94): the channel count and
the assignment. -/
def channelsOf (chc : BitVec 4) : Nat × Assign :=
  if chc = 8 then (2, .leftSide)
  else if chc = 9 then (2, .rightSide)
  else if chc = 10 then (2, .midSide)
  else (chc.toNat + 1, .independent)

/-- A sample-size code that is rejected: 3, and 7 when `P_BPS7 = reserved` (R181, `30_encoding.md`
R95). -/
def sampleSizeReserved (p : Params) (ssc : BitVec 3) : Bool :=
  ssc == 3 || (ssc == 7 && p.bps7 == .reserved)

/-- `SampleSize(ssc)` for a code that is not rejected (R186, `30_encoding.md` R95); code 0 gives
`SP_BPS`. -/
def sampleSize (spBps : BitVec 6) (ssc : BitVec 3) : BitVec 6 :=
  match ssc.toNat with
  | 1 => 8
  | 2 => 12
  | 4 => 16
  | 5 => 20
  | 6 => 24
  | 7 => 32
  | _ => spBps

/-! ## The coded number (R187, `30_encoding.md` R96) -/

/-- The first byte of a coded number: the count of continuation bytes and the value bits it carries;
none when it is invalid. -/
def leadByte (blocking : Bool) (b : Byte) : Option (Nat × Nat) :=
  if b.extractLsb' 7 1 = 0b0#1 then some (0, (b.extractLsb' 0 7).toNat)
  else if b.extractLsb' 5 3 = 0b110#3 then some (1, (b.extractLsb' 0 5).toNat)
  else if b.extractLsb' 4 4 = 0b1110#4 then some (2, (b.extractLsb' 0 4).toNat)
  else if b.extractLsb' 3 5 = 0b11110#5 then some (3, (b.extractLsb' 0 3).toNat)
  else if b.extractLsb' 2 6 = 0b111110#6 then some (4, (b.extractLsb' 0 2).toNat)
  else if b.extractLsb' 1 7 = 0b1111110#7 then some (5, (b.extractLsb' 0 1).toNat)
  else if b = 0xFE#8 ∧ blocking = true then some (6, 0)
  else none

/-- The `m` continuation bytes, each `10xxxxxx`, onto the value `v`. -/
def continuation : Nat → Nat → Rd Nat
  | 0, v => pure v
  | m + 1, v => do
    let c ← readBits 8
    reject (c.extractLsb' 6 2 != 0b10#2) (badHeader 7)
    continuation m (v * 64 + (c.extractLsb' 0 6).toNat)

/-- `CodedNumber(blocking)`. -/
def codedNumber (blocking : Bool) : Rd Nat := do
  let b ← readBits 8
  match leadByte blocking b with
  | some (m, v) => continuation m v
  | none => throw (badHeader 7)

/-! ## The header -/

/-- `StartSample(blocking, number, bs)` (R194). -/
def startSample (sp : StreamParams) (blocking : Bool) (number bs : Nat) : Nat :=
  if blocking then number
  else if sp.minBlock = sp.maxBlock then number * sp.minBlock.toNat
  else number * bs

/-- The record of a header (`20_memory.md` R67). -/
def headerRecord (h : HeaderRegs) (bytePos : Word64) : HeaderRecord :=
  { blockSize := h.blockSize, sampleRate := h.sampleRate, channels := h.channels, assign := h.assign,
    bps := h.bps, blocking := h.blocking, number := h.number, startSample := h.startSample,
    crc8 := h.crc8, bytePos := bytePos }

/-- The registers a header that passed its checks writes (R195). -/
def State.writeHeader (h : HeaderRegs) (s : State) : State :=
  { s with
    hdr := h
    sfInfo := sfInfoZero
    sfDone := 0
    bufValid := false
    phase := .headerDone }

/-- The writes of `Commit` (R195). -/
def State.commitHeader (h : HeaderRegs) (s : State) : State :=
  (s.writeHeader h).emit (.header (headerRecord h s.frameStart))

/-- The header decode (R181), up to the commit: the registers it will write. -/
def readHeader : Rd HeaderRegs := do
  let s ← get
  let blocking := s.syncByte1.getLsbD 0
  reject (s.syncByte1.getLsbD 1) (badHeader 2)
  let b2 ← readBits 8
  let bsc := b2.extractLsb' 4 4
  let src := b2.extractLsb' 0 4
  reject (bsc == 0) (badHeader 3)
  reject (src == 15) (badHeader 4)
  let b3 ← readBits 8
  let chc := b3.extractLsb' 4 4
  let ssc := b3.extractLsb' 1 3
  reject (channelCodeReserved chc) (badHeader 5)
  reject (sampleSizeReserved s.params ssc) (badHeader 6)
  reject (b3.getLsbD 0) (badHeader 2)
  let number ← codedNumber blocking
  let bs ← blockSize bsc
  let rate ← sampleRate src
  let t ← get
  let expected := t.crc8
  let actual ← readBits 8
  reject (expected != actual)
    (.badFrame .badHeader 1 (expected.setWidth 16) (actual.setWidth 16))
  reject (decide (s.sp.maxBlock.toNat < bs)) (badHeader 8)
  pure
    { blockSize := BitVec.ofNat 16 bs
      sampleRate := BitVec.ofNat 20 rate
      channels := BitVec.ofNat 4 (channelsOf chc).1
      assign := (channelsOf chc).2
      bps := sampleSize s.sp.bps ssc
      blocking := blocking
      number := BitVec.ofNat 36 number
      startSample := BitVec.ofNat 64 (startSample s.sp blocking number bs)
      crc8 := actual
      codes := ssc ++ chc ++ src ++ bsc }

/-- The header decode (R181): a header that passes every check is committed, and the result is its block
size. -/
def decodeHeader : Rd (Status × Word64) := do
  let h ← readHeader
  modify (State.commitHeader h)
  pure (.okay, h.blockSize.setWidth 64)

/-- The step of `FR_DECODE_HEADER`. -/
def headerStep (s : State) : Ended := runFrameStep decodeHeader s

/-- `FR_DECODE_HEADER` (R180). -/
def execFrDecodeHeader (arg : Byte) (s : State) : Out :=
  admitFrame (legalN arg) (s.phase == .synced) s ((headerStep s).finish s)

end Sys2Proof.Machine
end

