-- ==== Sys2Proof/Machine/Decorrelate.lean ====
section
/-! DEFINITION. The channel decorrelator: `FR_DECORRELATE` and the channel codes (`46_decorrelate.md` R320
to R324). -/

namespace Sys2Proof.Machine

/-! ## The pair transforms, on one sample position -/

/-- `right = left - side` (R322). -/
def rightOfLeftSide (left side : Sample) : Sample := left - side

/-- `left = right + side` (R323). -/
def leftOfRightSide (side right : Sample) : Sample := right + side

/-- `m = (mid << 1) | (side & 1)` (R324). -/
def midDoubled (mid side : Sample) : Sample := (mid <<< 1) ||| (side &&& 1)

/-- `left = (m + side) >> 1` (R324). -/
def leftOfMidSide (mid side : Sample) : Sample := (midDoubled mid side + side).sshiftRight 1

/-- `right = (m - side) >> 1` (R324). -/
def rightOfMidSide (mid side : Sample) : Sample := (midDoubled mid side - side).sshiftRight 1

/-! ## The transform of a frame -/

/-- Undo the coding trick of an assignment on samples `0` to `bs - 1` of channels 0 and 1 (R320). -/
def State.decorrelate (a : Assign) (s : State) : State :=
  let ch0 := s.chbuf[0].window s.hdr.blockSize.toNat
  let ch1 := s.chbuf[1].window s.hdr.blockSize.toNat
  match a with
  | .independent => s
  | .leftSide => s.writeChannel 1 (List.zipWith rightOfLeftSide ch0 ch1)
  | .rightSide => s.writeChannel 0 (List.zipWith leftOfRightSide ch0 ch1)
  | .midSide =>
    (s.writeChannel 0 (List.zipWith leftOfMidSide ch0 ch1)).writeChannel 1
      (List.zipWith rightOfMidSide ch0 ch1)

/-- The sequencer waits for the footer check. -/
def State.awaitFooter (s : State) : State := { s with phase := .decorrelated }

/-- The writes of `FR_DECORRELATE` (R320). -/
def State.decorrelated (s : State) : State := (s.decorrelate s.hdr.assign).awaitFooter

/-- The step of `FR_DECORRELATE`: it reads no input bit and raises nothing. -/
def decorrelateStep (s : State) : Ended := .done .okay 0 s.decorrelated

/-- `FR_DECORRELATE` (R320). -/
def execFrDecorrelate (arg : Byte) (s : State) : Out :=
  admitFrame (legalN arg) (s.phase == .headerDone && s.sfDone == s.hdr.channels) s
    ((decorrelateStep s).finish s)

/-! ## The channel codes as instructions: the transform each code selects, on the frame in the channel
buffer (log 2) -/

/-- Channel codes 0 to 7: no operation (R321). -/
def execChIndependent (_channelsMinus1 : BitVec 3) (s : State) : Out :=
  .next ((s.decorrelate .independent).endCommand .okay 0)

/-- Channel code 8 (R322). -/
def execChLeftSide (s : State) : Out := .next ((s.decorrelate .leftSide).endCommand .okay 0)

/-- Channel code 9 (R323). -/
def execChRightSide (s : State) : Out := .next ((s.decorrelate .rightSide).endCommand .okay 0)

/-- Channel code 10 (R324). -/
def execChMidSide (s : State) : Out := .next ((s.decorrelate .midSide).endCommand .okay 0)

/-- Channel codes 11 to 15: BAD_HEADER sub-cause 5 (`30_encoding.md` R94, `42_header.md` R184). -/
def execChReserved (_code : BitVec 4) (s : State) : Out :=
  (runFrameStep (throw (badHeader 5)) s).finish s

end Sys2Proof.Machine
end

