-- ==== Sys2Proof/Machine/Residual.lean ====
section
/-! DEFINITION. The partitioned Rice residual decoder (`45_lpc_rice.md` R290 to R299) and its coding
methods (`30_encoding.md` R104). The order it is called with and what it returns stand in the working
registers `residual` (log 17). The method codes as instructions stand in Machine/Subframe, beside the
subframe they are part of. -/

namespace Sys2Proof.Machine

/-- `BadFrame(BAD_SUBFRAME, sub)` (`60_exceptions.md` R383). -/
def badSubframe (sub : Byte) : Raise := .badFrame .badSubframe sub 0 0

/-- The sign fold (R295): `(u >> 1) XOR -(u AND 1)`. -/
def unfold64 (u : Word64) : Sample := (u >>> 1) ^^^ (-(u &&& 1))

/-- `RiceDecode(r)` (R295). The quotient is not bounded; `u` wraps modulo `2^64`. -/
def riceDecode (r : Nat) : Rd Sample := do
  let q ← readUnary
  let lo ← readBits r
  pure (unfold64 (BitVec.ofNat 64 (q * 2 ^ r + lo.toNat)))

/-- One partition of `n` residuals (R294, R296): the escape value of the parameter selects raw values of
a 5-bit width. -/
def partition (pbits esc n : Nat) : Rd (List Sample) := do
  let r ← readBits pbits
  if r.toNat = esc then do
    let rw ← readBits 5
    readMany (readSigned rw.toNat) n
  else readMany (riceDecode r.toNat) n

/-- `k` partitions of `n` residuals each. -/
def partitions (pbits esc n : Nat) : Nat → Rd (List Sample)
  | 0 => pure []
  | k + 1 => do
    let xs ← partition pbits esc n
    let ys ← partitions pbits esc n k
    pure (xs ++ ys)

/-- A partition order that does not fit the block (R292). -/
def partitionOrderBad (bs o po : Nat) : Bool :=
  decide (bs % 2 ^ po ≠ 0) || decide (bs >>> po < o)

/-- The residual from the partition order on, for a method with `pbits`-bit parameters and the escape
value `esc` (R290, R292, R293). Partition 0 is shorter by the order. -/
def codedResidual (pbits esc : Nat) (rice2 : Bool) : Rd Unit := do
  let s ← get
  let bs := s.hdr.blockSize.toNat
  let o := s.residual.order.toNat
  let po ← readBits 4
  reject (partitionOrderBad bs o po.toNat) (badSubframe 8)
  let n := bs >>> po.toNat
  let first ← partition pbits esc (n - o)
  let rest ← partitions pbits esc n (2 ^ po.toNat - 1)
  modify (State.setResidual
    { order := s.residual.order, rice2 := rice2, partOrder := po, values := first ++ rest })

/-- Method RICE (R298): 4-bit parameters, escape `1111`. -/
def riceResidual : Rd Unit := codedResidual 4 15 false

/-- Method RICE2 (R299): 5-bit parameters, escape `11111`. -/
def rice2Residual : Rd Unit := codedResidual 5 31 true

/-- A reserved method (R291). -/
def reservedResidual : Rd Unit := throw (badSubframe 7)

/-- `Residual(bs, o)` (R290): the method code (R291) selects the method. -/
def residual : Rd Unit := do
  let m ← readBits 2
  if m.getLsbD 1 then reservedResidual
  else if m.getLsbD 0 then rice2Residual
  else riceResidual

end Sys2Proof.Machine
end

