-- ==== Sys2Proof/Machine/Subframe.lean ====
section
/-! DEFINITION. The subframe decoder: `FR_DECODE_SUBFRAME` (`43_subframe.md` R230 to R240), the fixed
predictors (`44_fixed.md` R260 to R265) and the LPC predictor (`45_lpc_rice.md` R280 to R284); the subframe
header bytes and the residual methods as instructions. -/

namespace Sys2Proof.Machine

/-! ## Predictors -/

/-- `FixedPred(o, s, i)` (`44_fixed.md` R261 to R265), with the reconstructed core samples newest
first. -/
def fixedPred (o : Fin 5) (newest : List Sample) : Sample :=
  let s1 := newest.getD 0 0
  let s2 := newest.getD 1 0
  let s3 := newest.getD 2 0
  let s4 := newest.getD 3 0
  match o with
  | 0 => 0
  | 1 => s1
  | 2 => 2 * s1 - s2
  | 3 => 3 * s1 - 3 * s2 + s3
  | 4 => 4 * s1 - 6 * s2 + 4 * s3 - s4

/-- `sum of coeff[j] * s[i-1-j]`, modulo `2^64`, with the samples newest first. -/
def weightedSum : List Sample → List Sample → Sample
  | c :: cs, x :: xs => c * x + weightedSum cs xs
  | _, _ => 0

/-- `LpcPred(o, coeff, shift, s, i)` (`45_lpc_rice.md` R283): the arithmetic right shift of the sum. -/
def lpcPred (coeff : List Sample) (shift : Nat) (newest : List Sample) : Sample :=
  (weightedSum coeff newest).sshiftRight shift

/-- Each residual is added to the prediction from the samples before it; the list grows newest first. -/
def extend (pred : List Sample → Sample) : List Sample → List Sample → List Sample
  | newest, [] => newest
  | newest, r :: rs => extend pred ((pred newest + r) :: newest) rs

/-- `s[0..bs-1]` from the warm-up samples and the residuals, in order (R260, R280). -/
def reconstruct (pred : List Sample → Sample) (warm res : List Sample) : List Sample :=
  (extend pred warm.reverse res).reverse

/-! ## The bodies (`30_encoding.md` R102) -/

/-- What a subframe body yields: its core samples and, for LPC, precision and shift. -/
structure Body where
  samples : List Sample
  prec : BitVec 4
  shift : BitVec 4

/-- CONSTANT (R237): one value, replicated. -/
def constantBody (w bs : Nat) : Rd Body := do
  let v ← readSigned w
  pure { samples := List.replicate bs v, prec := 0, shift := 0 }

/-- VERBATIM (R238): one value per position. -/
def verbatimBody (w bs : Nat) : Rd Body := do
  let xs ← readMany (readSigned w) bs
  pure { samples := xs, prec := 0, shift := 0 }

/-- The residual of a subframe of order `o`, through the working registers. -/
def residualOf (o : Nat) : Rd (List Sample) := do
  modify (State.setResidual { Residual.empty with order := BitVec.ofNat 6 o })
  residual
  let s ← get
  pure s.residual.values

/-- FIXED of order `o` (`44_fixed.md` R260). -/
def fixedBody (o : Fin 5) (w : Nat) : Rd Body := do
  let warm ← readMany (readSigned w) o.val
  let res ← residualOf o.val
  pure { samples := reconstruct (fixedPred o) warm res, prec := 0, shift := 0 }

/-- `LpcParams()` (`45_lpc_rice.md` R281): precision and shift. -/
def lpcParams : Rd (Nat × Nat) := do
  let pc ← readBits 4
  reject (pc == 15) (badSubframe 5)
  let sh ← readBits 5
  reject (sh.getLsbD 4) (badSubframe 6)
  pure (pc.toNat + 1, sh.toNat)

/-- LPC of order `o` (`45_lpc_rice.md` R280). -/
def lpcBody (o w : Nat) : Rd Body := do
  let warm ← readMany (readSigned w) o
  let (prec, shift) ← lpcParams
  let coeff ← readMany (readSigned prec) o
  let res ← residualOf o
  pure { samples := reconstruct (lpcPred coeff shift) warm res
         prec := BitVec.ofNat 4 prec
         shift := BitVec.ofNat 4 shift }

/-! ## The subframe -/

/-- `IsSide(assign, c)` (R231). -/
def isSide (a : Assign) (c : ChannelIx) : Bool :=
  match a with
  | .independent => false
  | .leftSide => c == 1
  | .rightSide => c == 0
  | .midSide => c == 1

/-- The effective bit depth of channel `c` (R230, R231). -/
def State.bpsEff (s : State) (c : ChannelIx) : Nat :=
  s.hdr.bps.toNat + (if isSide s.hdr.assign c then 1 else 0)

/-- The wasted-bits count (R234, `30_encoding.md` R101). -/
def wastedBits (flag : Bool) : Rd Nat :=
  if flag then do
    let z ← readUnary
    pure (z + 1)
  else pure 0

/-- The writes of `Commit(c)` (R235). The working registers are empty again. -/
def State.commitSubframe (c : ChannelIx) (kind : SfKind) (o k eff : Nat) (b : Body) (s : State) : State :=
  { s with
    sfInfo := s.sfInfo.set c
      { kind := kind
        order := BitVec.ofNat 6 o
        wasted := BitVec.ofNat 6 k
        bpsEff := BitVec.ofNat 6 eff
        lpcPrec := b.prec
        lpcShift := b.shift
        rice2 := s.residual.rice2
        partOrder := s.residual.partOrder }
    sfDone := s.sfDone + 1
    residual := Residual.empty }

/-- The wasted bits go back under every core sample (R236). -/
def shiftSamples (k : Nat) (xs : List Sample) : List Sample := xs.map fun x : Sample => x <<< k

/-- A subframe of a known kind, from after its header byte on (R230, R233 to R236): the wasted-bits code
and its check, the order check, the body of width `w = bpsEff - k`, the shift, the commit. -/
def codedSubframe (c : ChannelIx) (kind : SfKind) (o : Nat) (flag : Bool)
    (body : Nat → Nat → Rd Body) : Rd Unit := do
  let s ← get
  let eff := s.bpsEff c
  let bs := s.hdr.blockSize.toNat
  let k ← wastedBits flag
  reject (decide (eff ≤ k)) (badSubframe 3)
  reject (decide (bs < o)) (badSubframe 4)
  modify (State.setResidual Residual.empty)
  let b ← body (eff - k) bs
  modify (State.writeChannel c (shiftSamples k b.samples))
  modify (State.commitSubframe c kind o k eff b)

/-- The order of an LPC header byte (R233): `((x >> 1) & 31) + 1`. -/
def lpcOrder (orderMinus1 : BitVec 5) : Nat := orderMinus1.toNat + 1

/-- What a subframe header byte does once it is read (R232, R233, R239). -/
def subframeCode (c : ChannelIx) : SubframeCode → Rd Unit
  | .constant w => codedSubframe c .constant 0 w constantBody
  | .verbatim w => codedSubframe c .verbatim 0 w verbatimBody
  | .fixed o w => codedSubframe c .fixed o.val w fun width _ => fixedBody o width
  | .lpc om1 w => codedSubframe c .lpc (lpcOrder om1) w fun width _ => lpcBody (lpcOrder om1) width
  | .reserved _ _ => throw (badSubframe 2)
  | .badPadding _ => throw (badSubframe 1)

/-- The subframe of channel `c`: the header byte, then what it selects (R230). -/
def decodeSubframe (c : ChannelIx) : Rd Unit := do
  let x ← readBits 8
  subframeCode c (decodeSubframeByte x)

/-- Run a subframe of channel `c` or a part of one: what follows its header byte, or its residual (log 2).
After a BAD_SUBFRAME the contents of the channel are unspecified (R240, `60_exceptions.md` R384; for a part,
and for how far the channel goes, log 9). After END_OF_STREAM `CHBUF` is as it was: R230 writes it on OK only,
and `60_exceptions.md` R386 names no write of it. The working registers are empty after both (log 17). -/
def runSubframe (c : ChannelIx) (act : Rd Unit) (s : State) : Ended :=
  match act s with
  | .ok _ t => .done .okay 0 t
  | .error .hold _ => .hold
  | .error .endOfStream t =>
    .done ⟨.endOfStream, 0⟩ 0 (t.setResidual Residual.empty).endOfStreamInFrame
  | .error (.badFrame code sub e a) t =>
    .done ⟨code, sub⟩ 0 (((t.forgetChannel c).setResidual Residual.empty).badFrame code sub e a)

/-- The step of `FR_DECODE_SUBFRAME c`. -/
def subframeStep (c : ChannelIx) (s : State) : Ended := runSubframe c (decodeSubframe c) s

/-- The channel the frame decoder expects next: `SF_DONE`. -/
def State.nextChannel (s : State) : ChannelIx := ⟨s.sfDone.toNat % 8, Nat.mod_lt _ (by decide)⟩

/-- `FR_DECODE_SUBFRAME c` (R230). -/
def execFrDecodeSubframe (c : Byte) (s : State) : Out :=
  admitFrame (legalC c)
    (s.phase == .headerDone && decide (c.toNat = s.sfDone.toNat) && decide (c.toNat < s.hdr.channels.toNat))
    s ((subframeStep (channelOf c) s).finish s)

/-! ## The header bytes as instructions: the subframe of channel `SF_DONE`, after its header byte
(log 2) -/

/-- A subframe from after its header byte on. -/
def runCode (code : SubframeCode) (s : State) : Out :=
  (runSubframe s.nextChannel (subframeCode s.nextChannel code) s).finish s

/-- `SUBFRAME_CONSTANT` (R237). -/
def execSubframeConstant (w : Bool) (s : State) : Out := runCode (.constant w) s

/-- `SUBFRAME_VERBATIM` (R238). -/
def execSubframeVerbatim (w : Bool) (s : State) : Out := runCode (.verbatim w) s

/-- `SUBFRAME_FIXED0` (`44_fixed.md` R261). -/
def execSubframeFixed0 (w : Bool) (s : State) : Out := runCode (.fixed 0 w) s

/-- `SUBFRAME_FIXED1` (`44_fixed.md` R262). -/
def execSubframeFixed1 (w : Bool) (s : State) : Out := runCode (.fixed 1 w) s

/-- `SUBFRAME_FIXED2` (`44_fixed.md` R263). -/
def execSubframeFixed2 (w : Bool) (s : State) : Out := runCode (.fixed 2 w) s

/-- `SUBFRAME_FIXED3` (`44_fixed.md` R264). -/
def execSubframeFixed3 (w : Bool) (s : State) : Out := runCode (.fixed 3 w) s

/-- `SUBFRAME_FIXED4` (`44_fixed.md` R265). -/
def execSubframeFixed4 (w : Bool) (s : State) : Out := runCode (.fixed 4 w) s

/-- `SUBFRAME_LPC` (`45_lpc_rice.md` R280). -/
def execSubframeLpc (orderMinus1 : BitVec 5) (w : Bool) (s : State) : Out :=
  runCode (.lpc orderMinus1 w) s

/-- `SUBFRAME_RESERVED` (R239): BAD_SUBFRAME sub-cause 2. -/
def execSubframeReserved (type : BitVec 6) (w : Bool) (s : State) : Out := runCode (.reserved type w) s

/-- `SUBFRAME_BAD_PADDING` (R232): BAD_SUBFRAME sub-cause 1. -/
def execSubframeBadPadding (rest : BitVec 7) (s : State) : Out := runCode (.badPadding rest) s

/-! ## The residual methods as instructions: the residual of the subframe of channel `SF_DONE`, after its
method code (log 2) -/

/-- Run the residual of a subframe by itself. It ends as `FR_DECODE_SUBFRAME` would end there (log 2): after
a BAD_SUBFRAME channel `SF_DONE` is unspecified (log 9), after END_OF_STREAM it is as it was, and the working
registers are empty after both; when it does not fail, the working registers hold it and the result is 0. -/
def runResidual (act : Rd Unit) (s : State) : Out := (runSubframe s.nextChannel act s).finish s

/-- `RESIDUAL_RICE` (`45_lpc_rice.md` R298): reads the residual of the subframe in progress, whose order
stands in `residual.order`, and leaves it in `residual`. -/
def execResidualRice (s : State) : Out := runResidual riceResidual s

/-- `RESIDUAL_RICE2` (`45_lpc_rice.md` R299). -/
def execResidualRice2 (s : State) : Out := runResidual rice2Residual s

/-- `RESIDUAL_RESERVED` (`45_lpc_rice.md` R291): BAD_SUBFRAME sub-cause 7. -/
def execResidualReserved (_low : Bool) (s : State) : Out := runResidual reservedResidual s

end Sys2Proof.Machine
end

