-- ==== Sys2Proof/Machine/Sync.lean ====
section
/-! DEFINITION. The frame synchronizer: `FR_FIND_SYNC` (`41_sync.md` R160 to R165) and the sync pattern
(`30_encoding.md` R110). -/

namespace Sys2Proof.Machine

/-- What a match does, once both bytes are consumed (R163): `a` is the index of the `0xFF` byte, `y` the
second byte. Both accumulators are made to cover the frame from its first byte. -/
def State.synced (a : Word64) (y : Byte) (s : State) : State :=
  { s with
    crc16 := crc16Update (crc16Update 0 0xFF) y
    crc8 := crc8Update (crc8Update 0 0xFF) y
    syncByte1 := y
    frameStart := a
    lossArmed := true
    phase := .synced }

/-- `LostByte(a)` (R164): one `LOST_SYNC` event per run of lost bytes. -/
def State.lostByte (a : Word64) (s : State) : State :=
  if s.lossArmed
  then { s with lossArmed := false }.emit (.event ⟨.lostSync, 0, a, 0, 0⟩)
  else s

/-- The scan (R163). Each pass consumes a whole byte, so it makes no more passes than there are bytes
left; when none is left its read fails. -/
def scan : Nat → Rd Word64
  | 0 => unavailable
  | left + 1 => do
    let s ← get
    let a := s.bytePos
    let x ← readBits 8
    if x = 0xFF then do
      let y ← peekBits 8
      if syncTail y then do
        consume 8
        modify (State.synced a y)
        pure a
      else do
        modify (State.lostByte a)
        scan left
    else do
      modify (State.lostByte a)
      scan left

/-- The number of bytes of `SRC` from the cursor's byte on. -/
def State.bytesLeft (s : State) : Nat := s.src.length - s.pos.toNat / 8

/-- The stream has delivered all its samples (R161). -/
def State.totalReached (s : State) : Bool :=
  decide (s.sp.totalSamples ≠ 0) && decide (s.sp.totalSamples.toNat ≤ s.samplesDecoded.toNat)

/-- Rules R161 to R164, in that order: the end by sample count, the alignment, the scan. -/
def findSync : Rd Word64 := do
  let s ← get
  reject s.totalReached .endOfStream
  let _ ← align
  let t ← get
  scan t.bytesLeft

/-- The step of `FR_FIND_SYNC`. On END_OF_STREAM the bytes consumed and the events emitted stay, `EOF` is
set and `PHASE` stays (R165, `60_exceptions.md` R386, second case; log 24). It raises no BadFrame. -/
def findSyncStep (s : State) : Ended :=
  match findSync s with
  | .ok a t => .done .okay a t
  | .error .hold _ => .hold
  | .error .endOfStream t => .done ⟨.endOfStream, 0⟩ 0 { t with eof := true }
  | .error (.badFrame code sub e a) t => .done ⟨code, sub⟩ 0 (t.badFrame code sub e a)

/-- `FR_FIND_SYNC` (R160). -/
def execFrFindSync (arg : Byte) (s : State) : Out :=
  admitFrame (legalN arg) (s.phase == .searching) s ((findSyncStep s).finish s)

/-- The sync pattern as an instruction (R163): its two bytes have been consumed, so the frame began at
byte `POS div 8 - 2`; bit 1 of the second byte is kept in `SYNC_BYTE1` for the header decoder, which checks
it (`42_header.md` R182; log 2). -/
def execFrameSync (reserved blocking : Bool) (s : State) : Out :=
  let a := s.bytePos - 2
  .next ((s.synced a (0b111110#6 ++ BitVec.ofBool reserved ++ BitVec.ofBool blocking)).endCommand .okay a)

end Sys2Proof.Machine
end

