-- ==== Sys2Proof/Machine/Frame.lean ====
section
/-! DEFINITION. The footer check and the delivery of a frame (`47_frame.md` R340 to R344), the PCM packing
(`20_memory.md` R68), and the composite commands `READ_NEXT_FRAME` and `DECODE` (R350 to R362). -/

namespace Sys2Proof.Machine

/-! ## PCM packing (`20_memory.md` R68) -/

/-- One sample at depth `bps`: 8 bits with a bias of 128, 16 and 24 bits little-endian, nothing at any
other depth. -/
def packSample (bps : Nat) (s : Sample) : List Byte :=
  match bps with
  | 8 => [(s + 128).extractLsb' 0 8]
  | 16 => [s.extractLsb' 0 8, s.extractLsb' 8 8]
  | 24 => [s.extractLsb' 0 8, s.extractLsb' 8 8, s.extractLsb' 16 8]
  | _ => []

/-- `pcm` from sample position `i` on, for `n` positions: all channels of a position, then the next
position. -/
def packFrom (bps : Nat) (samples : List (List Sample)) (i : Nat) : Nat → List Byte
  | 0 => []
  | n + 1 => samples.flatMap (fun ch => packSample bps (ch.getD i 0)) ++ packFrom bps samples (i + 1) n

/-! ## Delivery (R342) -/

/-- The record of the frame in the channel buffer (`20_memory.md` R67). -/
def State.frameRecord (crcOk : Bool) (s : State) : FrameRecord :=
  { startSample := s.hdr.startSample
    blockSize := s.hdr.blockSize
    channels := s.hdr.channels
    assign := s.hdr.assign
    bps := s.hdr.bps
    crcOk := crcOk
    samples := s.frameSamples
    pcm := packFrom s.hdr.bps.toNat s.frameSamples 0 s.hdr.blockSize.toNat }

/-- The registers a delivery writes (R342). -/
def State.countFrame (s : State) : State :=
  { s with
    samplesDecoded := s.samplesDecoded + s.hdr.blockSize.setWidth 64
    bufValid := true
    phase := .searching
    sfDone := 0 }

/-- The writes of `Deliver(crcOk)` (R342). -/
def State.deliver (crcOk : Bool) (s : State) : State :=
  (s.emit (.frame (s.frameRecord crcOk))).countFrame

/-- The writes of a CRC mismatch before the delivery (R343). -/
def State.crcMismatch (expected actual : Word16) (s : State) : State :=
  ((s.emit (.event ⟨.crcMismatch, 0, s.bytePos, expected, actual⟩)).countBadFrame).zeroFrame

/-! ## The footer check (R340) -/

/-- The reads of the footer check: the padding, checked (R341), then the computed and the stored frame
CRC (R342). -/
def readFooter : Rd (Word16 × Word16) := do
  let (pad, _) ← align
  reject (pad != 0) (.badFrame .nonzeroPadding 0 0 0)
  let s ← get
  let actual ← readBits 16
  pure (s.crc16, actual)

/-- `FOOTER <- {expected, actual}`. -/
def State.setFooter (expected actual : Word16) (s : State) : State :=
  { s with footer := expected ++ actual }

/-- The writes of the footer check once the footer is read (R340). -/
def State.closeFrame (expected actual : Word16) (s : State) : State :=
  if expected = actual then (s.setFooter expected actual).deliver true
  else ((s.setFooter expected actual).crcMismatch expected actual).deliver false

/-- The footer check (R340). -/
def checkFooter : Rd (Status × Word64) := do
  let (expected, actual) ← readFooter
  modify (State.closeFrame expected actual)
  let s ← get
  pure (if expected = actual then (.okay, s.hdr.blockSize.setWidth 64) else (⟨.crcMismatch, 0⟩, 0))

/-- The step of `FR_CHECK_FOOTER`. -/
def footerStep (s : State) : Ended := runFrameStep checkFooter s

/-- `FR_CHECK_FOOTER` (R340). -/
def execFrCheckFooter (arg : Byte) (s : State) : Out :=
  admitFrame (legalN arg) (s.phase == .decorrelated) s ((footerStep s).finish s)

/-! ## One pass of the recovery loop (R351) -/

/-- What one step of a composite command answers. -/
inductive Progress
  /-- The loop goes on from this state. -/
  | again (t : State)
  /-- The loop returns this status and result. -/
  | ended (st : Status) (res : Word64) (t : State)
  /-- The step holds. -/
  | hold

/-- After a step other than the footer check: OK goes on, and so does the BadFrame `recovered`; any other
status ends the loop. -/
def Ended.goOn (e : Ended) (recovered : StatusCode) : Progress :=
  match e with
  | .done st res t => if st.code = .ok ∨ st.code = recovered then .again t else .ended st res t
  | .hold => .hold

/-- After the footer check: NONZERO_PADDING goes on, any other status ends the loop. -/
def Ended.last (e : Ended) : Progress :=
  match e with
  | .done st res t => if st.code = .nonzeroPadding then .again t else .ended st res t
  | .hold => .hold

/-- The step of `READ_NEXT_FRAME` that the frame sequencer's state selects (R351, R352). A step runs in
the state the steps before it left; the loop's next step follows from `PHASE` and `SF_DONE`. -/
def nextFrameStep (s : State) : Progress :=
  match s.phase with
  | .searching => (findSyncStep s).goOn .ok
  | .synced => (headerStep s).goOn .badHeader
  | .headerDone =>
    if s.sfDone.toNat < s.hdr.channels.toNat
    then (subframeStep s.nextChannel s).goOn .badSubframe
    else (decorrelateStep s).goOn .ok
  | .decorrelated => (footerStep s).last

/-! ## READ_NEXT_FRAME (R350, R351): one primitive step for each step of the machine (log 6) -/

/-- Take one step inside `READ_NEXT_FRAME`; `LAST_ERR` is written once, at its end. -/
def readNextFrameStep (s : State) : Out :=
  match nextFrameStep s with
  | .again t => .next { t with slot := .readingNext }
  | .ended st res t => .next (t.endCommand st res)
  | .hold => .next s

/-- `READ_NEXT_FRAME`: admission when it is issued, then its steps. -/
def execReadNextFrame (arg : Byte) (s : State) : Out :=
  match s.slot with
  | .readingNext => readNextFrameStep s
  | .idle | .pending _ | .decoding _ =>
    admitFrame (legalN arg) (s.phase == .searching) s (readNextFrameStep s)

/-! ## DECODE (R360 to R362) -/

/-- Take one step inside `DECODE`, which has delivered `n` frames. A frame delivered is counted, then
`STOP` is sampled (R362). That the sampling belongs to the step that emits the `Frame` record, so that no
host move falls between the two and a `STOP` driven in answer to a record is sampled after the next frame,
is the model's choice: R69, R361 and R362 leave it open (log 26). -/
def decodeStep (n : Nat) (s : State) : Out :=
  match nextFrameStep s with
  | .again t => .next { t with slot := .decoding n }
  | .ended st _ t =>
    if st.code = .endOfStream then .next (t.endCommand st (BitVec.ofNat 64 n))
    else if t.stop then .next (t.endCommand ⟨.stopped, 0⟩ (BitVec.ofNat 64 (n + 1)))
    else .next { t with slot := .decoding (n + 1) }
  | .hold => .next s

/-- `DECODE`: admission when it is issued, then its steps. -/
def execDecode (arg : Byte) (s : State) : Out :=
  match s.slot with
  | .decoding n => decodeStep n s
  | .idle | .pending _ | .readingNext =>
    admitFrame (legalN arg) (s.phase == .searching) s (decodeStep 0 s)

end Sys2Proof.Machine
end

