-- ==== Sys2Proof/Machine/Dispatch.lean ====
section
/-! DEFINITION. One arm for each instruction. -/

namespace Sys2Proof.Machine

def exec (i : Instr) (s : State) : Host.Outcome State Fault Refusal :=
  match i with
  | .nop a => Sys2Proof.Machine.execNop a s
  | .softReset a => Sys2Proof.Machine.execSoftReset a s
  | .csrRead a => Sys2Proof.Machine.execCsrRead a s
  | .csrWrite a => Sys2Proof.Machine.execCsrWrite a s
  | .bufRead c => Sys2Proof.Machine.execBufRead c s
  | .brReadUint n => Sys2Proof.Machine.execBrReadUint n s
  | .brReadInt n => Sys2Proof.Machine.execBrReadInt n s
  | .brReadUnary a => Sys2Proof.Machine.execBrReadUnary a s
  | .brPeekUint n => Sys2Proof.Machine.execBrPeekUint n s
  | .brIsAligned a => Sys2Proof.Machine.execBrIsAligned a s
  | .brAlign a => Sys2Proof.Machine.execBrAlign a s
  | .brCrc16Reset a => Sys2Proof.Machine.execBrCrc16Reset a s
  | .brCrc16Read a => Sys2Proof.Machine.execBrCrc16Read a s
  | .brCrc8Reset a => Sys2Proof.Machine.execBrCrc8Reset a s
  | .brCrc8Read a => Sys2Proof.Machine.execBrCrc8Read a s
  | .frFindSync a => Sys2Proof.Machine.execFrFindSync a s
  | .frDecodeHeader a => Sys2Proof.Machine.execFrDecodeHeader a s
  | .frDecodeSubframe c => Sys2Proof.Machine.execFrDecodeSubframe c s
  | .frDecorrelate a => Sys2Proof.Machine.execFrDecorrelate a s
  | .frCheckFooter a => Sys2Proof.Machine.execFrCheckFooter a s
  | .readNextFrame a => Sys2Proof.Machine.execReadNextFrame a s
  | .decode a => Sys2Proof.Machine.execDecode a s
  | .reservedOpcode op a => Sys2Proof.Machine.execReservedOpcode op a s
  | .subframeConstant w => Sys2Proof.Machine.execSubframeConstant w s
  | .subframeVerbatim w => Sys2Proof.Machine.execSubframeVerbatim w s
  | .subframeFixed0 w => Sys2Proof.Machine.execSubframeFixed0 w s
  | .subframeFixed1 w => Sys2Proof.Machine.execSubframeFixed1 w s
  | .subframeFixed2 w => Sys2Proof.Machine.execSubframeFixed2 w s
  | .subframeFixed3 w => Sys2Proof.Machine.execSubframeFixed3 w s
  | .subframeFixed4 w => Sys2Proof.Machine.execSubframeFixed4 w s
  | .subframeLpc o w => Sys2Proof.Machine.execSubframeLpc o w s
  | .subframeReserved t w => Sys2Proof.Machine.execSubframeReserved t w s
  | .subframeBadPadding r => Sys2Proof.Machine.execSubframeBadPadding r s
  | .frameSync r b => Sys2Proof.Machine.execFrameSync r b s
  | .residualRice => Sys2Proof.Machine.execResidualRice s
  | .residualRice2 => Sys2Proof.Machine.execResidualRice2 s
  | .residualReserved l => Sys2Proof.Machine.execResidualReserved l s
  | .chIndependent n => Sys2Proof.Machine.execChIndependent n s
  | .chLeftSide => Sys2Proof.Machine.execChLeftSide s
  | .chRightSide => Sys2Proof.Machine.execChRightSide s
  | .chMidSide => Sys2Proof.Machine.execChMidSide s
  | .chReserved c => Sys2Proof.Machine.execChReserved c s

end Sys2Proof.Machine
end

