-- ==== Sys2Proof/Machine/Step.lean ====
section
/-! DEFINITION. One step of the machine: a move of the host, or the block's own turn
(`20_memory.md` R69, `70_reset_and_hazards.md` R448; log 1, log 4). -/

namespace Sys2Proof.Machine

/-- The block's turn: idle, it does nothing; a waiting code word is decoded and executed; inside a
composite command the next of its steps runs. -/
def blockTurn (s : State) : Out :=
  match s.slot with
  | .idle => .next s
  | .pending c =>
    match Sys2Proof.decode c with
    | .ok i => exec i s
    | .error (.notASyncPattern w) => .refused (.notASyncPattern w)
  | .readingNext => exec (.readNextFrame 0) s
  | .decoding _ => exec (.decode 0) s

/-- A move of the host (R448). -/
def hostMove (m : HostMove) (s : State) : Out :=
  match m with
  | .yield => blockTurn s
  | .issue cmd dataIn =>
    if s.slot = .idle then .next { s with slot := .pending (.command cmd), dataIn := dataIn }
    else .fault .commandWhileBusy
  | .supply b =>
    if s.srcEnded then .fault .supplyAfterEnd
    else if 2 ^ 61 ≤ s.src.length + 1 then .fault .inputTooLong
    else .next { s with src := s.src.append b }
  | .endInput => .next { s with srcEnded := true }
  | .drain => .next { s with outq := s.outq.tail }
  | .setStop level => .next { s with stop := level }
  | .powerReset => .next s.toReset

/-- One step: the host's next move, or, when it has none to come, the block's turn. -/
def step (s : State) : Host.Outcome State Fault Refusal :=
  match s.host with
  | [] => blockTurn s
  | m :: rest => hostMove m { s with host := rest }

/-- The code word of a row of the opcode table put in the command slot, where the block takes the code
word it runs next, and the block given its turn. -/
def State.withFetchWord (s : State) (nbits w : Nat) : State :=
  { s with slot := .pending (tableWord nbits w), host := .yield :: s.host }

end Sys2Proof.Machine
end

