-- ==== Sys2Proof/Safety.lean ====
section
/-! DEFINITION. The terms the statements use: the invariant of the machine, the bits that stand ahead of
the cursor, and the bit strings the format gives each field (`30_encoding.md` R91 to R112), written as an
encoder would write them. -/

namespace Sys2Proof.Machine

/-! ## The input ahead of the cursor -/

/-- `SRC` holds each byte once, in order, fewer than `2^61` of them (`70_reset_and_hazards.md` R431), and
the cursor stands in it or at its end. -/
def State.sourceOk (s : State) : Prop :=
  s.src.wf = true ∧ s.src.length < 2 ^ 61 ∧ s.pos.toNat ≤ 8 * s.src.length

/-- The next bits of the input, from the cursor on, are `bits`. -/
def State.ahead (bits : List Bool) (s : State) : Prop :=
  s.sourceOk ∧ ∀ (i : Nat) (h : i < bits.length), s.src.bitAt (s.pos.toNat + i) = some bits[i]

/-- A cell for each byte, at its index: `SRC` after the host has supplied exactly `bytes`. -/
def Memory.ofBytesFrom (a : Nat) : List Byte → Memory
  | [] => []
  | b :: bs => (a, b) :: Memory.ofBytesFrom (a + 1) bs

/-- `SRC` holding `bytes`. -/
def Memory.ofBytes (bytes : List Byte) : Memory := Memory.ofBytesFrom 0 bytes

/-! ## Fields as bits -/

/-- The `n` low bits of `v`, most significant first (`20_memory.md` R63). -/
def bitsOf : Nat → Nat → List Bool
  | 0, _ => []
  | n + 1, v => v.testBit n :: bitsOf n v

/-- A byte's bits, most significant first. -/
def byteBits (b : Byte) : List Bool := bitsOf 8 b.toNat

/-- The unary code of `z`: `z` zeros and a one (`40_bitreader.md` R133). -/
def unaryBits (z : Nat) : List Bool := List.replicate z false ++ [true]

/-- A signed value of width `w`, in two's complement (`30_encoding.md` R112). -/
def signedBits (w : Nat) (x : Sample) : List Bool := bitsOf w x.toNat

/-- `x` is the value of a `w`-bit two's-complement number. -/
def fitsIn (w : Nat) (x : Sample) : Prop := (x.setWidth w).signExtend 64 = x

/-- The folded value of a residual: `2x` for `x >= 0`, `-2x - 1` for `x < 0` (R105). -/
def foldOf (x : Sample) : Nat :=
  if 0 ≤ x.toInt then (2 * x.toInt).toNat else (-(2 * x.toInt) - 1).toNat

/-- The residual a folded value stands for: `u/2` for even `u`, `-(u+1)/2` for odd `u` (R105), with `u`
taken modulo `2^64` (`45_lpc_rice.md` R295). -/
def residualOfFold (u : Nat) : Sample :=
  if u % 2 ^ 64 % 2 = 0 then BitVec.ofNat 64 (u % 2 ^ 64 / 2) else -BitVec.ofNat 64 ((u % 2 ^ 64 + 1) / 2)

/-- The Rice code of parameter `r` of a folded value, of any size: a unary quotient and `r` low bits
(R105). -/
def riceBits (r u : Nat) : List Bool := unaryBits (u / 2 ^ r) ++ bitsOf r (u % 2 ^ r)

/-! ## The residual (R103) -/

/-- A partition: Rice codes of a parameter, one for each folded value, or raw values of a width. -/
inductive Part
  | rice (parameter : Nat) (folded : List Nat)
  | escaped (width : Nat) (residuals : List Sample)
  deriving DecidableEq, Repr

/-- The residuals of a partition, in order. -/
def Part.values : Part → List Sample
  | .rice _ us => us.map residualOfFold
  | .escaped _ xs => xs

/-- A partition that can be coded: the parameter is below the escape value; a raw width has 5 bits and
the values fit it. -/
def Part.codable (esc : Nat) : Part → Prop
  | .rice r _ => r < esc
  | .escaped w xs => w < 32 ∧ ∀ x ∈ xs, fitsIn w x

/-- The bits of a partition. -/
def Part.bits (pbits esc : Nat) : Part → List Bool
  | .rice r us => bitsOf pbits r ++ us.flatMap (riceBits r)
  | .escaped w xs => bitsOf pbits esc ++ bitsOf 5 w ++ xs.flatMap (signedBits w)

/-- The partitions of a block of `bs` samples and predictor order `o`, for partition order `po`: the
sizes R293 gives them, each codable. -/
def partsFit (esc bs o po : Nat) (parts : List Part) : Prop :=
  po < 16 ∧ bs % 2 ^ po = 0 ∧ o ≤ bs / 2 ^ po ∧ parts.length = 2 ^ po ∧
  (∀ p ∈ parts, p.codable esc) ∧
  (∀ (i : Nat) (h : i < parts.length),
    (parts[i]).values.length = bs / 2 ^ po - (if i = 0 then o else 0))

/-- The residuals of all partitions, in stream order. -/
def residualsOf (parts : List Part) : List Sample := parts.flatMap Part.values

/-- The bits of a residual after its coding method: the partition order, then the partitions. -/
def partsBits (pbits esc po : Nat) (parts : List Part) : List Bool :=
  bitsOf 4 po ++ parts.flatMap (Part.bits pbits esc)

/-- The two coding methods that are not reserved: RICE2 or RICE. Parameter width and escape value. -/
def parameterBits (rice2 : Bool) : Nat := if rice2 then 5 else 4

/-- The escape value of a coding method. -/
def escapeValue (rice2 : Bool) : Nat := if rice2 then 31 else 15

/-- The bits of a whole residual: method, partition order, partitions (R103, R104). -/
def residualBits (rice2 : Bool) (po : Nat) (parts : List Part) : List Bool :=
  bitsOf 2 (if rice2 then 1 else 0) ++ partsBits (parameterBits rice2) (escapeValue rice2) po parts

/-! ## The subframe (R100 to R102) -/

/-- The wasted-bits code for `k`: nothing for `k = 0`, else the unary code of `k - 1` (R101). -/
def wastedCode (k : Nat) : List Bool := if k = 0 then [] else unaryBits (k - 1)

/-- The prediction of sample `i` from the samples before it, for a FIXED subframe of order `o`
(`44_fixed.md` R261 to R265). -/
def predictFixed (o : Fin 5) (s : List Sample) (i : Nat) : Sample :=
  match o with
  | 0 => 0
  | 1 => s.getD (i - 1) 0
  | 2 => 2 * s.getD (i - 1) 0 - s.getD (i - 2) 0
  | 3 => 3 * s.getD (i - 1) 0 - 3 * s.getD (i - 2) 0 + s.getD (i - 3) 0
  | 4 => 4 * s.getD (i - 1) 0 - 6 * s.getD (i - 2) 0 + 4 * s.getD (i - 3) 0 - s.getD (i - 4) 0

/-- The sum over `j` of `coeff[j] * s[i-1-j]` (`45_lpc_rice.md` R283). -/
def lpcSum (coeff s : List Sample) (i : Nat) : Sample :=
  ((List.range coeff.length).map fun j => coeff.getD j 0 * s.getD (i - 1 - j) 0).sum

/-- The prediction of sample `i` for an LPC subframe (`45_lpc_rice.md` R283). -/
def predictLpc (coeff : List Sample) (shift : Nat) (s : List Sample) (i : Nat) : Sample :=
  (lpcSum coeff s i).sshiftRight shift

/-- `xs` is the block that starts with the warm-up samples and in which every later sample is its
prediction plus its residual (`44_fixed.md` R260, `45_lpc_rice.md` R280). -/
def Predicted (pred : List Sample → Nat → Sample) (warm res xs : List Sample) : Prop :=
  xs.length = warm.length + res.length ∧
  (∀ i, i < warm.length → xs.getD i 0 = warm.getD i 0) ∧
  (∀ i, warm.length ≤ i → i < xs.length → xs.getD i 0 = pred xs i + res.getD (i - warm.length) 0)

/-- The writes of a subframe of channel `c` that ends with OK (`43_subframe.md` R230, R235). Every other element of
`CHBUF` stays (log 11). -/
def State.storeSubframe (c : ChannelIx) (info : SfInfo) (xs : List Sample) (s : State) : State :=
  { s with
    chbuf := s.chbuf.set c (s.chbuf[c].write xs)
    sfInfo := s.sfInfo.set c info
    sfDone := s.sfDone + 1
    residual := Residual.empty }

/-- What a subframe of channel `c` that ends with OK leaves: `n` bits consumed, the channel's elements
written, `SF_INFO[c]` written, `SF_DONE` one higher (`43_subframe.md` R230, R235). -/
def State.withSubframe (c : ChannelIx) (info : SfInfo) (xs : List Sample) (n : Nat) (s : State) : State :=
  (s.consume n).storeSubframe c info xs

/-! ## How a command ends -/

/-- OK with a result: `STATUS_OUT` and `RESULT` are written, `LAST_ERR` is not (`10_state.md` R38, R41). -/
def State.okWith (res : Word64) (s : State) : State :=
  { s with slot := .idle, statusOut := ⟨.ok, 0⟩, result := res }

/-- An error: `STATUS_OUT = LAST_ERR = {sub, code}` and `RESULT = 0` (`60_exceptions.md` R381). -/
def State.errorWith (code : StatusCode) (sub : Byte) (s : State) : State :=
  { s with slot := .idle, statusOut := ⟨code, sub⟩, lastErr := ⟨code, sub⟩, result := 0 }

/-- The registers a BadFrame writes (`60_exceptions.md` R384). -/
def State.withBadFrame (code : StatusCode) (sub : Byte) (expected actual : Word16) (s : State) : State :=
  { s with
    outq := s.outq ++ [.event ⟨code, sub, s.pos >>> 3, expected, actual⟩]
    badFrames := s.badFrames + 1
    phase := .searching
    sfDone := 0 }

/-- A command that ends with a BadFrame after it consumed `n` bits (`60_exceptions.md` R384). -/
def State.badFrameAfter (n : Nat) (code : StatusCode) (sub : Byte) (expected actual : Word16) (s : State) :
    State :=
  ((s.consume n).withBadFrame code sub expected actual).errorWith code sub

/-- The registers END_OF_STREAM writes inside a frame (`60_exceptions.md` R386). -/
def State.withFrameCut (s : State) : State := { s with eof := true, phase := .searching, sfDone := 0 }

/-! ## The CSR space -/

/-- The address map of `10_state.md` R44: each address and what a read of it returns. -/
def csrMap (s : State) : List (Byte × Word64) :=
  let counters : List (Byte × Word64) :=
    [(0x00, s.statusBits), (0x01, s.lastErr.bits.setWidth 64), (0x02, s.badFrames.setWidth 64),
      (0x03, s.samplesDecoded), (0x04, s.pos), (0x05, s.crc16.setWidth 64), (0x06, s.crc8.setWidth 64),
      (0x07, s.syncByte1.setWidth 64), (0x08, s.footer.setWidth 64), (0x09, s.frameStart)]
  let parameters : List (Byte × Word64) :=
    [(0x10, s.sp.minBlock.setWidth 64), (0x11, s.sp.maxBlock.setWidth 64),
      (0x12, s.sp.minFrame.setWidth 64), (0x13, s.sp.maxFrame.setWidth 64),
      (0x14, s.sp.sampleRate.setWidth 64), (0x15, s.sp.channels.setWidth 64), (0x16, s.sp.bps.setWidth 64),
      (0x17, s.sp.totalSamples.setWidth 64), (0x18, if s.spValid then 1 else 0)]
  let header : List (Byte × Word64) :=
    [(0x20, s.hdr.blockSize.setWidth 64), (0x21, s.hdr.sampleRate.setWidth 64),
      (0x22, s.hdr.channels.setWidth 64), (0x23, s.hdr.assign.bits.setWidth 64),
      (0x24, s.hdr.bps.setWidth 64), (0x25, if s.hdr.blocking then 1 else 0),
      (0x26, s.hdr.number.setWidth 64), (0x27, s.hdr.startSample), (0x28, s.hdr.crc8.setWidth 64),
      (0x29, s.hdr.codes.setWidth 64)]
  let subframes : List (Byte × Word64) :=
    [(0x30, s.sfInfo[0].bits), (0x31, s.sfInfo[1].bits), (0x32, s.sfInfo[2].bits), (0x33, s.sfInfo[3].bits),
      (0x34, s.sfInfo[4].bits), (0x35, s.sfInfo[5].bits), (0x36, s.sfInfo[6].bits), (0x37, s.sfInfo[7].bits)]
  counters ++ parameters ++ header ++ subframes

/-- The acceptance rule of `10_state.md` R40. -/
def parametersAccepted (bufDepth : Nat) (sp : StreamParams) : Prop :=
  1 ≤ sp.channels.toNat ∧ sp.channels.toNat ≤ 8 ∧ 4 ≤ sp.bps.toNat ∧ sp.bps.toNat ≤ 32 ∧
  1 ≤ sp.maxBlock.toNat ∧ sp.maxBlock.toNat ≤ bufDepth ∧ sp.minBlock.toNat ≤ sp.maxBlock.toNat

/-- The SP registers as a write of `v` leaves them, address by address: `v` modulo the register's width
(`10_state.md` R39). -/
def spWrites (sp : StreamParams) (v : Word64) : List (Byte × StreamParams) :=
  [(0x10, { sp with minBlock := v.setWidth 16 }), (0x11, { sp with maxBlock := v.setWidth 16 }),
    (0x12, { sp with minFrame := v.setWidth 24 }), (0x13, { sp with maxFrame := v.setWidth 24 }),
    (0x14, { sp with sampleRate := v.setWidth 20 }), (0x15, { sp with channels := v.setWidth 4 }),
    (0x16, { sp with bps := v.setWidth 6 }), (0x17, { sp with totalSamples := v.setWidth 36 })]

/-! ## The sync search -/

/-- Two bytes that match the sync pattern: match `0xFFF8`, mask `0xFFFC` (`30_encoding.md` R110). -/
def syncPair (x y : Byte) : Prop := x = 0xFF ∧ y.toNat / 4 = 0b111110

/-- No two neighbours among `bytes` match the sync pattern. -/
def noSyncIn (bytes : List Byte) : Prop :=
  ∀ (i : Nat) (h : i + 1 < bytes.length), ¬ syncPair bytes[i] bytes[i + 1]

/-- The bytes from index `a` on are `bytes`. -/
def Memory.holds (m : Memory) (a : Nat) (bytes : List Byte) : Prop :=
  ∀ (i : Nat) (h : i < bytes.length), m.byteAt (a + i) = some bytes[i]

/-! ## The frame header (R91 to R97) -/

/-- Block-size codes (R92): code `code` stands for `bs` samples. -/
def blockSizeCoded (code : BitVec 4) (bs : Nat) : Prop :=
  (code = 1 ∧ bs = 192) ∨
  (2 ≤ code.toNat ∧ code.toNat ≤ 5 ∧ bs = 576 * 2 ^ (code.toNat - 2)) ∨
  (code = 6 ∧ 1 ≤ bs ∧ bs ≤ 256) ∨ (code = 7 ∧ 1 ≤ bs ∧ bs ≤ 65536) ∨
  (8 ≤ code.toNat ∧ bs = 256 * 2 ^ (code.toNat - 8))

/-- The extra bits of a block size: size minus 1, for codes 6 and 7. -/
def blockSizeBits (code : BitVec 4) (bs : Nat) : List Bool :=
  if code = 6 then bitsOf 8 (bs - 1) else if code = 7 then bitsOf 16 (bs - 1) else []

/-- Sample-rate codes (R93). -/
def sampleRateCoded (spRate : Nat) (code : BitVec 4) (rate : Nat) : Prop :=
  (code.toNat, rate) ∈
    [(0, spRate), (1, 88200), (2, 176400), (3, 192000), (4, 8000), (5, 16000), (6, 22050), (7, 24000),
      (8, 32000), (9, 44100), (10, 48000), (11, 96000)] ∨
  (code = 12 ∧ ∃ k < 256, rate = k * 1000) ∨ (code = 13 ∧ rate < 65536) ∨
  (code = 14 ∧ ∃ k < 65536, rate = k * 10)

/-- The extra bits of a sample rate, for codes 12, 13 and 14. -/
def sampleRateBits (code : BitVec 4) (rate : Nat) : List Bool :=
  if code = 12 then bitsOf 8 (rate / 1000)
  else if code = 13 then bitsOf 16 rate
  else if code = 14 then bitsOf 16 (rate / 10)
  else []

/-- Channel-assignment codes (R94). -/
def channelsCoded (code : BitVec 4) (channels : Nat) (a : Assign) : Prop :=
  (code.toNat ≤ 7 ∧ channels = code.toNat + 1 ∧ a = .independent) ∨
  (code = 8 ∧ channels = 2 ∧ a = .leftSide) ∨ (code = 9 ∧ channels = 2 ∧ a = .rightSide) ∨
  (code = 10 ∧ channels = 2 ∧ a = .midSide)

/-- Sample-size codes (R95). -/
def sampleSizeCoded (p : Params) (spBps : BitVec 6) (code : BitVec 3) (bps : BitVec 6) : Prop :=
  (code, bps) ∈ [(0, spBps), (1, 8), (2, 12), (4, 16), (5, 20), (6, 24)] ∨
  (code = 7 ∧ p.bps7 = .bits32 ∧ bps = 32)

/-- A number that can be coded with `m` continuation bytes (R96). -/
def numberFits (blocking : Bool) (m v : Nat) : Prop :=
  (m = 0 ∧ v < 2 ^ 7) ∨ (1 ≤ m ∧ m ≤ 6 ∧ v < 2 ^ (5 * m + 6) ∧ (m = 6 → blocking = true))

/-- The low `m` groups of six bits of `v`, each in a byte `10xxxxxx`. -/
def continuationBits : Nat → Nat → List Bool
  | 0, _ => []
  | m + 1, v => [true, false] ++ bitsOf 6 (v / 64 ^ m) ++ continuationBits m v

/-- A coded number (R96). -/
def numberBits (m v : Nat) : List Bool :=
  if m = 0 then false :: bitsOf 7 v
  else List.replicate (m + 1) true ++ [false] ++ bitsOf (6 - m) (v / 64 ^ m) ++ continuationBits m v

/-- A frame header: its codes, and what they stand for. -/
structure HeaderFields where
  bsCode : BitVec 4
  rateCode : BitVec 4
  channelCode : BitVec 4
  sizeCode : BitVec 3
  /-- How many continuation bytes code the number. -/
  numberLength : Nat
  blockSize : Nat
  rate : Nat
  channels : Nat
  assign : Assign
  bps : BitVec 6
  blocking : Bool
  number : Nat
  deriving DecidableEq, Repr

/-- The codes stand for the values, in a machine with these parameters. -/
def HeaderFields.coded (p : Params) (sp : StreamParams) (h : HeaderFields) : Prop :=
  blockSizeCoded h.bsCode h.blockSize ∧ sampleRateCoded sp.sampleRate.toNat h.rateCode h.rate ∧
  channelsCoded h.channelCode h.channels h.assign ∧ sampleSizeCoded p sp.bps h.sizeCode h.bps ∧
  numberFits h.blocking h.numberLength h.number

/-- The header's bits after the two sync bytes, up to the CRC-8 (R91). -/
def HeaderFields.bits (h : HeaderFields) : List Bool :=
  bitsOf 4 h.bsCode.toNat ++ bitsOf 4 h.rateCode.toNat ++ bitsOf 4 h.channelCode.toNat ++
    bitsOf 3 h.sizeCode.toNat ++ [false] ++ numberBits h.numberLength h.number ++
    blockSizeBits h.bsCode h.blockSize ++ sampleRateBits h.rateCode h.rate

/-- The first sample of the frame (`42_header.md` R194). -/
def HeaderFields.start (sp : StreamParams) (h : HeaderFields) : Nat :=
  if h.blocking then h.number
  else if sp.minBlock = sp.maxBlock then h.number * sp.minBlock.toNat
  else h.number * h.blockSize

/-- The header registers (`42_header.md` R195): `HDR_CODES = {ssc, chc, src, bsc}`. -/
def HeaderFields.registers (sp : StreamParams) (crc : Byte) (h : HeaderFields) : HeaderRegs :=
  { blockSize := BitVec.ofNat 16 h.blockSize, sampleRate := BitVec.ofNat 20 h.rate,
    channels := BitVec.ofNat 4 h.channels, assign := h.assign, bps := h.bps, blocking := h.blocking,
    number := BitVec.ofNat 36 h.number, startSample := BitVec.ofNat 64 (h.start sp), crc8 := crc,
    codes := h.sizeCode ++ h.channelCode ++ h.rateCode ++ h.bsCode }

/-- The `Header` record (`20_memory.md` R67). -/
def HeaderFields.record (sp : StreamParams) (crc : Byte) (bytePos : Word64) (h : HeaderFields) :
    HeaderRecord :=
  { blockSize := BitVec.ofNat 16 h.blockSize, sampleRate := BitVec.ofNat 20 h.rate,
    channels := BitVec.ofNat 4 h.channels, assign := h.assign, bps := h.bps, blocking := h.blocking,
    number := BitVec.ofNat 36 h.number, startSample := BitVec.ofNat 64 (h.start sp), crc8 := crc,
    bytePos := bytePos }

/-- The writes of a header that passed its checks (`42_header.md` R195). -/
def State.withHeader (h : HeaderFields) (crc : Byte) (s : State) : State :=
  { s with
    hdr := h.registers s.sp crc
    sfInfo := Vector.replicate 8 .zero
    sfDone := 0
    bufValid := false
    phase := .headerDone
    outq := s.outq ++ [.header (h.record s.sp crc s.frameStart)] }

/-- The count of continuation bytes of a coded number's first byte, for a byte that is valid (R96). -/
def continuationsOf (b : Byte) : Nat :=
  if b.toNat < 0x80 then 0
  else if b.toNat < 0xE0 then 1
  else if b.toNat < 0xF0 then 2
  else if b.toNat < 0xF8 then 3
  else if b.toNat < 0xFC then 4
  else if b.toNat < 0xFE then 5
  else 6

/-- A first byte that is invalid: `10xxxxxx`, `0xFF`, and `0xFE` with blocking bit 0 (R96). -/
def leadInvalid (blocking : Bool) (b : Byte) : Prop :=
  (0x80 ≤ b.toNat ∧ b.toNat < 0xC0) ∨ b = 0xFF ∨ (b = 0xFE ∧ blocking = false)

/-- The third and fourth header bytes pass their checks (`42_header.md` R183, R184). -/
def headBytesOk (p : Params) (b2 b3 : Byte) : Prop :=
  1 ≤ b2.toNat / 16 ∧ b2.toNat % 16 ≤ 14 ∧ b3.toNat / 16 ≤ 10 ∧
  b3.toNat / 2 % 8 ≠ 3 ∧ (b3.toNat / 2 % 8 = 7 → p.bps7 = .bits32) ∧ b3.toNat % 2 = 0

/-! ## Subframes -/

/-- The effective bit depth of channel `c` (`43_subframe.md` R230, R231). -/
def State.depthOf (s : State) (c : ChannelIx) : Nat :=
  s.hdr.bps.toNat +
    (if (s.hdr.assign = .leftSide ∧ c = 1) ∨ (s.hdr.assign = .rightSide ∧ c = 0) ∨
        (s.hdr.assign = .midSide ∧ c = 1)
      then 1 else 0)

/-- The instruction of a FIXED header byte, by order. -/
def fixedInstr (o : Fin 5) (w : Bool) : Instr :=
  match o with
  | 0 => .subframeFixed0 w
  | 1 => .subframeFixed1 w
  | 2 => .subframeFixed2 w
  | 3 => .subframeFixed3 w
  | 4 => .subframeFixed4 w

/-- `t` is `u` but for the contents of channel `c`, which are unspecified after a BAD_SUBFRAME in a subframe or
in a part of one, and the working registers, which are empty (`43_subframe.md` R240; log 2, log 8, log 9,
log 17). The other channels stay (those at or above `HDR_CHANNELS`, log 11). -/
def State.losesChannel (c : ChannelIx) (u t : State) : Prop :=
  t = { u with chbuf := t.chbuf, freeCount := t.freeCount, residual := Residual.empty } ∧
  ∀ d : ChannelIx, d ≠ c → t.chbuf[d] = u.chbuf[d]

/-! ## Channels -/

/-- What an assignment makes of one sample position of channels 0 and 1 (`46_decorrelate.md` R320). -/
def pairOf (a : Assign) (x0 x1 : Sample) : Sample × Sample :=
  match a with
  | .independent => (x0, x1)
  | .leftSide => (x0, x0 - x1)
  | .rightSide => (x1 + x0, x1)
  | .midSide =>
    ((((x0 <<< 1) ||| (x1 &&& 1)) + x1).sshiftRight 1, (((x0 <<< 1) ||| (x1 &&& 1)) - x1).sshiftRight 1)

/-- From `s` to `t` every sample position below the block size of channels 0 and 1 took the values of its
assignment, and every other element of `CHBUF` stays. That those at or after the block size and the channels
at or above `HDR_CHANNELS` stay is the model's choice (log 11). -/
def State.decorrelatesTo (a : Assign) (s t : State) : Prop :=
  (∀ i : Nat, i < s.hdr.blockSize.toNat →
    (t.chbuf[0].read i, t.chbuf[1].read i) = pairOf a (s.chbuf[0].read i) (s.chbuf[1].read i)) ∧
  (∀ i : Nat, s.hdr.blockSize.toNat ≤ i →
    t.chbuf[0].read i = s.chbuf[0].read i ∧ t.chbuf[1].read i = s.chbuf[1].read i) ∧
  (∀ c : ChannelIx, 2 ≤ c.val → t.chbuf[c] = s.chbuf[c])

/-! ## Delivery (`47_frame.md` R342, `20_memory.md` R67, R68) -/

/-- The bytes of one sample (R68). -/
def sampleBytes (bps : Nat) (v : Sample) : List Byte :=
  if bps = 8 then [(v + 128).setWidth 8]
  else if bps = 16 then [v.setWidth 8, (v >>> 8).setWidth 8]
  else if bps = 24 then [v.setWidth 8, (v >>> 8).setWidth 8, (v >>> 16).setWidth 8]
  else []

/-- The packed buffer: position outer, channel inner (R68). -/
def pcmOf (bps bs : Nat) (samples : List (List Sample)) : List Byte :=
  (List.range bs).flatMap fun i => samples.flatMap fun ch => sampleBytes bps (ch.getD i 0)

/-- `CHBUF[0..C-1][0..bs-1]`. -/
def State.samplesOfFrame (s : State) : List (List Sample) :=
  (s.chbuf.toList.take s.hdr.channels.toNat).map fun ch =>
    (List.range s.hdr.blockSize.toNat).map ch.read

/-- The `Frame` record of given samples (R67). -/
def State.frameOf (crcOk : Bool) (samples : List (List Sample)) (s : State) : FrameRecord :=
  { startSample := s.hdr.startSample, blockSize := s.hdr.blockSize, channels := s.hdr.channels,
    assign := s.hdr.assign, bps := s.hdr.bps, crcOk := crcOk, samples := samples,
    pcm := pcmOf s.hdr.bps.toNat s.hdr.blockSize.toNat samples }

/-- The writes of `Deliver` (R342). -/
def State.withDelivery (crcOk : Bool) (samples : List (List Sample)) (s : State) : State :=
  { s with
    outq := s.outq ++ [.frame (s.frameOf crcOk samples)]
    samplesDecoded := s.samplesDecoded + s.hdr.blockSize.setWidth 64
    bufValid := true
    phase := .searching
    sfDone := 0 }

/-- The writes of the footer check once both CRCs are known (R340), before the delivery. -/
def State.withFooter (expected actual : Word16) (s : State) : State := { s with footer := expected ++ actual }

/-! ## The composite commands -/

/-- The primitive command that is the loop's next step (`47_frame.md` R351, R352). -/
def nextCommand (s : State) : Instr :=
  match s.phase with
  | .searching => .frFindSync 0
  | .synced => .frDecodeHeader 0
  | .headerDone =>
    if s.sfDone.toNat < s.hdr.channels.toNat then .frDecodeSubframe (s.sfDone.setWidth 8)
    else .frDecorrelate 0
  | .decorrelated => .frCheckFooter 0

/-- The loop goes on after a step that ended with `code` (`47_frame.md` R351): the BadFrames are recovered,
and so is every OK but that of the footer check. -/
def loopGoesOn (phase : Phase) (code : StatusCode) : Prop :=
  code = .badHeader ∨ code = .badSubframe ∨ code = .nonzeroPadding ∨ (code = .ok ∧ phase ≠ .decorrelated)

/-! ## Counting records -/

/-- A record that stands for a bad frame: the events of BAD_HEADER, BAD_SUBFRAME, NONZERO_PADDING and
CRC_MISMATCH (`10_state.md` R34). -/
def Record.isBadFrame : Record → Bool
  | .event e => e.code == .badHeader || e.code == .badSubframe || e.code == .nonzeroPadding ||
      e.code == .crcMismatch
  | .header _ | .frame _ => false

/-- The samples per channel a record delivers (`10_state.md` R35). -/
def Record.sampleCount : Record → Nat
  | .frame f => f.blockSize.toNat
  | .header _ | .event _ => 0

/-! ## The whole machine -/

/-- The header registers describe a frame the parameters allow (`10_state.md` R29, `42_header.md` R185 to
R193). -/
def State.headerOk (s : State) : Prop :=
  1 ≤ s.hdr.channels.toNat ∧ s.hdr.channels.toNat ≤ 8 ∧
  1 ≤ s.hdr.blockSize.toNat ∧ s.hdr.blockSize.toNat ≤ s.sp.maxBlock.toNat ∧
  4 ≤ s.hdr.bps.toNat ∧ s.hdr.bps.toNat ≤ 32 ∧
  (s.hdr.assign ≠ .independent → s.hdr.channels = 2)

/-- How many channels hold the samples of the current or the last delivered frame. -/
def State.channelsFilled (s : State) : Nat :=
  match s.phase with
  | .searching | .synced => if s.bufValid then s.hdr.channels.toNat else 0
  | .headerDone | .decorrelated => s.sfDone.toNat

/-- The slot holds what the host can put there: a command word (log 1, log 2). -/
def State.slotOk (s : State) : Prop :=
  match s.slot with
  | .idle => True
  | .pending (.command _) => True
  | .pending _ => False
  | .readingNext | .decoding _ => s.framesEnabled = true

/-- The invariant of the machine. -/
def State.Inv (s : State) : Prop :=
  s.sourceOk ∧ s.params.legal = true ∧
  (s.spValid = true → s.sp.acceptable s.params.bufDepth = true) ∧
  (s.phase ≠ .searching → s.framesEnabled = true) ∧
  (s.phase = .searching ∨ s.phase = .synced → s.sfDone = 0) ∧
  (s.phase = .headerDone ∨ s.phase = .decorrelated →
    s.bufValid = false ∧ s.headerOk ∧ s.sfDone.toNat ≤ s.hdr.channels.toNat) ∧
  (s.phase = .decorrelated → s.sfDone = s.hdr.channels) ∧
  (s.bufValid = true → s.spValid = true ∧ s.headerOk) ∧
  (∀ c : ChannelIx, c.val < s.channelsFilled → s.hdr.blockSize.toNat ≤ s.chbuf[c].samples.length) ∧
  (∀ c : ChannelIx, s.chbuf[c].samples.length ≤ s.params.bufDepth) ∧
  s.residual = Residual.empty ∧ s.slotOk

/-- The next step resets the block: a power-on reset comes, or the block's turn runs `SOFT_RESET`
(`70_reset_and_hazards.md` R421). -/
def State.resetNext (s : State) : Prop :=
  s.host.head? = some .powerReset ∨
  ((s.host = [] ∨ s.host.head? = some .yield) ∧ s.slot = .pending (.command 0x0100))

/-- The state after `n` steps, when none of them stops. -/
def State.after : Nat → State → Option State
  | 0, s => some s
  | n + 1, s =>
    match step s with
    | .next t => t.after n
    | .fault _ => none
    | .refused _ => none

/-- The codes a command may return (`60_exceptions.md` R398); none for a code word that is no command. -/
def commandCodes : Instr → Option (List StatusCode)
  | .nop _ | .softReset _ | .csrRead _ | .bufRead _ | .brIsAligned _ | .brAlign _ | .brCrc16Reset _
  | .brCrc16Read _ | .brCrc8Reset _ | .brCrc8Read _ => some [.ok, .illegalCmd]
  | .csrWrite _ => some [.ok, .structural, .illegalCmd]
  | .brReadUint _ | .brReadInt _ | .brReadUnary _ | .brPeekUint _ => some [.ok, .endOfStream, .illegalCmd]
  | .frFindSync _ => some [.ok, .endOfStream, .structural, .illegalCmd]
  | .frDecodeHeader _ => some [.ok, .endOfStream, .badHeader, .structural, .illegalCmd]
  | .frDecodeSubframe _ => some [.ok, .endOfStream, .badSubframe, .structural, .illegalCmd]
  | .frDecorrelate _ => some [.ok, .structural, .illegalCmd]
  | .frCheckFooter _ => some [.ok, .endOfStream, .nonzeroPadding, .crcMismatch, .structural, .illegalCmd]
  | .readNextFrame _ => some [.ok, .endOfStream, .crcMismatch, .structural, .illegalCmd]
  | .decode _ => some [.endOfStream, .structural, .illegalCmd, .stopped]
  | .reservedOpcode _ _ => some [.illegalCmd]
  | .subframeConstant _ | .subframeVerbatim _ | .subframeFixed0 _ | .subframeFixed1 _ | .subframeFixed2 _
  | .subframeFixed3 _ | .subframeFixed4 _ | .subframeLpc _ _ | .subframeReserved _ _
  | .subframeBadPadding _ | .frameSync _ _ | .residualRice | .residualRice2 | .residualReserved _
  | .chIndependent _ | .chLeftSide | .chRightSide | .chMidSide | .chReserved _ => none

end Sys2Proof.Machine
end

