-- ==== Sys2Proof/Certificates/Slice0/Obligations.lean ====
section
/-! DEFINITION. The statements for the provers, in the order of OBLIGATIONS.json. -/

open Sys2Proof Sys2Proof.Machine

/-! ## Encoding -/

/-- Every well-formed instruction, with every field at every value, is read back from its own word
(`30_encoding.md` R80 to R82, R94, R100, R104, R110). -/
def Obligations.DecodeEncodeRoundTrip : Prop :=
  ∀ i : Instr, i.wellFormed = true → decode (encode i) = .ok i

/-- Every word that decodes is the word its instruction encodes to, and that instruction is well formed: no
bit of a word is dropped and no two words decode alike (`30_encoding.md` R80 to R82, R94, R100, R104,
R110). -/
def Obligations.DecodedWordIsItsEncoding : Prop :=
  ∀ (w : CodeWord) (i : Instr), decode w = .ok i → i.wellFormed = true ∧ encode i = w

/-- Words written out from the spec's tables decode to the instruction the tables give them
(`30_encoding.md` R81 to R83, R94, R100, R104, R110). -/
def Obligations.SpecWordsDecode : Prop :=
  decode (.command 0x1005) = .ok (.brReadUint 5) ∧
  decode (.command 0x0316) = .ok (.csrWrite 0x16) ∧
  decode (.command 0x0401) = .ok (.bufRead 1) ∧
  decode (.command 0x2208) = .ok (.frDecodeSubframe 8) ∧
  decode (.command 0x3100) = .ok (.decode 0) ∧
  decode (.command 0x0507) = .ok (.reservedOpcode 0x05 0x07) ∧
  decode (.subframeByte 0x14) = .ok (.subframeFixed2 false) ∧
  decode (.subframeByte 0x43) = .ok (.subframeLpc 1 true) ∧
  decode (.subframeByte 0x1A) = .ok (.subframeReserved 0b001101 false) ∧
  decode (.sync 0xFFF9) = .ok (.frameSync false true) ∧
  decode (.sync 0xFFFC) = .error (.notASyncPattern 0xFFFC) ∧
  decode (.residualMethod 0b01) = .ok .residualRice2 ∧
  decode (.channelCode 0b1010) = .ok .chMidSide

/-- The subframe header byte map, for all 256 bytes: kind, order and wasted-bits flag
(`30_encoding.md` R100). -/
def Obligations.SubframeHeaderByteMap : Prop :=
  ∀ x : Byte,
    (128 ≤ x.toNat → decode (.subframeByte x) = .ok (.subframeBadPadding (x.setWidth 7))) ∧
    (x.toNat / 2 = 0 → decode (.subframeByte x) = .ok (.subframeConstant (x.getLsbD 0))) ∧
    (x.toNat / 2 = 1 → decode (.subframeByte x) = .ok (.subframeVerbatim (x.getLsbD 0))) ∧
    (2 ≤ x.toNat / 2 ∧ x.toNat / 2 ≤ 7 ∨ 13 ≤ x.toNat / 2 ∧ x.toNat / 2 ≤ 31 →
      decode (.subframeByte x) = .ok (.subframeReserved (BitVec.ofNat 6 (x.toNat / 2)) (x.getLsbD 0))) ∧
    (∀ o : Fin 5, x.toNat / 2 = 8 + o.val → decode (.subframeByte x) = .ok (fixedInstr o (x.getLsbD 0))) ∧
    (32 ≤ x.toNat / 2 ∧ x.toNat / 2 ≤ 63 →
      decode (.subframeByte x) = .ok (.subframeLpc (BitVec.ofNat 5 (x.toNat / 2 - 32)) (x.getLsbD 0)) ∧
      lpcOrder (BitVec.ofNat 5 (x.toNat / 2 - 32)) = x.toNat / 2 % 32 + 1)

/-- A reserved opcode is an executed command that ends with ILLEGAL_CMD sub-cause 1 and changes no state
other than `LAST_ERR` and the command interface; no other opcode is reserved (`30_encoding.md` R82). -/
def Obligations.ReservedOpcodesAreIllegal : Prop :=
  (∀ (op arg : Byte) (s : State), exec (.reservedOpcode op arg) s = .next (s.errorWith .illegalCmd 1)) ∧
  (∀ op arg : Byte,
    decode (.command (op ++ arg)) = .ok (.reservedOpcode op arg) ↔
      (0x05 ≤ op.toNat ∧ op.toNat ≤ 0x0F) ∨ (0x1A ≤ op.toNat ∧ op.toNat ≤ 0x1F) ∨
      (0x25 ≤ op.toNat ∧ op.toNat ≤ 0x2F) ∨ 0x32 ≤ op.toNat)

/-! ## The step -/

/-- A step runs the decoded instruction: with no host move to come, or after the host gave the block its
turn, a waiting word that decodes to `i` makes the step `exec i`; a composite command in progress goes on;
an idle block stays as it is. The command port and the turns are the model's (log 1, log 3, log 4, log 5,
log 6). -/
def Obligations.StepRunsDecodedInstruction : Prop :=
  (∀ (s : State) (w : CodeWord) (i : Instr), s.host = [] → s.slot = .pending w → decode w = .ok i →
    step s = exec i s) ∧
  (∀ (s t : State) (w : CodeWord) (i : Instr), t = { s with host := .yield :: s.host } →
    s.slot = .pending w → decode w = .ok i → step t = exec i s) ∧
  (∀ (s : State) (w v : Word16), s.host = [] → s.slot = .pending (.sync w) →
    decode (.sync w) = .error (.notASyncPattern v) → step s = .refused (.notASyncPattern v)) ∧
  (∀ s : State, s.host = [] → s.slot = .idle → step s = .next s) ∧
  (∀ s : State, s.host = [] → s.slot = .readingNext → step s = exec (.readNextFrame 0) s) ∧
  (∀ (s : State) (n : Nat), s.host = [] → s.slot = .decoding n → step s = exec (.decode 0) s) ∧
  (∀ (s : State) (nbits w : Nat) (i : Instr), decodeTableWord nbits w = some i →
    step (s.withFetchWord nbits w) = exec i { s with slot := .pending (tableWord nbits w) })

/-- What each move of the host does, and the three moves that break its contract (`20_memory.md` R61, R69,
`70_reset_and_hazards.md` R431, R448; the faults are the model's, log 13, and the effect of a drain of an
empty queue too, log 14). -/
def Obligations.HostMoves : Prop :=
  ∀ (s t : State) (m : HostMove), t = { s with host := m :: s.host } →
    match m with
    | .yield => step t = blockTurn s
    | .issue cmd v =>
      (s.slot = .idle → step t = .next { s with slot := .pending (.command cmd), dataIn := v }) ∧
      (s.slot ≠ .idle → step t = .fault .commandWhileBusy)
    | .supply b =>
      (s.srcEnded = true → step t = .fault .supplyAfterEnd) ∧
      (s.srcEnded = false → s.src.length + 1 < 2 ^ 61 →
        step t = .next { s with src := s.src ++ [(s.src.length, b)] }) ∧
      (s.srcEnded = false → 2 ^ 61 ≤ s.src.length + 1 → step t = .fault .inputTooLong)
    | .endInput => step t = .next { s with srcEnded := true }
    | .drain => step t = .next { s with outq := s.outq.drop 1 }
    | .setStop level => step t = .next { s with stop := level }
    | .powerReset => step t = exec (.softReset 0) s

/-- A byte once supplied stays what it is, and an ended input stays ended and complete, through every step
but a reset; a supplied byte stands at the end of the input, and the input keeps its canonical form
(`20_memory.md` R60, R61). -/
def Obligations.SuppliedBytesNeverChange : Prop :=
  ∀ s t : State, s.src.wf = true → step s = .next t →
    t.src.wf = true ∧
    (¬ s.resetNext →
      (∀ (a : Nat) (b : Byte), s.src.byteAt a = some b → t.src.byteAt a = some b) ∧
      (s.srcEnded = true → t.srcEnded = true ∧ t.src = s.src) ∧
      (∀ b : Byte, s.host.head? = some (.supply b) → t.src.byteAt s.src.length = some b) ∧
      ((∀ b : Byte, s.host.head? ≠ some (.supply b)) → t.src = s.src))

/-! ## Reset and the invariant -/

/-- The reset value of every state element, and of the derived `STATUS` (`70_reset_and_hazards.md` R420).
`CHBUF`, which R420 leaves unspecified, is not mentioned. -/
def Obligations.ResetValues : Prop :=
  State.reset.src = [] ∧ State.reset.srcEnded = false ∧ State.reset.pos = 0 ∧ State.reset.crc16 = 0 ∧
  State.reset.crc8 = 0 ∧ State.reset.phase = .searching ∧ State.reset.lossArmed = true ∧
  State.reset.syncByte1 = 0 ∧ State.reset.frameStart = 0 ∧ State.reset.sfDone = 0 ∧
  State.reset.hdr = ⟨0, 0, 0, .independent, 0, false, 0, 0, 0, 0⟩ ∧
  (∀ c : ChannelIx, State.reset.sfInfo[c].bits = 0) ∧
  State.reset.footer = 0 ∧ State.reset.bufValid = false ∧ State.reset.badFrames = 0 ∧
  State.reset.samplesDecoded = 0 ∧ State.reset.eof = false ∧ State.reset.fatal = false ∧
  State.reset.lastErr = ⟨.ok, 0⟩ ∧ State.reset.sp = ⟨0, 0, 0, 0, 0, 0, 0, 0⟩ ∧
  State.reset.spValid = false ∧ State.reset.outq = [] ∧ State.reset.result = 0 ∧
  State.reset.statusOut = ⟨.ok, 0⟩ ∧ State.reset.statusBits = 0x8

/-- `SOFT_RESET` gives every state element its reset value from any state, whatever the block was doing;
power-on reset does the same; the instance's parameters and the `STOP` input stay (`47_frame.md` R372,
`70_reset_and_hazards.md` R421). `CHBUF` is unspecified, so nothing is said of it. -/
def Obligations.SoftResetRestoresReset : Prop :=
  ∀ s p : State, p = { s with host := .powerReset :: s.host } →
    ∃ t : State, exec (.softReset 0) s = .next t ∧ step p = .next t ∧
      t = { State.reset with
        params := s.params, stop := s.stop, host := s.host, dataIn := t.dataIn, residual := t.residual,
        chbuf := t.chbuf, freeCount := t.freeCount }

/-- The reset state meets the invariant. -/
def Obligations.InvariantHoldsAtReset : Prop := State.reset.Inv

/-- Every step keeps the invariant: the input keeps its canonical form and the cursor stands inside it;
accepted parameters stay acceptable; a frame is in progress only with accepted parameters; the header
registers of a frame in progress or delivered describe a frame the parameters allow; every channel that
counts as decoded holds a sample for each position of the block; a channel holds no more than `BUF_DEPTH`
samples; the working registers are empty between commands. -/
def Obligations.EveryStepKeepsTheInvariant : Prop :=
  ∀ s t : State, s.Inv → step s = .next t → t.Inv

/-! ## Control commands -/

/-- `NOP` writes no state and ends with OK and result 0; its argument must be 0 (`47_frame.md` R374). -/
def Obligations.NopDoesNothing : Prop :=
  ∀ (s : State) (a : Byte),
    decode (.command (0x00#8 ++ a)) = .ok (.nop a) ∧
    exec (.nop 0) s = .next (s.okWith 0) ∧ (a ≠ 0 → exec (.nop a) s = .next (s.errorWith .illegalCmd 2))

/-- `CSR_READ` returns the register at every address of the CSR map, zero-extended, and changes nothing; any
other address is an illegal command with sub-cause 4 (`47_frame.md` R370, `10_state.md` R44). -/
def Obligations.CsrReadReturnsRegister : Prop :=
  ∀ (s : State) (a : Byte),
    decode (.command (0x02#8 ++ a)) = .ok (.csrRead a) ∧
    (∀ v : Word64, (a, v) ∈ csrMap s → exec (.csrRead a) s = .next (s.okWith v)) ∧
    (a ∉ (csrMap s).map Prod.fst → exec (.csrRead a) s = .next (s.errorWith .illegalCmd 4))

/-- The fields of `STATUS` and of `SF_INFO[c]` (`10_state.md` R31, R45); the status word of `LAST_ERR` and
`STATUS_OUT`: `[7:0]` the code, by the numbers of R380, `[15:8]` the sub-cause (`10_state.md` R38, R41,
`60_exceptions.md` R380); the numbers of `HDR_ASSIGN` (`10_state.md` R29). The value of `STATUS` at reset is
one the spec marks as derived from its other rules. -/
def Obligations.StatusAndSubframeInfoLayout : Prop :=
  (∀ s : State,
    s.statusBits.extractLsb' 0 2 =
      (match s.phase with | .searching => 0 | .synced => 1 | .headerDone => 2 | .decorrelated => 3) ∧
    s.statusBits.getLsbD 2 = s.eof ∧ s.statusBits.getLsbD 3 = s.lossArmed ∧
    s.statusBits.getLsbD 4 = s.fatal ∧ s.statusBits.getLsbD 5 = s.spValid ∧
    s.statusBits.getLsbD 6 = s.bufValid ∧ s.statusBits.getLsbD 7 = s.srcEnded ∧
    s.statusBits.extractLsb' 8 4 = s.sfDone ∧ s.statusBits.extractLsb' 12 52 = 0) ∧
  State.reset.statusBits = 0x0000000000000008 ∧
  (∀ i : SfInfo,
    i.bits.extractLsb' 0 3 =
      (match i.kind with | .notDecoded => 0 | .constant => 1 | .verbatim => 2 | .fixed => 3 | .lpc => 4) ∧
    i.bits.extractLsb' 3 6 = i.order ∧ i.bits.extractLsb' 9 6 = i.wasted ∧
    i.bits.extractLsb' 15 6 = i.bpsEff ∧ i.bits.extractLsb' 21 4 = i.lpcPrec ∧
    i.bits.extractLsb' 25 4 = i.lpcShift ∧ i.bits.getLsbD 29 = i.rice2 ∧
    i.bits.extractLsb' 30 4 = i.partOrder ∧ i.bits.extractLsb' 34 30 = 0) ∧
  (∀ st : Status,
    st.bits.extractLsb' 0 8 =
      (match st.code with
        | .ok => 0 | .endOfStream => 1 | .lostSync => 2 | .badHeader => 3 | .badSubframe => 4
        | .nonzeroPadding => 5 | .crcMismatch => 6 | .structural => 7 | .illegalCmd => 8 | .stopped => 9) ∧
    st.bits.extractLsb' 8 8 = st.sub) ∧
  (∀ a : Assign,
    a.bits = (match a with | .independent => 0 | .leftSide => 1 | .rightSide => 2 | .midSide => 3))

/-- `CSR_WRITE`: a parameter register takes the value modulo its width; a write of 1 to `SP_VALID` accepts
parameters that pass the rule of R40 and else ends with STRUCTURAL sub-cause 2, `FATAL` not set; locked,
read-only and reserved addresses and any other value are illegal commands (`47_frame.md` R371,
`10_state.md` R40). -/
def Obligations.CsrWriteRules : Prop :=
  ∀ s : State,
    (∀ a : Byte, decode (.command (0x03#8 ++ a)) = .ok (.csrWrite a)) ∧
    (∀ (a : Byte) (sp : StreamParams), (a, sp) ∈ spWrites s.sp s.dataIn → s.spValid = false →
      exec (.csrWrite a) s = .next (State.okWith 0 { s with sp := sp })) ∧
    (∀ a : Byte, 0x10 ≤ a.toNat → a.toNat ≤ 0x18 → s.spValid = true →
      exec (.csrWrite a) s = .next (s.errorWith .illegalCmd 5)) ∧
    (s.spValid = false → s.dataIn ≠ 1 → exec (.csrWrite 0x18) s = .next (s.errorWith .illegalCmd 2)) ∧
    (s.spValid = false → s.dataIn = 1 → parametersAccepted s.params.bufDepth s.sp →
      exec (.csrWrite 0x18) s = .next (State.okWith 0 { s with spValid := true })) ∧
    (s.spValid = false → s.dataIn = 1 → ¬ parametersAccepted s.params.bufDepth s.sp →
      exec (.csrWrite 0x18) s = .next (s.errorWith .structural 2)) ∧
    (∀ a : Byte, a.toNat < 0x10 ∨ 0x18 < a.toNat →
      exec (.csrWrite a) s = .next (s.errorWith .illegalCmd 4))

/-- `BUF_READ` returns the element of the delivered frame and changes nothing; its three refusals, in
order (`47_frame.md` R373). -/
def Obligations.BufReadReturnsSample : Prop :=
  ∀ (s : State) (c : Byte),
    decode (.command (0x04#8 ++ c)) = .ok (.bufRead c) ∧
    (7 < c.toNat → exec (.bufRead c) s = .next (s.errorWith .illegalCmd 2)) ∧
    (∀ d : ChannelIx, c.toNat = d.val →
      (s.bufValid = false → exec (.bufRead c) s = .next (s.errorWith .illegalCmd 3)) ∧
      (s.bufValid = true →
        (s.hdr.channels.toNat ≤ d.val ∨ s.hdr.blockSize.toNat ≤ s.dataIn.toNat →
          exec (.bufRead c) s = .next (s.errorWith .illegalCmd 6)) ∧
        (d.val < s.hdr.channels.toNat → s.dataIn.toNat < s.hdr.blockSize.toNat →
          exec (.bufRead c) s = .next (s.okWith (s.chbuf[d].read s.dataIn.toNat)) ∧
          ∀ v : Sample, s.chbuf[d].samples[s.dataIn.toNat]? = some v →
            exec (.bufRead c) s = .next (s.okWith v))))

/-- The checks before a command starts, in their order: a reserved opcode; the argument of formats N, W and
C, whatever else is wrong; STRUCTURAL for a frame command without accepted parameters or after `FATAL`,
whatever the phase; the sequence check. The CSR commands check their addresses themselves, then that the
parameters are not locked, then the value (`60_exceptions.md` R392). -/
def Obligations.AdmissionChecksInOrder : Prop :=
  ∀ (s : State) (w : CodeWord), s.slot = .pending w →
    (∀ op arg : Byte, exec (.reservedOpcode op arg) s = .next (s.errorWith .illegalCmd 1)) ∧
    (∀ a : Byte, a ≠ 0 →
      ∀ i ∈ [Instr.nop a, .softReset a, .brReadUnary a, .brIsAligned a, .brAlign a, .brCrc16Reset a,
          .brCrc16Read a, .brCrc8Reset a, .brCrc8Read a, .frFindSync a, .frDecodeHeader a, .frDecorrelate a,
          .frCheckFooter a, .readNextFrame a, .decode a],
        exec i s = .next (s.errorWith .illegalCmd 2)) ∧
    (∀ n : Byte, 64 < n.toNat → ∀ i ∈ [Instr.brReadUint n, .brReadInt n, .brPeekUint n],
      exec i s = .next (s.errorWith .illegalCmd 2)) ∧
    (∀ c : Byte, 7 < c.toNat → ∀ i ∈ [Instr.bufRead c, .frDecodeSubframe c],
      exec i s = .next (s.errorWith .illegalCmd 2)) ∧
    (s.spValid = false ∨ s.fatal = true →
      (∀ i ∈ [Instr.frFindSync 0, .frDecodeHeader 0, .frDecorrelate 0, .frCheckFooter 0, .readNextFrame 0,
          .decode 0],
        exec i s = .next (State.errorWith .structural 1 { s with fatal := true })) ∧
      (∀ c : Byte, c.toNat ≤ 7 →
        exec (.frDecodeSubframe c) s = .next (State.errorWith .structural 1 { s with fatal := true }))) ∧
    (s.spValid = true → s.fatal = false →
      (s.phase ≠ .searching → ∀ i ∈ [Instr.frFindSync 0, .readNextFrame 0, .decode 0],
        exec i s = .next (s.errorWith .illegalCmd 3)) ∧
      (s.phase ≠ .synced → exec (.frDecodeHeader 0) s = .next (s.errorWith .illegalCmd 3)) ∧
      (∀ c : Byte, c.toNat ≤ 7 →
        s.phase ≠ .headerDone ∨ c.toNat ≠ s.sfDone.toNat ∨ s.hdr.channels.toNat ≤ c.toNat →
        exec (.frDecodeSubframe c) s = .next (s.errorWith .illegalCmd 3)) ∧
      (s.phase ≠ .headerDone ∨ s.sfDone ≠ s.hdr.channels →
        exec (.frDecorrelate 0) s = .next (s.errorWith .illegalCmd 3)) ∧
      (s.phase ≠ .decorrelated → exec (.frCheckFooter 0) s = .next (s.errorWith .illegalCmd 3))) ∧
    (∀ c : Byte, c.toNat ≤ 7 → s.bufValid = false →
      exec (.bufRead c) s = .next (s.errorWith .illegalCmd 3)) ∧
    (∀ a : Byte, a ∉ (csrMap s).map Prod.fst → exec (.csrRead a) s = .next (s.errorWith .illegalCmd 4)) ∧
    (∀ a : Byte,
      (a.toNat < 0x10 ∨ 0x18 < a.toNat → exec (.csrWrite a) s = .next (s.errorWith .illegalCmd 4)) ∧
      (0x10 ≤ a.toNat → a.toNat ≤ 0x18 → s.spValid = true →
        exec (.csrWrite a) s = .next (s.errorWith .illegalCmd 5)) ∧
      (a = 0x18 → s.spValid = false → s.dataIn ≠ 1 →
        exec (.csrWrite a) s = .next (s.errorWith .illegalCmd 2)))

/-! ## The bit reader -/

/-- `Consume(n)` moves the cursor by `n` and feeds exactly the bytes it completes to both accumulators, in
byte order, and changes nothing else (`40_bitreader.md` R142). -/
def Obligations.ConsumeFeedsCompletedBytes : Prop :=
  ∀ (s : State) (n : Nat) (bytes : List Byte), s.sourceOk → s.pos.toNat + n ≤ 8 * s.src.length →
    bytes.length = (s.pos.toNat + n) / 8 - s.pos.toNat / 8 → s.src.holds (s.pos.toNat / 8) bytes →
    (s.consume n).pos.toNat = s.pos.toNat + n ∧
    s.consume n =
      { s with
        pos := BitVec.ofNat 64 (s.pos.toNat + n)
        crc16 := bytes.foldl crc16Update s.crc16
        crc8 := bytes.foldl crc8Update s.crc8 }

/-- `BR_READ_UINT n` returns the next `n` bits, first bit most significant, and consumes them; `BR_PEEK_UINT n`
returns the same value and consumes nothing; `BR_READ_INT n` returns the next `n` bits as a two's-complement
number, sign-extended, 0 for `n = 0`, and consumes them (`40_bitreader.md` R131, R132, R135, R143, R144,
R146). -/
def Obligations.FixedWidthReadsReturnBits : Prop :=
  ∀ (s : State) (n : Byte), n.toNat ≤ 64 →
    (∀ v : Nat, v < 2 ^ n.toNat → s.ahead (bitsOf n.toNat v) →
      exec (.brReadUint n) s = .next ((s.consume n.toNat).okWith (BitVec.ofNat 64 v)) ∧
      exec (.brPeekUint n) s = .next (s.okWith (BitVec.ofNat 64 v))) ∧
    (∀ x : Sample, fitsIn n.toNat x → s.ahead (signedBits n.toNat x) →
      exec (.brReadInt n) s = .next ((s.consume n.toNat).okWith x))

/-- `BR_READ_UNARY` returns the count of 0 bits before the next 1 bit and consumes them and the 1
(`40_bitreader.md` R133, R145). -/
def Obligations.ReadUnaryCountsZeros : Prop :=
  ∀ (s : State) (z : Nat), s.ahead (unaryBits z) →
    exec (.brReadUnary 0) s = .next ((s.consume (z + 1)).okWith (BitVec.ofNat 64 z))

/-- `BR_ALIGN` skips to the next byte boundary and returns how many bits it skipped; `BR_IS_ALIGNED` says
whether the cursor is at one (`40_bitreader.md` R134, R147, R148). -/
def Obligations.AlignAndAlignmentQuery : Prop :=
  ∀ s : State,
    (s.sourceOk →
      exec (.brAlign 0) s =
        .next ((s.consume ((8 - s.pos.toNat % 8) % 8)).okWith
          (BitVec.ofNat 64 ((8 - s.pos.toNat % 8) % 8))) ∧
      (s.consume ((8 - s.pos.toNat % 8) % 8)).pos.toNat % 8 = 0) ∧
    (s.pos.toNat % 8 = 0 → exec (.brIsAligned 0) s = .next (s.okWith 1)) ∧
    (s.pos.toNat % 8 ≠ 0 → exec (.brIsAligned 0) s = .next (s.okWith 0))

/-- The four CRC accumulator commands (`40_bitreader.md` R149 to R152). -/
def Obligations.CrcAccumulatorCommands : Prop :=
  ∀ s : State,
    (decode (.command 0x1600) = .ok (.brCrc16Reset 0) ∧ decode (.command 0x1700) = .ok (.brCrc16Read 0) ∧
      decode (.command 0x1800) = .ok (.brCrc8Reset 0) ∧ decode (.command 0x1900) = .ok (.brCrc8Read 0)) ∧
    exec (.brCrc16Reset 0) s = .next (State.okWith 0 { s with crc16 := 0 }) ∧
    exec (.brCrc16Read 0) s = .next (s.okWith (s.crc16.setWidth 64)) ∧
    exec (.brCrc8Reset 0) s = .next (State.okWith 0 { s with crc8 := 0 }) ∧
    exec (.brCrc8Read 0) s = .next (s.okWith (s.crc8.setWidth 64))

/-- A bit-reader read that needs a bit past the supplied input ends with END_OF_STREAM when the source has
ended, with `EOF` set and nothing else changed, and changes no state at all while it has not
(`40_bitreader.md` R153, `20_memory.md` R62; that a hold is a step that changes nothing is the model's,
log 5). -/
def Obligations.ReaderRunsOutOfBits : Prop :=
  ∀ (s : State) (i : Instr), s.sourceOk →
    (∃ n : Byte, n.toNat ≤ 64 ∧ 8 * s.src.length < s.pos.toNat + n.toNat ∧
      (i = .brReadUint n ∨ i = .brReadInt n ∨ i = .brPeekUint n)) ∨
    (i = .brReadUnary 0 ∧
      ∀ p : Nat, s.pos.toNat ≤ p → p < 8 * s.src.length → s.src.bitAt p = some false) →
    (s.srcEnded = true → exec i s = .next (State.errorWith .endOfStream 0 { s with eof := true })) ∧
    (s.srcEnded = false → exec i s = .next s)

/-- The frame of every bit-reader command: whatever it answers, it changes at most the cursor, the two
accumulators, `EOF`, `LAST_ERR` and the command interface; every byte of the input stays
(`40_bitreader.md` R153). -/
def Obligations.BitReaderFrame : Prop :=
  ∀ (s t : State) (i : Instr) (a : Byte),
    i ∈ [Instr.brReadUint a, .brReadInt a, .brReadUnary a, .brPeekUint a, .brIsAligned a, .brAlign a,
      .brCrc16Reset a, .brCrc16Read a, .brCrc8Reset a, .brCrc8Read a] →
    exec i s = .next t →
    t = { s with
      pos := t.pos, crc16 := t.crc16, crc8 := t.crc8, eof := t.eof, lastErr := t.lastErr, slot := t.slot,
      result := t.result, statusOut := t.statusOut } ∧
    (∀ k : Nat, t.src.byteAt k = s.src.byteAt k) ∧
    (t.eof ≠ s.eof → t.statusOut = ⟨.endOfStream, 0⟩)

/-- The published check values of both CRCs, over the ASCII bytes `123456789`, and the residue: bytes followed
by their own CRC leave an accumulator at 0, from any start value (`40_bitreader.md` R140, R141, and R154, which
the spec marks as derived from them). -/
def Obligations.CrcCheckValuesAndResidue : Prop :=
  [0x31, 0x32, 0x33, 0x34, 0x35, 0x36, 0x37, 0x38, 0x39].foldl crc8Update 0 = 0xF4 ∧
  [0x31, 0x32, 0x33, 0x34, 0x35, 0x36, 0x37, 0x38, 0x39].foldl crc16Update 0 = 0xFEE8 ∧
  (∀ (c : Byte) (bytes : List Byte),
    (bytes ++ [bytes.foldl crc8Update c]).foldl crc8Update c = 0) ∧
  (∀ (c : Word16) (bytes : List Byte),
    (bytes ++ [(bytes.foldl crc16Update c).extractLsb' 8 8, (bytes.foldl crc16Update c).extractLsb' 0 8]).foldl
      crc16Update c = 0)

/-- Both CRCs detect a change of any single byte, so of any single bit (`47_frame.md` R344, which the spec marks
as derived; a change of a whole byte is this statement's own strengthening). -/
def Obligations.CrcDetectsOneChangedByte : Prop :=
  ∀ (before after : List Byte) (x y : Byte), x ≠ y →
    (∀ c : Byte, (before ++ x :: after).foldl crc8Update c ≠ (before ++ y :: after).foldl crc8Update c) ∧
    (∀ c : Word16, (before ++ x :: after).foldl crc16Update c ≠ (before ++ y :: after).foldl crc16Update c)

/-! ## The synchronizer -/

/-- `FR_FIND_SYNC` finds the first sync pattern from the next byte boundary on: the bytes before it are
consumed, with one `LOST_SYNC` event for the first of them if the loss flag was set; both accumulators
restart over the two sync bytes; the result is the index of the `0xFF` byte (`41_sync.md` R160, R162 to
R164). -/
def Obligations.FindSyncFindsFirstSync : Prop :=
  ∀ (s : State) (lost : List Byte) (x y : Byte) (start : Nat), s.sourceOk → s.spValid = true →
    s.fatal = false → s.phase = .searching →
    (s.sp.totalSamples = 0 ∨ s.samplesDecoded.toNat < s.sp.totalSamples.toNat) →
    start = (s.pos.toNat + 7) / 8 → s.src.holds start (lost ++ [x, y]) → syncPair x y →
    noSyncIn (lost ++ [x]) →
    ∃ t : State, exec (.frFindSync 0) s = .next t ∧
      t = { s with
        pos := BitVec.ofNat 64 (8 * (start + lost.length + 2))
        crc16 := crc16Update (crc16Update 0 0xFF) y
        crc8 := crc8Update (crc8Update 0 0xFF) y
        syncByte1 := y
        frameStart := BitVec.ofNat 64 (start + lost.length)
        lossArmed := true
        phase := .synced
        outq := s.outq ++
          (if s.lossArmed = true ∧ lost ≠ []
            then [.event ⟨.lostSync, 0, BitVec.ofNat 64 start, 0, 0⟩] else [])
        slot := .idle
        statusOut := ⟨.ok, 0⟩
        result := BitVec.ofNat 64 (start + lost.length) }

/-- The two ends of the search. When the sample count is reached, `FR_FIND_SYNC` ends with END_OF_STREAM and
no bit consumed; `READ_NEXT_FRAME` and `DECODE` end with it (`41_sync.md` R161). When no sync stands in the
rest of the input, it holds while the source has not ended, changing nothing; else it ends with
END_OF_STREAM, all bytes consumed and the first lost one reported if the loss flag was set (R165). -/
def Obligations.FindSyncEnds : Prop :=
  ∀ s : State, s.spValid = true → s.fatal = false → s.phase = .searching →
    (s.sp.totalSamples ≠ 0 → s.sp.totalSamples.toNat ≤ s.samplesDecoded.toNat →
      exec (.frFindSync 0) s = .next (State.errorWith .endOfStream 0 { s with eof := true }) ∧
      exec (.readNextFrame 0) s = .next (State.errorWith .endOfStream 0 { s with eof := true }) ∧
      ((∀ n : Nat, s.slot ≠ .decoding n) →
        exec (.decode 0) s = .next (State.errorWith .endOfStream 0 { s with eof := true }))) ∧
    (∀ (rest : List Byte) (start : Nat), s.sourceOk →
      (s.sp.totalSamples = 0 ∨ s.samplesDecoded.toNat < s.sp.totalSamples.toNat) →
      start = (s.pos.toNat + 7) / 8 → s.src.holds start rest → start + rest.length = s.src.length →
      noSyncIn rest →
      (s.srcEnded = false → exec (.frFindSync 0) s = .next s) ∧
      (s.srcEnded = true →
        ∃ t : State, exec (.frFindSync 0) s = .next t ∧
          t = { s with
            pos := BitVec.ofNat 64 (8 * s.src.length)
            crc16 := t.crc16
            crc8 := t.crc8
            lossArmed := if rest = [] ∨ rest = [0xFF] then s.lossArmed else false
            outq := s.outq ++
              (if s.lossArmed = true ∧ rest ≠ [] ∧ rest ≠ [0xFF]
                then [.event ⟨.lostSync, 0, BitVec.ofNat 64 start, 0, 0⟩] else [])
            eof := true
            slot := .idle
            statusOut := ⟨.endOfStream, 0⟩
            lastErr := ⟨.endOfStream, 0⟩
            result := 0 } ∧
          t.crc16 = (s.consume (8 * s.src.length - s.pos.toNat)).crc16 ∧
          t.crc8 = (s.consume (8 * s.src.length - s.pos.toNat)).crc8))

/-- The sync pattern as an instruction: the writes of a match, for a frame whose two sync bytes end at the
cursor (`41_sync.md` R163). That the pattern is an instruction of its own is the model's reading of the
opcode table (log 2). -/
def Obligations.FrameSyncCodeStartsFrame : Prop :=
  ∀ (s : State) (reserved blocking : Bool) (y : Byte) (a : Word64),
    y = 0xF8 + (if reserved then 2 else 0) + (if blocking then 1 else 0) → a = (s.pos >>> 3) - 2 →
    exec (.frameSync reserved blocking) s = .next (State.okWith a
      { s with
        crc16 := crc16Update (crc16Update 0 0xFF) y
        crc8 := crc8Update (crc8Update 0 0xFF) y
        syncByte1 := y
        frameStart := a
        lossArmed := true
        phase := .synced })

/-! ## The header decoder -/

/-- A header is read back from its encoding: for every combination of codes, coded number and extra bits
that is not rejected, `FR_DECODE_HEADER` writes the header registers with the values the codes stand for,
resets the frame's other registers and emits the `Header` record; the result is the block size
(`42_header.md` R180 to R195, `30_encoding.md` R91 to R97). -/
def Obligations.HeaderReadsBack : Prop :=
  ∀ (s : State) (h : HeaderFields) (crc : Byte), s.spValid = true → s.fatal = false → s.phase = .synced →
    s.syncByte1.getLsbD 1 = false → s.syncByte1.getLsbD 0 = h.blocking → h.coded s.params s.sp →
    h.blockSize ≤ s.sp.maxBlock.toNat → crc = (s.consume h.bits.length).crc8 →
    s.ahead (h.bits ++ byteBits crc) →
    exec (.frDecodeHeader 0) s =
      .next (((s.consume (h.bits.length + 8)).withHeader h crc).okWith (BitVec.ofNat 64 h.blockSize))

/-- The first failing check of a header byte decides: the reserved bit of the sync byte before any read; the
block-size code, then the sample-rate code; the channel code, then the sample-size code, then the reserved
bit. Each is a BadFrame that keeps the bits consumed before it and nothing else of the header
(`42_header.md` R181 to R184, `60_exceptions.md` R384, R393). -/
def Obligations.HeaderBytesRejected : Prop :=
  ∀ s : State, s.spValid = true → s.fatal = false → s.phase = .synced →
    (s.syncByte1.getLsbD 1 = true →
      exec (.frDecodeHeader 0) s = .next (s.badFrameAfter 0 .badHeader 2 0 0)) ∧
    (s.syncByte1.getLsbD 1 = false → ∀ b2 : Byte,
      (s.ahead (byteBits b2) → b2.toNat / 16 = 0 →
        exec (.frDecodeHeader 0) s = .next (s.badFrameAfter 8 .badHeader 3 0 0)) ∧
      (s.ahead (byteBits b2) → b2.toNat / 16 ≠ 0 → b2.toNat % 16 = 15 →
        exec (.frDecodeHeader 0) s = .next (s.badFrameAfter 8 .badHeader 4 0 0)) ∧
      (∀ b3 : Byte, s.ahead (byteBits b2 ++ byteBits b3) → b2.toNat / 16 ≠ 0 → b2.toNat % 16 ≠ 15 →
        (11 ≤ b3.toNat / 16 →
          exec (.frDecodeHeader 0) s = .next (s.badFrameAfter 16 .badHeader 5 0 0)) ∧
        (b3.toNat / 16 ≤ 10 →
          (b3.toNat / 2 % 8 = 3 ∨ (b3.toNat / 2 % 8 = 7 ∧ s.params.bps7 = .reserved) →
            exec (.frDecodeHeader 0) s = .next (s.badFrameAfter 16 .badHeader 6 0 0)) ∧
          (b3.toNat / 2 % 8 ≠ 3 → (b3.toNat / 2 % 8 = 7 → s.params.bps7 = .bits32) → b3.toNat % 2 = 1 →
            exec (.frDecodeHeader 0) s = .next (s.badFrameAfter 16 .badHeader 2 0 0)))))

/-- A header whose codes are legal is rejected for a bad first byte or continuation byte of the coded number,
which is consumed; for a CRC-8 mismatch, with both values in the event; and, the CRC-8 being right, for a
block size above `SP_MAX_BLOCK` (`42_header.md` R187, R190, R193). -/
def Obligations.HeaderNumberCrcAndSizeRejected : Prop :=
  ∀ s : State, s.spValid = true → s.fatal = false → s.phase = .synced → s.syncByte1.getLsbD 1 = false →
    (∀ b2 b3 lead : Byte, headBytesOk s.params b2 b3 → leadInvalid (s.syncByte1.getLsbD 0) lead →
      s.ahead (byteBits b2 ++ byteBits b3 ++ byteBits lead) →
      exec (.frDecodeHeader 0) s = .next (s.badFrameAfter 24 .badHeader 7 0 0)) ∧
    (∀ (b2 b3 lead bad : Byte) (good : List Byte), headBytesOk s.params b2 b3 →
      ¬ leadInvalid (s.syncByte1.getLsbD 0) lead → good.length < continuationsOf lead →
      (∀ b ∈ good, b.toNat / 64 = 2) → bad.toNat / 64 ≠ 2 →
      s.ahead (byteBits b2 ++ byteBits b3 ++ byteBits lead ++ good.flatMap byteBits ++ byteBits bad) →
      exec (.frDecodeHeader 0) s =
        .next (s.badFrameAfter (32 + 8 * good.length) .badHeader 7 0 0)) ∧
    (∀ (h : HeaderFields) (expected actual : Byte), s.syncByte1.getLsbD 0 = h.blocking →
      h.coded s.params s.sp → expected = (s.consume h.bits.length).crc8 →
      s.ahead (h.bits ++ byteBits actual) →
      (expected ≠ actual →
        exec (.frDecodeHeader 0) s =
          .next (s.badFrameAfter (h.bits.length + 8) .badHeader 1 (expected.setWidth 16)
            (actual.setWidth 16))) ∧
      (expected = actual → s.sp.maxBlock.toNat < h.blockSize →
        exec (.frDecodeHeader 0) s = .next (s.badFrameAfter (h.bits.length + 8) .badHeader 8 0 0)))

/-- The frame of `FR_FIND_SYNC` and `FR_DECODE_HEADER`: what they may change, whatever they answer; a header
that fails leaves the header registers, `SF_INFO` and `BUF_VALID` as they were, and its `Header` record is
emitted only with OK (`10_state.md` R29, R33, `41_sync.md` R160, `42_header.md` R180). -/
def Obligations.SyncAndHeaderFrame : Prop :=
  ∀ (s t : State) (a : Byte),
    (exec (.frFindSync a) s = .next t →
      t = { s with
        pos := t.pos, crc16 := t.crc16, crc8 := t.crc8, syncByte1 := t.syncByte1,
        frameStart := t.frameStart, lossArmed := t.lossArmed, phase := t.phase, eof := t.eof,
        outq := t.outq, fatal := t.fatal, lastErr := t.lastErr, slot := t.slot, result := t.result,
        statusOut := t.statusOut } ∧
      ∀ k : Nat, t.src.byteAt k = s.src.byteAt k) ∧
    (exec (.frDecodeHeader a) s = .next t →
      t = { s with
        pos := t.pos, crc16 := t.crc16, crc8 := t.crc8, hdr := t.hdr, sfInfo := t.sfInfo,
        sfDone := t.sfDone, bufValid := t.bufValid, phase := t.phase, eof := t.eof, outq := t.outq,
        badFrames := t.badFrames, fatal := t.fatal, lastErr := t.lastErr, slot := t.slot,
        result := t.result, statusOut := t.statusOut } ∧
      (∀ k : Nat, t.src.byteAt k = s.src.byteAt k) ∧
      (t ≠ s → t.statusOut ≠ ⟨.ok, 0⟩ →
        t.hdr = s.hdr ∧ t.sfInfo = s.sfInfo ∧ t.bufValid = s.bufValid ∧
        ∀ h : HeaderRecord, Record.header h ∈ t.outq → Record.header h ∈ s.outq))

/-! ## Subframes -/

/-- `FR_DECODE_SUBFRAME c` reads the header byte and runs the code it selects; a code that holds holds the
command, the header byte not consumed (`43_subframe.md` R230, R233). That the codes are instructions of
their own is the model's reading of the opcode table (log 2), and so is that a failed code loses its channel
as the command does (log 9). -/
def Obligations.SubframeCommandRunsItsCode : Prop :=
  ∀ (s t : State) (c : ChannelIx) (x : Byte) (i : Instr), s.spValid = true → s.fatal = false →
    s.phase = .headerDone → s.sfDone.toNat = c.val → c.val < s.hdr.channels.toNat →
    s.ahead (byteBits x) → decode (.subframeByte x) = .ok i → exec i (s.consume 8) = .next t →
    exec (.frDecodeSubframe (BitVec.ofNat 8 c.val)) s = .next (if t = s.consume 8 then s else t)

/-- CONSTANT: one value of the sample width, restored by the wasted bits and replicated over the block;
`SF_INFO[c]` and `SF_DONE` are written (`43_subframe.md` R230 to R237). Stated for the command and, after its
header byte, for the code (the model's reading, log 2). That the channel's elements at or after the block size,
and channels at or above `HDR_CHANNELS`, stay as they were is the model's choice (log 11;
`93_implementation_defined.md` allows any value). -/
def Obligations.ConstantSubframeReadsBack : Prop :=
  ∀ (s : State) (c : ChannelIx) (k : Nat) (v : Sample) (info : SfInfo) (body : List Bool),
    s.sfDone.toNat = c.val → k < s.depthOf c → fitsIn (s.depthOf c - k) v →
    info = ⟨.constant, 0, BitVec.ofNat 6 k, BitVec.ofNat 6 (s.depthOf c), 0, 0, false, 0⟩ →
    body = wastedCode k ++ signedBits (s.depthOf c - k) v →
    (s.ahead body →
      exec (.subframeConstant (decide (0 < k))) s =
        .next ((s.withSubframe c info (List.replicate s.hdr.blockSize.toNat (v <<< k))
          body.length).okWith 0)) ∧
    (s.spValid = true → s.fatal = false → s.phase = .headerDone → c.val < s.hdr.channels.toNat →
      s.ahead (byteBits (if k = 0 then 0x00 else 0x01) ++ body) →
      exec (.frDecodeSubframe (BitVec.ofNat 8 c.val)) s =
        .next ((s.withSubframe c info (List.replicate s.hdr.blockSize.toNat (v <<< k))
          (8 + body.length)).okWith 0))

/-- VERBATIM: one value of the sample width per position, each restored by the wasted bits
(`43_subframe.md` R230 to R236, R238). Stated for the command and, after its header byte, for the code (the
model's reading, log 2). That the channel's elements at or after the block size, and channels at or above
`HDR_CHANNELS`, stay as they were is the model's choice (log 11; `93_implementation_defined.md` allows any
value). -/
def Obligations.VerbatimSubframeReadsBack : Prop :=
  ∀ (s : State) (c : ChannelIx) (k : Nat) (xs : List Sample) (info : SfInfo) (body : List Bool),
    s.sfDone.toNat = c.val → k < s.depthOf c → xs.length = s.hdr.blockSize.toNat →
    (∀ x ∈ xs, fitsIn (s.depthOf c - k) x) →
    info = ⟨.verbatim, 0, BitVec.ofNat 6 k, BitVec.ofNat 6 (s.depthOf c), 0, 0, false, 0⟩ →
    body = wastedCode k ++ xs.flatMap (signedBits (s.depthOf c - k)) →
    (s.ahead body →
      exec (.subframeVerbatim (decide (0 < k))) s =
        .next ((s.withSubframe c info (xs.map fun x : Sample => x <<< k) body.length).okWith 0)) ∧
    (s.spValid = true → s.fatal = false → s.phase = .headerDone → c.val < s.hdr.channels.toNat →
      s.ahead (byteBits (if k = 0 then 0x02 else 0x03) ++ body) →
      exec (.frDecodeSubframe (BitVec.ofNat 8 c.val)) s =
        .next ((s.withSubframe c info (xs.map fun x : Sample => x <<< k) (8 + body.length)).okWith 0))

/-- FIXED, all five orders (the codes `SUBFRAME_FIXED0` to `SUBFRAME_FIXED4`): from any warm-up samples and
any residual that the format can code, either method, any partition order and any mix of Rice and escaped
partitions, folded values of `2^64` and more among them, which wrap, the code rebuilds the block in which
each later sample is its prediction plus its residual (`44_fixed.md` R260 to R265, `45_lpc_rice.md` R290 to
R299). The code follows its header byte (the model's reading, log 2). That the channel's elements at or after
the block size, and channels at or above `HDR_CHANNELS`, stay as they were is the model's choice (log 11;
`93_implementation_defined.md` allows any value). -/
def Obligations.FixedSubframeReadsBack : Prop :=
  ∀ (s : State) (c : ChannelIx) (o : Fin 5) (k : Nat) (warm : List Sample) (rice2 : Bool) (po : Nat)
    (parts : List Part) (body : List Bool),
    s.sfDone.toNat = c.val → k < s.depthOf c → o.val ≤ s.hdr.blockSize.toNat → warm.length = o.val →
    (∀ x ∈ warm, fitsIn (s.depthOf c - k) x) →
    partsFit (escapeValue rice2) s.hdr.blockSize.toNat o.val po parts →
    body = wastedCode k ++ (warm.flatMap (signedBits (s.depthOf c - k)) ++ residualBits rice2 po parts) →
    s.ahead body →
    ∃ xs : List Sample, Predicted (predictFixed o) warm (residualsOf parts) xs ∧
      xs.length = s.hdr.blockSize.toNat ∧
      exec (fixedInstr o (decide (0 < k))) s =
        .next ((s.withSubframe c
          ⟨.fixed, BitVec.ofNat 6 o.val, BitVec.ofNat 6 k, BitVec.ofNat 6 (s.depthOf c), 0, 0, rice2,
            BitVec.ofNat 4 po⟩
          (xs.map fun x : Sample => x <<< k) body.length).okWith 0)

/-- LPC, every order, precision, shift, coefficients and residual the format can code, folded values of
`2^64` and more among them, which wrap: the code `SUBFRAME_LPC` rebuilds the block in which each later sample
is the shifted weighted sum of the samples before it plus its residual (`45_lpc_rice.md` R280 to R299). The
code follows its header byte (the model's reading, log 2). That the channel's elements at or after the block
size, and channels at or above `HDR_CHANNELS`, stay as they were is the model's choice (log 11;
`93_implementation_defined.md` allows any value). -/
def Obligations.LpcSubframeReadsBack : Prop :=
  ∀ (s : State) (c : ChannelIx) (om1 : BitVec 5) (o k : Nat) (warm coeff : List Sample) (prec shift : Nat)
    (rice2 : Bool) (po : Nat) (parts : List Part) (body : List Bool),
    o = om1.toNat + 1 → s.sfDone.toNat = c.val → k < s.depthOf c → o ≤ s.hdr.blockSize.toNat →
    warm.length = o → coeff.length = o → (∀ x ∈ warm, fitsIn (s.depthOf c - k) x) →
    1 ≤ prec → prec ≤ 15 → shift ≤ 15 → (∀ x ∈ coeff, fitsIn prec x) →
    partsFit (escapeValue rice2) s.hdr.blockSize.toNat o po parts →
    body = wastedCode k ++ (warm.flatMap (signedBits (s.depthOf c - k)) ++ (bitsOf 4 (prec - 1) ++
      (bitsOf 5 shift ++ (coeff.flatMap (signedBits prec) ++ residualBits rice2 po parts)))) →
    s.ahead body →
    ∃ xs : List Sample, Predicted (predictLpc coeff shift) warm (residualsOf parts) xs ∧
      xs.length = s.hdr.blockSize.toNat ∧
      exec (.subframeLpc om1 (decide (0 < k))) s =
        .next ((s.withSubframe c
          ⟨.lpc, BitVec.ofNat 6 o, BitVec.ofNat 6 k, BitVec.ofNat 6 (s.depthOf c), BitVec.ofNat 4 prec,
            BitVec.ofNat 4 shift, rice2, BitVec.ofNat 4 po⟩
          (xs.map fun x : Sample => x <<< k) body.length).okWith 0)

/-- The two residual methods read back every residual the format can code, into the working registers: the
values, the method and the partition order; a Rice code's folded value may have any size and wraps modulo
`2^64`, and every 64-bit residual has a folded value (`45_lpc_rice.md` R290 to R299, `30_encoding.md` R105).
The methods as instructions and the working registers are the model's (log 2, log 17). -/
def Obligations.ResidualReadsBack : Prop :=
  ∀ (s : State) (po : Nat) (parts : List Part),
    (partsFit 15 s.hdr.blockSize.toNat s.residual.order.toNat po parts → s.ahead (partsBits 4 15 po parts) →
      exec .residualRice s =
        .next (((s.consume (partsBits 4 15 po parts).length).setResidual
          ⟨s.residual.order, false, BitVec.ofNat 4 po, residualsOf parts⟩).okWith 0)) ∧
    (partsFit 31 s.hdr.blockSize.toNat s.residual.order.toNat po parts → s.ahead (partsBits 5 31 po parts) →
      exec .residualRice2 s =
        .next (((s.consume (partsBits 5 31 po parts).length).setResidual
          ⟨s.residual.order, true, BitVec.ofNat 4 po, residualsOf parts⟩).okWith 0)) ∧
    (∀ x : Sample, foldOf x < 2 ^ 64 ∧ residualOfFold (foldOf x) = x)

/-- The reserved codes end the frame at once, with no further bit read: a subframe header byte with its
padding bit set or of a reserved type, a reserved residual method, a reserved channel code
(`43_subframe.md` R232, R239, `45_lpc_rice.md` R291, `42_header.md` R184, `60_exceptions.md` R384). The codes
as instructions are the model's (log 2), and so is what a failed subframe, or a failed residual by itself,
leaves of its channel and of the working registers (log 9). -/
def Obligations.ReservedCodesEndTheFrame : Prop :=
  ∀ (s : State) (c : ChannelIx), s.sfDone.toNat = c.val →
    (∀ rest : BitVec 7, ∃ t : State, exec (.subframeBadPadding rest) s = .next t ∧
      State.losesChannel c (s.badFrameAfter 0 .badSubframe 1 0 0) t) ∧
    (∀ (type : BitVec 6) (w : Bool), ∃ t : State, exec (.subframeReserved type w) s = .next t ∧
      State.losesChannel c (s.badFrameAfter 0 .badSubframe 2 0 0) t) ∧
    (∀ low : Bool, ∃ t : State, exec (.residualReserved low) s = .next t ∧
      State.losesChannel c (s.badFrameAfter 0 .badSubframe 7 0 0) t) ∧
    (∀ code : BitVec 4, exec (.chReserved code) s = .next (s.badFrameAfter 0 .badHeader 5 0 0))

/-- A subframe is rejected for a wasted-bits count not below the effective depth, and, the count being legal,
for an order above the block size, before any warm-up sample is read (`43_subframe.md` R233, R234, R240).
Stated for the codes, which follow their header byte (codes as instructions are the model's, log 2); so is
what a failed code leaves of its channel (log 9). Sub-cause 3 before 4 is read from the order of the rules
(log 20). -/
def Obligations.SubframeHeaderRejected : Prop :=
  ∀ (s : State) (c : ChannelIx), s.sfDone.toNat = c.val →
    (∀ (z : Nat) (o : Fin 5) (om1 : BitVec 5), s.depthOf c ≤ z + 1 → s.ahead (unaryBits z) →
      ∀ i ∈ [Instr.subframeConstant true, .subframeVerbatim true, fixedInstr o true,
          .subframeLpc om1 true],
        ∃ t : State, exec i s = .next t ∧
          State.losesChannel c (s.badFrameAfter (z + 1) .badSubframe 3 0 0) t) ∧
    (∀ (k : Nat) (o : Fin 5), k < s.depthOf c → s.hdr.blockSize.toNat < o.val → s.ahead (wastedCode k) →
      ∃ t : State, exec (fixedInstr o (decide (0 < k))) s = .next t ∧
        State.losesChannel c (s.badFrameAfter (wastedCode k).length .badSubframe 4 0 0) t) ∧
    (∀ (k : Nat) (om1 : BitVec 5), k < s.depthOf c → s.hdr.blockSize.toNat < om1.toNat + 1 →
      s.ahead (wastedCode k) →
      ∃ t : State, exec (.subframeLpc om1 (decide (0 < k))) s = .next t ∧
        State.losesChannel c (s.badFrameAfter (wastedCode k).length .badSubframe 4 0 0) t)

/-- The body of a subframe is rejected for an LPC precision code 15, a negative LPC shift, a reserved residual
method (FIXED and LPC) and a partition order that does not fit the block (FIXED, LPC and the two residual
methods by themselves), each as soon as its field is read; the fields before it are consumed
(`45_lpc_rice.md` R281, R291, R292, `60_exceptions.md` R383, R393). Stated for the codes, which follow their
header byte or method code (codes as instructions are the model's, log 2); so is what a failed code leaves of
its channel (log 9). -/
def Obligations.SubframeBodyRejected : Prop :=
  ∀ (s : State) (c : ChannelIx), s.sfDone.toNat = c.val →
    (∀ (k : Nat) (warm : List Sample) (head : List Bool),
      k < s.depthOf c → (∀ x ∈ warm, fitsIn (s.depthOf c - k) x) → warm.length ≤ s.hdr.blockSize.toNat →
      head = wastedCode k ++ warm.flatMap (signedBits (s.depthOf c - k)) →
      (∀ om1 : BitVec 5, warm.length = om1.toNat + 1 →
        (s.ahead (head ++ bitsOf 4 15) →
          ∃ t : State, exec (.subframeLpc om1 (decide (0 < k))) s = .next t ∧
            State.losesChannel c (s.badFrameAfter (head.length + 4) .badSubframe 5 0 0) t) ∧
        (∀ p sh : Nat, p < 15 → 16 ≤ sh → sh < 32 → s.ahead (head ++ bitsOf 4 p ++ bitsOf 5 sh) →
          ∃ t : State, exec (.subframeLpc om1 (decide (0 < k))) s = .next t ∧
            State.losesChannel c (s.badFrameAfter (head.length + 9) .badSubframe 6 0 0) t) ∧
        (∀ (p sh : Nat) (coeff : List Sample) (params : List Bool), p < 15 → sh < 16 →
          coeff.length = om1.toNat + 1 → (∀ x ∈ coeff, fitsIn (p + 1) x) →
          params = head ++ (bitsOf 4 p ++ (bitsOf 5 sh ++ coeff.flatMap (signedBits (p + 1)))) →
          (∀ m : Nat, 2 ≤ m → m < 4 → s.ahead (params ++ bitsOf 2 m) →
            ∃ t : State, exec (.subframeLpc om1 (decide (0 < k))) s = .next t ∧
              State.losesChannel c (s.badFrameAfter (params.length + 2) .badSubframe 7 0 0) t) ∧
          (∀ m po : Nat, m < 2 → po < 16 →
            s.hdr.blockSize.toNat % 2 ^ po ≠ 0 ∨ s.hdr.blockSize.toNat / 2 ^ po < om1.toNat + 1 →
            s.ahead (params ++ bitsOf 2 m ++ bitsOf 4 po) →
            ∃ t : State, exec (.subframeLpc om1 (decide (0 < k))) s = .next t ∧
              State.losesChannel c (s.badFrameAfter (params.length + 6) .badSubframe 8 0 0) t))) ∧
      (∀ o : Fin 5, warm.length = o.val →
        (∀ m : Nat, 2 ≤ m → m < 4 → s.ahead (head ++ bitsOf 2 m) →
          ∃ t : State, exec (fixedInstr o (decide (0 < k))) s = .next t ∧
            State.losesChannel c (s.badFrameAfter (head.length + 2) .badSubframe 7 0 0) t) ∧
        (∀ m po : Nat, m < 2 → po < 16 →
          s.hdr.blockSize.toNat % 2 ^ po ≠ 0 ∨ s.hdr.blockSize.toNat / 2 ^ po < o.val →
          s.ahead (head ++ bitsOf 2 m ++ bitsOf 4 po) →
          ∃ t : State, exec (fixedInstr o (decide (0 < k))) s = .next t ∧
            State.losesChannel c (s.badFrameAfter (head.length + 6) .badSubframe 8 0 0) t))) ∧
    (∀ po : Nat, po < 16 →
      s.hdr.blockSize.toNat % 2 ^ po ≠ 0 ∨ s.hdr.blockSize.toNat / 2 ^ po < s.residual.order.toNat →
      s.ahead (bitsOf 4 po) → ∀ i ∈ [Instr.residualRice, .residualRice2],
      ∃ t : State, exec i s = .next t ∧
        State.losesChannel c (s.badFrameAfter 4 .badSubframe 8 0 0) t)

/-- The frame of every instruction of the subframe family, whatever it answers: no header register, counter
of samples, parameter or footer changes, no channel but the one being decoded, no byte of the input; a
subframe that does not end with OK leaves `SF_INFO` as it was, and one that ends with END_OF_STREAM all of
`CHBUF` too (`43_subframe.md` R230, R240, `60_exceptions.md` R384, R386). All of them but `FR_DECODE_SUBFRAME` are codes, which as instructions are the
model's (log 2): the channel being decoded is then `SF_DONE` modulo 8, and a BAD_SUBFRAME loses it alone (log 9). That
channels at or above `HDR_CHANNELS` stay is the model's choice too (log 11). -/
def Obligations.SubframeFrame : Prop :=
  ∀ (s t : State) (i : Instr) (a : Byte) (o : Fin 5) (om1 : BitVec 5) (type : BitVec 6) (rest : BitVec 7)
    (w low : Bool),
    i ∈ [Instr.frDecodeSubframe a, .subframeConstant w, .subframeVerbatim w, fixedInstr o w,
      .subframeLpc om1 w, .subframeReserved type w, .subframeBadPadding rest, .residualRice, .residualRice2,
      .residualReserved low] →
    exec i s = .next t →
    t = { s with
      pos := t.pos, crc16 := t.crc16, crc8 := t.crc8, chbuf := t.chbuf, freeCount := t.freeCount,
      sfInfo := t.sfInfo, sfDone := t.sfDone, residual := t.residual, phase := t.phase, eof := t.eof,
      outq := t.outq, badFrames := t.badFrames, fatal := t.fatal, lastErr := t.lastErr, slot := t.slot,
      result := t.result, statusOut := t.statusOut } ∧
    (∀ k : Nat, t.src.byteAt k = s.src.byteAt k) ∧
    (∀ d : ChannelIx, d.val ≠ s.sfDone.toNat % 8 → t.chbuf[d] = s.chbuf[d] ∧ t.sfInfo[d] = s.sfInfo[d]) ∧
    (t.statusOut ≠ ⟨.ok, 0⟩ → t.sfInfo = s.sfInfo) ∧
    (t.statusOut = ⟨.endOfStream, 0⟩ → t.chbuf = s.chbuf ∧ t.freeCount = s.freeCount)

/-! ## Channels -/

/-- The channel codes transform the frame in the channel buffer as their assignments say, position by
position, and change nothing else (`46_decorrelate.md` R321 to R324). The codes as instructions are the
model's (log 2), and so is that elements at or after the block size and channels at or above `HDR_CHANNELS`
stay (log 11; `93_implementation_defined.md` allows any value). -/
def Obligations.ChannelCodesTransform : Prop :=
  ∀ (s : State) (n : BitVec 3) (i : Instr) (a : Assign),
    (i, a) ∈ [(Instr.chIndependent n, Assign.independent), (.chLeftSide, .leftSide),
      (.chRightSide, .rightSide), (.chMidSide, .midSide)] →
    ∃ t : State, exec i s = .next (t.okWith 0) ∧ t = { s with chbuf := t.chbuf } ∧
      State.decorrelatesTo a s t

/-- `FR_DECORRELATE`, when every subframe is decoded, undoes the frame's assignment and moves on to the
footer; it reads no bit (`46_decorrelate.md` R320). That elements at or after the block size and channels at or
above `HDR_CHANNELS` stay is the model's choice (log 11; `93_implementation_defined.md` allows any value). -/
def Obligations.DecorrelateUndoesAssignment : Prop :=
  ∀ s : State, s.spValid = true → s.fatal = false → s.phase = .headerDone → s.sfDone = s.hdr.channels →
    ∃ t : State, exec (.frDecorrelate 0) s = .next (t.okWith 0) ∧
      t = { s with chbuf := t.chbuf, phase := .decorrelated } ∧ State.decorrelatesTo s.hdr.assign s t

/-- The mid-side transform gives back the mid and side it was made from, for samples small enough that no
step wraps (`46_decorrelate.md` R325, which the spec marks as derived from R324). -/
def Obligations.MidSideRoundTrip : Prop :=
  ∀ mid side : Sample, -(2 ^ 61) ≤ mid.toInt → mid.toInt < 2 ^ 61 → -(2 ^ 61) ≤ side.toInt →
    side.toInt < 2 ^ 61 →
    (pairOf .midSide mid side).1 - (pairOf .midSide mid side).2 = side ∧
    ((pairOf .midSide mid side).1 + (pairOf .midSide mid side).2).sshiftRight 1 = mid ∧
    (pairOf .midSide mid side).1.toInt - (pairOf .midSide mid side).2.toInt = side.toInt

/-! ## The footer -/

/-- A frame whose padding is zero and whose stored CRC agrees is delivered: by `FR_CHECK_FOOTER`, which ends
with OK and the block size; by `READ_NEXT_FRAME`, which ends the same way; by `DECODE`, which counts it and
goes on, or ends with STOPPED when `STOP` is 1 (`47_frame.md` R340 to R342, R350, R361, R362). That `STOP` is
sampled in the step that delivers, before any further host move, is the model's choice (log 26); `RESULT` and
`STATUS_OUT` are left open while `DECODE` goes on (log 7). -/
def Obligations.FooterDeliversFrame : Prop :=
  ∀ (s d : State) (pad : Nat), s.spValid = true → s.fatal = false → s.phase = .decorrelated →
    pad = (8 - s.pos.toNat % 8) % 8 →
    s.ahead (List.replicate pad false ++ bitsOf 16 (s.consume pad).crc16.toNat) →
    d = ((s.consume (pad + 16)).withFooter (s.consume pad).crc16 (s.consume pad).crc16).withDelivery true
      s.samplesOfFrame →
    exec (.frCheckFooter 0) s = .next (d.okWith (s.hdr.blockSize.setWidth 64)) ∧
    (s.slot = .readingNext →
      exec (.readNextFrame 0) s = .next (d.okWith (s.hdr.blockSize.setWidth 64))) ∧
    (∀ n : Nat, s.slot = .decoding n →
      (s.stop = true → exec (.decode 0) s = .next
        { d with
          slot := .idle, statusOut := ⟨.stopped, 0⟩, lastErr := ⟨.stopped, 0⟩,
          result := BitVec.ofNat 64 (n + 1) }) ∧
      (s.stop = false → ∃ u : State, exec (.decode 0) s = .next u ∧
        u = { d with slot := .decoding (n + 1), statusOut := u.statusOut, result := u.result }))

/-- A frame whose stored CRC differs is delivered zeroed, after a `CRC_MISMATCH` event with both values;
`BAD_FRAMES` counts it and `SAMPLES_DECODED` counts its samples (`47_frame.md` R343). That elements at or after
the block size and channels at or above `HDR_CHANNELS` stay as they were is the model's choice (log 11;
`93_implementation_defined.md` allows any value). -/
def Obligations.FooterMismatchZeroesFrame : Prop :=
  ∀ (s : State) (pad : Nat) (expected actual : Word16), s.spValid = true → s.fatal = false →
    s.phase = .decorrelated → pad = (8 - s.pos.toNat % 8) % 8 → expected = (s.consume pad).crc16 →
    expected ≠ actual → s.ahead (List.replicate pad false ++ bitsOf 16 actual.toNat) →
    ∃ z t : State, exec (.frCheckFooter 0) s = .next t ∧
      z = { s with
        pos := BitVec.ofNat 64 (s.pos.toNat + pad + 16)
        crc16 := (s.consume (pad + 16)).crc16
        crc8 := (s.consume (pad + 16)).crc8
        footer := expected ++ actual
        outq := s.outq ++ [.event ⟨.crcMismatch, 0, BitVec.ofNat 64 ((s.pos.toNat + pad + 16) / 8), expected,
          actual⟩]
        badFrames := s.badFrames + 1
        chbuf := z.chbuf } ∧
      t = (z.withDelivery false z.samplesOfFrame).errorWith .crcMismatch 0 ∧
      (∀ c : ChannelIx,
        (c.val < s.hdr.channels.toNat → ∀ i : Nat,
          (i < s.hdr.blockSize.toNat → z.chbuf[c].read i = 0) ∧
          (s.hdr.blockSize.toNat ≤ i → z.chbuf[c].read i = s.chbuf[c].read i)) ∧
        (s.hdr.channels.toNat ≤ c.val → z.chbuf[c] = s.chbuf[c])) ∧
      (∀ ch ∈ z.samplesOfFrame, ∀ v ∈ ch, v = 0)

/-- Padding that is not zero drops the frame: the padding is consumed, the BadFrame NONZERO_PADDING is
reported and counted, the footer is not read and no frame is delivered (`47_frame.md` R341). -/
def Obligations.NonzeroPaddingDropsFrame : Prop :=
  ∀ (s : State) (pad v : Nat), s.spValid = true → s.fatal = false → s.phase = .decorrelated →
    pad = (8 - s.pos.toNat % 8) % 8 → v < 2 ^ pad → v ≠ 0 → s.ahead (bitsOf pad v) →
    exec (.frCheckFooter 0) s = .next (s.badFrameAfter pad .nonzeroPadding 0 0 0)

/-- END_OF_STREAM inside a frame drops the frame silently: `EOF` is set and the sequencer searches again;
no record is emitted, no counter changes, and the header registers and all of `CHBUF` stay, the channel whose
subframe was cut among them (`60_exceptions.md` R386, `43_subframe.md` R230, `00_scope.md` R12). -/
def Obligations.EndOfStreamDropsFrame : Prop :=
  ∀ (s t : State) (i : Instr) (c : Byte), s.slot ≠ .idle → s.residual = Residual.empty →
    i ∈ [Instr.frDecodeHeader 0, .frDecodeSubframe c, .frCheckFooter 0] → exec i s = .next t →
    t.slot = .idle → t.statusOut = ⟨.endOfStream, 0⟩ →
    t = { s with
      pos := t.pos, crc16 := t.crc16, crc8 := t.crc8, eof := true, phase := .searching, sfDone := 0,
      lastErr := ⟨.endOfStream, 0⟩, slot := .idle, result := 0, statusOut := ⟨.endOfStream, 0⟩ } ∧
    (∀ (d : ChannelIx) (n : Nat), t.chbuf[d].read n = s.chbuf[d].read n)

/-! ## The composite commands -/

/-- Inside `READ_NEXT_FRAME` each step is the primitive command the sequencer's state selects, with all its
writes, events and counters: a hold keeps the state; after an OK before the footer check, and after a
recovered BadFrame, the loop goes on with `LAST_ERR` as it was; any other end of a step ends the command as
it ended the step (`47_frame.md` R351). Issued in SEARCHING, its first step is `FR_FIND_SYNC`. -/
def Obligations.ReadNextFrameRunsItsSteps : Prop :=
  ∀ (s t : State), s.spValid = true → s.fatal = false → s.sfDone.toNat ≤ s.hdr.channels.toNat →
    s.hdr.channels.toNat ≤ 8 →
    s.slot = .readingNext ∨ (∃ w : CodeWord, s.slot = .pending w) ∧ s.phase = .searching →
    exec (nextCommand s) s = .next t →
    (t = s → exec (.readNextFrame 0) s = .next s) ∧
    (t ≠ s → loopGoesOn s.phase t.statusOut.code →
      ∃ u : State, exec (.readNextFrame 0) s = .next u ∧
        u = { t with
          slot := .readingNext, lastErr := s.lastErr, statusOut := u.statusOut, result := u.result }) ∧
    (t ≠ s → ¬ loopGoesOn s.phase t.statusOut.code → exec (.readNextFrame 0) s = .next t)

/-- Inside `DECODE` each step is the same; a delivered frame, its CRC right or wrong, is counted, and `STOP`
is sampled once after it: 1 ends the command with STOPPED and the count, 0 goes on; END_OF_STREAM ends it
with the count (`47_frame.md` R361, R362). That `STOP` is sampled in the step that delivers, before any further
host move, is the model's choice (log 26); `RESULT` and `STATUS_OUT` are left open while `DECODE` goes on
(log 7). -/
def Obligations.DecodeRunsItsSteps : Prop :=
  ∀ (s t : State) (n : Nat), s.spValid = true → s.fatal = false → s.sfDone.toNat ≤ s.hdr.channels.toNat →
    s.hdr.channels.toNat ≤ 8 →
    s.slot = .decoding n ∨ ((∃ w : CodeWord, s.slot = .pending w) ∧ s.phase = .searching ∧ n = 0) →
    exec (nextCommand s) s = .next t →
    (t = s → exec (.decode 0) s = .next s) ∧
    (t ≠ s → loopGoesOn s.phase t.statusOut.code →
      ∃ u : State, exec (.decode 0) s = .next u ∧
        u = { t with
          slot := .decoding n, lastErr := s.lastErr, statusOut := u.statusOut, result := u.result }) ∧
    (t ≠ s → t.statusOut.code = .endOfStream →
      exec (.decode 0) s = .next { t with result := BitVec.ofNat 64 n }) ∧
    (t ≠ s → t.statusOut.code = .crcMismatch ∨ (t.statusOut.code = .ok ∧ s.phase = .decorrelated) →
      (s.stop = true →
        exec (.decode 0) s = .next
          { t with
            statusOut := ⟨.stopped, 0⟩, lastErr := ⟨.stopped, 0⟩, result := BitVec.ofNat 64 (n + 1) }) ∧
      (s.stop = false →
        ∃ u : State, exec (.decode 0) s = .next u ∧
          u = { t with
            slot := .decoding (n + 1), lastErr := s.lastErr, statusOut := u.statusOut,
            result := u.result }))

/-- On an input that has ended, `READ_NEXT_FRAME` and `DECODE` end, from every state that meets the
invariant, within three steps for each bit left and three more (`70_reset_and_hazards.md` R445). -/
def Obligations.RecoveryLoopEnds : Prop :=
  ∀ s : State, s.Inv → s.host = [] → s.srcEnded = true →
    s.slot = .readingNext ∨ (∃ n : Nat, s.slot = .decoding n) ∨ s.slot = .pending (.command 0x3000) ∨
      s.slot = .pending (.command 0x3100) →
    ∃ (n : Nat) (t : State), n ≤ 3 * (8 * s.src.length - s.pos.toNat) + 3 ∧ s.after n = some t ∧
      t.slot = .idle ∧ t.Inv

/-! ## The whole machine -/

/-- Every command and every code runs to a next state; a primitive that does not end has changed nothing,
and does so only while the source has not ended (`00_scope.md` R13, `20_memory.md` R62,
`70_reset_and_hazards.md` R445; a hold as a step that changes nothing is the model's, log 5). -/
def Obligations.CommandsCompleteOrHold : Prop :=
  ∀ (i : Instr) (s : State),
    ∃ t : State, exec i s = .next t ∧
      ((∀ a : Byte, i ≠ .readNextFrame a ∧ i ≠ .decode a) → s.slot ≠ .idle →
        t.slot = .idle ∨ (t = s ∧ s.srcEnded = false)) ∧
      (s.srcEnded = true → (∀ a : Byte, i ≠ .readNextFrame a ∧ i ≠ .decode a) → t.slot = .idle)

/-- No instruction but `SOFT_RESET` writes the input, its end flag, the parameters of the instance, `DATA_IN`
or `STOP`; none but `CSR_WRITE` writes the stream parameters (`10_state.md` R21, R39). -/
def Obligations.NoInstructionWritesTheInput : Prop :=
  ∀ (i : Instr) (s t : State), i ≠ .softReset 0 → exec i s = .next t →
    (∀ k : Nat, t.src.byteAt k = s.src.byteAt k) ∧ t.src = s.src ∧ t.srcEnded = s.srcEnded ∧
    t.params = s.params ∧ t.dataIn = s.dataIn ∧ t.stop = s.stop ∧ t.host = s.host ∧
    ((∀ a : Byte, i ≠ .csrWrite a) → t.sp = s.sp ∧ t.spValid = s.spValid)

/-- Through every step but a reset: `EOF` and `FATAL` stay set, accepted parameters stay as they are, and the
cursor does not move backward (`10_state.md` R22, R36, R37, R39). -/
def Obligations.OnlyResetTakesBack : Prop :=
  ∀ s t : State, s.sourceOk → step s = .next t → ¬ s.resetNext →
    (s.eof = true → t.eof = true) ∧ (s.fatal = true → t.fatal = true) ∧
    (s.spValid = true → t.spValid = true ∧ t.sp = s.sp) ∧ t.params = s.params ∧
    s.pos.toNat ≤ t.pos.toNat

/-- Records enter the queue at its end, through every step but a reset and a drain, and the counters agree
with them: `BAD_FRAMES` grows by the bad-frame events, `SAMPLES_DECODED` by the block sizes of the frames
(`10_state.md` R34, R35, `20_memory.md` R70). -/
def Obligations.CountersAgreeWithRecords : Prop :=
  ∀ s t : State, step s = .next t → ¬ s.resetNext → s.host.head? ≠ some .drain →
    ∃ added : List Record, t.outq = s.outq ++ added ∧
      t.badFrames = s.badFrames + BitVec.ofNat 32 (added.filter Record.isBadFrame).length ∧
      t.samplesDecoded = s.samplesDecoded + BitVec.ofNat 64 (added.map Record.sampleCount).sum

/-- An illegal command changes no state other than `LAST_ERR`, besides the command interface it ends on
(`60_exceptions.md` R388). -/
def Obligations.IllegalCommandsChangeOnlyLastErr : Prop :=
  ∀ (i : Instr) (s t : State), s.slot ≠ .idle → exec i s = .next t → t.slot = .idle →
    t.statusOut.code = .illegalCmd → t = s.errorWith .illegalCmd t.statusOut.sub

/-- A command that ends returns one of the codes the summary gives it; an error is recorded in `LAST_ERR` and
OK leaves it (`60_exceptions.md` R381, `10_state.md` R38, and the summary R398, which the spec marks as derived
from the commands' rules). -/
def Obligations.StatusCodesOfCommands : Prop :=
  ∀ (i : Instr) (s t : State) (codes : List StatusCode), commandCodes i = some codes → s.sourceOk →
    s.slot ≠ .idle → exec i s = .next t → t.slot = .idle →
    t.statusOut.code ∈ codes ∧ (t.statusOut.code ≠ .ok → t.lastErr = t.statusOut) ∧
    (t.statusOut.code = .ok → i ≠ .softReset 0 → t.lastErr = s.lastErr) ∧
    (t.statusOut.code ≠ .ok → (∀ a : Byte, i ≠ .decode a) → t.result = 0)
end

