-- ==== Sys2Proof/Laws/State.lean ====
section
/-! SUPPORT. What each named update of the state does to each field, one lemma for each, by `rfl`. -/

namespace Sys2Proof.Machine

variable (s : State)

/-! ## `State.endCommand` -/

@[simp] theorem endCommand_params (st : Status) (res : Word64) : (s.endCommand st res).params = s.params := rfl
@[simp] theorem endCommand_src (st : Status) (res : Word64) : (s.endCommand st res).src = s.src := rfl
@[simp] theorem endCommand_srcEnded (st : Status) (res : Word64) : (s.endCommand st res).srcEnded = s.srcEnded := rfl
@[simp] theorem endCommand_pos (st : Status) (res : Word64) : (s.endCommand st res).pos = s.pos := rfl
@[simp] theorem endCommand_crc16 (st : Status) (res : Word64) : (s.endCommand st res).crc16 = s.crc16 := rfl
@[simp] theorem endCommand_crc8 (st : Status) (res : Word64) : (s.endCommand st res).crc8 = s.crc8 := rfl
@[simp] theorem endCommand_phase (st : Status) (res : Word64) : (s.endCommand st res).phase = s.phase := rfl
@[simp] theorem endCommand_lossArmed (st : Status) (res : Word64) : (s.endCommand st res).lossArmed = s.lossArmed := rfl
@[simp] theorem endCommand_syncByte1 (st : Status) (res : Word64) : (s.endCommand st res).syncByte1 = s.syncByte1 := rfl
@[simp] theorem endCommand_frameStart (st : Status) (res : Word64) : (s.endCommand st res).frameStart = s.frameStart := rfl
@[simp] theorem endCommand_sfDone (st : Status) (res : Word64) : (s.endCommand st res).sfDone = s.sfDone := rfl
@[simp] theorem endCommand_hdr (st : Status) (res : Word64) : (s.endCommand st res).hdr = s.hdr := rfl
@[simp] theorem endCommand_chbuf (st : Status) (res : Word64) : (s.endCommand st res).chbuf = s.chbuf := rfl
@[simp] theorem endCommand_sfInfo (st : Status) (res : Word64) : (s.endCommand st res).sfInfo = s.sfInfo := rfl
@[simp] theorem endCommand_footer (st : Status) (res : Word64) : (s.endCommand st res).footer = s.footer := rfl
@[simp] theorem endCommand_bufValid (st : Status) (res : Word64) : (s.endCommand st res).bufValid = s.bufValid := rfl
@[simp] theorem endCommand_badFrames (st : Status) (res : Word64) : (s.endCommand st res).badFrames = s.badFrames := rfl
@[simp] theorem endCommand_samplesDecoded (st : Status) (res : Word64) : (s.endCommand st res).samplesDecoded = s.samplesDecoded := rfl
@[simp] theorem endCommand_eof (st : Status) (res : Word64) : (s.endCommand st res).eof = s.eof := rfl
@[simp] theorem endCommand_fatal (st : Status) (res : Word64) : (s.endCommand st res).fatal = s.fatal := rfl
@[simp] theorem endCommand_lastErr (st : Status) (res : Word64) : (s.endCommand st res).lastErr = if st.code = .ok then s.lastErr else st := rfl
@[simp] theorem endCommand_sp (st : Status) (res : Word64) : (s.endCommand st res).sp = s.sp := rfl
@[simp] theorem endCommand_spValid (st : Status) (res : Word64) : (s.endCommand st res).spValid = s.spValid := rfl
@[simp] theorem endCommand_slot (st : Status) (res : Word64) : (s.endCommand st res).slot = .idle := rfl
@[simp] theorem endCommand_dataIn (st : Status) (res : Word64) : (s.endCommand st res).dataIn = s.dataIn := rfl
@[simp] theorem endCommand_result (st : Status) (res : Word64) : (s.endCommand st res).result = res := rfl
@[simp] theorem endCommand_statusOut (st : Status) (res : Word64) : (s.endCommand st res).statusOut = st := rfl
@[simp] theorem endCommand_stop (st : Status) (res : Word64) : (s.endCommand st res).stop = s.stop := rfl
@[simp] theorem endCommand_outq (st : Status) (res : Word64) : (s.endCommand st res).outq = s.outq := rfl
@[simp] theorem endCommand_residual (st : Status) (res : Word64) : (s.endCommand st res).residual = s.residual := rfl
@[simp] theorem endCommand_host (st : Status) (res : Word64) : (s.endCommand st res).host = s.host := rfl
@[simp] theorem endCommand_freeCount (st : Status) (res : Word64) : (s.endCommand st res).freeCount = s.freeCount := rfl

/-! ## `State.emit` -/

@[simp] theorem emit_params (r : Record) : (s.emit r).params = s.params := rfl
@[simp] theorem emit_src (r : Record) : (s.emit r).src = s.src := rfl
@[simp] theorem emit_srcEnded (r : Record) : (s.emit r).srcEnded = s.srcEnded := rfl
@[simp] theorem emit_pos (r : Record) : (s.emit r).pos = s.pos := rfl
@[simp] theorem emit_crc16 (r : Record) : (s.emit r).crc16 = s.crc16 := rfl
@[simp] theorem emit_crc8 (r : Record) : (s.emit r).crc8 = s.crc8 := rfl
@[simp] theorem emit_phase (r : Record) : (s.emit r).phase = s.phase := rfl
@[simp] theorem emit_lossArmed (r : Record) : (s.emit r).lossArmed = s.lossArmed := rfl
@[simp] theorem emit_syncByte1 (r : Record) : (s.emit r).syncByte1 = s.syncByte1 := rfl
@[simp] theorem emit_frameStart (r : Record) : (s.emit r).frameStart = s.frameStart := rfl
@[simp] theorem emit_sfDone (r : Record) : (s.emit r).sfDone = s.sfDone := rfl
@[simp] theorem emit_hdr (r : Record) : (s.emit r).hdr = s.hdr := rfl
@[simp] theorem emit_chbuf (r : Record) : (s.emit r).chbuf = s.chbuf := rfl
@[simp] theorem emit_sfInfo (r : Record) : (s.emit r).sfInfo = s.sfInfo := rfl
@[simp] theorem emit_footer (r : Record) : (s.emit r).footer = s.footer := rfl
@[simp] theorem emit_bufValid (r : Record) : (s.emit r).bufValid = s.bufValid := rfl
@[simp] theorem emit_badFrames (r : Record) : (s.emit r).badFrames = s.badFrames := rfl
@[simp] theorem emit_samplesDecoded (r : Record) : (s.emit r).samplesDecoded = s.samplesDecoded := rfl
@[simp] theorem emit_eof (r : Record) : (s.emit r).eof = s.eof := rfl
@[simp] theorem emit_fatal (r : Record) : (s.emit r).fatal = s.fatal := rfl
@[simp] theorem emit_lastErr (r : Record) : (s.emit r).lastErr = s.lastErr := rfl
@[simp] theorem emit_sp (r : Record) : (s.emit r).sp = s.sp := rfl
@[simp] theorem emit_spValid (r : Record) : (s.emit r).spValid = s.spValid := rfl
@[simp] theorem emit_slot (r : Record) : (s.emit r).slot = s.slot := rfl
@[simp] theorem emit_dataIn (r : Record) : (s.emit r).dataIn = s.dataIn := rfl
@[simp] theorem emit_result (r : Record) : (s.emit r).result = s.result := rfl
@[simp] theorem emit_statusOut (r : Record) : (s.emit r).statusOut = s.statusOut := rfl
@[simp] theorem emit_stop (r : Record) : (s.emit r).stop = s.stop := rfl
@[simp] theorem emit_outq (r : Record) : (s.emit r).outq = s.outq ++ [r] := rfl
@[simp] theorem emit_residual (r : Record) : (s.emit r).residual = s.residual := rfl
@[simp] theorem emit_host (r : Record) : (s.emit r).host = s.host := rfl
@[simp] theorem emit_freeCount (r : Record) : (s.emit r).freeCount = s.freeCount := rfl

/-! ## `State.consume` -/

@[simp] theorem consume_params (n : Nat) : (s.consume n).params = s.params := rfl
@[simp] theorem consume_src (n : Nat) : (s.consume n).src = s.src := rfl
@[simp] theorem consume_srcEnded (n : Nat) : (s.consume n).srcEnded = s.srcEnded := rfl
@[simp] theorem consume_pos (n : Nat) : (s.consume n).pos = s.pos + BitVec.ofNat 64 n := rfl
@[simp] theorem consume_phase (n : Nat) : (s.consume n).phase = s.phase := rfl
@[simp] theorem consume_lossArmed (n : Nat) : (s.consume n).lossArmed = s.lossArmed := rfl
@[simp] theorem consume_syncByte1 (n : Nat) : (s.consume n).syncByte1 = s.syncByte1 := rfl
@[simp] theorem consume_frameStart (n : Nat) : (s.consume n).frameStart = s.frameStart := rfl
@[simp] theorem consume_sfDone (n : Nat) : (s.consume n).sfDone = s.sfDone := rfl
@[simp] theorem consume_hdr (n : Nat) : (s.consume n).hdr = s.hdr := rfl
@[simp] theorem consume_chbuf (n : Nat) : (s.consume n).chbuf = s.chbuf := rfl
@[simp] theorem consume_sfInfo (n : Nat) : (s.consume n).sfInfo = s.sfInfo := rfl
@[simp] theorem consume_footer (n : Nat) : (s.consume n).footer = s.footer := rfl
@[simp] theorem consume_bufValid (n : Nat) : (s.consume n).bufValid = s.bufValid := rfl
@[simp] theorem consume_badFrames (n : Nat) : (s.consume n).badFrames = s.badFrames := rfl
@[simp] theorem consume_samplesDecoded (n : Nat) : (s.consume n).samplesDecoded = s.samplesDecoded := rfl
@[simp] theorem consume_eof (n : Nat) : (s.consume n).eof = s.eof := rfl
@[simp] theorem consume_fatal (n : Nat) : (s.consume n).fatal = s.fatal := rfl
@[simp] theorem consume_lastErr (n : Nat) : (s.consume n).lastErr = s.lastErr := rfl
@[simp] theorem consume_sp (n : Nat) : (s.consume n).sp = s.sp := rfl
@[simp] theorem consume_spValid (n : Nat) : (s.consume n).spValid = s.spValid := rfl
@[simp] theorem consume_slot (n : Nat) : (s.consume n).slot = s.slot := rfl
@[simp] theorem consume_dataIn (n : Nat) : (s.consume n).dataIn = s.dataIn := rfl
@[simp] theorem consume_result (n : Nat) : (s.consume n).result = s.result := rfl
@[simp] theorem consume_statusOut (n : Nat) : (s.consume n).statusOut = s.statusOut := rfl
@[simp] theorem consume_stop (n : Nat) : (s.consume n).stop = s.stop := rfl
@[simp] theorem consume_outq (n : Nat) : (s.consume n).outq = s.outq := rfl
@[simp] theorem consume_residual (n : Nat) : (s.consume n).residual = s.residual := rfl
@[simp] theorem consume_host (n : Nat) : (s.consume n).host = s.host := rfl
@[simp] theorem consume_freeCount (n : Nat) : (s.consume n).freeCount = s.freeCount := rfl

/-! ## `State.countBadFrame` -/

@[simp] theorem countBadFrame_params : s.countBadFrame.params = s.params := rfl
@[simp] theorem countBadFrame_src : s.countBadFrame.src = s.src := rfl
@[simp] theorem countBadFrame_srcEnded : s.countBadFrame.srcEnded = s.srcEnded := rfl
@[simp] theorem countBadFrame_pos : s.countBadFrame.pos = s.pos := rfl
@[simp] theorem countBadFrame_crc16 : s.countBadFrame.crc16 = s.crc16 := rfl
@[simp] theorem countBadFrame_crc8 : s.countBadFrame.crc8 = s.crc8 := rfl
@[simp] theorem countBadFrame_phase : s.countBadFrame.phase = s.phase := rfl
@[simp] theorem countBadFrame_lossArmed : s.countBadFrame.lossArmed = s.lossArmed := rfl
@[simp] theorem countBadFrame_syncByte1 : s.countBadFrame.syncByte1 = s.syncByte1 := rfl
@[simp] theorem countBadFrame_frameStart : s.countBadFrame.frameStart = s.frameStart := rfl
@[simp] theorem countBadFrame_sfDone : s.countBadFrame.sfDone = s.sfDone := rfl
@[simp] theorem countBadFrame_hdr : s.countBadFrame.hdr = s.hdr := rfl
@[simp] theorem countBadFrame_chbuf : s.countBadFrame.chbuf = s.chbuf := rfl
@[simp] theorem countBadFrame_sfInfo : s.countBadFrame.sfInfo = s.sfInfo := rfl
@[simp] theorem countBadFrame_footer : s.countBadFrame.footer = s.footer := rfl
@[simp] theorem countBadFrame_bufValid : s.countBadFrame.bufValid = s.bufValid := rfl
@[simp] theorem countBadFrame_badFrames : s.countBadFrame.badFrames = s.badFrames + 1 := rfl
@[simp] theorem countBadFrame_samplesDecoded : s.countBadFrame.samplesDecoded = s.samplesDecoded := rfl
@[simp] theorem countBadFrame_eof : s.countBadFrame.eof = s.eof := rfl
@[simp] theorem countBadFrame_fatal : s.countBadFrame.fatal = s.fatal := rfl
@[simp] theorem countBadFrame_lastErr : s.countBadFrame.lastErr = s.lastErr := rfl
@[simp] theorem countBadFrame_sp : s.countBadFrame.sp = s.sp := rfl
@[simp] theorem countBadFrame_spValid : s.countBadFrame.spValid = s.spValid := rfl
@[simp] theorem countBadFrame_slot : s.countBadFrame.slot = s.slot := rfl
@[simp] theorem countBadFrame_dataIn : s.countBadFrame.dataIn = s.dataIn := rfl
@[simp] theorem countBadFrame_result : s.countBadFrame.result = s.result := rfl
@[simp] theorem countBadFrame_statusOut : s.countBadFrame.statusOut = s.statusOut := rfl
@[simp] theorem countBadFrame_stop : s.countBadFrame.stop = s.stop := rfl
@[simp] theorem countBadFrame_outq : s.countBadFrame.outq = s.outq := rfl
@[simp] theorem countBadFrame_residual : s.countBadFrame.residual = s.residual := rfl
@[simp] theorem countBadFrame_host : s.countBadFrame.host = s.host := rfl
@[simp] theorem countBadFrame_freeCount : s.countBadFrame.freeCount = s.freeCount := rfl

/-! ## `State.leaveFrame` -/

@[simp] theorem leaveFrame_params : s.leaveFrame.params = s.params := rfl
@[simp] theorem leaveFrame_src : s.leaveFrame.src = s.src := rfl
@[simp] theorem leaveFrame_srcEnded : s.leaveFrame.srcEnded = s.srcEnded := rfl
@[simp] theorem leaveFrame_pos : s.leaveFrame.pos = s.pos := rfl
@[simp] theorem leaveFrame_crc16 : s.leaveFrame.crc16 = s.crc16 := rfl
@[simp] theorem leaveFrame_crc8 : s.leaveFrame.crc8 = s.crc8 := rfl
@[simp] theorem leaveFrame_phase : s.leaveFrame.phase = .searching := rfl
@[simp] theorem leaveFrame_lossArmed : s.leaveFrame.lossArmed = s.lossArmed := rfl
@[simp] theorem leaveFrame_syncByte1 : s.leaveFrame.syncByte1 = s.syncByte1 := rfl
@[simp] theorem leaveFrame_frameStart : s.leaveFrame.frameStart = s.frameStart := rfl
@[simp] theorem leaveFrame_sfDone : s.leaveFrame.sfDone = 0 := rfl
@[simp] theorem leaveFrame_hdr : s.leaveFrame.hdr = s.hdr := rfl
@[simp] theorem leaveFrame_chbuf : s.leaveFrame.chbuf = s.chbuf := rfl
@[simp] theorem leaveFrame_sfInfo : s.leaveFrame.sfInfo = s.sfInfo := rfl
@[simp] theorem leaveFrame_footer : s.leaveFrame.footer = s.footer := rfl
@[simp] theorem leaveFrame_bufValid : s.leaveFrame.bufValid = s.bufValid := rfl
@[simp] theorem leaveFrame_badFrames : s.leaveFrame.badFrames = s.badFrames := rfl
@[simp] theorem leaveFrame_samplesDecoded : s.leaveFrame.samplesDecoded = s.samplesDecoded := rfl
@[simp] theorem leaveFrame_eof : s.leaveFrame.eof = s.eof := rfl
@[simp] theorem leaveFrame_fatal : s.leaveFrame.fatal = s.fatal := rfl
@[simp] theorem leaveFrame_lastErr : s.leaveFrame.lastErr = s.lastErr := rfl
@[simp] theorem leaveFrame_sp : s.leaveFrame.sp = s.sp := rfl
@[simp] theorem leaveFrame_spValid : s.leaveFrame.spValid = s.spValid := rfl
@[simp] theorem leaveFrame_slot : s.leaveFrame.slot = s.slot := rfl
@[simp] theorem leaveFrame_dataIn : s.leaveFrame.dataIn = s.dataIn := rfl
@[simp] theorem leaveFrame_result : s.leaveFrame.result = s.result := rfl
@[simp] theorem leaveFrame_statusOut : s.leaveFrame.statusOut = s.statusOut := rfl
@[simp] theorem leaveFrame_stop : s.leaveFrame.stop = s.stop := rfl
@[simp] theorem leaveFrame_outq : s.leaveFrame.outq = s.outq := rfl
@[simp] theorem leaveFrame_residual : s.leaveFrame.residual = s.residual := rfl
@[simp] theorem leaveFrame_host : s.leaveFrame.host = s.host := rfl
@[simp] theorem leaveFrame_freeCount : s.leaveFrame.freeCount = s.freeCount := rfl

/-! ## `State.setResidual` -/

@[simp] theorem setResidual_params (r : Residual) : (s.setResidual r).params = s.params := rfl
@[simp] theorem setResidual_src (r : Residual) : (s.setResidual r).src = s.src := rfl
@[simp] theorem setResidual_srcEnded (r : Residual) : (s.setResidual r).srcEnded = s.srcEnded := rfl
@[simp] theorem setResidual_pos (r : Residual) : (s.setResidual r).pos = s.pos := rfl
@[simp] theorem setResidual_crc16 (r : Residual) : (s.setResidual r).crc16 = s.crc16 := rfl
@[simp] theorem setResidual_crc8 (r : Residual) : (s.setResidual r).crc8 = s.crc8 := rfl
@[simp] theorem setResidual_phase (r : Residual) : (s.setResidual r).phase = s.phase := rfl
@[simp] theorem setResidual_lossArmed (r : Residual) : (s.setResidual r).lossArmed = s.lossArmed := rfl
@[simp] theorem setResidual_syncByte1 (r : Residual) : (s.setResidual r).syncByte1 = s.syncByte1 := rfl
@[simp] theorem setResidual_frameStart (r : Residual) : (s.setResidual r).frameStart = s.frameStart := rfl
@[simp] theorem setResidual_sfDone (r : Residual) : (s.setResidual r).sfDone = s.sfDone := rfl
@[simp] theorem setResidual_hdr (r : Residual) : (s.setResidual r).hdr = s.hdr := rfl
@[simp] theorem setResidual_chbuf (r : Residual) : (s.setResidual r).chbuf = s.chbuf := rfl
@[simp] theorem setResidual_sfInfo (r : Residual) : (s.setResidual r).sfInfo = s.sfInfo := rfl
@[simp] theorem setResidual_footer (r : Residual) : (s.setResidual r).footer = s.footer := rfl
@[simp] theorem setResidual_bufValid (r : Residual) : (s.setResidual r).bufValid = s.bufValid := rfl
@[simp] theorem setResidual_badFrames (r : Residual) : (s.setResidual r).badFrames = s.badFrames := rfl
@[simp] theorem setResidual_samplesDecoded (r : Residual) : (s.setResidual r).samplesDecoded = s.samplesDecoded := rfl
@[simp] theorem setResidual_eof (r : Residual) : (s.setResidual r).eof = s.eof := rfl
@[simp] theorem setResidual_fatal (r : Residual) : (s.setResidual r).fatal = s.fatal := rfl
@[simp] theorem setResidual_lastErr (r : Residual) : (s.setResidual r).lastErr = s.lastErr := rfl
@[simp] theorem setResidual_sp (r : Residual) : (s.setResidual r).sp = s.sp := rfl
@[simp] theorem setResidual_spValid (r : Residual) : (s.setResidual r).spValid = s.spValid := rfl
@[simp] theorem setResidual_slot (r : Residual) : (s.setResidual r).slot = s.slot := rfl
@[simp] theorem setResidual_dataIn (r : Residual) : (s.setResidual r).dataIn = s.dataIn := rfl
@[simp] theorem setResidual_result (r : Residual) : (s.setResidual r).result = s.result := rfl
@[simp] theorem setResidual_statusOut (r : Residual) : (s.setResidual r).statusOut = s.statusOut := rfl
@[simp] theorem setResidual_stop (r : Residual) : (s.setResidual r).stop = s.stop := rfl
@[simp] theorem setResidual_outq (r : Residual) : (s.setResidual r).outq = s.outq := rfl
@[simp] theorem setResidual_residual (r : Residual) : (s.setResidual r).residual = r := rfl
@[simp] theorem setResidual_host (r : Residual) : (s.setResidual r).host = s.host := rfl
@[simp] theorem setResidual_freeCount (r : Residual) : (s.setResidual r).freeCount = s.freeCount := rfl

/-! ## `State.writeHeader` -/

@[simp] theorem writeHeader_params (h : HeaderRegs) : (s.writeHeader h).params = s.params := rfl
@[simp] theorem writeHeader_src (h : HeaderRegs) : (s.writeHeader h).src = s.src := rfl
@[simp] theorem writeHeader_srcEnded (h : HeaderRegs) : (s.writeHeader h).srcEnded = s.srcEnded := rfl
@[simp] theorem writeHeader_pos (h : HeaderRegs) : (s.writeHeader h).pos = s.pos := rfl
@[simp] theorem writeHeader_crc16 (h : HeaderRegs) : (s.writeHeader h).crc16 = s.crc16 := rfl
@[simp] theorem writeHeader_crc8 (h : HeaderRegs) : (s.writeHeader h).crc8 = s.crc8 := rfl
@[simp] theorem writeHeader_phase (h : HeaderRegs) : (s.writeHeader h).phase = .headerDone := rfl
@[simp] theorem writeHeader_lossArmed (h : HeaderRegs) : (s.writeHeader h).lossArmed = s.lossArmed := rfl
@[simp] theorem writeHeader_syncByte1 (h : HeaderRegs) : (s.writeHeader h).syncByte1 = s.syncByte1 := rfl
@[simp] theorem writeHeader_frameStart (h : HeaderRegs) : (s.writeHeader h).frameStart = s.frameStart := rfl
@[simp] theorem writeHeader_sfDone (h : HeaderRegs) : (s.writeHeader h).sfDone = 0 := rfl
@[simp] theorem writeHeader_hdr (h : HeaderRegs) : (s.writeHeader h).hdr = h := rfl
@[simp] theorem writeHeader_chbuf (h : HeaderRegs) : (s.writeHeader h).chbuf = s.chbuf := rfl
@[simp] theorem writeHeader_sfInfo (h : HeaderRegs) : (s.writeHeader h).sfInfo = sfInfoZero := rfl
@[simp] theorem writeHeader_footer (h : HeaderRegs) : (s.writeHeader h).footer = s.footer := rfl
@[simp] theorem writeHeader_bufValid (h : HeaderRegs) : (s.writeHeader h).bufValid = false := rfl
@[simp] theorem writeHeader_badFrames (h : HeaderRegs) : (s.writeHeader h).badFrames = s.badFrames := rfl
@[simp] theorem writeHeader_samplesDecoded (h : HeaderRegs) : (s.writeHeader h).samplesDecoded = s.samplesDecoded := rfl
@[simp] theorem writeHeader_eof (h : HeaderRegs) : (s.writeHeader h).eof = s.eof := rfl
@[simp] theorem writeHeader_fatal (h : HeaderRegs) : (s.writeHeader h).fatal = s.fatal := rfl
@[simp] theorem writeHeader_lastErr (h : HeaderRegs) : (s.writeHeader h).lastErr = s.lastErr := rfl
@[simp] theorem writeHeader_sp (h : HeaderRegs) : (s.writeHeader h).sp = s.sp := rfl
@[simp] theorem writeHeader_spValid (h : HeaderRegs) : (s.writeHeader h).spValid = s.spValid := rfl
@[simp] theorem writeHeader_slot (h : HeaderRegs) : (s.writeHeader h).slot = s.slot := rfl
@[simp] theorem writeHeader_dataIn (h : HeaderRegs) : (s.writeHeader h).dataIn = s.dataIn := rfl
@[simp] theorem writeHeader_result (h : HeaderRegs) : (s.writeHeader h).result = s.result := rfl
@[simp] theorem writeHeader_statusOut (h : HeaderRegs) : (s.writeHeader h).statusOut = s.statusOut := rfl
@[simp] theorem writeHeader_stop (h : HeaderRegs) : (s.writeHeader h).stop = s.stop := rfl
@[simp] theorem writeHeader_outq (h : HeaderRegs) : (s.writeHeader h).outq = s.outq := rfl
@[simp] theorem writeHeader_residual (h : HeaderRegs) : (s.writeHeader h).residual = s.residual := rfl
@[simp] theorem writeHeader_host (h : HeaderRegs) : (s.writeHeader h).host = s.host := rfl
@[simp] theorem writeHeader_freeCount (h : HeaderRegs) : (s.writeHeader h).freeCount = s.freeCount := rfl

/-! ## `State.countFrame` -/

@[simp] theorem countFrame_params : s.countFrame.params = s.params := rfl
@[simp] theorem countFrame_src : s.countFrame.src = s.src := rfl
@[simp] theorem countFrame_srcEnded : s.countFrame.srcEnded = s.srcEnded := rfl
@[simp] theorem countFrame_pos : s.countFrame.pos = s.pos := rfl
@[simp] theorem countFrame_crc16 : s.countFrame.crc16 = s.crc16 := rfl
@[simp] theorem countFrame_crc8 : s.countFrame.crc8 = s.crc8 := rfl
@[simp] theorem countFrame_phase : s.countFrame.phase = .searching := rfl
@[simp] theorem countFrame_lossArmed : s.countFrame.lossArmed = s.lossArmed := rfl
@[simp] theorem countFrame_syncByte1 : s.countFrame.syncByte1 = s.syncByte1 := rfl
@[simp] theorem countFrame_frameStart : s.countFrame.frameStart = s.frameStart := rfl
@[simp] theorem countFrame_sfDone : s.countFrame.sfDone = 0 := rfl
@[simp] theorem countFrame_hdr : s.countFrame.hdr = s.hdr := rfl
@[simp] theorem countFrame_chbuf : s.countFrame.chbuf = s.chbuf := rfl
@[simp] theorem countFrame_sfInfo : s.countFrame.sfInfo = s.sfInfo := rfl
@[simp] theorem countFrame_footer : s.countFrame.footer = s.footer := rfl
@[simp] theorem countFrame_bufValid : s.countFrame.bufValid = true := rfl
@[simp] theorem countFrame_badFrames : s.countFrame.badFrames = s.badFrames := rfl
@[simp] theorem countFrame_samplesDecoded : s.countFrame.samplesDecoded = s.samplesDecoded + s.hdr.blockSize.setWidth 64 := rfl
@[simp] theorem countFrame_eof : s.countFrame.eof = s.eof := rfl
@[simp] theorem countFrame_fatal : s.countFrame.fatal = s.fatal := rfl
@[simp] theorem countFrame_lastErr : s.countFrame.lastErr = s.lastErr := rfl
@[simp] theorem countFrame_sp : s.countFrame.sp = s.sp := rfl
@[simp] theorem countFrame_spValid : s.countFrame.spValid = s.spValid := rfl
@[simp] theorem countFrame_slot : s.countFrame.slot = s.slot := rfl
@[simp] theorem countFrame_dataIn : s.countFrame.dataIn = s.dataIn := rfl
@[simp] theorem countFrame_result : s.countFrame.result = s.result := rfl
@[simp] theorem countFrame_statusOut : s.countFrame.statusOut = s.statusOut := rfl
@[simp] theorem countFrame_stop : s.countFrame.stop = s.stop := rfl
@[simp] theorem countFrame_outq : s.countFrame.outq = s.outq := rfl
@[simp] theorem countFrame_residual : s.countFrame.residual = s.residual := rfl
@[simp] theorem countFrame_host : s.countFrame.host = s.host := rfl
@[simp] theorem countFrame_freeCount : s.countFrame.freeCount = s.freeCount := rfl

/-! ## `State.setFooter` -/

@[simp] theorem setFooter_params (e a : Word16) : (s.setFooter e a).params = s.params := rfl
@[simp] theorem setFooter_src (e a : Word16) : (s.setFooter e a).src = s.src := rfl
@[simp] theorem setFooter_srcEnded (e a : Word16) : (s.setFooter e a).srcEnded = s.srcEnded := rfl
@[simp] theorem setFooter_pos (e a : Word16) : (s.setFooter e a).pos = s.pos := rfl
@[simp] theorem setFooter_crc16 (e a : Word16) : (s.setFooter e a).crc16 = s.crc16 := rfl
@[simp] theorem setFooter_crc8 (e a : Word16) : (s.setFooter e a).crc8 = s.crc8 := rfl
@[simp] theorem setFooter_phase (e a : Word16) : (s.setFooter e a).phase = s.phase := rfl
@[simp] theorem setFooter_lossArmed (e a : Word16) : (s.setFooter e a).lossArmed = s.lossArmed := rfl
@[simp] theorem setFooter_syncByte1 (e a : Word16) : (s.setFooter e a).syncByte1 = s.syncByte1 := rfl
@[simp] theorem setFooter_frameStart (e a : Word16) : (s.setFooter e a).frameStart = s.frameStart := rfl
@[simp] theorem setFooter_sfDone (e a : Word16) : (s.setFooter e a).sfDone = s.sfDone := rfl
@[simp] theorem setFooter_hdr (e a : Word16) : (s.setFooter e a).hdr = s.hdr := rfl
@[simp] theorem setFooter_chbuf (e a : Word16) : (s.setFooter e a).chbuf = s.chbuf := rfl
@[simp] theorem setFooter_sfInfo (e a : Word16) : (s.setFooter e a).sfInfo = s.sfInfo := rfl
@[simp] theorem setFooter_footer (e a : Word16) : (s.setFooter e a).footer = e ++ a := rfl
@[simp] theorem setFooter_bufValid (e a : Word16) : (s.setFooter e a).bufValid = s.bufValid := rfl
@[simp] theorem setFooter_badFrames (e a : Word16) : (s.setFooter e a).badFrames = s.badFrames := rfl
@[simp] theorem setFooter_samplesDecoded (e a : Word16) : (s.setFooter e a).samplesDecoded = s.samplesDecoded := rfl
@[simp] theorem setFooter_eof (e a : Word16) : (s.setFooter e a).eof = s.eof := rfl
@[simp] theorem setFooter_fatal (e a : Word16) : (s.setFooter e a).fatal = s.fatal := rfl
@[simp] theorem setFooter_lastErr (e a : Word16) : (s.setFooter e a).lastErr = s.lastErr := rfl
@[simp] theorem setFooter_sp (e a : Word16) : (s.setFooter e a).sp = s.sp := rfl
@[simp] theorem setFooter_spValid (e a : Word16) : (s.setFooter e a).spValid = s.spValid := rfl
@[simp] theorem setFooter_slot (e a : Word16) : (s.setFooter e a).slot = s.slot := rfl
@[simp] theorem setFooter_dataIn (e a : Word16) : (s.setFooter e a).dataIn = s.dataIn := rfl
@[simp] theorem setFooter_result (e a : Word16) : (s.setFooter e a).result = s.result := rfl
@[simp] theorem setFooter_statusOut (e a : Word16) : (s.setFooter e a).statusOut = s.statusOut := rfl
@[simp] theorem setFooter_stop (e a : Word16) : (s.setFooter e a).stop = s.stop := rfl
@[simp] theorem setFooter_outq (e a : Word16) : (s.setFooter e a).outq = s.outq := rfl
@[simp] theorem setFooter_residual (e a : Word16) : (s.setFooter e a).residual = s.residual := rfl
@[simp] theorem setFooter_host (e a : Word16) : (s.setFooter e a).host = s.host := rfl
@[simp] theorem setFooter_freeCount (e a : Word16) : (s.setFooter e a).freeCount = s.freeCount := rfl

/-! ## `State.awaitFooter` -/

@[simp] theorem awaitFooter_params : s.awaitFooter.params = s.params := rfl
@[simp] theorem awaitFooter_src : s.awaitFooter.src = s.src := rfl
@[simp] theorem awaitFooter_srcEnded : s.awaitFooter.srcEnded = s.srcEnded := rfl
@[simp] theorem awaitFooter_pos : s.awaitFooter.pos = s.pos := rfl
@[simp] theorem awaitFooter_crc16 : s.awaitFooter.crc16 = s.crc16 := rfl
@[simp] theorem awaitFooter_crc8 : s.awaitFooter.crc8 = s.crc8 := rfl
@[simp] theorem awaitFooter_phase : s.awaitFooter.phase = .decorrelated := rfl
@[simp] theorem awaitFooter_lossArmed : s.awaitFooter.lossArmed = s.lossArmed := rfl
@[simp] theorem awaitFooter_syncByte1 : s.awaitFooter.syncByte1 = s.syncByte1 := rfl
@[simp] theorem awaitFooter_frameStart : s.awaitFooter.frameStart = s.frameStart := rfl
@[simp] theorem awaitFooter_sfDone : s.awaitFooter.sfDone = s.sfDone := rfl
@[simp] theorem awaitFooter_hdr : s.awaitFooter.hdr = s.hdr := rfl
@[simp] theorem awaitFooter_chbuf : s.awaitFooter.chbuf = s.chbuf := rfl
@[simp] theorem awaitFooter_sfInfo : s.awaitFooter.sfInfo = s.sfInfo := rfl
@[simp] theorem awaitFooter_footer : s.awaitFooter.footer = s.footer := rfl
@[simp] theorem awaitFooter_bufValid : s.awaitFooter.bufValid = s.bufValid := rfl
@[simp] theorem awaitFooter_badFrames : s.awaitFooter.badFrames = s.badFrames := rfl
@[simp] theorem awaitFooter_samplesDecoded : s.awaitFooter.samplesDecoded = s.samplesDecoded := rfl
@[simp] theorem awaitFooter_eof : s.awaitFooter.eof = s.eof := rfl
@[simp] theorem awaitFooter_fatal : s.awaitFooter.fatal = s.fatal := rfl
@[simp] theorem awaitFooter_lastErr : s.awaitFooter.lastErr = s.lastErr := rfl
@[simp] theorem awaitFooter_sp : s.awaitFooter.sp = s.sp := rfl
@[simp] theorem awaitFooter_spValid : s.awaitFooter.spValid = s.spValid := rfl
@[simp] theorem awaitFooter_slot : s.awaitFooter.slot = s.slot := rfl
@[simp] theorem awaitFooter_dataIn : s.awaitFooter.dataIn = s.dataIn := rfl
@[simp] theorem awaitFooter_result : s.awaitFooter.result = s.result := rfl
@[simp] theorem awaitFooter_statusOut : s.awaitFooter.statusOut = s.statusOut := rfl
@[simp] theorem awaitFooter_stop : s.awaitFooter.stop = s.stop := rfl
@[simp] theorem awaitFooter_outq : s.awaitFooter.outq = s.outq := rfl
@[simp] theorem awaitFooter_residual : s.awaitFooter.residual = s.residual := rfl
@[simp] theorem awaitFooter_host : s.awaitFooter.host = s.host := rfl
@[simp] theorem awaitFooter_freeCount : s.awaitFooter.freeCount = s.freeCount := rfl

/-! ## `State.endOfStreamInFrame` -/

@[simp] theorem endOfStreamInFrame_params : s.endOfStreamInFrame.params = s.params := rfl
@[simp] theorem endOfStreamInFrame_src : s.endOfStreamInFrame.src = s.src := rfl
@[simp] theorem endOfStreamInFrame_srcEnded : s.endOfStreamInFrame.srcEnded = s.srcEnded := rfl
@[simp] theorem endOfStreamInFrame_pos : s.endOfStreamInFrame.pos = s.pos := rfl
@[simp] theorem endOfStreamInFrame_crc16 : s.endOfStreamInFrame.crc16 = s.crc16 := rfl
@[simp] theorem endOfStreamInFrame_crc8 : s.endOfStreamInFrame.crc8 = s.crc8 := rfl
@[simp] theorem endOfStreamInFrame_phase : s.endOfStreamInFrame.phase = .searching := rfl
@[simp] theorem endOfStreamInFrame_lossArmed : s.endOfStreamInFrame.lossArmed = s.lossArmed := rfl
@[simp] theorem endOfStreamInFrame_syncByte1 : s.endOfStreamInFrame.syncByte1 = s.syncByte1 := rfl
@[simp] theorem endOfStreamInFrame_frameStart : s.endOfStreamInFrame.frameStart = s.frameStart := rfl
@[simp] theorem endOfStreamInFrame_sfDone : s.endOfStreamInFrame.sfDone = 0 := rfl
@[simp] theorem endOfStreamInFrame_hdr : s.endOfStreamInFrame.hdr = s.hdr := rfl
@[simp] theorem endOfStreamInFrame_chbuf : s.endOfStreamInFrame.chbuf = s.chbuf := rfl
@[simp] theorem endOfStreamInFrame_sfInfo : s.endOfStreamInFrame.sfInfo = s.sfInfo := rfl
@[simp] theorem endOfStreamInFrame_footer : s.endOfStreamInFrame.footer = s.footer := rfl
@[simp] theorem endOfStreamInFrame_bufValid : s.endOfStreamInFrame.bufValid = s.bufValid := rfl
@[simp] theorem endOfStreamInFrame_badFrames : s.endOfStreamInFrame.badFrames = s.badFrames := rfl
@[simp] theorem endOfStreamInFrame_samplesDecoded : s.endOfStreamInFrame.samplesDecoded = s.samplesDecoded := rfl
@[simp] theorem endOfStreamInFrame_eof : s.endOfStreamInFrame.eof = true := rfl
@[simp] theorem endOfStreamInFrame_fatal : s.endOfStreamInFrame.fatal = s.fatal := rfl
@[simp] theorem endOfStreamInFrame_lastErr : s.endOfStreamInFrame.lastErr = s.lastErr := rfl
@[simp] theorem endOfStreamInFrame_sp : s.endOfStreamInFrame.sp = s.sp := rfl
@[simp] theorem endOfStreamInFrame_spValid : s.endOfStreamInFrame.spValid = s.spValid := rfl
@[simp] theorem endOfStreamInFrame_slot : s.endOfStreamInFrame.slot = s.slot := rfl
@[simp] theorem endOfStreamInFrame_dataIn : s.endOfStreamInFrame.dataIn = s.dataIn := rfl
@[simp] theorem endOfStreamInFrame_result : s.endOfStreamInFrame.result = s.result := rfl
@[simp] theorem endOfStreamInFrame_statusOut : s.endOfStreamInFrame.statusOut = s.statusOut := rfl
@[simp] theorem endOfStreamInFrame_stop : s.endOfStreamInFrame.stop = s.stop := rfl
@[simp] theorem endOfStreamInFrame_outq : s.endOfStreamInFrame.outq = s.outq := rfl
@[simp] theorem endOfStreamInFrame_residual : s.endOfStreamInFrame.residual = s.residual := rfl
@[simp] theorem endOfStreamInFrame_host : s.endOfStreamInFrame.host = s.host := rfl
@[simp] theorem endOfStreamInFrame_freeCount : s.endOfStreamInFrame.freeCount = s.freeCount := rfl

/-! ## `State.writeChannel` -/

@[simp] theorem writeChannel_params (c : ChannelIx) (new : List Sample) : (s.writeChannel c new).params = s.params := rfl
@[simp] theorem writeChannel_src (c : ChannelIx) (new : List Sample) : (s.writeChannel c new).src = s.src := rfl
@[simp] theorem writeChannel_srcEnded (c : ChannelIx) (new : List Sample) : (s.writeChannel c new).srcEnded = s.srcEnded := rfl
@[simp] theorem writeChannel_pos (c : ChannelIx) (new : List Sample) : (s.writeChannel c new).pos = s.pos := rfl
@[simp] theorem writeChannel_crc16 (c : ChannelIx) (new : List Sample) : (s.writeChannel c new).crc16 = s.crc16 := rfl
@[simp] theorem writeChannel_crc8 (c : ChannelIx) (new : List Sample) : (s.writeChannel c new).crc8 = s.crc8 := rfl
@[simp] theorem writeChannel_phase (c : ChannelIx) (new : List Sample) : (s.writeChannel c new).phase = s.phase := rfl
@[simp] theorem writeChannel_lossArmed (c : ChannelIx) (new : List Sample) : (s.writeChannel c new).lossArmed = s.lossArmed := rfl
@[simp] theorem writeChannel_syncByte1 (c : ChannelIx) (new : List Sample) : (s.writeChannel c new).syncByte1 = s.syncByte1 := rfl
@[simp] theorem writeChannel_frameStart (c : ChannelIx) (new : List Sample) : (s.writeChannel c new).frameStart = s.frameStart := rfl
@[simp] theorem writeChannel_sfDone (c : ChannelIx) (new : List Sample) : (s.writeChannel c new).sfDone = s.sfDone := rfl
@[simp] theorem writeChannel_hdr (c : ChannelIx) (new : List Sample) : (s.writeChannel c new).hdr = s.hdr := rfl
@[simp] theorem writeChannel_chbuf (c : ChannelIx) (new : List Sample) : (s.writeChannel c new).chbuf = s.chbuf.set c (s.chbuf[c].write new) := rfl
@[simp] theorem writeChannel_sfInfo (c : ChannelIx) (new : List Sample) : (s.writeChannel c new).sfInfo = s.sfInfo := rfl
@[simp] theorem writeChannel_footer (c : ChannelIx) (new : List Sample) : (s.writeChannel c new).footer = s.footer := rfl
@[simp] theorem writeChannel_bufValid (c : ChannelIx) (new : List Sample) : (s.writeChannel c new).bufValid = s.bufValid := rfl
@[simp] theorem writeChannel_badFrames (c : ChannelIx) (new : List Sample) : (s.writeChannel c new).badFrames = s.badFrames := rfl
@[simp] theorem writeChannel_samplesDecoded (c : ChannelIx) (new : List Sample) : (s.writeChannel c new).samplesDecoded = s.samplesDecoded := rfl
@[simp] theorem writeChannel_eof (c : ChannelIx) (new : List Sample) : (s.writeChannel c new).eof = s.eof := rfl
@[simp] theorem writeChannel_fatal (c : ChannelIx) (new : List Sample) : (s.writeChannel c new).fatal = s.fatal := rfl
@[simp] theorem writeChannel_lastErr (c : ChannelIx) (new : List Sample) : (s.writeChannel c new).lastErr = s.lastErr := rfl
@[simp] theorem writeChannel_sp (c : ChannelIx) (new : List Sample) : (s.writeChannel c new).sp = s.sp := rfl
@[simp] theorem writeChannel_spValid (c : ChannelIx) (new : List Sample) : (s.writeChannel c new).spValid = s.spValid := rfl
@[simp] theorem writeChannel_slot (c : ChannelIx) (new : List Sample) : (s.writeChannel c new).slot = s.slot := rfl
@[simp] theorem writeChannel_dataIn (c : ChannelIx) (new : List Sample) : (s.writeChannel c new).dataIn = s.dataIn := rfl
@[simp] theorem writeChannel_result (c : ChannelIx) (new : List Sample) : (s.writeChannel c new).result = s.result := rfl
@[simp] theorem writeChannel_statusOut (c : ChannelIx) (new : List Sample) : (s.writeChannel c new).statusOut = s.statusOut := rfl
@[simp] theorem writeChannel_stop (c : ChannelIx) (new : List Sample) : (s.writeChannel c new).stop = s.stop := rfl
@[simp] theorem writeChannel_outq (c : ChannelIx) (new : List Sample) : (s.writeChannel c new).outq = s.outq := rfl
@[simp] theorem writeChannel_residual (c : ChannelIx) (new : List Sample) : (s.writeChannel c new).residual = s.residual := rfl
@[simp] theorem writeChannel_host (c : ChannelIx) (new : List Sample) : (s.writeChannel c new).host = s.host := rfl
@[simp] theorem writeChannel_freeCount (c : ChannelIx) (new : List Sample) : (s.writeChannel c new).freeCount = s.freeCount := rfl

/-! ## `State.forgetChannel` -/

@[simp] theorem forgetChannel_params (c : ChannelIx) : (s.forgetChannel c).params = s.params := rfl
@[simp] theorem forgetChannel_src (c : ChannelIx) : (s.forgetChannel c).src = s.src := rfl
@[simp] theorem forgetChannel_srcEnded (c : ChannelIx) : (s.forgetChannel c).srcEnded = s.srcEnded := rfl
@[simp] theorem forgetChannel_pos (c : ChannelIx) : (s.forgetChannel c).pos = s.pos := rfl
@[simp] theorem forgetChannel_crc16 (c : ChannelIx) : (s.forgetChannel c).crc16 = s.crc16 := rfl
@[simp] theorem forgetChannel_crc8 (c : ChannelIx) : (s.forgetChannel c).crc8 = s.crc8 := rfl
@[simp] theorem forgetChannel_phase (c : ChannelIx) : (s.forgetChannel c).phase = s.phase := rfl
@[simp] theorem forgetChannel_lossArmed (c : ChannelIx) : (s.forgetChannel c).lossArmed = s.lossArmed := rfl
@[simp] theorem forgetChannel_syncByte1 (c : ChannelIx) : (s.forgetChannel c).syncByte1 = s.syncByte1 := rfl
@[simp] theorem forgetChannel_frameStart (c : ChannelIx) : (s.forgetChannel c).frameStart = s.frameStart := rfl
@[simp] theorem forgetChannel_sfDone (c : ChannelIx) : (s.forgetChannel c).sfDone = s.sfDone := rfl
@[simp] theorem forgetChannel_hdr (c : ChannelIx) : (s.forgetChannel c).hdr = s.hdr := rfl
@[simp] theorem forgetChannel_chbuf (c : ChannelIx) : (s.forgetChannel c).chbuf = s.chbuf.set c ⟨s.freeCount, []⟩ := rfl
@[simp] theorem forgetChannel_sfInfo (c : ChannelIx) : (s.forgetChannel c).sfInfo = s.sfInfo := rfl
@[simp] theorem forgetChannel_footer (c : ChannelIx) : (s.forgetChannel c).footer = s.footer := rfl
@[simp] theorem forgetChannel_bufValid (c : ChannelIx) : (s.forgetChannel c).bufValid = s.bufValid := rfl
@[simp] theorem forgetChannel_badFrames (c : ChannelIx) : (s.forgetChannel c).badFrames = s.badFrames := rfl
@[simp] theorem forgetChannel_samplesDecoded (c : ChannelIx) : (s.forgetChannel c).samplesDecoded = s.samplesDecoded := rfl
@[simp] theorem forgetChannel_eof (c : ChannelIx) : (s.forgetChannel c).eof = s.eof := rfl
@[simp] theorem forgetChannel_fatal (c : ChannelIx) : (s.forgetChannel c).fatal = s.fatal := rfl
@[simp] theorem forgetChannel_lastErr (c : ChannelIx) : (s.forgetChannel c).lastErr = s.lastErr := rfl
@[simp] theorem forgetChannel_sp (c : ChannelIx) : (s.forgetChannel c).sp = s.sp := rfl
@[simp] theorem forgetChannel_spValid (c : ChannelIx) : (s.forgetChannel c).spValid = s.spValid := rfl
@[simp] theorem forgetChannel_slot (c : ChannelIx) : (s.forgetChannel c).slot = s.slot := rfl
@[simp] theorem forgetChannel_dataIn (c : ChannelIx) : (s.forgetChannel c).dataIn = s.dataIn := rfl
@[simp] theorem forgetChannel_result (c : ChannelIx) : (s.forgetChannel c).result = s.result := rfl
@[simp] theorem forgetChannel_statusOut (c : ChannelIx) : (s.forgetChannel c).statusOut = s.statusOut := rfl
@[simp] theorem forgetChannel_stop (c : ChannelIx) : (s.forgetChannel c).stop = s.stop := rfl
@[simp] theorem forgetChannel_outq (c : ChannelIx) : (s.forgetChannel c).outq = s.outq := rfl
@[simp] theorem forgetChannel_residual (c : ChannelIx) : (s.forgetChannel c).residual = s.residual := rfl
@[simp] theorem forgetChannel_host (c : ChannelIx) : (s.forgetChannel c).host = s.host := rfl
@[simp] theorem forgetChannel_freeCount (c : ChannelIx) : (s.forgetChannel c).freeCount = s.freeCount + 1 := rfl

/-! ## `State.zeroFrame` -/

@[simp] theorem zeroFrame_params : s.zeroFrame.params = s.params := rfl
@[simp] theorem zeroFrame_src : s.zeroFrame.src = s.src := rfl
@[simp] theorem zeroFrame_srcEnded : s.zeroFrame.srcEnded = s.srcEnded := rfl
@[simp] theorem zeroFrame_pos : s.zeroFrame.pos = s.pos := rfl
@[simp] theorem zeroFrame_crc16 : s.zeroFrame.crc16 = s.crc16 := rfl
@[simp] theorem zeroFrame_crc8 : s.zeroFrame.crc8 = s.crc8 := rfl
@[simp] theorem zeroFrame_phase : s.zeroFrame.phase = s.phase := rfl
@[simp] theorem zeroFrame_lossArmed : s.zeroFrame.lossArmed = s.lossArmed := rfl
@[simp] theorem zeroFrame_syncByte1 : s.zeroFrame.syncByte1 = s.syncByte1 := rfl
@[simp] theorem zeroFrame_frameStart : s.zeroFrame.frameStart = s.frameStart := rfl
@[simp] theorem zeroFrame_sfDone : s.zeroFrame.sfDone = s.sfDone := rfl
@[simp] theorem zeroFrame_hdr : s.zeroFrame.hdr = s.hdr := rfl
@[simp] theorem zeroFrame_sfInfo : s.zeroFrame.sfInfo = s.sfInfo := rfl
@[simp] theorem zeroFrame_footer : s.zeroFrame.footer = s.footer := rfl
@[simp] theorem zeroFrame_bufValid : s.zeroFrame.bufValid = s.bufValid := rfl
@[simp] theorem zeroFrame_badFrames : s.zeroFrame.badFrames = s.badFrames := rfl
@[simp] theorem zeroFrame_samplesDecoded : s.zeroFrame.samplesDecoded = s.samplesDecoded := rfl
@[simp] theorem zeroFrame_eof : s.zeroFrame.eof = s.eof := rfl
@[simp] theorem zeroFrame_fatal : s.zeroFrame.fatal = s.fatal := rfl
@[simp] theorem zeroFrame_lastErr : s.zeroFrame.lastErr = s.lastErr := rfl
@[simp] theorem zeroFrame_sp : s.zeroFrame.sp = s.sp := rfl
@[simp] theorem zeroFrame_spValid : s.zeroFrame.spValid = s.spValid := rfl
@[simp] theorem zeroFrame_slot : s.zeroFrame.slot = s.slot := rfl
@[simp] theorem zeroFrame_dataIn : s.zeroFrame.dataIn = s.dataIn := rfl
@[simp] theorem zeroFrame_result : s.zeroFrame.result = s.result := rfl
@[simp] theorem zeroFrame_statusOut : s.zeroFrame.statusOut = s.statusOut := rfl
@[simp] theorem zeroFrame_stop : s.zeroFrame.stop = s.stop := rfl
@[simp] theorem zeroFrame_outq : s.zeroFrame.outq = s.outq := rfl
@[simp] theorem zeroFrame_residual : s.zeroFrame.residual = s.residual := rfl
@[simp] theorem zeroFrame_host : s.zeroFrame.host = s.host := rfl
@[simp] theorem zeroFrame_freeCount : s.zeroFrame.freeCount = s.freeCount := rfl

/-! ## `State.synced` -/

@[simp] theorem synced_params (a : Word64) (y : Byte) : (s.synced a y).params = s.params := rfl
@[simp] theorem synced_src (a : Word64) (y : Byte) : (s.synced a y).src = s.src := rfl
@[simp] theorem synced_srcEnded (a : Word64) (y : Byte) : (s.synced a y).srcEnded = s.srcEnded := rfl
@[simp] theorem synced_pos (a : Word64) (y : Byte) : (s.synced a y).pos = s.pos := rfl
@[simp] theorem synced_phase (a : Word64) (y : Byte) : (s.synced a y).phase = .synced := rfl
@[simp] theorem synced_lossArmed (a : Word64) (y : Byte) : (s.synced a y).lossArmed = true := rfl
@[simp] theorem synced_syncByte1 (a : Word64) (y : Byte) : (s.synced a y).syncByte1 = y := rfl
@[simp] theorem synced_frameStart (a : Word64) (y : Byte) : (s.synced a y).frameStart = a := rfl
@[simp] theorem synced_sfDone (a : Word64) (y : Byte) : (s.synced a y).sfDone = s.sfDone := rfl
@[simp] theorem synced_hdr (a : Word64) (y : Byte) : (s.synced a y).hdr = s.hdr := rfl
@[simp] theorem synced_chbuf (a : Word64) (y : Byte) : (s.synced a y).chbuf = s.chbuf := rfl
@[simp] theorem synced_sfInfo (a : Word64) (y : Byte) : (s.synced a y).sfInfo = s.sfInfo := rfl
@[simp] theorem synced_footer (a : Word64) (y : Byte) : (s.synced a y).footer = s.footer := rfl
@[simp] theorem synced_bufValid (a : Word64) (y : Byte) : (s.synced a y).bufValid = s.bufValid := rfl
@[simp] theorem synced_badFrames (a : Word64) (y : Byte) : (s.synced a y).badFrames = s.badFrames := rfl
@[simp] theorem synced_samplesDecoded (a : Word64) (y : Byte) : (s.synced a y).samplesDecoded = s.samplesDecoded := rfl
@[simp] theorem synced_eof (a : Word64) (y : Byte) : (s.synced a y).eof = s.eof := rfl
@[simp] theorem synced_fatal (a : Word64) (y : Byte) : (s.synced a y).fatal = s.fatal := rfl
@[simp] theorem synced_lastErr (a : Word64) (y : Byte) : (s.synced a y).lastErr = s.lastErr := rfl
@[simp] theorem synced_sp (a : Word64) (y : Byte) : (s.synced a y).sp = s.sp := rfl
@[simp] theorem synced_spValid (a : Word64) (y : Byte) : (s.synced a y).spValid = s.spValid := rfl
@[simp] theorem synced_slot (a : Word64) (y : Byte) : (s.synced a y).slot = s.slot := rfl
@[simp] theorem synced_dataIn (a : Word64) (y : Byte) : (s.synced a y).dataIn = s.dataIn := rfl
@[simp] theorem synced_result (a : Word64) (y : Byte) : (s.synced a y).result = s.result := rfl
@[simp] theorem synced_statusOut (a : Word64) (y : Byte) : (s.synced a y).statusOut = s.statusOut := rfl
@[simp] theorem synced_stop (a : Word64) (y : Byte) : (s.synced a y).stop = s.stop := rfl
@[simp] theorem synced_outq (a : Word64) (y : Byte) : (s.synced a y).outq = s.outq := rfl
@[simp] theorem synced_residual (a : Word64) (y : Byte) : (s.synced a y).residual = s.residual := rfl
@[simp] theorem synced_host (a : Word64) (y : Byte) : (s.synced a y).host = s.host := rfl
@[simp] theorem synced_freeCount (a : Word64) (y : Byte) : (s.synced a y).freeCount = s.freeCount := rfl

/-! ## `State.storeSubframe` -/

@[simp] theorem storeSubframe_params (c : ChannelIx) (info : SfInfo) (xs : List Sample) : (s.storeSubframe c info xs).params = s.params := rfl
@[simp] theorem storeSubframe_src (c : ChannelIx) (info : SfInfo) (xs : List Sample) : (s.storeSubframe c info xs).src = s.src := rfl
@[simp] theorem storeSubframe_srcEnded (c : ChannelIx) (info : SfInfo) (xs : List Sample) : (s.storeSubframe c info xs).srcEnded = s.srcEnded := rfl
@[simp] theorem storeSubframe_pos (c : ChannelIx) (info : SfInfo) (xs : List Sample) : (s.storeSubframe c info xs).pos = s.pos := rfl
@[simp] theorem storeSubframe_crc16 (c : ChannelIx) (info : SfInfo) (xs : List Sample) : (s.storeSubframe c info xs).crc16 = s.crc16 := rfl
@[simp] theorem storeSubframe_crc8 (c : ChannelIx) (info : SfInfo) (xs : List Sample) : (s.storeSubframe c info xs).crc8 = s.crc8 := rfl
@[simp] theorem storeSubframe_phase (c : ChannelIx) (info : SfInfo) (xs : List Sample) : (s.storeSubframe c info xs).phase = s.phase := rfl
@[simp] theorem storeSubframe_lossArmed (c : ChannelIx) (info : SfInfo) (xs : List Sample) : (s.storeSubframe c info xs).lossArmed = s.lossArmed := rfl
@[simp] theorem storeSubframe_syncByte1 (c : ChannelIx) (info : SfInfo) (xs : List Sample) : (s.storeSubframe c info xs).syncByte1 = s.syncByte1 := rfl
@[simp] theorem storeSubframe_frameStart (c : ChannelIx) (info : SfInfo) (xs : List Sample) : (s.storeSubframe c info xs).frameStart = s.frameStart := rfl
@[simp] theorem storeSubframe_sfDone (c : ChannelIx) (info : SfInfo) (xs : List Sample) : (s.storeSubframe c info xs).sfDone = s.sfDone + 1 := rfl
@[simp] theorem storeSubframe_hdr (c : ChannelIx) (info : SfInfo) (xs : List Sample) : (s.storeSubframe c info xs).hdr = s.hdr := rfl
@[simp] theorem storeSubframe_chbuf (c : ChannelIx) (info : SfInfo) (xs : List Sample) : (s.storeSubframe c info xs).chbuf = s.chbuf.set c (s.chbuf[c].write xs) := rfl
@[simp] theorem storeSubframe_sfInfo (c : ChannelIx) (info : SfInfo) (xs : List Sample) : (s.storeSubframe c info xs).sfInfo = s.sfInfo.set c info := rfl
@[simp] theorem storeSubframe_footer (c : ChannelIx) (info : SfInfo) (xs : List Sample) : (s.storeSubframe c info xs).footer = s.footer := rfl
@[simp] theorem storeSubframe_bufValid (c : ChannelIx) (info : SfInfo) (xs : List Sample) : (s.storeSubframe c info xs).bufValid = s.bufValid := rfl
@[simp] theorem storeSubframe_badFrames (c : ChannelIx) (info : SfInfo) (xs : List Sample) : (s.storeSubframe c info xs).badFrames = s.badFrames := rfl
@[simp] theorem storeSubframe_samplesDecoded (c : ChannelIx) (info : SfInfo) (xs : List Sample) : (s.storeSubframe c info xs).samplesDecoded = s.samplesDecoded := rfl
@[simp] theorem storeSubframe_eof (c : ChannelIx) (info : SfInfo) (xs : List Sample) : (s.storeSubframe c info xs).eof = s.eof := rfl
@[simp] theorem storeSubframe_fatal (c : ChannelIx) (info : SfInfo) (xs : List Sample) : (s.storeSubframe c info xs).fatal = s.fatal := rfl
@[simp] theorem storeSubframe_lastErr (c : ChannelIx) (info : SfInfo) (xs : List Sample) : (s.storeSubframe c info xs).lastErr = s.lastErr := rfl
@[simp] theorem storeSubframe_sp (c : ChannelIx) (info : SfInfo) (xs : List Sample) : (s.storeSubframe c info xs).sp = s.sp := rfl
@[simp] theorem storeSubframe_spValid (c : ChannelIx) (info : SfInfo) (xs : List Sample) : (s.storeSubframe c info xs).spValid = s.spValid := rfl
@[simp] theorem storeSubframe_slot (c : ChannelIx) (info : SfInfo) (xs : List Sample) : (s.storeSubframe c info xs).slot = s.slot := rfl
@[simp] theorem storeSubframe_dataIn (c : ChannelIx) (info : SfInfo) (xs : List Sample) : (s.storeSubframe c info xs).dataIn = s.dataIn := rfl
@[simp] theorem storeSubframe_result (c : ChannelIx) (info : SfInfo) (xs : List Sample) : (s.storeSubframe c info xs).result = s.result := rfl
@[simp] theorem storeSubframe_statusOut (c : ChannelIx) (info : SfInfo) (xs : List Sample) : (s.storeSubframe c info xs).statusOut = s.statusOut := rfl
@[simp] theorem storeSubframe_stop (c : ChannelIx) (info : SfInfo) (xs : List Sample) : (s.storeSubframe c info xs).stop = s.stop := rfl
@[simp] theorem storeSubframe_outq (c : ChannelIx) (info : SfInfo) (xs : List Sample) : (s.storeSubframe c info xs).outq = s.outq := rfl
@[simp] theorem storeSubframe_residual (c : ChannelIx) (info : SfInfo) (xs : List Sample) : (s.storeSubframe c info xs).residual = Residual.empty := rfl
@[simp] theorem storeSubframe_host (c : ChannelIx) (info : SfInfo) (xs : List Sample) : (s.storeSubframe c info xs).host = s.host := rfl
@[simp] theorem storeSubframe_freeCount (c : ChannelIx) (info : SfInfo) (xs : List Sample) : (s.storeSubframe c info xs).freeCount = s.freeCount := rfl

/-! ## `State.commitSubframe` -/

@[simp] theorem commitSubframe_params (c : ChannelIx) (kind : SfKind) (o k eff : Nat) (b : Body) : (s.commitSubframe c kind o k eff b).params = s.params := rfl
@[simp] theorem commitSubframe_src (c : ChannelIx) (kind : SfKind) (o k eff : Nat) (b : Body) : (s.commitSubframe c kind o k eff b).src = s.src := rfl
@[simp] theorem commitSubframe_srcEnded (c : ChannelIx) (kind : SfKind) (o k eff : Nat) (b : Body) : (s.commitSubframe c kind o k eff b).srcEnded = s.srcEnded := rfl
@[simp] theorem commitSubframe_pos (c : ChannelIx) (kind : SfKind) (o k eff : Nat) (b : Body) : (s.commitSubframe c kind o k eff b).pos = s.pos := rfl
@[simp] theorem commitSubframe_crc16 (c : ChannelIx) (kind : SfKind) (o k eff : Nat) (b : Body) : (s.commitSubframe c kind o k eff b).crc16 = s.crc16 := rfl
@[simp] theorem commitSubframe_crc8 (c : ChannelIx) (kind : SfKind) (o k eff : Nat) (b : Body) : (s.commitSubframe c kind o k eff b).crc8 = s.crc8 := rfl
@[simp] theorem commitSubframe_phase (c : ChannelIx) (kind : SfKind) (o k eff : Nat) (b : Body) : (s.commitSubframe c kind o k eff b).phase = s.phase := rfl
@[simp] theorem commitSubframe_lossArmed (c : ChannelIx) (kind : SfKind) (o k eff : Nat) (b : Body) : (s.commitSubframe c kind o k eff b).lossArmed = s.lossArmed := rfl
@[simp] theorem commitSubframe_syncByte1 (c : ChannelIx) (kind : SfKind) (o k eff : Nat) (b : Body) : (s.commitSubframe c kind o k eff b).syncByte1 = s.syncByte1 := rfl
@[simp] theorem commitSubframe_frameStart (c : ChannelIx) (kind : SfKind) (o k eff : Nat) (b : Body) : (s.commitSubframe c kind o k eff b).frameStart = s.frameStart := rfl
@[simp] theorem commitSubframe_sfDone (c : ChannelIx) (kind : SfKind) (o k eff : Nat) (b : Body) : (s.commitSubframe c kind o k eff b).sfDone = s.sfDone + 1 := rfl
@[simp] theorem commitSubframe_hdr (c : ChannelIx) (kind : SfKind) (o k eff : Nat) (b : Body) : (s.commitSubframe c kind o k eff b).hdr = s.hdr := rfl
@[simp] theorem commitSubframe_chbuf (c : ChannelIx) (kind : SfKind) (o k eff : Nat) (b : Body) : (s.commitSubframe c kind o k eff b).chbuf = s.chbuf := rfl
@[simp] theorem commitSubframe_footer (c : ChannelIx) (kind : SfKind) (o k eff : Nat) (b : Body) : (s.commitSubframe c kind o k eff b).footer = s.footer := rfl
@[simp] theorem commitSubframe_bufValid (c : ChannelIx) (kind : SfKind) (o k eff : Nat) (b : Body) : (s.commitSubframe c kind o k eff b).bufValid = s.bufValid := rfl
@[simp] theorem commitSubframe_badFrames (c : ChannelIx) (kind : SfKind) (o k eff : Nat) (b : Body) : (s.commitSubframe c kind o k eff b).badFrames = s.badFrames := rfl
@[simp] theorem commitSubframe_samplesDecoded (c : ChannelIx) (kind : SfKind) (o k eff : Nat) (b : Body) : (s.commitSubframe c kind o k eff b).samplesDecoded = s.samplesDecoded := rfl
@[simp] theorem commitSubframe_eof (c : ChannelIx) (kind : SfKind) (o k eff : Nat) (b : Body) : (s.commitSubframe c kind o k eff b).eof = s.eof := rfl
@[simp] theorem commitSubframe_fatal (c : ChannelIx) (kind : SfKind) (o k eff : Nat) (b : Body) : (s.commitSubframe c kind o k eff b).fatal = s.fatal := rfl
@[simp] theorem commitSubframe_lastErr (c : ChannelIx) (kind : SfKind) (o k eff : Nat) (b : Body) : (s.commitSubframe c kind o k eff b).lastErr = s.lastErr := rfl
@[simp] theorem commitSubframe_sp (c : ChannelIx) (kind : SfKind) (o k eff : Nat) (b : Body) : (s.commitSubframe c kind o k eff b).sp = s.sp := rfl
@[simp] theorem commitSubframe_spValid (c : ChannelIx) (kind : SfKind) (o k eff : Nat) (b : Body) : (s.commitSubframe c kind o k eff b).spValid = s.spValid := rfl
@[simp] theorem commitSubframe_slot (c : ChannelIx) (kind : SfKind) (o k eff : Nat) (b : Body) : (s.commitSubframe c kind o k eff b).slot = s.slot := rfl
@[simp] theorem commitSubframe_dataIn (c : ChannelIx) (kind : SfKind) (o k eff : Nat) (b : Body) : (s.commitSubframe c kind o k eff b).dataIn = s.dataIn := rfl
@[simp] theorem commitSubframe_result (c : ChannelIx) (kind : SfKind) (o k eff : Nat) (b : Body) : (s.commitSubframe c kind o k eff b).result = s.result := rfl
@[simp] theorem commitSubframe_statusOut (c : ChannelIx) (kind : SfKind) (o k eff : Nat) (b : Body) : (s.commitSubframe c kind o k eff b).statusOut = s.statusOut := rfl
@[simp] theorem commitSubframe_stop (c : ChannelIx) (kind : SfKind) (o k eff : Nat) (b : Body) : (s.commitSubframe c kind o k eff b).stop = s.stop := rfl
@[simp] theorem commitSubframe_outq (c : ChannelIx) (kind : SfKind) (o k eff : Nat) (b : Body) : (s.commitSubframe c kind o k eff b).outq = s.outq := rfl
@[simp] theorem commitSubframe_residual (c : ChannelIx) (kind : SfKind) (o k eff : Nat) (b : Body) : (s.commitSubframe c kind o k eff b).residual = Residual.empty := rfl
@[simp] theorem commitSubframe_host (c : ChannelIx) (kind : SfKind) (o k eff : Nat) (b : Body) : (s.commitSubframe c kind o k eff b).host = s.host := rfl
@[simp] theorem commitSubframe_freeCount (c : ChannelIx) (kind : SfKind) (o k eff : Nat) (b : Body) : (s.commitSubframe c kind o k eff b).freeCount = s.freeCount := rfl

/-! ## `State.okWith` -/

@[simp] theorem okWith_params (res : Word64) : (s.okWith res).params = s.params := rfl
@[simp] theorem okWith_src (res : Word64) : (s.okWith res).src = s.src := rfl
@[simp] theorem okWith_srcEnded (res : Word64) : (s.okWith res).srcEnded = s.srcEnded := rfl
@[simp] theorem okWith_pos (res : Word64) : (s.okWith res).pos = s.pos := rfl
@[simp] theorem okWith_crc16 (res : Word64) : (s.okWith res).crc16 = s.crc16 := rfl
@[simp] theorem okWith_crc8 (res : Word64) : (s.okWith res).crc8 = s.crc8 := rfl
@[simp] theorem okWith_phase (res : Word64) : (s.okWith res).phase = s.phase := rfl
@[simp] theorem okWith_lossArmed (res : Word64) : (s.okWith res).lossArmed = s.lossArmed := rfl
@[simp] theorem okWith_syncByte1 (res : Word64) : (s.okWith res).syncByte1 = s.syncByte1 := rfl
@[simp] theorem okWith_frameStart (res : Word64) : (s.okWith res).frameStart = s.frameStart := rfl
@[simp] theorem okWith_sfDone (res : Word64) : (s.okWith res).sfDone = s.sfDone := rfl
@[simp] theorem okWith_hdr (res : Word64) : (s.okWith res).hdr = s.hdr := rfl
@[simp] theorem okWith_chbuf (res : Word64) : (s.okWith res).chbuf = s.chbuf := rfl
@[simp] theorem okWith_sfInfo (res : Word64) : (s.okWith res).sfInfo = s.sfInfo := rfl
@[simp] theorem okWith_footer (res : Word64) : (s.okWith res).footer = s.footer := rfl
@[simp] theorem okWith_bufValid (res : Word64) : (s.okWith res).bufValid = s.bufValid := rfl
@[simp] theorem okWith_badFrames (res : Word64) : (s.okWith res).badFrames = s.badFrames := rfl
@[simp] theorem okWith_samplesDecoded (res : Word64) : (s.okWith res).samplesDecoded = s.samplesDecoded := rfl
@[simp] theorem okWith_eof (res : Word64) : (s.okWith res).eof = s.eof := rfl
@[simp] theorem okWith_fatal (res : Word64) : (s.okWith res).fatal = s.fatal := rfl
@[simp] theorem okWith_lastErr (res : Word64) : (s.okWith res).lastErr = s.lastErr := rfl
@[simp] theorem okWith_sp (res : Word64) : (s.okWith res).sp = s.sp := rfl
@[simp] theorem okWith_spValid (res : Word64) : (s.okWith res).spValid = s.spValid := rfl
@[simp] theorem okWith_slot (res : Word64) : (s.okWith res).slot = .idle := rfl
@[simp] theorem okWith_dataIn (res : Word64) : (s.okWith res).dataIn = s.dataIn := rfl
@[simp] theorem okWith_result (res : Word64) : (s.okWith res).result = res := rfl
@[simp] theorem okWith_statusOut (res : Word64) : (s.okWith res).statusOut = ⟨.ok, 0⟩ := rfl
@[simp] theorem okWith_stop (res : Word64) : (s.okWith res).stop = s.stop := rfl
@[simp] theorem okWith_outq (res : Word64) : (s.okWith res).outq = s.outq := rfl
@[simp] theorem okWith_residual (res : Word64) : (s.okWith res).residual = s.residual := rfl
@[simp] theorem okWith_host (res : Word64) : (s.okWith res).host = s.host := rfl
@[simp] theorem okWith_freeCount (res : Word64) : (s.okWith res).freeCount = s.freeCount := rfl

/-! ## `State.errorWith` -/

@[simp] theorem errorWith_params (code : StatusCode) (sub : Byte) : (s.errorWith code sub).params = s.params := rfl
@[simp] theorem errorWith_src (code : StatusCode) (sub : Byte) : (s.errorWith code sub).src = s.src := rfl
@[simp] theorem errorWith_srcEnded (code : StatusCode) (sub : Byte) : (s.errorWith code sub).srcEnded = s.srcEnded := rfl
@[simp] theorem errorWith_pos (code : StatusCode) (sub : Byte) : (s.errorWith code sub).pos = s.pos := rfl
@[simp] theorem errorWith_crc16 (code : StatusCode) (sub : Byte) : (s.errorWith code sub).crc16 = s.crc16 := rfl
@[simp] theorem errorWith_crc8 (code : StatusCode) (sub : Byte) : (s.errorWith code sub).crc8 = s.crc8 := rfl
@[simp] theorem errorWith_phase (code : StatusCode) (sub : Byte) : (s.errorWith code sub).phase = s.phase := rfl
@[simp] theorem errorWith_lossArmed (code : StatusCode) (sub : Byte) : (s.errorWith code sub).lossArmed = s.lossArmed := rfl
@[simp] theorem errorWith_syncByte1 (code : StatusCode) (sub : Byte) : (s.errorWith code sub).syncByte1 = s.syncByte1 := rfl
@[simp] theorem errorWith_frameStart (code : StatusCode) (sub : Byte) : (s.errorWith code sub).frameStart = s.frameStart := rfl
@[simp] theorem errorWith_sfDone (code : StatusCode) (sub : Byte) : (s.errorWith code sub).sfDone = s.sfDone := rfl
@[simp] theorem errorWith_hdr (code : StatusCode) (sub : Byte) : (s.errorWith code sub).hdr = s.hdr := rfl
@[simp] theorem errorWith_chbuf (code : StatusCode) (sub : Byte) : (s.errorWith code sub).chbuf = s.chbuf := rfl
@[simp] theorem errorWith_sfInfo (code : StatusCode) (sub : Byte) : (s.errorWith code sub).sfInfo = s.sfInfo := rfl
@[simp] theorem errorWith_footer (code : StatusCode) (sub : Byte) : (s.errorWith code sub).footer = s.footer := rfl
@[simp] theorem errorWith_bufValid (code : StatusCode) (sub : Byte) : (s.errorWith code sub).bufValid = s.bufValid := rfl
@[simp] theorem errorWith_badFrames (code : StatusCode) (sub : Byte) : (s.errorWith code sub).badFrames = s.badFrames := rfl
@[simp] theorem errorWith_samplesDecoded (code : StatusCode) (sub : Byte) : (s.errorWith code sub).samplesDecoded = s.samplesDecoded := rfl
@[simp] theorem errorWith_eof (code : StatusCode) (sub : Byte) : (s.errorWith code sub).eof = s.eof := rfl
@[simp] theorem errorWith_fatal (code : StatusCode) (sub : Byte) : (s.errorWith code sub).fatal = s.fatal := rfl
@[simp] theorem errorWith_lastErr (code : StatusCode) (sub : Byte) : (s.errorWith code sub).lastErr = ⟨code, sub⟩ := rfl
@[simp] theorem errorWith_sp (code : StatusCode) (sub : Byte) : (s.errorWith code sub).sp = s.sp := rfl
@[simp] theorem errorWith_spValid (code : StatusCode) (sub : Byte) : (s.errorWith code sub).spValid = s.spValid := rfl
@[simp] theorem errorWith_slot (code : StatusCode) (sub : Byte) : (s.errorWith code sub).slot = .idle := rfl
@[simp] theorem errorWith_dataIn (code : StatusCode) (sub : Byte) : (s.errorWith code sub).dataIn = s.dataIn := rfl
@[simp] theorem errorWith_result (code : StatusCode) (sub : Byte) : (s.errorWith code sub).result = 0 := rfl
@[simp] theorem errorWith_statusOut (code : StatusCode) (sub : Byte) : (s.errorWith code sub).statusOut = ⟨code, sub⟩ := rfl
@[simp] theorem errorWith_stop (code : StatusCode) (sub : Byte) : (s.errorWith code sub).stop = s.stop := rfl
@[simp] theorem errorWith_outq (code : StatusCode) (sub : Byte) : (s.errorWith code sub).outq = s.outq := rfl
@[simp] theorem errorWith_residual (code : StatusCode) (sub : Byte) : (s.errorWith code sub).residual = s.residual := rfl
@[simp] theorem errorWith_host (code : StatusCode) (sub : Byte) : (s.errorWith code sub).host = s.host := rfl
@[simp] theorem errorWith_freeCount (code : StatusCode) (sub : Byte) : (s.errorWith code sub).freeCount = s.freeCount := rfl

/-! ## `State.withBadFrame` -/

@[simp] theorem withBadFrame_params (code : StatusCode) (sub : Byte) (x y : Word16) : (s.withBadFrame code sub x y).params = s.params := rfl
@[simp] theorem withBadFrame_src (code : StatusCode) (sub : Byte) (x y : Word16) : (s.withBadFrame code sub x y).src = s.src := rfl
@[simp] theorem withBadFrame_srcEnded (code : StatusCode) (sub : Byte) (x y : Word16) : (s.withBadFrame code sub x y).srcEnded = s.srcEnded := rfl
@[simp] theorem withBadFrame_pos (code : StatusCode) (sub : Byte) (x y : Word16) : (s.withBadFrame code sub x y).pos = s.pos := rfl
@[simp] theorem withBadFrame_crc16 (code : StatusCode) (sub : Byte) (x y : Word16) : (s.withBadFrame code sub x y).crc16 = s.crc16 := rfl
@[simp] theorem withBadFrame_crc8 (code : StatusCode) (sub : Byte) (x y : Word16) : (s.withBadFrame code sub x y).crc8 = s.crc8 := rfl
@[simp] theorem withBadFrame_phase (code : StatusCode) (sub : Byte) (x y : Word16) : (s.withBadFrame code sub x y).phase = .searching := rfl
@[simp] theorem withBadFrame_lossArmed (code : StatusCode) (sub : Byte) (x y : Word16) : (s.withBadFrame code sub x y).lossArmed = s.lossArmed := rfl
@[simp] theorem withBadFrame_syncByte1 (code : StatusCode) (sub : Byte) (x y : Word16) : (s.withBadFrame code sub x y).syncByte1 = s.syncByte1 := rfl
@[simp] theorem withBadFrame_frameStart (code : StatusCode) (sub : Byte) (x y : Word16) : (s.withBadFrame code sub x y).frameStart = s.frameStart := rfl
@[simp] theorem withBadFrame_sfDone (code : StatusCode) (sub : Byte) (x y : Word16) : (s.withBadFrame code sub x y).sfDone = 0 := rfl
@[simp] theorem withBadFrame_hdr (code : StatusCode) (sub : Byte) (x y : Word16) : (s.withBadFrame code sub x y).hdr = s.hdr := rfl
@[simp] theorem withBadFrame_chbuf (code : StatusCode) (sub : Byte) (x y : Word16) : (s.withBadFrame code sub x y).chbuf = s.chbuf := rfl
@[simp] theorem withBadFrame_sfInfo (code : StatusCode) (sub : Byte) (x y : Word16) : (s.withBadFrame code sub x y).sfInfo = s.sfInfo := rfl
@[simp] theorem withBadFrame_footer (code : StatusCode) (sub : Byte) (x y : Word16) : (s.withBadFrame code sub x y).footer = s.footer := rfl
@[simp] theorem withBadFrame_bufValid (code : StatusCode) (sub : Byte) (x y : Word16) : (s.withBadFrame code sub x y).bufValid = s.bufValid := rfl
@[simp] theorem withBadFrame_badFrames (code : StatusCode) (sub : Byte) (x y : Word16) : (s.withBadFrame code sub x y).badFrames = s.badFrames + 1 := rfl
@[simp] theorem withBadFrame_samplesDecoded (code : StatusCode) (sub : Byte) (x y : Word16) : (s.withBadFrame code sub x y).samplesDecoded = s.samplesDecoded := rfl
@[simp] theorem withBadFrame_eof (code : StatusCode) (sub : Byte) (x y : Word16) : (s.withBadFrame code sub x y).eof = s.eof := rfl
@[simp] theorem withBadFrame_fatal (code : StatusCode) (sub : Byte) (x y : Word16) : (s.withBadFrame code sub x y).fatal = s.fatal := rfl
@[simp] theorem withBadFrame_lastErr (code : StatusCode) (sub : Byte) (x y : Word16) : (s.withBadFrame code sub x y).lastErr = s.lastErr := rfl
@[simp] theorem withBadFrame_sp (code : StatusCode) (sub : Byte) (x y : Word16) : (s.withBadFrame code sub x y).sp = s.sp := rfl
@[simp] theorem withBadFrame_spValid (code : StatusCode) (sub : Byte) (x y : Word16) : (s.withBadFrame code sub x y).spValid = s.spValid := rfl
@[simp] theorem withBadFrame_slot (code : StatusCode) (sub : Byte) (x y : Word16) : (s.withBadFrame code sub x y).slot = s.slot := rfl
@[simp] theorem withBadFrame_dataIn (code : StatusCode) (sub : Byte) (x y : Word16) : (s.withBadFrame code sub x y).dataIn = s.dataIn := rfl
@[simp] theorem withBadFrame_result (code : StatusCode) (sub : Byte) (x y : Word16) : (s.withBadFrame code sub x y).result = s.result := rfl
@[simp] theorem withBadFrame_statusOut (code : StatusCode) (sub : Byte) (x y : Word16) : (s.withBadFrame code sub x y).statusOut = s.statusOut := rfl
@[simp] theorem withBadFrame_stop (code : StatusCode) (sub : Byte) (x y : Word16) : (s.withBadFrame code sub x y).stop = s.stop := rfl
@[simp] theorem withBadFrame_outq (code : StatusCode) (sub : Byte) (x y : Word16) : (s.withBadFrame code sub x y).outq = s.outq ++ [.event ⟨code, sub, s.pos >>> 3, x, y⟩] := rfl
@[simp] theorem withBadFrame_residual (code : StatusCode) (sub : Byte) (x y : Word16) : (s.withBadFrame code sub x y).residual = s.residual := rfl
@[simp] theorem withBadFrame_host (code : StatusCode) (sub : Byte) (x y : Word16) : (s.withBadFrame code sub x y).host = s.host := rfl
@[simp] theorem withBadFrame_freeCount (code : StatusCode) (sub : Byte) (x y : Word16) : (s.withBadFrame code sub x y).freeCount = s.freeCount := rfl

/-! ## `State.withFrameCut` -/

@[simp] theorem withFrameCut_params : s.withFrameCut.params = s.params := rfl
@[simp] theorem withFrameCut_src : s.withFrameCut.src = s.src := rfl
@[simp] theorem withFrameCut_srcEnded : s.withFrameCut.srcEnded = s.srcEnded := rfl
@[simp] theorem withFrameCut_pos : s.withFrameCut.pos = s.pos := rfl
@[simp] theorem withFrameCut_crc16 : s.withFrameCut.crc16 = s.crc16 := rfl
@[simp] theorem withFrameCut_crc8 : s.withFrameCut.crc8 = s.crc8 := rfl
@[simp] theorem withFrameCut_phase : s.withFrameCut.phase = .searching := rfl
@[simp] theorem withFrameCut_lossArmed : s.withFrameCut.lossArmed = s.lossArmed := rfl
@[simp] theorem withFrameCut_syncByte1 : s.withFrameCut.syncByte1 = s.syncByte1 := rfl
@[simp] theorem withFrameCut_frameStart : s.withFrameCut.frameStart = s.frameStart := rfl
@[simp] theorem withFrameCut_sfDone : s.withFrameCut.sfDone = 0 := rfl
@[simp] theorem withFrameCut_hdr : s.withFrameCut.hdr = s.hdr := rfl
@[simp] theorem withFrameCut_chbuf : s.withFrameCut.chbuf = s.chbuf := rfl
@[simp] theorem withFrameCut_sfInfo : s.withFrameCut.sfInfo = s.sfInfo := rfl
@[simp] theorem withFrameCut_footer : s.withFrameCut.footer = s.footer := rfl
@[simp] theorem withFrameCut_bufValid : s.withFrameCut.bufValid = s.bufValid := rfl
@[simp] theorem withFrameCut_badFrames : s.withFrameCut.badFrames = s.badFrames := rfl
@[simp] theorem withFrameCut_samplesDecoded : s.withFrameCut.samplesDecoded = s.samplesDecoded := rfl
@[simp] theorem withFrameCut_eof : s.withFrameCut.eof = true := rfl
@[simp] theorem withFrameCut_fatal : s.withFrameCut.fatal = s.fatal := rfl
@[simp] theorem withFrameCut_lastErr : s.withFrameCut.lastErr = s.lastErr := rfl
@[simp] theorem withFrameCut_sp : s.withFrameCut.sp = s.sp := rfl
@[simp] theorem withFrameCut_spValid : s.withFrameCut.spValid = s.spValid := rfl
@[simp] theorem withFrameCut_slot : s.withFrameCut.slot = s.slot := rfl
@[simp] theorem withFrameCut_dataIn : s.withFrameCut.dataIn = s.dataIn := rfl
@[simp] theorem withFrameCut_result : s.withFrameCut.result = s.result := rfl
@[simp] theorem withFrameCut_statusOut : s.withFrameCut.statusOut = s.statusOut := rfl
@[simp] theorem withFrameCut_stop : s.withFrameCut.stop = s.stop := rfl
@[simp] theorem withFrameCut_outq : s.withFrameCut.outq = s.outq := rfl
@[simp] theorem withFrameCut_residual : s.withFrameCut.residual = s.residual := rfl
@[simp] theorem withFrameCut_host : s.withFrameCut.host = s.host := rfl
@[simp] theorem withFrameCut_freeCount : s.withFrameCut.freeCount = s.freeCount := rfl

/-! ## `State.withHeader` -/

@[simp] theorem withHeader_params (h : HeaderFields) (crc : Byte) : (s.withHeader h crc).params = s.params := rfl
@[simp] theorem withHeader_src (h : HeaderFields) (crc : Byte) : (s.withHeader h crc).src = s.src := rfl
@[simp] theorem withHeader_srcEnded (h : HeaderFields) (crc : Byte) : (s.withHeader h crc).srcEnded = s.srcEnded := rfl
@[simp] theorem withHeader_pos (h : HeaderFields) (crc : Byte) : (s.withHeader h crc).pos = s.pos := rfl
@[simp] theorem withHeader_crc16 (h : HeaderFields) (crc : Byte) : (s.withHeader h crc).crc16 = s.crc16 := rfl
@[simp] theorem withHeader_crc8 (h : HeaderFields) (crc : Byte) : (s.withHeader h crc).crc8 = s.crc8 := rfl
@[simp] theorem withHeader_phase (h : HeaderFields) (crc : Byte) : (s.withHeader h crc).phase = .headerDone := rfl
@[simp] theorem withHeader_lossArmed (h : HeaderFields) (crc : Byte) : (s.withHeader h crc).lossArmed = s.lossArmed := rfl
@[simp] theorem withHeader_syncByte1 (h : HeaderFields) (crc : Byte) : (s.withHeader h crc).syncByte1 = s.syncByte1 := rfl
@[simp] theorem withHeader_frameStart (h : HeaderFields) (crc : Byte) : (s.withHeader h crc).frameStart = s.frameStart := rfl
@[simp] theorem withHeader_sfDone (h : HeaderFields) (crc : Byte) : (s.withHeader h crc).sfDone = 0 := rfl
@[simp] theorem withHeader_hdr (h : HeaderFields) (crc : Byte) : (s.withHeader h crc).hdr = h.registers s.sp crc := rfl
@[simp] theorem withHeader_chbuf (h : HeaderFields) (crc : Byte) : (s.withHeader h crc).chbuf = s.chbuf := rfl
@[simp] theorem withHeader_sfInfo (h : HeaderFields) (crc : Byte) : (s.withHeader h crc).sfInfo = Vector.replicate 8 .zero := rfl
@[simp] theorem withHeader_footer (h : HeaderFields) (crc : Byte) : (s.withHeader h crc).footer = s.footer := rfl
@[simp] theorem withHeader_bufValid (h : HeaderFields) (crc : Byte) : (s.withHeader h crc).bufValid = false := rfl
@[simp] theorem withHeader_badFrames (h : HeaderFields) (crc : Byte) : (s.withHeader h crc).badFrames = s.badFrames := rfl
@[simp] theorem withHeader_samplesDecoded (h : HeaderFields) (crc : Byte) : (s.withHeader h crc).samplesDecoded = s.samplesDecoded := rfl
@[simp] theorem withHeader_eof (h : HeaderFields) (crc : Byte) : (s.withHeader h crc).eof = s.eof := rfl
@[simp] theorem withHeader_fatal (h : HeaderFields) (crc : Byte) : (s.withHeader h crc).fatal = s.fatal := rfl
@[simp] theorem withHeader_lastErr (h : HeaderFields) (crc : Byte) : (s.withHeader h crc).lastErr = s.lastErr := rfl
@[simp] theorem withHeader_sp (h : HeaderFields) (crc : Byte) : (s.withHeader h crc).sp = s.sp := rfl
@[simp] theorem withHeader_spValid (h : HeaderFields) (crc : Byte) : (s.withHeader h crc).spValid = s.spValid := rfl
@[simp] theorem withHeader_slot (h : HeaderFields) (crc : Byte) : (s.withHeader h crc).slot = s.slot := rfl
@[simp] theorem withHeader_dataIn (h : HeaderFields) (crc : Byte) : (s.withHeader h crc).dataIn = s.dataIn := rfl
@[simp] theorem withHeader_result (h : HeaderFields) (crc : Byte) : (s.withHeader h crc).result = s.result := rfl
@[simp] theorem withHeader_statusOut (h : HeaderFields) (crc : Byte) : (s.withHeader h crc).statusOut = s.statusOut := rfl
@[simp] theorem withHeader_stop (h : HeaderFields) (crc : Byte) : (s.withHeader h crc).stop = s.stop := rfl
@[simp] theorem withHeader_outq (h : HeaderFields) (crc : Byte) : (s.withHeader h crc).outq = s.outq ++ [.header (h.record s.sp crc s.frameStart)] := rfl
@[simp] theorem withHeader_residual (h : HeaderFields) (crc : Byte) : (s.withHeader h crc).residual = s.residual := rfl
@[simp] theorem withHeader_host (h : HeaderFields) (crc : Byte) : (s.withHeader h crc).host = s.host := rfl
@[simp] theorem withHeader_freeCount (h : HeaderFields) (crc : Byte) : (s.withHeader h crc).freeCount = s.freeCount := rfl

/-! ## `State.withFooter` -/

@[simp] theorem withFooter_params (e a : Word16) : (s.withFooter e a).params = s.params := rfl
@[simp] theorem withFooter_src (e a : Word16) : (s.withFooter e a).src = s.src := rfl
@[simp] theorem withFooter_srcEnded (e a : Word16) : (s.withFooter e a).srcEnded = s.srcEnded := rfl
@[simp] theorem withFooter_pos (e a : Word16) : (s.withFooter e a).pos = s.pos := rfl
@[simp] theorem withFooter_crc16 (e a : Word16) : (s.withFooter e a).crc16 = s.crc16 := rfl
@[simp] theorem withFooter_crc8 (e a : Word16) : (s.withFooter e a).crc8 = s.crc8 := rfl
@[simp] theorem withFooter_phase (e a : Word16) : (s.withFooter e a).phase = s.phase := rfl
@[simp] theorem withFooter_lossArmed (e a : Word16) : (s.withFooter e a).lossArmed = s.lossArmed := rfl
@[simp] theorem withFooter_syncByte1 (e a : Word16) : (s.withFooter e a).syncByte1 = s.syncByte1 := rfl
@[simp] theorem withFooter_frameStart (e a : Word16) : (s.withFooter e a).frameStart = s.frameStart := rfl
@[simp] theorem withFooter_sfDone (e a : Word16) : (s.withFooter e a).sfDone = s.sfDone := rfl
@[simp] theorem withFooter_hdr (e a : Word16) : (s.withFooter e a).hdr = s.hdr := rfl
@[simp] theorem withFooter_chbuf (e a : Word16) : (s.withFooter e a).chbuf = s.chbuf := rfl
@[simp] theorem withFooter_sfInfo (e a : Word16) : (s.withFooter e a).sfInfo = s.sfInfo := rfl
@[simp] theorem withFooter_footer (e a : Word16) : (s.withFooter e a).footer = e ++ a := rfl
@[simp] theorem withFooter_bufValid (e a : Word16) : (s.withFooter e a).bufValid = s.bufValid := rfl
@[simp] theorem withFooter_badFrames (e a : Word16) : (s.withFooter e a).badFrames = s.badFrames := rfl
@[simp] theorem withFooter_samplesDecoded (e a : Word16) : (s.withFooter e a).samplesDecoded = s.samplesDecoded := rfl
@[simp] theorem withFooter_eof (e a : Word16) : (s.withFooter e a).eof = s.eof := rfl
@[simp] theorem withFooter_fatal (e a : Word16) : (s.withFooter e a).fatal = s.fatal := rfl
@[simp] theorem withFooter_lastErr (e a : Word16) : (s.withFooter e a).lastErr = s.lastErr := rfl
@[simp] theorem withFooter_sp (e a : Word16) : (s.withFooter e a).sp = s.sp := rfl
@[simp] theorem withFooter_spValid (e a : Word16) : (s.withFooter e a).spValid = s.spValid := rfl
@[simp] theorem withFooter_slot (e a : Word16) : (s.withFooter e a).slot = s.slot := rfl
@[simp] theorem withFooter_dataIn (e a : Word16) : (s.withFooter e a).dataIn = s.dataIn := rfl
@[simp] theorem withFooter_result (e a : Word16) : (s.withFooter e a).result = s.result := rfl
@[simp] theorem withFooter_statusOut (e a : Word16) : (s.withFooter e a).statusOut = s.statusOut := rfl
@[simp] theorem withFooter_stop (e a : Word16) : (s.withFooter e a).stop = s.stop := rfl
@[simp] theorem withFooter_outq (e a : Word16) : (s.withFooter e a).outq = s.outq := rfl
@[simp] theorem withFooter_residual (e a : Word16) : (s.withFooter e a).residual = s.residual := rfl
@[simp] theorem withFooter_host (e a : Word16) : (s.withFooter e a).host = s.host := rfl
@[simp] theorem withFooter_freeCount (e a : Word16) : (s.withFooter e a).freeCount = s.freeCount := rfl

/-! ## `State.withDelivery` -/

@[simp] theorem withDelivery_params (ok : Bool) (xs : List (List Sample)) : (s.withDelivery ok xs).params = s.params := rfl
@[simp] theorem withDelivery_src (ok : Bool) (xs : List (List Sample)) : (s.withDelivery ok xs).src = s.src := rfl
@[simp] theorem withDelivery_srcEnded (ok : Bool) (xs : List (List Sample)) : (s.withDelivery ok xs).srcEnded = s.srcEnded := rfl
@[simp] theorem withDelivery_pos (ok : Bool) (xs : List (List Sample)) : (s.withDelivery ok xs).pos = s.pos := rfl
@[simp] theorem withDelivery_crc16 (ok : Bool) (xs : List (List Sample)) : (s.withDelivery ok xs).crc16 = s.crc16 := rfl
@[simp] theorem withDelivery_crc8 (ok : Bool) (xs : List (List Sample)) : (s.withDelivery ok xs).crc8 = s.crc8 := rfl
@[simp] theorem withDelivery_phase (ok : Bool) (xs : List (List Sample)) : (s.withDelivery ok xs).phase = .searching := rfl
@[simp] theorem withDelivery_lossArmed (ok : Bool) (xs : List (List Sample)) : (s.withDelivery ok xs).lossArmed = s.lossArmed := rfl
@[simp] theorem withDelivery_syncByte1 (ok : Bool) (xs : List (List Sample)) : (s.withDelivery ok xs).syncByte1 = s.syncByte1 := rfl
@[simp] theorem withDelivery_frameStart (ok : Bool) (xs : List (List Sample)) : (s.withDelivery ok xs).frameStart = s.frameStart := rfl
@[simp] theorem withDelivery_sfDone (ok : Bool) (xs : List (List Sample)) : (s.withDelivery ok xs).sfDone = 0 := rfl
@[simp] theorem withDelivery_hdr (ok : Bool) (xs : List (List Sample)) : (s.withDelivery ok xs).hdr = s.hdr := rfl
@[simp] theorem withDelivery_chbuf (ok : Bool) (xs : List (List Sample)) : (s.withDelivery ok xs).chbuf = s.chbuf := rfl
@[simp] theorem withDelivery_sfInfo (ok : Bool) (xs : List (List Sample)) : (s.withDelivery ok xs).sfInfo = s.sfInfo := rfl
@[simp] theorem withDelivery_footer (ok : Bool) (xs : List (List Sample)) : (s.withDelivery ok xs).footer = s.footer := rfl
@[simp] theorem withDelivery_bufValid (ok : Bool) (xs : List (List Sample)) : (s.withDelivery ok xs).bufValid = true := rfl
@[simp] theorem withDelivery_badFrames (ok : Bool) (xs : List (List Sample)) : (s.withDelivery ok xs).badFrames = s.badFrames := rfl
@[simp] theorem withDelivery_samplesDecoded (ok : Bool) (xs : List (List Sample)) : (s.withDelivery ok xs).samplesDecoded = s.samplesDecoded + s.hdr.blockSize.setWidth 64 := rfl
@[simp] theorem withDelivery_eof (ok : Bool) (xs : List (List Sample)) : (s.withDelivery ok xs).eof = s.eof := rfl
@[simp] theorem withDelivery_fatal (ok : Bool) (xs : List (List Sample)) : (s.withDelivery ok xs).fatal = s.fatal := rfl
@[simp] theorem withDelivery_lastErr (ok : Bool) (xs : List (List Sample)) : (s.withDelivery ok xs).lastErr = s.lastErr := rfl
@[simp] theorem withDelivery_sp (ok : Bool) (xs : List (List Sample)) : (s.withDelivery ok xs).sp = s.sp := rfl
@[simp] theorem withDelivery_spValid (ok : Bool) (xs : List (List Sample)) : (s.withDelivery ok xs).spValid = s.spValid := rfl
@[simp] theorem withDelivery_slot (ok : Bool) (xs : List (List Sample)) : (s.withDelivery ok xs).slot = s.slot := rfl
@[simp] theorem withDelivery_dataIn (ok : Bool) (xs : List (List Sample)) : (s.withDelivery ok xs).dataIn = s.dataIn := rfl
@[simp] theorem withDelivery_result (ok : Bool) (xs : List (List Sample)) : (s.withDelivery ok xs).result = s.result := rfl
@[simp] theorem withDelivery_statusOut (ok : Bool) (xs : List (List Sample)) : (s.withDelivery ok xs).statusOut = s.statusOut := rfl
@[simp] theorem withDelivery_stop (ok : Bool) (xs : List (List Sample)) : (s.withDelivery ok xs).stop = s.stop := rfl
@[simp] theorem withDelivery_outq (ok : Bool) (xs : List (List Sample)) : (s.withDelivery ok xs).outq = s.outq ++ [.frame (s.frameOf ok xs)] := rfl
@[simp] theorem withDelivery_residual (ok : Bool) (xs : List (List Sample)) : (s.withDelivery ok xs).residual = s.residual := rfl
@[simp] theorem withDelivery_host (ok : Bool) (xs : List (List Sample)) : (s.withDelivery ok xs).host = s.host := rfl
@[simp] theorem withDelivery_freeCount (ok : Bool) (xs : List (List Sample)) : (s.withDelivery ok xs).freeCount = s.freeCount := rfl

end Sys2Proof.Machine
end

