-- ==== Sys2Proof/Laws/Commands.lean ====
section
/-! SUPPORT. Laws of the ends of a command and of the admission checks (`60_exceptions.md` R381 to R392): the
machine's operations in the terms of the statements. -/

namespace Sys2Proof.Machine

/-! ## How a command ends -/

theorem endCommand_ok (s : State) (res : Word64) : s.endCommand Status.okay res = s.okWith res := rfl

theorem endCommand_error (s : State) (code : StatusCode) (sub : Byte) (h : code ≠ .ok) :
    s.endCommand ⟨code, sub⟩ 0 = s.errorWith code sub := by
  unfold State.endCommand State.errorWith
  rw [if_neg h]

theorem illegal_eq (sub : Byte) (s : State) : illegal sub s = .next (s.errorWith .illegalCmd sub) := by
  unfold illegal
  rw [endCommand_error _ _ _ (by decide)]

theorem structural_eq (s : State) :
    structural s = .next (State.errorWith .structural 1 { s with fatal := true }) := by
  unfold structural
  rw [endCommand_error _ _ _ (by decide)]

theorem badFrame_eq (code : StatusCode) (sub : Byte) (x y : Word16) (s : State) :
    s.badFrame code sub x y = s.withBadFrame code sub x y := rfl

theorem endOfStreamInFrame_eq (s : State) : s.endOfStreamInFrame = s.withFrameCut := rfl

/-! ## The arguments -/

theorem legalN_zero : legalN 0 = true := rfl

theorem legalN_false {a : Byte} (h : a ≠ 0) : legalN a = false := by unfold legalN; exact decide_eq_false h

theorem legalN_iff {a : Byte} : legalN a = true ↔ a = 0 := by simp only [legalN, decide_eq_true_eq]

theorem legalW_true {n : Byte} (h : n.toNat ≤ 64) : legalW n = true := by simp only [legalW, h, decide_true]

theorem legalW_false {n : Byte} (h : 64 < n.toNat) : legalW n = false := by
  simp only [legalW, Nat.not_le.2 h, decide_false]

theorem legalC_true {c : Byte} (h : c.toNat ≤ 7) : legalC c = true := by simp only [legalC, h, decide_true]

theorem legalC_false {c : Byte} (h : 7 < c.toNat) : legalC c = false := by
  simp only [legalC, Nat.not_le.2 h, decide_false]

theorem channelOf_ofNat (c : ChannelIx) : channelOf (BitVec.ofNat 8 c.val) = c := by
  revert c; decide

theorem toNat_ofNat_channel (c : ChannelIx) : (BitVec.ofNat 8 c.val).toNat = c.val := by
  revert c; decide

/-! ## Admission -/

theorem framesEnabled_true {s : State} (h1 : s.spValid = true) (h2 : s.fatal = false) :
    s.framesEnabled = true := by simp [State.framesEnabled, h1, h2]

theorem framesEnabled_iff {s : State} : s.framesEnabled = true ↔ s.spValid = true ∧ s.fatal = false := by
  simp [State.framesEnabled]

theorem framesEnabled_false {s : State} (h : s.spValid = false ∨ s.fatal = true) :
    s.framesEnabled = false := by
  rcases h with h | h <;> simp [State.framesEnabled, h]

theorem admitPlain_run {arg : Bool} {s : State} {run : Out} (h : arg = true) :
    admitPlain arg s run = run := by subst h; rfl

theorem admitPlain_illegal {arg : Bool} {s : State} {run : Out} (h : arg = false) :
    admitPlain arg s run = .next (s.errorWith .illegalCmd 2) := by subst h; exact illegal_eq 2 s

theorem admitFrame_run {arg seq : Bool} {s : State} {run : Out} (h1 : arg = true)
    (h2 : s.framesEnabled = true) (h3 : seq = true) : admitFrame arg seq s run = run := by
  simp [admitFrame, h1, h2, h3]

theorem admitFrame_illegal {arg seq : Bool} {s : State} {run : Out} (h : arg = false) :
    admitFrame arg seq s run = .next (s.errorWith .illegalCmd 2) := by subst h; exact illegal_eq 2 s

theorem admitFrame_structural {arg seq : Bool} {s : State} {run : Out} (h1 : arg = true)
    (h2 : s.framesEnabled = false) :
    admitFrame arg seq s run = .next (State.errorWith .structural 1 { s with fatal := true }) := by
  rw [← structural_eq]
  simp [admitFrame, h1, h2]

theorem admitFrame_sequence {arg seq : Bool} {s : State} {run : Out} (h1 : arg = true)
    (h2 : s.framesEnabled = true) (h3 : seq = false) :
    admitFrame arg seq s run = .next (s.errorWith .illegalCmd 3) := by
  rw [← illegal_eq]
  simp [admitFrame, h1, h2, h3]

/-- Everything admission can do: refuse the command in one of three ways, or run it. -/
theorem admitFrame_cases {arg seq : Bool} {s : State} {run : Out} {t : State}
    (h : admitFrame arg seq s run = .next t) :
    (arg = false ∧ t = s.errorWith .illegalCmd 2) ∨
    (s.framesEnabled = false ∧ t = State.errorWith .structural 1 { s with fatal := true }) ∨
    (seq = false ∧ t = s.errorWith .illegalCmd 3) ∨
    (arg = true ∧ s.framesEnabled = true ∧ seq = true ∧ run = .next t) := by
  cases h1 : arg with
  | false => rw [admitFrame_illegal h1] at h; cases h; exact .inl ⟨rfl, rfl⟩
  | true =>
    cases h2 : s.framesEnabled with
    | false => rw [admitFrame_structural h1 h2] at h; cases h; exact .inr (.inl ⟨rfl, rfl⟩)
    | true =>
      cases h3 : seq with
      | false => rw [admitFrame_sequence h1 h2 h3] at h; cases h; exact .inr (.inr (.inl ⟨rfl, rfl⟩))
      | true => rw [admitFrame_run h1 h2 h3] at h; exact .inr (.inr (.inr ⟨rfl, rfl, rfl, h⟩))

theorem admitPlain_cases {arg : Bool} {s : State} {run : Out} {t : State} (h : admitPlain arg s run = .next t) :
    (arg = false ∧ t = s.errorWith .illegalCmd 2) ∨ (arg = true ∧ run = .next t) := by
  cases h1 : arg with
  | false => rw [admitPlain_illegal h1] at h; cases h; exact .inl ⟨rfl, rfl⟩
  | true => rw [admitPlain_run h1] at h; exact .inr ⟨rfl, h⟩

/-! ## How a step ends -/

theorem finish_done (st : Status) (res : Word64) (t s : State) :
    (Ended.done st res t).finish s = .next (t.endCommand st res) := rfl

theorem finish_hold (s : State) : Ended.hold.finish s = .next s := rfl

theorem runFrameStep_ok {act : Rd (Status × Word64)} {s t : State} {st : Status} {res : Word64}
    (h : act s = .ok (st, res) t) : runFrameStep act s = .done st res t := by
  rw [runFrameStep, h]

theorem runFrameStep_hold {act : Rd (Status × Word64)} {s t : State} (h : act s = .error .hold t) :
    runFrameStep act s = .hold := by
  rw [runFrameStep, h]

theorem runFrameStep_endOfStream {act : Rd (Status × Word64)} {s t : State}
    (h : act s = .error .endOfStream t) :
    runFrameStep act s = .done ⟨.endOfStream, 0⟩ 0 t.withFrameCut := by
  rw [runFrameStep, h]; rfl

theorem runFrameStep_badFrame {act : Rd (Status × Word64)} {s t : State} {code : StatusCode} {sub : Byte}
    {x y : Word16} (h : act s = .error (.badFrame code sub x y) t) :
    runFrameStep act s = .done ⟨code, sub⟩ 0 (t.withBadFrame code sub x y) := by
  rw [runFrameStep, h]; rfl

end Sys2Proof.Machine
end

