-- ==== Sys2Proof/Laws/Channel.lean ====
section
/-! SUPPORT. Laws of the channel buffer (`20_memory.md` R66 to R68): reading after writing, the samples of a
frame, their packing, and what undoing an assignment leaves at each position (`46_decorrelate.md` R320). -/

namespace Sys2Proof.Machine

theorem length_freeSamples (g i n : Nat) : (freeSamples g i n).length = n := by
  induction n generalizing i with
  | zero => rfl
  | succ n ih => simp [freeSamples, ih]

theorem freeSamples_getElem? (g i n j : Nat) (h : j < n) :
    (freeSamples g i n)[j]? = some (Config.freeSample g (i + j)) := by
  induction n generalizing i j with
  | zero => omega
  | succ n ih =>
    cases j with
    | zero => simp [freeSamples]
    | succ j =>
      rw [freeSamples, List.getElem?_cons_succ, ih _ _ (by omega), show i + 1 + j = i + (j + 1) by omega]

theorem length_window (ch : Channel) (n : Nat) : (ch.window n).length = n := by
  simp only [Channel.window, List.length_append, List.length_take, length_freeSamples]
  omega

/-- The elements of a window are the elements a read gives. -/
theorem window_getElem? (ch : Channel) (n i : Nat) (h : i < n) : (ch.window n)[i]? = some (ch.read i) := by
  unfold Channel.window Channel.read
  by_cases hi : i < ch.samples.length
  · rw [List.getElem?_append_left (by simp [hi, h]), List.getElem?_take_of_lt h]
    simp [hi]
  · rw [List.getElem?_append_right (by simp; omega)]
    have hl : (ch.samples.take n).length = ch.samples.length := by simp; omega
    rw [hl, freeSamples_getElem? _ _ _ _ (by omega), show ch.samples.length + (i - ch.samples.length) = i by omega]
    simp [hi]

theorem window_eq (ch : Channel) (n : Nat) : ch.window n = (List.range n).map ch.read := by
  apply List.ext_getElem?
  intro i
  by_cases h : i < n
  · rw [window_getElem? ch n i h]
    simp [h]
  · rw [List.getElem?_eq_none (by rw [length_window]; omega), List.getElem?_eq_none (by simp; omega)]

/-- A write gives the written elements and keeps the others (R66). -/
theorem read_write (ch : Channel) (new : List Sample) (i : Nat) :
    (ch.write new).read i = if h : i < new.length then new[i] else ch.read i := by
  unfold Channel.write Channel.read
  by_cases h : i < new.length
  · simp [h, List.getElem?_append_left]
  · rw [dif_neg h]
    simp only [List.getElem?_append_right (Nat.not_lt.1 h), List.getElem?_drop,
      show new.length + (i - new.length) = i by omega]

theorem frameSamples_eq (s : State) : s.frameSamples = s.samplesOfFrame := by
  unfold State.frameSamples State.samplesOfFrame
  congr 1
  funext ch
  exact window_eq ch _

theorem packSample_eq (bps : Nat) (v : Sample) : packSample bps v = sampleBytes bps v := by
  have e : ∀ (v : Sample) (n : Nat), v.extractLsb' n 8 = (v >>> n).setWidth 8 := by
    intro v n
    apply BitVec.eq_of_toNat_eq
    simp
  unfold packSample sampleBytes
  split
  · simp [e]
  · simp [e]
  · simp [e]
  · rename_i h8 h16 h24
    rw [if_neg h8, if_neg h16, if_neg h24]

theorem packFrom_eq (bps : Nat) (samples : List (List Sample)) (i n : Nat) :
    packFrom bps samples i n =
      (List.range' i n).flatMap fun j => samples.flatMap fun ch => sampleBytes bps (ch.getD j 0) := by
  induction n generalizing i with
  | zero => rfl
  | succ n ih =>
    rw [packFrom, ih, List.range'_succ, List.flatMap_cons]
    simp only [packSample_eq]

theorem packFrom_zero (bps bs : Nat) (samples : List (List Sample)) :
    packFrom bps samples 0 bs = pcmOf bps bs samples := by
  rw [packFrom_eq, pcmOf, List.range_eq_range']

/-- The record a delivery emits is the record of R67. -/
theorem frameRecord_eq (crcOk : Bool) (s : State) : s.frameRecord crcOk = s.frameOf crcOk s.samplesOfFrame := by
  unfold State.frameRecord State.frameOf
  rw [packFrom_zero, frameSamples_eq]

theorem deliver_eq (crcOk : Bool) (s : State) : s.deliver crcOk = s.withDelivery crcOk s.samplesOfFrame := by
  unfold State.deliver State.withDelivery
  rw [frameRecord_eq]
  rfl

theorem zipWith_window_getElem? (f : Sample → Sample → Sample) (a b : Channel) (n i : Nat) (h : i < n) :
    (List.zipWith f (a.window n) (b.window n))[i]? = some (f (a.read i) (b.read i)) := by
  rw [List.getElem?_zipWith, window_getElem? a n i h, window_getElem? b n i h]

theorem length_zipWith_window (f : Sample → Sample → Sample) (a b : Channel) (n : Nat) :
    (List.zipWith f (a.window n) (b.window n)).length = n := by
  simp [length_window]

/-- A channel rewritten from two windows of the block. -/
theorem read_write_zipWith (ch : Channel) (f : Sample → Sample → Sample) (a b : Channel) (n i : Nat) :
    (ch.write (List.zipWith f (a.window n) (b.window n))).read i =
      if i < n then f (a.read i) (b.read i) else ch.read i := by
  rw [read_write]
  simp only [length_zipWith_window]
  split
  · rename_i h
    have := zipWith_window_getElem? f a b n i h
    rw [List.getElem?_eq_some_iff] at this
    exact this.2
  · rfl

theorem writeChannel_same (c : ChannelIx) (new : List Sample) (s : State) :
    (s.writeChannel c new).chbuf[c] = s.chbuf[c].write new := by
  simp [State.writeChannel]

theorem writeChannel_other {c d : ChannelIx} (h : d ≠ c) (new : List Sample) (s : State) :
    (s.writeChannel c new).chbuf[d] = s.chbuf[d] :=
  Vector.getElem_set_ne c.isLt d.isLt fun e => h (Fin.ext e.symm)

/-- Undoing an assignment, position by position (R320 to R324). -/
theorem decorrelate_reads (a : Assign) (s : State) : State.decorrelatesTo a s (s.decorrelate a) := by
  have w0 : ∀ (u : State) new, (u.writeChannel 0 new).chbuf[0] = u.chbuf[0].write new :=
    fun u new => writeChannel_same 0 new u
  have w1 : ∀ (u : State) new, (u.writeChannel 1 new).chbuf[1] = u.chbuf[1].write new :=
    fun u new => writeChannel_same 1 new u
  have o01 : ∀ (u : State) new, (u.writeChannel 0 new).chbuf[1] = u.chbuf[1] :=
    fun u new => writeChannel_other (c := 0) (d := 1) (by decide) new u
  have o10 : ∀ (u : State) new, (u.writeChannel 1 new).chbuf[0] = u.chbuf[0] :=
    fun u new => writeChannel_other (c := 1) (d := 0) (by decide) new u
  have far : ∀ c : ChannelIx, 2 ≤ c.val → c ≠ 0 ∧ c ≠ 1 := by decide
  cases a with
  | independent => exact ⟨fun _ _ => rfl, fun _ _ => ⟨rfl, rfl⟩, fun _ _ => rfl⟩
  | leftSide =>
    refine ⟨fun i hi => ?_, fun i hi => ?_, fun c hc => writeChannel_other (far c hc).2 _ s⟩
    · simp only [State.decorrelate, w1, o10, read_write_zipWith, if_pos hi]; rfl
    · simp only [State.decorrelate, w1, o10, read_write_zipWith, if_neg (Nat.not_lt.2 hi), and_self]
  | rightSide =>
    refine ⟨fun i hi => ?_, fun i hi => ?_, fun c hc => writeChannel_other (far c hc).1 _ s⟩
    · simp only [State.decorrelate, w0, o01, read_write_zipWith, if_pos hi]; rfl
    · simp only [State.decorrelate, w0, o01, read_write_zipWith, if_neg (Nat.not_lt.2 hi), and_self]
  | midSide =>
    refine ⟨fun i hi => ?_, fun i hi => ?_, fun c hc => ?_⟩
    · simp only [State.decorrelate, w1, o10, w0, o01, read_write_zipWith, if_pos hi]; rfl
    · simp only [State.decorrelate, w1, o10, w0, o01, read_write_zipWith, if_neg (Nat.not_lt.2 hi), and_self]
    · simp only [State.decorrelate]
      rw [writeChannel_other (far c hc).2, writeChannel_other (far c hc).1]

end Sys2Proof.Machine
end

