-- ==== Sys2Proof/Laws/Decode.lean ====
section
/-! SUPPORT. Laws of the decoder and the encoder (`30_encoding.md` R80 to R110): the fields of a command word. -/

namespace Sys2Proof.Machine

theorem toNat_append_byte (op a : Byte) : (op ++ a : Word16).toNat = op.toNat * 256 + a.toNat := by
  rw [BitVec.toNat_append, ← Nat.shiftLeft_add_eq_or_of_lt a.isLt, Nat.shiftLeft_eq]

theorem opcodeOf_append (op a : Byte) : opcodeOf (op ++ a) = op := by
  apply BitVec.eq_of_toNat_eq
  simp only [opcodeOf, BitVec.extractLsb'_toNat, toNat_append_byte, Nat.shiftRight_eq_div_pow]
  have := a.isLt
  have := op.isLt
  omega

theorem argumentOf_append (op a : Byte) : argumentOf (op ++ a) = a := by
  apply BitVec.eq_of_toNat_eq
  simp only [argumentOf, BitVec.extractLsb'_toNat, toNat_append_byte, Nat.shiftRight_zero]
  have := a.isLt
  omega

/-- A command word is its opcode and its argument. -/
theorem append_parts (x : Word16) : opcodeOf x ++ argumentOf x = x := by
  apply BitVec.eq_of_toNat_eq
  rw [toNat_append_byte]
  simp only [argumentOf, opcodeOf, BitVec.extractLsb'_toNat, Nat.shiftRight_eq_div_pow]
  have := x.isLt
  omega

/-- An opcode that is not defined decodes to the reserved opcode (R82). -/
theorem decodeCommand_reserved (op a : Byte) (h : opcodeDefined op = false) :
    decodeCommand (op ++ a) = .reservedOpcode op a := by
  unfold decodeCommand
  rw [opcodeOf_append, argumentOf_append]
  split <;> first | rfl | (exfalso; simp_all [opcodeDefined])

end Sys2Proof.Machine
end

