-- ==== Sys2Proof/Laws/Input.lean ====
section
/-! SUPPORT. Laws of the input bytes and of the bits that stand in them (`20_memory.md` R60 to R63): the
canonical form, the read of a byte, the read of a run of bits, and what the host's append keeps. -/

namespace Sys2Proof.Machine

/-! ## The canonical form and the bytes -/

theorem Memory.wfFrom_append (a : Nat) (m : Memory) (b : Byte) (h : Memory.wfFrom a m = true) :
    Memory.wfFrom a (m ++ [(a + m.length, b)]) = true := by
  induction m generalizing a with
  | nil => simp [Memory.wfFrom]
  | cons c m ih =>
    obtain ⟨k, x⟩ := c
    simp only [Memory.wfFrom, Bool.and_eq_true, beq_iff_eq] at h
    have := ih (a + 1) h.2
    simp only [List.cons_append, Memory.wfFrom, Bool.and_eq_true, beq_iff_eq]
    refine ⟨h.1, ?_⟩
    have e : a + (⟨k, x⟩ :: m : Memory).length = a + 1 + m.length := by
      simp only [List.length_cons]; omega
    rw [e]; exact this

/-- The host's append keeps the canonical form. -/
theorem Memory.wf_append {m : Memory} (b : Byte) (h : m.wf = true) : (m.append b).wf = true := by
  have := Memory.wfFrom_append 0 m b h
  rw [Nat.zero_add] at this
  exact this

@[simp] theorem Memory.length_append (m : Memory) (b : Byte) : (m.append b).length = m.length + 1 := by
  simp [Memory.append]

theorem Memory.byteAt_wfFrom {a : Nat} {m : Memory} (h : Memory.wfFrom a m = true) (k : Nat) :
    m.byteAt k = if a ≤ k then (m[k - a]?).map Prod.snd else none := by
  induction m generalizing a with
  | nil => simp [Memory.byteAt]
  | cons c m ih =>
    obtain ⟨j, x⟩ := c
    simp only [Memory.wfFrom, Bool.and_eq_true, beq_iff_eq] at h
    obtain ⟨rfl, h⟩ := h
    rw [Memory.byteAt, ih h]
    by_cases hk : j = k
    · subst hk; simp
    · simp only [hk, if_false]
      by_cases hle : j ≤ k
      · have h1 : j + 1 ≤ k := by omega
        have h2 : k - j = (k - (j + 1)) + 1 := by omega
        simp [hle, h1, h2]
      · have h1 : ¬ j + 1 ≤ k := by omega
        simp [hle, h1]

/-- In the canonical form the byte at index `k` is cell `k` (R60). -/
theorem Memory.byteAt_wf {m : Memory} (h : m.wf = true) (k : Nat) :
    m.byteAt k = (m[k]?).map Prod.snd := by
  simpa using Memory.byteAt_wfFrom h k

theorem Memory.byteAt_isSome {m : Memory} (h : m.wf = true) {k : Nat} (hk : k < m.length) :
    ∃ b, m.byteAt k = some b := by
  rw [Memory.byteAt_wf h]
  exact ⟨m[k].2, by simp [hk]⟩

theorem Memory.byteAt_none {m : Memory} (h : m.wf = true) {k : Nat} (hk : m.length ≤ k) :
    m.byteAt k = none := by
  rw [Memory.byteAt_wf h]
  simp [hk]

theorem Memory.lt_length_of_byteAt {m : Memory} (h : m.wf = true) {k : Nat} {b : Byte}
    (hb : m.byteAt k = some b) : k < m.length := by
  by_contra hk
  rw [Memory.byteAt_none h (by omega)] at hb
  cases hb

/-- Appending changes no byte already supplied, and puts the new byte at the end (R61). -/
theorem Memory.byteAt_append {m : Memory} (h : m.wf = true) (b : Byte) (k : Nat) :
    (m.append b).byteAt k = if k = m.length then some b else m.byteAt k := by
  rw [Memory.byteAt_wf (Memory.wf_append b h), Memory.byteAt_wf h]
  simp only [Memory.append]
  by_cases hk : k = m.length
  · subst hk; simp
  · by_cases hl : k < m.length
    · simp [hk, hl, List.getElem?_append_left]
    · have : m.length < k := by omega
      simp [hk, List.getElem?_append_right (by omega : m.length ≤ k)]
      have h1 : k - m.length ≠ 0 := by omega
      have h2 : m.length ≤ k := by omega
      simp [h1, h2]

/-! ## Bits -/

theorem Memory.bitAt_isSome {m : Memory} (h : m.wf = true) {p : Nat} (hp : p < 8 * m.length) :
    ∃ b, m.bitAt p = some b := by
  obtain ⟨x, hx⟩ := Memory.byteAt_isSome h (k := p / 8) (by omega)
  exact ⟨_, by rw [Memory.bitAt, hx]⟩

theorem Memory.lt_length_of_bitAt {m : Memory} (h : m.wf = true) {p : Nat} {b : Bool}
    (hb : m.bitAt p = some b) : p < 8 * m.length := by
  rw [Memory.bitAt] at hb
  split at hb
  · rename_i x hx
    have := Memory.lt_length_of_byteAt h hx
    omega
  · cases hb

theorem Memory.byteAt_of_bitAt {m : Memory} {p : Nat} {b : Bool} (hb : m.bitAt p = some b) :
    ∃ x, m.byteAt (p / 8) = some x := by
  rw [Memory.bitAt] at hb
  split at hb
  · rename_i x hx; exact ⟨x, hx⟩
  · cases hb

/-- A run of bits is read exactly when each of its bits is there. -/
theorem Memory.bitsAt_eq_some {m : Memory} {p n : Nat} {bits : List Bool} :
    m.bitsAt p n = some bits ↔
      bits.length = n ∧ ∀ (i : Nat) (h : i < bits.length), m.bitAt (p + i) = some bits[i] := by
  induction n generalizing p bits with
  | zero =>
    rw [Memory.bitsAt]
    constructor
    · rintro h
      cases h
      simp
    · rintro ⟨h, -⟩
      rw [List.length_eq_zero_iff] at h
      rw [h]
  | succ n ih =>
    rw [Memory.bitsAt]
    constructor
    · intro h
      split at h
      · cases h
      · rename_i b hb
        split at h
        · cases h
        · rename_i bs hbs
          cases h
          obtain ⟨hl, hi⟩ := ih.1 hbs
          refine ⟨by simp [hl], ?_⟩
          intro i hi'
          cases i with
          | zero => simpa using hb
          | succ i =>
            have := hi i (by simpa using hi')
            rw [show p + (i + 1) = p + 1 + i by omega]
            simpa using this
    · rintro ⟨hl, hi⟩
      cases bits with
      | nil => simp at hl
      | cons b bs =>
        have h0 := hi 0 (by simp)
        simp only [Nat.add_zero, List.getElem_cons_zero] at h0
        have hbs : m.bitsAt (p + 1) n = some bs := by
          refine ih.2 ⟨by simpa using hl, ?_⟩
          intro i hi'
          have := hi (i + 1) (by simpa using hi')
          rw [show p + (i + 1) = p + 1 + i by omega] at this
          simpa using this
        simp [h0, hbs]

theorem Memory.bitsAt_isSome {m : Memory} (h : m.wf = true) {p n : Nat} (hp : p + n ≤ 8 * m.length) :
    ∃ bits, m.bitsAt p n = some bits := by
  induction n generalizing p with
  | zero => exact ⟨[], rfl⟩
  | succ n ih =>
    obtain ⟨b, hb⟩ := Memory.bitAt_isSome h (p := p) (by omega)
    obtain ⟨bs, hbs⟩ := ih (p := p + 1) (by omega)
    exact ⟨b :: bs, by simp [Memory.bitsAt, hb, hbs]⟩

theorem Memory.bitsAt_none {m : Memory} (h : m.wf = true) {p n : Nat} (hn : 0 < n)
    (hp : 8 * m.length < p + n) : m.bitsAt p n = none := by
  cases hb : m.bitsAt p n with
  | none => rfl
  | some bits =>
    obtain ⟨hl, hi⟩ := Memory.bitsAt_eq_some.1 hb
    have := Memory.lt_length_of_bitAt h (hi (n - 1) (by omega))
    omega

theorem Memory.length_of_bitsAt {m : Memory} {p n : Nat} {bits : List Bool}
    (h : m.bitsAt p n = some bits) : bits.length = n := (Memory.bitsAt_eq_some.1 h).1

/-- A run of bits that was read lies inside the input. -/
theorem Memory.le_of_bitsAt {m : Memory} (h : m.wf = true) {p n : Nat} {bits : List Bool}
    (hb : m.bitsAt p n = some bits) (hp : p ≤ 8 * m.length) : p + n ≤ 8 * m.length := by
  by_contra hlt
  rw [Memory.bitsAt_none h (by omega) (by omega)] at hb
  cases hb

/-- The zeros before the first one, as far as they are looked for. -/
theorem Memory.zerosAt_eq_some {m : Memory} {p fuel z : Nat} :
    m.zerosAt p fuel = some z ↔
      z < fuel ∧ (∀ i < z, m.bitAt (p + i) = some false) ∧ m.bitAt (p + z) = some true := by
  induction fuel generalizing p z with
  | zero => simp [Memory.zerosAt]
  | succ fuel ih =>
    rw [Memory.zerosAt]
    constructor
    · intro h
      split at h
      · cases h
      · rename_i hb
        cases h
        exact ⟨by omega, fun i hi => absurd hi (by omega), by simpa using hb⟩
      · rename_i hb
        split at h
        · cases h
        · rename_i z' hz
          cases h
          obtain ⟨h1, h2, h3⟩ := ih.1 hz
          refine ⟨by omega, ?_, ?_⟩
          · intro i hi
            cases i with
            | zero => simpa using hb
            | succ i =>
              rw [show p + (i + 1) = p + 1 + i by omega]
              exact h2 i (by omega)
          · rw [show p + (z' + 1) = p + 1 + z' by omega]
            exact h3
    · rintro ⟨h1, h2, h3⟩
      cases z with
      | zero =>
        rw [Nat.add_zero] at h3
        simp [h3]
      | succ z =>
        have h0 := h2 0 (by omega)
        rw [Nat.add_zero] at h0
        have hz : m.zerosAt (p + 1) fuel = some z := by
          refine ih.2 ⟨by omega, fun i hi => ?_, ?_⟩
          · have := h2 (i + 1) (by omega)
            rwa [show p + (i + 1) = p + 1 + i by omega] at this
          · rwa [show p + (z + 1) = p + 1 + z by omega] at h3
        simp [h0, hz]

/-! ## Bytes in a row -/

theorem Memory.bytesAt_add (m : Memory) (a j k : Nat) (h : ∀ i < j, ∃ b, m.byteAt (a + i) = some b) :
    m.bytesAt a (j + k) = m.bytesAt a j ++ m.bytesAt (a + j) k := by
  induction j generalizing a with
  | zero => simp [Memory.bytesAt]
  | succ j ih =>
    obtain ⟨b, hb⟩ := h 0 (by omega)
    rw [Nat.add_zero] at hb
    rw [show j + 1 + k = (j + k) + 1 by omega, Memory.bytesAt, Memory.bytesAt, hb]
    simp only [List.cons_append, List.cons.injEq, true_and]
    rw [ih (a + 1), show a + 1 + j = a + (j + 1) by omega]
    intro i hi
    rw [show a + 1 + i = a + (i + 1) by omega]
    exact h (i + 1) (by omega)

/-- The bytes in a row from index `a` on are the cells' bytes. -/
theorem Memory.bytesAt_wf {m : Memory} (h : m.wf = true) {a k : Nat} (hk : a + k ≤ m.length) :
    m.bytesAt a k = ((m.drop a).take k).map Prod.snd := by
  induction k generalizing a with
  | zero => simp [Memory.bytesAt]
  | succ k ih =>
    have ha : a < m.length := by omega
    rw [Memory.bytesAt, Memory.byteAt_wf h]
    simp only [ha, List.getElem?_eq_getElem, Option.map_some]
    rw [ih (by omega), List.drop_eq_getElem_cons ha, List.take_succ_cons, List.map_cons]

/-! ## Numbers from bits -/

theorem natOfBits_foldl (v : Nat) (bits : List Bool) :
    bits.foldl (fun v b => 2 * v + b.toNat) v = v * 2 ^ bits.length + natOfBits bits := by
  induction bits generalizing v with
  | nil => simp [natOfBits]
  | cons b bs ih =>
    rw [natOfBits, List.foldl_cons, List.foldl_cons, ih, ih (2 * 0 + b.toNat)]
    simp only [List.length_cons, Nat.pow_succ]
    ring

@[simp] theorem natOfBits_nil : natOfBits [] = 0 := rfl

theorem natOfBits_cons (b : Bool) (bs : List Bool) :
    natOfBits (b :: bs) = b.toNat * 2 ^ bs.length + natOfBits bs := by
  rw [natOfBits, List.foldl_cons, natOfBits_foldl]
  simp

theorem natOfBits_append (as bs : List Bool) :
    natOfBits (as ++ bs) = natOfBits as * 2 ^ bs.length + natOfBits bs := by
  rw [natOfBits, List.foldl_append, natOfBits_foldl]
  rfl

theorem natOfBits_lt (bits : List Bool) : natOfBits bits < 2 ^ bits.length := by
  induction bits with
  | nil => simp
  | cons b bs ih =>
    rw [natOfBits_cons, List.length_cons, Nat.pow_succ]
    have : b.toNat ≤ 1 := Bool.toNat_le b
    nlinarith [Nat.two_pow_pos bs.length]

@[simp] theorem length_bitsOf (n v : Nat) : (bitsOf n v).length = n := by
  induction n with
  | zero => rfl
  | succ n ih => simp [bitsOf, ih]

/-- Reading back the `n` low bits of a number gives it modulo `2^n`. -/
@[simp] theorem natOfBits_bitsOf (n v : Nat) : natOfBits (bitsOf n v) = v % 2 ^ n := by
  induction n with
  | zero => simp [bitsOf, Nat.mod_one]
  | succ n ih =>
    rw [bitsOf, natOfBits_cons, ih, length_bitsOf, Nat.mod_pow_succ, Nat.testBit_eq_decide_div_mod_eq]
    have h2 : v / 2 ^ n % 2 = 0 ∨ v / 2 ^ n % 2 = 1 := by omega
    rcases h2 with h2 | h2 <;> simp [h2, Nat.add_comm]

theorem bitsOf_mod (n v : Nat) : bitsOf n (v % 2 ^ n) = bitsOf n v := by
  have key : ∀ k, k ≤ n → bitsOf k (v % 2 ^ n) = bitsOf k v := by
    intro k
    induction k with
    | zero => intro _; rfl
    | succ k ih =>
      intro hk
      rw [bitsOf, bitsOf, ih (by omega), Nat.testBit_mod_two_pow]
      have : decide (k < n) = true := by simp; omega
      rw [this, Bool.true_and]
  exact key n (le_refl n)

/-- Bit `i` of the `n` low bits, first bit most significant. -/
theorem bitsOf_getElem (n v i : Nat) (h : i < (bitsOf n v).length) :
    (bitsOf n v)[i] = v.testBit (n - 1 - i) := by
  induction n generalizing i with
  | zero => simp at h
  | succ n ih =>
    cases i with
    | zero => simp [bitsOf]
    | succ i =>
      simp only [bitsOf, List.getElem_cons_succ]
      rw [ih]
      congr 1
      omega

/-- A run of bits is the run of its own number. -/
theorem bitsOf_natOfBits (bits : List Bool) : bitsOf bits.length (natOfBits bits) = bits := by
  induction bits with
  | nil => rfl
  | cons b bs ih =>
    rw [List.length_cons, bitsOf, natOfBits_cons]
    have hlt := natOfBits_lt bs
    congr 1
    · rw [Nat.testBit_eq_decide_div_mod_eq, Nat.mul_comm, Nat.mul_add_div (Nat.two_pow_pos _),
        Nat.div_eq_of_lt hlt]
      cases b <;> simp
    · rw [← bitsOf_mod, Nat.mul_comm, Nat.mul_add_mod, Nat.mod_eq_of_lt hlt]
      exact ih

end Sys2Proof.Machine
end

