-- ==== Sys2Proof/Laws/Read.lean ====
section
/-! SUPPORT. Laws of the bitstream reads (`40_bitreader.md` R130 to R142): how a decode step is run, what a
read answers when its bits stand ahead of the cursor (`Reads`), and everything a read can do (`Sound`). -/

namespace Sys2Proof.Machine

/-! ## Running a decode step -/

@[simp] theorem Rd.pure_run {α : Type} (a : α) (s : State) : (pure a : Rd α) s = .ok a s := rfl

@[simp] theorem Rd.bind_run {α β : Type} (x : Rd α) (f : α → Rd β) (s : State) :
    (x >>= f) s = match x s with
      | .ok a t => f a t
      | .error e t => .error e t := by
  change EStateM.bind x f s = _
  unfold EStateM.bind
  cases x s <;> rfl

@[simp] theorem Rd.map_run {α β : Type} (f : α → β) (x : Rd α) (s : State) :
    (f <$> x) s = match x s with
      | .ok a t => .ok (f a) t
      | .error e t => .error e t := by
  change EStateM.map f x s = _
  unfold EStateM.map
  cases x s <;> rfl

/-- A decode step ends with OK when each of its parts does. -/
theorem Rd.bind_ok {α β : Type} {x : Rd α} {f : α → Rd β} {s u : State} {b : β} :
    (x >>= f) s = .ok b u ↔ ∃ a t, x s = .ok a t ∧ f a t = .ok b u := by
  rw [Rd.bind_run]
  cases x s <;> simp

@[simp] theorem Rd.get_run (s : State) : (get : Rd State) s = .ok s s := rfl

@[simp] theorem Rd.modify_run (f : State → State) (s : State) :
    (modify f : Rd Unit) s = .ok () (f s) := rfl

@[simp] theorem Rd.throw_run {α : Type} (e : Raise) (s : State) :
    (throw e : Rd α) s = .error e s := rfl

@[simp] theorem Rd.reject_true (r : Raise) (s : State) : reject true r s = .error r s := rfl

@[simp] theorem Rd.reject_false (r : Raise) (s : State) : reject false r s = .ok () s := rfl

theorem unavailable_run {α : Type} (s : State) :
    (unavailable : Rd α) s = .error (if s.srcEnded then .endOfStream else .hold) s := by
  by_cases h : s.srcEnded = true <;> simp [unavailable, h]

/-! ## Consuming -/

@[simp] theorem consume_zero (s : State) : s.consume 0 = s := by
  simp [State.consume, Memory.bytesAt, crc16Over, crc8Over]

theorem crc16Over_append (c : Word16) (xs ys : List Byte) :
    crc16Over c (xs ++ ys) = crc16Over (crc16Over c xs) ys := by simp [crc16Over]

theorem crc8Over_append (c : Byte) (xs ys : List Byte) :
    crc8Over c (xs ++ ys) = crc8Over (crc8Over c xs) ys := by simp [crc8Over]

theorem pos_consume_toNat {s : State} {n : Nat} (h : s.pos.toNat + n < 2 ^ 64) :
    (s.pos + BitVec.ofNat 64 n).toNat = s.pos.toNat + n := by
  rw [BitVec.toNat_add, BitVec.toNat_ofNat]
  omega

/-- Consuming is additive: a byte enters the accumulators once, when its last bit is consumed, whatever
reads consumed its bits (R142). -/
theorem consume_consume (s : State) (m n : Nat)
    (h : ∀ i < (s.pos.toNat + m) / 8 - s.pos.toNat / 8, ∃ b, s.src.byteAt (s.pos.toNat / 8 + i) = some b)
    (hp : s.pos.toNat + m < 2 ^ 64) :
    (s.consume m).consume n = s.consume (m + n) := by
  have e1 : (s.pos + BitVec.ofNat 64 m).toNat = s.pos.toNat + m := pos_consume_toNat hp
  have key : s.src.bytesAt (s.pos.toNat / 8) ((s.pos.toNat + (m + n)) / 8 - s.pos.toNat / 8) =
      s.src.bytesAt (s.pos.toNat / 8) ((s.pos.toNat + m) / 8 - s.pos.toNat / 8) ++
      s.src.bytesAt ((s.pos.toNat + m) / 8) ((s.pos.toNat + m + n) / 8 - (s.pos.toNat + m) / 8) := by
    have hj := Memory.bytesAt_add s.src (s.pos.toNat / 8) ((s.pos.toNat + m) / 8 - s.pos.toNat / 8)
      ((s.pos.toNat + m + n) / 8 - (s.pos.toNat + m) / 8) h
    rw [show s.pos.toNat / 8 + ((s.pos.toNat + m) / 8 - s.pos.toNat / 8) = (s.pos.toNat + m) / 8 by omega]
      at hj
    rw [← hj]
    congr 1
    omega
  have e2 : s.pos + BitVec.ofNat 64 m + BitVec.ofNat 64 n = s.pos + BitVec.ofNat 64 (m + n) := by
    rw [BitVec.add_assoc, BitVec.ofNat_add]
  simp only [State.consume, e1, e2, key, crc16Over_append, crc8Over_append]

/-! ## Bits ahead of the cursor -/

theorem State.ahead_iff {s : State} {bits : List Bool} :
    s.ahead bits ↔ s.sourceOk ∧ s.src.bitsAt s.pos.toNat bits.length = some bits := by
  rw [State.ahead, Memory.bitsAt_eq_some]
  constructor
  · rintro ⟨h, hb⟩; exact ⟨h, rfl, hb⟩
  · rintro ⟨h, -, hb⟩; exact ⟨h, hb⟩

theorem State.ahead.le {s : State} {bits : List Bool} (h : s.ahead bits) :
    s.pos.toNat + bits.length ≤ 8 * s.src.length := by
  obtain ⟨hs, hb⟩ := State.ahead_iff.1 h
  exact Memory.le_of_bitsAt hs.1 hb hs.2.2

/-- The cursor stays inside the input, so it does not wrap. -/
theorem pos_consume_le {s : State} (h : s.sourceOk) {n : Nat} (hn : s.pos.toNat + n ≤ 8 * s.src.length) :
    (s.consume n).pos.toNat = s.pos.toNat + n := by
  have := h.2.1
  exact pos_consume_toNat (by omega)

theorem sourceOk_consume {s : State} (h : s.sourceOk) {n : Nat}
    (hn : s.pos.toNat + n ≤ 8 * s.src.length) : (s.consume n).sourceOk := by
  refine ⟨h.1, h.2.1, ?_⟩
  rw [pos_consume_le h hn]
  exact hn

theorem consume_add {s : State} (h : s.sourceOk) {m n : Nat}
    (hn : s.pos.toNat + m ≤ 8 * s.src.length) : (s.consume m).consume n = s.consume (m + n) := by
  have h2 := h.2.1
  apply consume_consume
  · intro i hi
    exact Memory.byteAt_isSome h.1 (by omega)
  · omega

theorem State.ahead_append {s : State} {as bs : List Bool} :
    s.ahead (as ++ bs) ↔ s.ahead as ∧ (s.consume as.length).ahead bs := by
  constructor
  · intro h
    have hle := h.le
    rw [List.length_append] at hle
    have ha : s.ahead as := by
      refine ⟨h.1, fun i hi => ?_⟩
      have := h.2 i (by rw [List.length_append]; omega)
      rwa [List.getElem_append_left hi] at this
    refine ⟨ha, sourceOk_consume h.1 (by omega), fun i hi => ?_⟩
    have := h.2 (as.length + i) (by rw [List.length_append]; omega)
    rw [List.getElem_append_right (by omega)] at this
    rw [pos_consume_le h.1 (by omega), Nat.add_assoc]
    simpa using this
  · rintro ⟨ha, hb⟩
    refine ⟨ha.1, fun i hi => ?_⟩
    by_cases hlt : i < as.length
    · rw [List.getElem_append_left hlt]; exact ha.2 i hlt
    · have hi' : i - as.length < bs.length := by rw [List.length_append] at hi; omega
      have := hb.2 (i - as.length) hi'
      rw [pos_consume_le ha.1 ha.le] at this
      rw [List.getElem_append_right (by omega)]
      rwa [show s.pos.toNat + as.length + (i - as.length) = s.pos.toNat + i by omega] at this

/-- Consuming two runs of bits, one after the other. -/
theorem State.ahead.consume_append {s : State} {as : List Bool} (h : s.ahead as) (bs : List Bool) :
    s.consume (as ++ bs).length = (s.consume as.length).consume bs.length := by
  rw [List.length_append, consume_add h.1 h.le]

@[simp] theorem State.ahead_nil {s : State} : s.ahead [] ↔ s.sourceOk := by
  simp [State.ahead]

/-! ## What a read answers when its bits are there -/

/-- `act` reads the bits `bits` and answers `v`: from every state with those bits ahead of the cursor it
ends with `v`, having consumed them and done nothing else. -/
def Reads {α : Type} (act : Rd α) (bits : List Bool) (v : α) : Prop :=
  ∀ s : State, s.ahead bits → act s = .ok v (s.consume bits.length)

theorem Reads.pure {α : Type} (v : α) : Reads (Pure.pure v) [] v := by
  intro s _; simp

theorem Reads.bind {α β : Type} {x : Rd α} {f : α → Rd β} {as bs : List Bool} {a : α} {b : β}
    (hx : Reads x as a) (hf : Reads (f a) bs b) : Reads (x >>= f) (as ++ bs) b := by
  intro s h
  obtain ⟨ha, hb⟩ := State.ahead_append.1 h
  rw [Rd.bind_run, hx s ha]
  simp only
  rw [hf _ hb, List.length_append, consume_add ha.1 ha.le]

/-- A read followed by a value computed from what it read. -/
theorem Reads.map {α β : Type} {x : Rd α} {as : List Bool} {a : α} (f : α → β)
    (hx : Reads x as a) : Reads (x >>= fun a => Pure.pure (f a)) as (f a) := by
  have := Reads.bind (f := fun a => Pure.pure (f a)) hx (Reads.pure (f a))
  rwa [List.append_nil] at this

theorem Reads.reject {bad : Bool} (r : Raise) (h : bad = false) : Reads (reject bad r) [] () := by
  intro s _; subst h; simp

theorem reads_peekBits (n v : Nat) (s : State) (h : s.ahead (bitsOf n v)) :
    peekBits n s = .ok (BitVec.ofNat n v) s := by
  have hb := (State.ahead_iff.1 h).2
  rw [length_bitsOf] at hb
  have e : BitVec.ofNat n (v % 2 ^ n) = BitVec.ofNat n v := by
    apply BitVec.eq_of_toNat_eq; simp
  simp [peekBits, hb, e]

theorem reads_readBits (n v : Nat) : Reads (readBits n) (bitsOf n v) (BitVec.ofNat n v) := by
  intro s h
  simp [readBits, reads_peekBits n v s h, consume]

/-- `ReadBits` over any bits: the number they stand for. -/
theorem reads_readBits_any (bits : List Bool) :
    Reads (readBits bits.length) bits (BitVec.ofNat bits.length (natOfBits bits)) := by
  have := reads_readBits bits.length (natOfBits bits)
  rwa [bitsOf_natOfBits] at this

theorem reads_readSigned {w : Nat} {x : Sample} (hx : fitsIn w x) :
    Reads (readSigned w) (signedBits w x) x := by
  intro s h
  have := reads_readBits w x.toNat s h
  simp only [readSigned, Rd.bind_run, this, Rd.pure_run, signedBits]
  have e : (BitVec.ofNat w x.toNat) = x.setWidth w := by
    apply BitVec.eq_of_toNat_eq; simp
  rw [e, hx]

theorem reads_readUnary (z : Nat) : Reads readUnary (unaryBits z) z := by
  intro s h
  have hlen : (unaryBits z).length = z + 1 := by simp [unaryBits]
  have hle := h.le
  rw [hlen] at hle
  have hz : s.src.zerosAt s.pos.toNat (8 * s.src.length - s.pos.toNat) = some z := by
    rw [Memory.zerosAt_eq_some]
    refine ⟨by omega, fun i hi => ?_, ?_⟩
    · have := h.2 i (by omega)
      simpa [unaryBits, List.getElem_append_left, hi] using this
    · have := h.2 z (by omega)
      simpa [unaryBits] using this
  simp [readUnary, hz, consume, hlen]

/-- As many values as codes are read, when each code is read as its value. -/
theorem reads_readMany_map {α β : Type} {act : Rd α} (bits : β → List Bool) (value : β → α) (us : List β)
    (h : ∀ u ∈ us, Reads act (bits u) (value u)) :
    Reads (readMany act us.length) (us.flatMap bits) (us.map value) := by
  induction us with
  | nil => exact Reads.pure []
  | cons u us ih =>
    rw [List.length_cons, readMany, List.flatMap_cons, List.map_cons]
    refine Reads.bind (h u (by simp)) ?_
    exact Reads.map (fun ys => value u :: ys) (ih fun v hv => h v (by simp [hv]))

/-- Several values read one after the other. -/
theorem reads_readMany {α : Type} {act : Rd α} (code : α → List Bool) (xs : List α)
    (h : ∀ x ∈ xs, Reads act (code x) x) : Reads (readMany act xs.length) (xs.flatMap code) xs := by
  simpa using reads_readMany_map code id xs h

/-! ## Everything a read can do -/

/-- From `s` to `t` only the cursor, the accumulators and the residual decoder's working registers may
differ, and the cursor does not move back nor leave the input. -/
def Moves (s t : State) : Prop :=
  t = { s with pos := t.pos, crc16 := t.crc16, crc8 := t.crc8, residual := t.residual } ∧
  (s.sourceOk → s.pos.toNat ≤ t.pos.toNat ∧ t.pos.toNat ≤ 8 * s.src.length)

theorem Moves.refl (s : State) : Moves s s := ⟨rfl, fun h => ⟨le_refl _, h.2.2⟩⟩

theorem Moves.src {s t : State} (h : Moves s t) : t.src = s.src := by rw [h.1]

theorem Moves.params {s t : State} (h : Moves s t) : t.params = s.params := by rw [h.1]

theorem Moves.srcEnded {s t : State} (h : Moves s t) : t.srcEnded = s.srcEnded := by rw [h.1]

theorem Moves.phase {s t : State} (h : Moves s t) : t.phase = s.phase := by rw [h.1]

theorem Moves.lossArmed {s t : State} (h : Moves s t) : t.lossArmed = s.lossArmed := by rw [h.1]

theorem Moves.syncByte1 {s t : State} (h : Moves s t) : t.syncByte1 = s.syncByte1 := by rw [h.1]

theorem Moves.frameStart {s t : State} (h : Moves s t) : t.frameStart = s.frameStart := by rw [h.1]

theorem Moves.sfDone {s t : State} (h : Moves s t) : t.sfDone = s.sfDone := by rw [h.1]

theorem Moves.hdr {s t : State} (h : Moves s t) : t.hdr = s.hdr := by rw [h.1]

theorem Moves.chbuf {s t : State} (h : Moves s t) : t.chbuf = s.chbuf := by rw [h.1]

theorem Moves.sfInfo {s t : State} (h : Moves s t) : t.sfInfo = s.sfInfo := by rw [h.1]

theorem Moves.footer {s t : State} (h : Moves s t) : t.footer = s.footer := by rw [h.1]

theorem Moves.bufValid {s t : State} (h : Moves s t) : t.bufValid = s.bufValid := by rw [h.1]

theorem Moves.badFrames {s t : State} (h : Moves s t) : t.badFrames = s.badFrames := by rw [h.1]

theorem Moves.samplesDecoded {s t : State} (h : Moves s t) : t.samplesDecoded = s.samplesDecoded := by rw [h.1]

theorem Moves.eof {s t : State} (h : Moves s t) : t.eof = s.eof := by rw [h.1]

theorem Moves.fatal {s t : State} (h : Moves s t) : t.fatal = s.fatal := by rw [h.1]

theorem Moves.lastErr {s t : State} (h : Moves s t) : t.lastErr = s.lastErr := by rw [h.1]

theorem Moves.sp {s t : State} (h : Moves s t) : t.sp = s.sp := by rw [h.1]

theorem Moves.spValid {s t : State} (h : Moves s t) : t.spValid = s.spValid := by rw [h.1]

theorem Moves.slot {s t : State} (h : Moves s t) : t.slot = s.slot := by rw [h.1]

theorem Moves.dataIn {s t : State} (h : Moves s t) : t.dataIn = s.dataIn := by rw [h.1]

theorem Moves.result {s t : State} (h : Moves s t) : t.result = s.result := by rw [h.1]

theorem Moves.statusOut {s t : State} (h : Moves s t) : t.statusOut = s.statusOut := by rw [h.1]

theorem Moves.stop {s t : State} (h : Moves s t) : t.stop = s.stop := by rw [h.1]

theorem Moves.outq {s t : State} (h : Moves s t) : t.outq = s.outq := by rw [h.1]

theorem Moves.host {s t : State} (h : Moves s t) : t.host = s.host := by rw [h.1]

theorem Moves.freeCount {s t : State} (h : Moves s t) : t.freeCount = s.freeCount := by rw [h.1]

theorem Moves.sourceOk {s t : State} (h : Moves s t) (hs : s.sourceOk) : t.sourceOk := by
  have := (h.2 hs).2
  refine ⟨?_, ?_, ?_⟩ <;> rw [h.src]
  · exact hs.1
  · exact hs.2.1
  · exact this

theorem Moves.trans {s t u : State} (h1 : Moves s t) (h2 : Moves t u) : Moves s u := by
  refine ⟨?_, fun hs => ?_⟩
  · have e1 := h1.1
    have e2 := h2.1
    rw [e1] at e2
    exact e2
  · have a := h1.2 hs
    have b := h2.2 (h1.sourceOk hs)
    rw [h1.src] at b
    omega

theorem Moves.consume {s : State} {n : Nat} (h : s.sourceOk → s.pos.toNat + n ≤ 8 * s.src.length) :
    Moves s (s.consume n) := by
  refine ⟨rfl, fun hs => ?_⟩
  rw [pos_consume_le hs (h hs)]
  exact ⟨by omega, h hs⟩

theorem Moves.setResidual (s : State) (r : Residual) : Moves s (s.setResidual r) :=
  ⟨rfl, fun hs => ⟨le_refl _, hs.2.2⟩⟩

/-- What a decode step that only reads may answer: it moves; it raises END_OF_STREAM only when the source
has ended, and holds only when it has not (`20_memory.md` R62); a BadFrame it raises has the code `code`. -/
def Sound {α : Type} (code : StatusCode) (act : Rd α) : Prop :=
  ∀ s : State, match act s with
    | .ok _ t => Moves s t
    | .error e t => Moves s t ∧ (e = .hold → s.srcEnded = false) ∧ (e = .endOfStream → s.srcEnded = true) ∧
        ∀ c sub x y, e = .badFrame c sub x y → c = code

namespace Sound

variable {α β : Type} {code : StatusCode}

theorem pure (v : α) : Sound code (Pure.pure v : Rd α) := fun s => Moves.refl s

theorem get : Sound code (MonadState.get : Rd State) := fun s => Moves.refl s

theorem bind {x : Rd α} {f : α → Rd β} (hx : Sound code x) (hf : ∀ a, Sound code (f a)) :
    Sound code (x >>= f) := by
  intro s
  have h1 := hx s
  rw [Rd.bind_run]
  cases hxs : x s with
  | ok a t =>
    rw [hxs] at h1
    simp only
    have h2 := hf a t
    cases hft : f a t with
    | ok b u => rw [hft] at h2; exact h1.trans h2
    | error e u =>
      rw [hft] at h2
      simp only [h1.srcEnded] at h2
      exact ⟨h1.trans h2.1, h2.2⟩
  | error e t => rw [hxs] at h1; exact h1

theorem throw (sub : Byte) (x y : Word16) :
    Sound code (MonadExcept.throw (Raise.badFrame code sub x y) : Rd α) :=
  fun s => ⟨Moves.refl s, by simp, by simp, by
    intro c sub' x' y' h
    injection h with h
    exact h.symm⟩

theorem reject (bad : Bool) (sub : Byte) (x y : Word16) :
    Sound code (reject bad (Raise.badFrame code sub x y)) := by
  cases bad with
  | true => exact throw sub x y
  | false => exact pure ()

theorem unavailable : Sound code (unavailable : Rd α) := by
  intro s
  rw [unavailable_run]
  refine ⟨Moves.refl s, ?_, ?_, ?_⟩ <;> cases s.srcEnded <;> simp

theorem setResidual (r : Residual) : Sound code (modify (State.setResidual r) : Rd Unit) :=
  fun s => Moves.setResidual s r

theorem peekBits (n : Nat) : Sound code (peekBits n) := by
  intro s
  cases h : s.src.bitsAt s.pos.toNat n with
  | some bits => simp [Machine.peekBits, h, Moves.refl]
  | none =>
    have := unavailable (α := BitVec n) (code := code) s
    simpa [Machine.peekBits, h] using this

theorem readBits (n : Nat) : Sound code (readBits n) := by
  intro s
  cases h : s.src.bitsAt s.pos.toNat n with
  | some bits =>
    simp only [Machine.readBits, Rd.bind_run, Machine.peekBits, Rd.get_run, h, Rd.pure_run, Machine.consume,
      Rd.modify_run]
    exact Moves.consume fun hs => Memory.le_of_bitsAt hs.1 h hs.2.2
  | none =>
    have := unavailable (α := BitVec n) (code := code) s
    rw [unavailable_run] at this
    simpa [Machine.readBits, Machine.peekBits, h, unavailable_run] using this

theorem readSigned (n : Nat) : Sound code (readSigned n) := bind (readBits n) fun _ => pure _

theorem readUnary : Sound code readUnary := by
  intro s
  cases h : s.src.zerosAt s.pos.toNat (8 * s.src.length - s.pos.toNat) with
  | some z =>
    simp only [Machine.readUnary, Rd.bind_run, Rd.get_run, h, Rd.pure_run, Machine.consume, Rd.modify_run]
    refine Moves.consume fun hs => ?_
    have := (Memory.zerosAt_eq_some.1 h).1
    omega
  | none =>
    have := unavailable (α := Nat) (code := code) s
    rw [unavailable_run] at this
    simpa [Machine.readUnary, h, unavailable_run] using this

theorem align : Sound code align := bind get fun _ => bind (readBits _) fun _ => pure _

theorem readMany {act : Rd α} (h : Sound code act) (n : Nat) : Sound code (readMany act n) := by
  induction n with
  | zero => exact pure []
  | succ n ih => exact bind h fun _ => bind ih fun _ => pure _

end Sound

end Sys2Proof.Machine
end

