-- ==== Sys2Proof/Laws/Header.lean ====
section
/-! SUPPORT. Laws of the header decoder (`42_header.md`): everything it can do, and what it commits. -/

namespace Sys2Proof.Machine

namespace Sound

theorem continuation (m v : Nat) : Sound .badHeader (continuation m v) := by
  induction m generalizing v with
  | zero => exact pure v
  | succ m ih => exact bind (readBits 8) fun _ => bind (reject _ _ _ _) fun _ => ih _

theorem codedNumber (blocking : Bool) : Sound .badHeader (codedNumber blocking) := by
  refine bind (readBits 8) fun b => ?_
  split
  · exact continuation _ _
  · exact throw _ _ _

theorem blockSize (bsc : BitVec 4) : Sound .badHeader (blockSize bsc) := by
  unfold Machine.blockSize
  split
  · exact bind (readBits 8) fun _ => pure _
  · split
    · exact bind (readBits 16) fun _ => pure _
    · exact pure _

theorem sampleRate (src : BitVec 4) : Sound .badHeader (sampleRate src) := by
  unfold Machine.sampleRate
  split
  · exact bind (readBits 8) fun _ => pure _
  · split
    · exact bind (readBits 16) fun _ => pure _
    · split
      · exact bind (readBits 16) fun _ => pure _
      · exact bind get fun _ => pure _

/-- Everything the header decode can do before its commit. -/
theorem readHeader : Sound .badHeader readHeader := by
  refine bind get fun s => bind (reject _ _ _ _) fun _ => bind (readBits 8) fun b2 => ?_
  refine bind (reject _ _ _ _) fun _ => bind (reject _ _ _ _) fun _ => bind (readBits 8) fun b3 => ?_
  refine bind (reject _ _ _ _) fun _ => bind (reject _ _ _ _) fun _ => bind (reject _ _ _ _) fun _ => ?_
  refine bind (codedNumber _) fun _ => bind (blockSize _) fun _ => bind (sampleRate _) fun _ => ?_
  refine bind get fun _ => bind (readBits 8) fun _ => bind (reject _ _ _ _) fun _ => ?_
  exact bind (reject _ _ _ _) fun _ => pure _

end Sound

theorem reject_ok {bad : Bool} {r : Raise} {s t : State} {u : Unit} (h : reject bad r s = .ok u t) :
    bad = false ∧ t = s := by
  cases bad with
  | true => simp at h
  | false => simp at h; exact ⟨rfl, h.symm⟩

theorem plainBlockSize_pos (bsc : BitVec 4) : 1 ≤ plainBlockSize bsc := by
  unfold plainBlockSize
  split
  · omega
  · split
    · have := Nat.two_pow_pos (bsc.toNat - 2); omega
    · have := Nat.two_pow_pos (bsc.toNat - 8); omega

theorem blockSize_pos {bsc : BitVec 4} {s t : State} {bs : Nat} (h : blockSize bsc s = .ok bs t) :
    1 ≤ bs := by
  unfold blockSize at h
  split at h
  · obtain ⟨x, t', -, h2⟩ := Rd.bind_ok.1 h
    cases h2; omega
  · split at h
    · obtain ⟨x, t', -, h2⟩ := Rd.bind_ok.1 h
      cases h2; omega
    · cases h; exact plainBlockSize_pos bsc

/-- A header's channel count and assignment (R185): 1 to 8 channels, two when a pair is coded. -/
theorem channelsOf_ok (chc : BitVec 4) (h : channelCodeReserved chc = false) :
    1 ≤ (BitVec.ofNat 4 (channelsOf chc).1).toNat ∧ (BitVec.ofNat 4 (channelsOf chc).1).toNat ≤ 8 ∧
    ((channelsOf chc).2 ≠ .independent → BitVec.ofNat 4 (channelsOf chc).1 = 2) := by
  revert h
  revert chc
  decide

theorem sampleSize_ok (spBps : BitVec 6) (ssc : BitVec 3) :
    sampleSize spBps ssc = spBps ∨
      (4 ≤ (sampleSize spBps ssc).toNat ∧ (sampleSize spBps ssc).toNat ≤ 32) := by
  unfold sampleSize
  split <;> first | exact .inl rfl | exact .inr (by decide)

/-- The header registers a successful decode writes describe a frame the parameters allow (R185 to
R193). -/
theorem readHeader_ok {s t : State} {h : HeaderRegs} (e : readHeader s = .ok h t) :
    1 ≤ h.channels.toNat ∧ h.channels.toNat ≤ 8 ∧ 1 ≤ h.blockSize.toNat ∧
    h.blockSize.toNat ≤ s.sp.maxBlock.toNat ∧
    (h.bps = s.sp.bps ∨ (4 ≤ h.bps.toNat ∧ h.bps.toNat ≤ 32)) ∧
    (h.assign ≠ .independent → h.channels = 2) := by
  obtain ⟨s0, _, hg, e⟩ := Rd.bind_ok.1 e
  cases hg
  obtain ⟨_, _, -, e⟩ := Rd.bind_ok.1 e
  obtain ⟨b2, _, -, e⟩ := Rd.bind_ok.1 e
  obtain ⟨_, _, -, e⟩ := Rd.bind_ok.1 e
  obtain ⟨_, _, -, e⟩ := Rd.bind_ok.1 e
  obtain ⟨b3, _, -, e⟩ := Rd.bind_ok.1 e
  obtain ⟨_, _, hc, e⟩ := Rd.bind_ok.1 e
  obtain ⟨_, _, -, e⟩ := Rd.bind_ok.1 e
  obtain ⟨_, _, -, e⟩ := Rd.bind_ok.1 e
  obtain ⟨number, _, -, e⟩ := Rd.bind_ok.1 e
  obtain ⟨bs, _, hbs, e⟩ := Rd.bind_ok.1 e
  obtain ⟨rate, _, -, e⟩ := Rd.bind_ok.1 e
  obtain ⟨_, _, -, e⟩ := Rd.bind_ok.1 e
  obtain ⟨actual, _, -, e⟩ := Rd.bind_ok.1 e
  obtain ⟨_, _, -, e⟩ := Rd.bind_ok.1 e
  obtain ⟨_, _, hmax, e⟩ := Rd.bind_ok.1 e
  cases e
  have h1 := blockSize_pos hbs
  have h2 : bs ≤ s.sp.maxBlock.toNat := by simpa using (reject_ok hmax).1
  have h3 := s.sp.maxBlock.isLt
  have h4 : (BitVec.ofNat 16 bs).toNat = bs := by
    rw [BitVec.toNat_ofNat, Nat.mod_eq_of_lt (by omega)]
  obtain ⟨c1, c2, c3⟩ := channelsOf_ok _ (reject_ok hc).1
  exact ⟨c1, c2, by rw [h4]; exact h1, by rw [h4]; exact h2, sampleSize_ok _ _, c3⟩

/-! ## Reading back -/

/-- The bits of a number are the bits of its high part, then those of its low part. -/
theorem bitsOf_add (m n v : Nat) : bitsOf (m + n) v = bitsOf m (v / 2 ^ n) ++ bitsOf n v := by
  induction m with
  | zero => simp [bitsOf]
  | succ m ih =>
    rw [show m + 1 + n = (m + n) + 1 by omega, bitsOf, bitsOf, ih, Nat.testBit_div_two_pow, List.cons_append]

/-- Fields side by side are the bits of one number. -/
theorem bitsOf_append (m n a b : Nat) (hb : b < 2 ^ n) : bitsOf m a ++ bitsOf n b = bitsOf (m + n) (a * 2 ^ n + b) := by
  rw [bitsOf_add]
  congr 1
  · congr 1
    rw [Nat.add_comm, Nat.add_mul_div_right _ _ (Nat.two_pow_pos n), Nat.div_eq_of_lt hb, Nat.zero_add]
  · rw [← bitsOf_mod n (a * 2 ^ n + b), Nat.mul_comm, Nat.mul_add_mod, Nat.mod_eq_of_lt hb]

/-- Continuation bytes are read back (R96). -/
theorem reads_continuation (m v w : Nat) :
    Reads (continuation m w) (continuationBits m v) (w * 64 ^ m + v % 64 ^ m) := by
  induction m generalizing w with
  | zero => simpa [continuation, continuationBits, Nat.mod_one] using Reads.pure w
  | succ m ih =>
    have h6 : v / 64 ^ m % 64 < 64 := Nat.mod_lt _ (by decide)
    have e : [true, false] ++ bitsOf 6 (v / 64 ^ m) = bitsOf 8 (128 + v / 64 ^ m % 64) := by
      have : [true, false] = bitsOf 2 2 := rfl
      rw [this, ← bitsOf_mod 6, bitsOf_append 2 6 _ _ (by simpa using h6)]
      rfl
    rw [continuationBits, e, continuation]
    refine Reads.bind (reads_readBits 8 _) ?_
    rw [← List.nil_append (continuationBits m v)]
    have hn : (BitVec.ofNat 8 (128 + v / 64 ^ m % 64)).toNat = 128 + v / 64 ^ m % 64 := by
      rw [BitVec.toNat_ofNat]; omega
    refine Reads.bind (Reads.reject _ ?_) ?_
    · rw [bne_eq_false_iff_eq]
      apply BitVec.eq_of_toNat_eq
      rw [BitVec.extractLsb'_toNat, hn, Nat.shiftRight_eq_div_pow]
      simp; omega
    · have := ih (w * 64 + (BitVec.extractLsb' 0 6 (BitVec.ofNat 8 (128 + v / 64 ^ m % 64))).toNat)
      convert this using 1
      rw [BitVec.extractLsb'_toNat, hn]
      simp only [Nat.shiftRight_zero]
      have e1 : (128 + v / 64 ^ m % 64) % 2 ^ 6 = v / 64 ^ m % 64 := by omega
      rw [e1, Nat.pow_succ, Nat.mod_mul]
      ring

set_option maxRecDepth 100000 in
/-- A coded number is read back, however many bytes code it (R96). -/
theorem reads_codedNumber {blocking : Bool} {m v : Nat} (h : numberFits blocking m v) :
    Reads (codedNumber blocking) (numberBits m v) v := by
  have key : ∀ (b : Byte) (k : Nat) (bits : List Bool), leadByte blocking b = some (m, k) → bits = bitsOf 8 b.toNat → v = k * 64 ^ m + v % 64 ^ m →
      Reads (codedNumber blocking) (bits ++ continuationBits m v) v := by
    intro b k bits hb he hv
    rw [he]
    refine Reads.bind (reads_readBits 8 _) ?_
    have : BitVec.ofNat 8 b.toNat = b := by simp
    rw [this, hb]
    have := reads_continuation m v k
    rwa [← hv] at this
  have lead : ∀ (m k : Nat), 1 ≤ m → m ≤ 6 → k < 2 ^ (6 - m) → (m = 6 → blocking = true) →
      leadByte blocking (BitVec.ofNat 8 (256 - 2 ^ (7 - m) + k)) = some (m, k) := by
    intro m k h1 h2 h3 h4
    have : ∀ b : Bool, ∀ m : Fin 7, ∀ k : Fin 32, 1 ≤ m.val → k.val < 2 ^ (6 - m.val) → (m.val = 6 → b = true) →
      leadByte b (BitVec.ofNat 8 (256 - 2 ^ (7 - m.val) + k.val)) = some (m.val, k.val) := by decide
    have hk : k < 32 := lt_of_lt_of_le h3 (by
      calc 2 ^ (6 - m) ≤ 2 ^ 5 := Nat.pow_le_pow_right (by decide) (by omega)
        _ = 32 := rfl)
    exact this blocking ⟨m, by omega⟩ ⟨k, hk⟩ h1 h3 h4
  rcases h with ⟨rfl, hv⟩ | ⟨h1, h2, hv, h6⟩
  · have : numberBits 0 v = bitsOf 8 v ++ continuationBits 0 v := by
      simp only [numberBits, if_true, continuationBits, List.append_nil]
      show _ = v.testBit 7 :: bitsOf 7 v
      rw [Nat.testBit_lt_two_pow hv]
    rw [this]
    have hn : (BitVec.ofNat 8 v).toNat = v := by rw [BitVec.toNat_ofNat]; omega
    refine key (BitVec.ofNat 8 v) v _ ?_ (by rw [hn]) (by simp [Nat.mod_one])
    have : ∀ v : Fin 128, leadByte blocking (BitVec.ofNat 8 v.val) = some (0, v.val) := by cases blocking <;> decide
    exact this ⟨v, hv⟩
  · have hk : v / 64 ^ m < 2 ^ (6 - m) := by
      rw [Nat.div_lt_iff_lt_mul (Nat.pow_pos (by decide))]
      calc v < 2 ^ (5 * m + 6) := hv
        _ = 2 ^ (6 - m) * 64 ^ m := by
          rw [show (64 : Nat) = 2 ^ 6 from rfl, ← Nat.pow_mul, ← Nat.pow_add]
          congr 1; omega
    have hle : 2 ^ (6 - m) * 2 = 2 ^ (7 - m) := by rw [← Nat.pow_succ]; congr 1; omega
    have h64 : 2 ^ (7 - m) ≤ 64 := by
      calc 2 ^ (7 - m) ≤ 2 ^ 6 := Nat.pow_le_pow_right (by decide) (by omega)
        _ = 64 := rfl
    rw [numberBits, if_neg (by omega)]
    have hn : (BitVec.ofNat 8 (256 - 2 ^ (7 - m) + v / 64 ^ m)).toNat = 256 - 2 ^ (7 - m) + v / 64 ^ m := by
      rw [BitVec.toNat_ofNat]
      generalize v / 64 ^ m = q at hk
      omega
    refine key _ _ _ (lead m _ h1 h2 hk h6) ?_ ?_
    · rw [hn]
      have e8 : (8 : Nat) = (m + 2) + (6 - m) := by omega
      have e1 : List.replicate (m + 1) true ++ [false] = bitsOf (m + 2) (2 ^ (m + 2) - 2) := by
        have : ∀ m : Fin 7, List.replicate (m.val + 1) true ++ [false] = bitsOf (m.val + 2) (2 ^ (m.val + 2) - 2) := by decide
        exact this ⟨m, by omega⟩
      rw [e1, bitsOf_append _ _ _ _ hk, ← e8]
      congr 2
      have e2 : 2 ^ (m + 2) * 2 ^ (6 - m) = 256 := by rw [← Nat.pow_add]; rw [← e8]
      rw [Nat.sub_mul, e2]; omega
    · exact (Nat.div_add_mod' v (64 ^ m)).symm

/-- A block size is read back (R92). -/
theorem reads_blockSize {code : BitVec 4} {bs : Nat} (h : blockSizeCoded code bs) :
    Reads (blockSize code) (blockSizeBits code bs) bs := by
  unfold blockSize blockSizeBits
  rcases h with ⟨rfl, rfl⟩ | ⟨h1, h2, rfl⟩ | ⟨rfl, h1, h2⟩ | ⟨rfl, h1, h2⟩ | ⟨h1, rfl⟩
  · exact Reads.pure _
  · have n6 : code ≠ 6 := by intro h; rw [h] at h2; simp at h2
    have n7 : code ≠ 7 := by intro h; rw [h] at h2; simp at h2
    have n1 : code ≠ 1 := by intro h; rw [h] at h1; simp at h1
    rw [if_neg n6, if_neg n7, if_neg n6, if_neg n7, plainBlockSize, if_neg n1, if_pos h2]
    exact Reads.pure _
  · rw [if_pos rfl, if_pos rfl]
    have := Reads.map (fun x : BitVec 8 => x.toNat + 1) (reads_readBits 8 (bs - 1))
    simp only [BitVec.toNat_ofNat] at this
    rwa [show (bs - 1) % 2 ^ 8 + 1 = bs by omega] at this
  · rw [if_neg (by decide), if_pos rfl, if_neg (by decide), if_pos rfl]
    have := Reads.map (fun x : BitVec 16 => x.toNat + 1) (reads_readBits 16 (bs - 1))
    simp only [BitVec.toNat_ofNat] at this
    rwa [show (bs - 1) % 2 ^ 16 + 1 = bs by omega] at this
  · have n6 : code ≠ 6 := by intro h; rw [h] at h1; simp at h1
    have n7 : code ≠ 7 := by intro h; rw [h] at h1; simp at h1
    have n1 : code ≠ 1 := by intro h; rw [h] at h1; simp at h1
    rw [if_neg n6, if_neg n7, if_neg n6, if_neg n7, plainBlockSize, if_neg n1, if_neg (by omega)]
    exact Reads.pure _

/-- A sample rate is read back (R93). -/
theorem reads_sampleRate {s : State} {code : BitVec 4} {rate : Nat} (h : sampleRateCoded s.sp.sampleRate.toNat code rate)
    (hs : s.ahead (sampleRateBits code rate)) :
    sampleRate code s = .ok rate (s.consume (sampleRateBits code rate).length) := by
  rcases h with h | ⟨rfl, k, hk, rfl⟩ | ⟨rfl, h⟩ | ⟨rfl, k, hk, rfl⟩
  · have hc : code ≠ 12 ∧ code ≠ 13 ∧ code ≠ 14 ∧ rate = plainSampleRate s.sp.sampleRate.toNat code := by
      simp only [List.mem_cons, Prod.mk.injEq, List.not_mem_nil, or_false] at h
      have ne : ∀ k : Nat, code.toNat < 12 → k ∈ [12, 13, 14] → code ≠ BitVec.ofNat 4 k := by
        intro k h1 h2 h3
        rw [h3] at h1
        simp at h2
        rcases h2 with rfl | rfl | rfl <;> simp at h1
      have lt : code.toNat < 12 := by omega
      refine ⟨ne 12 lt (by simp), ne 13 lt (by simp), ne 14 lt (by simp), ?_⟩
      unfold plainSampleRate
      rcases h with ⟨e, rfl⟩ | ⟨e, rfl⟩ | ⟨e, rfl⟩ | ⟨e, rfl⟩ | ⟨e, rfl⟩ | ⟨e, rfl⟩ | ⟨e, rfl⟩ | ⟨e, rfl⟩ | ⟨e, rfl⟩ | ⟨e, rfl⟩ | ⟨e, rfl⟩ | ⟨e, rfl⟩ <;> rw [e] <;> rfl
    obtain ⟨n12, n13, n14, rfl⟩ := hc
    rw [sampleRate, sampleRateBits, if_neg n12, if_neg n13, if_neg n14, if_neg n12, if_neg n13, if_neg n14]
    simp
  · have := Reads.map (fun x : BitVec 8 => x.toNat * 1000) (reads_readBits 8 (k * 1000 / 1000)) s (by simpa [sampleRateBits] using hs)
    rw [show k * 1000 / 1000 = k by omega] at this
    simp only [BitVec.toNat_ofNat] at this
    rw [show k % 2 ^ 8 = k by omega] at this
    unfold sampleRate sampleRateBits
    rw [if_pos rfl, if_pos rfl, show k * 1000 / 1000 = k by omega]; exact this
  · have := Reads.map (fun x : BitVec 16 => x.toNat) (reads_readBits 16 rate) s (by simpa [sampleRateBits] using hs)
    simp only [BitVec.toNat_ofNat] at this
    rw [show rate % 2 ^ 16 = rate by omega] at this
    unfold sampleRate sampleRateBits
    rw [if_neg (by decide), if_pos rfl, if_neg (by decide), if_pos rfl]; exact this
  · have := Reads.map (fun x : BitVec 16 => x.toNat * 10) (reads_readBits 16 (k * 10 / 10)) s (by simpa [sampleRateBits] using hs)
    rw [show k * 10 / 10 = k by omega] at this
    simp only [BitVec.toNat_ofNat] at this
    rw [show k % 2 ^ 16 = k by omega] at this
    unfold sampleRate sampleRateBits
    rw [if_neg (by decide), if_neg (by decide), if_pos rfl, if_neg (by decide), if_neg (by decide), if_pos rfl, show k * 10 / 10 = k by omega]; exact this

/-! ## The fields of the header bytes -/

set_option maxRecDepth 100000 in
theorem header_byte2 (a b : BitVec 4) : bitsOf 4 a.toNat ++ bitsOf 4 b.toNat = bitsOf 8 (a ++ b).toNat := by
  rw [bitsOf_append 4 4 _ _ b.isLt]
  revert a b
  decide

set_option maxRecDepth 100000 in
theorem header_byte3 (a : BitVec 4) (b : BitVec 3) :
    bitsOf 4 a.toNat ++ (bitsOf 3 b.toNat ++ [false]) = bitsOf 8 (a ++ b ++ 0#1).toNat := by
  revert a b
  decide

set_option maxRecDepth 100000 in
theorem header_fields2 (a b : BitVec 4) : (a ++ b).extractLsb' 4 4 = a ∧ (a ++ b).extractLsb' 0 4 = b := by
  revert a b
  decide

set_option maxRecDepth 100000 in
theorem header_fields3 (a : BitVec 4) (b : BitVec 3) :
    (a ++ b ++ 0#1).extractLsb' 4 4 = a ∧ (a ++ b ++ 0#1).extractLsb' 1 3 = b ∧
    (a ++ b ++ 0#1).getLsbD 0 = false := by
  revert a b
  decide

/-- A whole byte ahead of the cursor. -/
theorem reads_byte (x : Byte) : Reads (readBits 8) (byteBits x) x := by
  have := reads_readBits 8 x.toNat
  simpa [byteBits] using this

/-- A channel code that stands for a count and an assignment is not reserved, and gives them (R94). -/
theorem channelsCoded_ok {code : BitVec 4} {n : Nat} {a : Assign} (h : channelsCoded code n a) :
    channelCodeReserved code = false ∧ channelsOf code = (n, a) := by
  have all : ∀ code : BitVec 4, code.toNat ≤ 7 →
      channelCodeReserved code = false ∧ channelsOf code = (code.toNat + 1, .independent) := by decide
  rcases h with ⟨h, rfl, rfl⟩ | ⟨rfl, rfl, rfl⟩ | ⟨rfl, rfl, rfl⟩ | ⟨rfl, rfl, rfl⟩
  · exact all _ h
  · decide
  · decide
  · decide

/-- A sample-size code that stands for a depth is not rejected, and gives it (R95). -/
theorem sampleSizeCoded_ok {p : Params} {sb bps : BitVec 6} {code : BitVec 3}
    (h : sampleSizeCoded p sb code bps) : sampleSizeReserved p code = false ∧ sampleSize sb code = bps := by
  rcases h with h | ⟨rfl, h, rfl⟩
  · simp only [List.mem_cons, Prod.mk.injEq, List.not_mem_nil, or_false] at h
    rcases h with ⟨rfl, rfl⟩ | ⟨rfl, rfl⟩ | ⟨rfl, rfl⟩ | ⟨rfl, rfl⟩ | ⟨rfl, rfl⟩ | ⟨rfl, rfl⟩ <;> exact ⟨rfl, rfl⟩
  · simp [sampleSizeReserved, h, sampleSize]

theorem blockSizeCoded_ne {code : BitVec 4} {bs : Nat} (h : blockSizeCoded code bs) : (code == 0) = false := by
  rw [beq_eq_false_iff_ne]
  rintro rfl
  simp [blockSizeCoded] at h

theorem sampleRateCoded_ne {spRate rate : Nat} {code : BitVec 4} (h : sampleRateCoded spRate code rate) :
    (code == 15) = false := by
  rw [beq_eq_false_iff_ne]
  rintro rfl
  simp [sampleRateCoded] at h

set_option maxRecDepth 100000 in
/-- The first byte of a coded number, all 256 of them (R96). -/
theorem leadByte_cases (blocking : Bool) (b : Byte) :
    (leadInvalid blocking b ∧ leadByte blocking b = none) ∨
    (¬ leadInvalid blocking b ∧ (leadByte blocking b).map Prod.fst = some (continuationsOf b)) := by
  have all : ∀ (blocking : Bool) (b : Byte),
      ((0x80 ≤ b.toNat ∧ b.toNat < 0xC0) ∨ b = 0xFF ∨ (b = 0xFE ∧ blocking = false)) ∧
        leadByte blocking b = none ∨
      ¬ ((0x80 ≤ b.toNat ∧ b.toNat < 0xC0) ∨ b = 0xFF ∨ (b = 0xFE ∧ blocking = false)) ∧
        (leadByte blocking b).map Prod.fst = some (continuationsOf b) := by decide
  exact all blocking b

set_option maxRecDepth 100000 in
/-- The checks of the third header byte, by the byte's value (R183). -/
theorem byte2_checks : ∀ b : Byte, (b.extractLsb' 4 4 == 0) = decide (b.toNat / 16 = 0) ∧
    (b.extractLsb' 0 4 == 15) = decide (b.toNat % 16 = 15) := by decide

set_option maxRecDepth 100000 in
/-- The checks of the fourth header byte, by the byte's value (R184). -/
theorem byte3_checks : ∀ b : Byte,
    channelCodeReserved (b.extractLsb' 4 4) = decide (11 ≤ b.toNat / 16) ∧
    (b.extractLsb' 1 3 == 3) = decide (b.toNat / 2 % 8 = 3) ∧
    (b.extractLsb' 1 3 == 7) = decide (b.toNat / 2 % 8 = 7) ∧
    b.getLsbD 0 = decide (b.toNat % 2 = 1) := by decide

set_option maxRecDepth 100000 in
/-- A continuation byte is `10xxxxxx` (R96). -/
theorem continuation_check : ∀ b : Byte, (b.extractLsb' 6 2 != 0b10#2) = decide (b.toNat / 64 ≠ 2) := by
  decide

end Sys2Proof.Machine
end

