-- ==== Sys2Proof/Laws/Residual.lean ====
section
/-! SUPPORT. Laws of the residual decoder (`45_lpc_rice.md` R290 to R299): it reads back what an encoder
writes, and everything it can do. -/

namespace Sys2Proof.Machine

/-! ## The sign fold -/

theorem foldOf_lt (x : Sample) : foldOf x < 2 ^ 64 := by
  have h1 := BitVec.toInt_lt (x := x)
  have h2 := BitVec.le_toInt (x := x)
  unfold foldOf
  split <;> omega

theorem ofNat_foldOf (x : Sample) :
    BitVec.ofNat 64 (foldOf x) = if x.msb then ~~~(x <<< 1) else x <<< 1 := by
  apply BitVec.eq_of_toNat_eq
  have hx := x.isLt
  have e := BitVec.toInt_eq_msb_cond (x := x)
  have hm := BitVec.msb_eq_decide x
  rw [BitVec.toNat_ofNat, Nat.mod_eq_of_lt (foldOf_lt x)]
  cases h : x.msb with
  | true =>
    rw [h] at hm e
    simp only [if_true] at e ⊢
    have h63 : 2 ^ 63 ≤ x.toNat := by simpa using hm.symm
    rw [BitVec.toNat_not, BitVec.toNat_shiftLeft, Nat.shiftLeft_eq]
    unfold foldOf
    split <;> omega
  | false =>
    rw [h] at hm e
    simp only [Bool.false_eq_true, if_false] at e ⊢
    have h63 : x.toNat < 2 ^ 63 := by simpa using hm.symm
    rw [BitVec.toNat_shiftLeft, Nat.shiftLeft_eq]
    unfold foldOf
    split <;> omega

/-- Unfolding undoes the fold (R105, R295). -/
theorem unfold64_foldOf (x : Sample) : unfold64 (BitVec.ofNat 64 (foldOf x)) = x := by
  rw [ofNat_foldOf]
  cases h : x.msb with
  | true =>
    have h1 : (~~~(x <<< 1)) &&& 1#64 = 1#64 := by
      apply BitVec.eq_of_getLsbD_eq
      intro i hi
      cases i with
      | zero => simp
      | succ i => simp [BitVec.getLsbD_one]
    simp only [if_true, unfold64]
    rw [show (1 : Word64) = 1#64 from rfl, h1]
    apply BitVec.eq_of_getLsbD_eq
    intro i hi
    rw [show (-1#64 : BitVec 64) = BitVec.allOnes 64 by decide]
    simp only [BitVec.getLsbD_xor, BitVec.getLsbD_ushiftRight, BitVec.getLsbD_not, BitVec.getLsbD_shiftLeft,
      BitVec.getLsbD_allOnes]
    by_cases h63 : i = 63
    · subst h63
      rw [BitVec.msb_eq_getLsbD_last] at h
      simpa using h
    · have : i + 1 < 64 := by omega
      simp [this, hi, Nat.add_comm 1 i]
  | false =>
    have h1 : (x <<< 1) &&& 1#64 = 0#64 := by
      apply BitVec.eq_of_getLsbD_eq
      intro i hi
      cases i with
      | zero => simp
      | succ i => simp [BitVec.getLsbD_one]
    simp only [Bool.false_eq_true, if_false, unfold64]
    rw [show (1 : Word64) = 1#64 from rfl, h1]
    apply BitVec.eq_of_getLsbD_eq
    intro i hi
    simp only [BitVec.getLsbD_xor, BitVec.getLsbD_ushiftRight, BitVec.getLsbD_shiftLeft,
      show (-0#64 : BitVec 64) = 0#64 by decide, BitVec.getLsbD_zero]
    by_cases h63 : i = 63
    · subst h63
      rw [BitVec.msb_eq_getLsbD_last] at h
      simpa using h.symm
    · have : i + 1 < 64 := by omega
      simp [this, Nat.add_comm 1 i]

/-- The unfolding is the one of R105, on every folded value modulo `2^64`. -/
theorem unfold64_ofNat (u : Nat) : unfold64 (BitVec.ofNat 64 u) = residualOfFold u := by
  have e : BitVec.ofNat 64 u = BitVec.ofNat 64 (u % 2 ^ 64) := by
    apply BitVec.eq_of_toNat_eq
    simp
  have hv : u % 2 ^ 64 < 2 ^ 64 := Nat.mod_lt _ (by decide)
  rw [e]
  unfold residualOfFold unfold64
  generalize u % 2 ^ 64 = v at hv
  have hand : (BitVec.ofNat 64 v &&& 1) = BitVec.ofNat 64 (v % 2) := by
    apply BitVec.eq_of_toNat_eq
    rw [BitVec.toNat_and, BitVec.toNat_ofNat, BitVec.toNat_ofNat, Nat.mod_eq_of_lt hv,
      show (1 : Word64).toNat = 1 from rfl, Nat.and_one_is_mod]
    omega
  have hshift : (BitVec.ofNat 64 v >>> 1).toNat = v / 2 := by
    rw [BitVec.toNat_ushiftRight, BitVec.toNat_ofNat, Nat.mod_eq_of_lt hv, Nat.shiftRight_one]
  rw [hand]
  split
  · rename_i h
    rw [h, show (-BitVec.ofNat 64 0 : Word64) = 0#64 by decide, BitVec.xor_zero]
    apply BitVec.eq_of_toNat_eq
    rw [hshift, BitVec.toNat_ofNat]
    omega
  · rename_i h
    rw [show v % 2 = 1 by omega, show (-BitVec.ofNat 64 1 : Word64) = BitVec.allOnes 64 by decide,
      BitVec.xor_allOnes]
    apply BitVec.eq_of_toNat_eq
    rw [BitVec.toNat_not, hshift, BitVec.toNat_neg, BitVec.toNat_ofNat]
    omega

/-- Every residual has a folded value. -/
theorem residualOfFold_foldOf (x : Sample) : residualOfFold (foldOf x) = x := by
  rw [← unfold64_ofNat, unfold64_foldOf]

/-! ## Reading back -/

theorem reads_riceDecode (r u : Nat) : Reads (riceDecode r) (riceBits r u) (residualOfFold u) := by
  unfold riceDecode riceBits
  refine Reads.bind (reads_readUnary _) ?_
  have h := Reads.map (fun lo : BitVec r => unfold64 (BitVec.ofNat 64 (u / 2 ^ r * 2 ^ r + lo.toNat)))
    (reads_readBits r (u % 2 ^ r))
  have e : unfold64 (BitVec.ofNat 64 (u / 2 ^ r * 2 ^ r + (BitVec.ofNat r (u % 2 ^ r)).toNat)) =
      residualOfFold u := by
    rw [BitVec.toNat_ofNat, Nat.mod_mod, Nat.div_add_mod', unfold64_ofNat]
  rwa [e] at h

/-- A partition that can be coded is read back. -/
theorem reads_partition {pbits esc : Nat} (p : Part) (h : p.codable esc) (hesc : esc < 2 ^ pbits) :
    Reads (partition pbits esc p.values.length) (p.bits pbits esc) p.values := by
  cases p with
  | rice r us =>
    have hr : r < esc := h
    unfold partition
    simp only [Part.bits, Part.values]
    refine Reads.bind (reads_readBits pbits r) ?_
    have e : (BitVec.ofNat pbits r).toNat = r := by
      rw [BitVec.toNat_ofNat, Nat.mod_eq_of_lt (by omega)]
    rw [e, if_neg (by omega), List.length_map]
    exact reads_readMany_map (riceBits r) residualOfFold us fun u _ => reads_riceDecode r u
  | escaped w xs =>
    obtain ⟨hw, hx⟩ : w < 32 ∧ ∀ x ∈ xs, fitsIn w x := h
    unfold partition
    simp only [Part.bits, Part.values, List.append_assoc]
    refine Reads.bind (reads_readBits pbits esc) ?_
    have e : (BitVec.ofNat pbits esc).toNat = esc := by
      rw [BitVec.toNat_ofNat, Nat.mod_eq_of_lt hesc]
    rw [e, if_pos rfl]
    refine Reads.bind (reads_readBits 5 w) ?_
    have e2 : (BitVec.ofNat 5 w).toNat = w := by
      rw [BitVec.toNat_ofNat, Nat.mod_eq_of_lt (by omega)]
    rw [e2]
    exact reads_readMany (signedBits w) xs fun x hxv => reads_readSigned (hx x hxv)

theorem reads_partitions {pbits esc n : Nat} (parts : List Part) (h : ∀ p ∈ parts, p.codable esc)
    (hn : ∀ p ∈ parts, p.values.length = n) (hesc : esc < 2 ^ pbits) :
    Reads (partitions pbits esc n parts.length) (parts.flatMap (Part.bits pbits esc))
      (residualsOf parts) := by
  induction parts with
  | nil => exact Reads.pure []
  | cons p parts ih =>
    rw [List.length_cons, partitions, List.flatMap_cons]
    have hp := reads_partition (pbits := pbits) p (h p (by simp)) hesc
    rw [hn p (by simp)] at hp
    refine Reads.bind hp ?_
    have := Reads.map (fun ys => p.values ++ ys)
      (ih (fun q hq => h q (by simp [hq])) (fun q hq => hn q (by simp [hq])))
    simpa [residualsOf] using this

theorem escapeValue_lt (rice2 : Bool) : escapeValue rice2 < 2 ^ parameterBits rice2 := by
  cases rice2 <;> decide

/-- The residual is read back, for either method, into the working registers (R290, R298, R299). -/
theorem codedResidual_reads (rice2 : Bool) (po : Nat) (parts : List Part) (s : State)
    (hfit : partsFit (escapeValue rice2) s.hdr.blockSize.toNat s.residual.order.toNat po parts)
    (hs : s.ahead (partsBits (parameterBits rice2) (escapeValue rice2) po parts)) :
    codedResidual (parameterBits rice2) (escapeValue rice2) rice2 s =
      .ok () ((s.consume (partsBits (parameterBits rice2) (escapeValue rice2) po parts).length).setResidual
        ⟨s.residual.order, rice2, BitVec.ofNat 4 po, residualsOf parts⟩) := by
  obtain ⟨hpo, hmod, ho, hlen, hcod, hsize⟩ := hfit
  have epo : (BitVec.ofNat 4 po).toNat = po := by
    rw [BitVec.toNat_ofNat, Nat.mod_eq_of_lt (by omega)]
  have hbad : partitionOrderBad s.hdr.blockSize.toNat s.residual.order.toNat po = false := by
    simp [partitionOrderBad, Nat.shiftRight_eq_div_pow, hmod, ho]
  cases parts with
  | nil =>
    have := Nat.two_pow_pos po
    simp at hlen; omega
  | cons p parts =>
    have hlen' : 2 ^ po - 1 = parts.length := by rw [← hlen]; simp
    have hp0 : p.values.length = s.hdr.blockSize.toNat >>> po - s.residual.order.toNat := by
      have := hsize 0 (by simp)
      simpa [Nat.shiftRight_eq_div_pow] using this
    have hrest : ∀ q ∈ parts, q.values.length = s.hdr.blockSize.toNat >>> po := by
      intro q hq
      obtain ⟨i, hi, rfl⟩ := List.getElem_of_mem hq
      have := hsize (i + 1) (by simpa using hi)
      simpa [Nat.shiftRight_eq_div_pow] using this
    have hread : Reads (do
        let po' ← readBits 4
        reject (partitionOrderBad s.hdr.blockSize.toNat s.residual.order.toNat po'.toNat) (badSubframe 8)
        let first ← partition (parameterBits rice2) (escapeValue rice2)
          (s.hdr.blockSize.toNat >>> po'.toNat - s.residual.order.toNat)
        let rest ← partitions (parameterBits rice2) (escapeValue rice2)
          (s.hdr.blockSize.toNat >>> po'.toNat) (2 ^ po'.toNat - 1)
        pure (po', first ++ rest))
        (partsBits (parameterBits rice2) (escapeValue rice2) po (p :: parts))
        (BitVec.ofNat 4 po, residualsOf (p :: parts)) := by
      refine Reads.bind (reads_readBits 4 po) ?_
      rw [epo]
      have hr : Reads (reject (partitionOrderBad s.hdr.blockSize.toNat s.residual.order.toNat po)
          (badSubframe 8)) [] () := Reads.reject _ hbad
      rw [List.flatMap_cons, ← List.nil_append (Part.bits _ _ p ++ _)]
      refine Reads.bind hr ?_
      have h1 := reads_partition (pbits := parameterBits rice2) p (hcod p (by simp)) (escapeValue_lt rice2)
      rw [hp0] at h1
      refine Reads.bind h1 ?_
      rw [hlen']
      have h2 := Reads.map (fun rest => (BitVec.ofNat 4 po, p.values ++ rest))
        (reads_partitions (pbits := parameterBits rice2) parts (fun q hq => hcod q (by simp [hq])) hrest
          (escapeValue_lt rice2))
      simpa [residualsOf] using h2
    have h := hread s hs
    rw [codedResidual, Rd.bind_run, Rd.get_run]
    simp only [Rd.bind_run] at h ⊢
    revert h
    cases readBits 4 s with
    | error e t => intro h; cases h
    | ok po' t =>
      simp only
      cases hrej : reject (partitionOrderBad s.hdr.blockSize.toNat s.residual.order.toNat po'.toNat)
        (badSubframe 8) t with
      | error e t => intro h; cases h
      | ok _ t =>
        simp only
        cases partition (parameterBits rice2) (escapeValue rice2)
          (s.hdr.blockSize.toNat >>> po'.toNat - s.residual.order.toNat) t with
        | error e t => intro h; cases h
        | ok first t =>
          simp only
          cases partitions (parameterBits rice2) (escapeValue rice2) (s.hdr.blockSize.toNat >>> po'.toNat)
            (2 ^ po'.toNat - 1) t with
          | error e t => intro h; cases h
          | ok rest t =>
            simp only [Rd.pure_run, Rd.modify_run]
            intro h
            injection h with h1 h2
            injection h1 with h1 h3
            subst h1 h2
            rw [h3]

theorem residual_reads (rice2 : Bool) (po : Nat) (parts : List Part) (s : State)
    (hfit : partsFit (escapeValue rice2) s.hdr.blockSize.toNat s.residual.order.toNat po parts)
    (hs : s.ahead (residualBits rice2 po parts)) :
    residual s = .ok () ((s.consume (residualBits rice2 po parts).length).setResidual
      ⟨s.residual.order, rice2, BitVec.ofNat 4 po, residualsOf parts⟩) := by
  obtain ⟨h1, h2⟩ := State.ahead_append.1 hs
  have hm := reads_readBits 2 (if rice2 then 1 else 0) s h1
  have h3 := codedResidual_reads rice2 po parts (s.consume 2) hfit (by simpa using h2)
  rw [residual, Rd.bind_run, hm]
  rw [residualBits, List.length_append, length_bitsOf, ← consume_add h1.1 (by simpa using h1.le)]
  cases rice2 <;> simpa [riceResidual, rice2Residual, parameterBits, escapeValue] using h3

/-! ## What is rejected -/

/-- A partition order that does not fit the block is rejected, for either method (R292). -/
theorem codedResidual_rejects (pbits esc : Nat) (rice2 : Bool) {po : Nat} (hpo : po < 16) {s : State}
    (hb : s.hdr.blockSize.toNat % 2 ^ po ≠ 0 ∨ s.hdr.blockSize.toNat / 2 ^ po < s.residual.order.toNat)
    (hs : s.ahead (bitsOf 4 po)) :
    codedResidual pbits esc rice2 s = .error (badSubframe 8) (s.consume 4) := by
  have e := reads_readBits 4 po s hs
  have hbad : partitionOrderBad s.hdr.blockSize.toNat s.residual.order.toNat (BitVec.ofNat 4 po).toNat =
      true := by
    rw [BitVec.toNat_ofNat, Nat.mod_eq_of_lt (by omega)]
    simp [partitionOrderBad, Nat.shiftRight_eq_div_pow]
    omega
  rw [length_bitsOf] at e
  simp only [codedResidual, Rd.bind_run, Rd.get_run, e, hbad, Rd.reject_true]

/-- A reserved method is rejected (R291). -/
theorem residual_rejects_method {m : Nat} (h1 : 2 ≤ m) (h2 : m < 4) {s : State} (hs : s.ahead (bitsOf 2 m)) :
    Machine.residual s = .error (badSubframe 7) (s.consume 2) := by
  have e := reads_readBits 2 m s hs
  rw [length_bitsOf] at e
  obtain rfl | rfl : m = 2 ∨ m = 3 := by omega
  all_goals simp only [Machine.residual, Rd.bind_run, e]; rfl

/-- A partition order that does not fit the block is rejected, after a legal method (R292). -/
theorem residual_rejects_order {m po : Nat} (hm : m < 2) (hpo : po < 16) {s : State}
    (hb : s.hdr.blockSize.toNat % 2 ^ po ≠ 0 ∨ s.hdr.blockSize.toNat / 2 ^ po < s.residual.order.toNat)
    (hs : s.ahead (bitsOf 2 m ++ bitsOf 4 po)) :
    Machine.residual s = .error (badSubframe 8) (s.consume 6) := by
  obtain ⟨h1, h2⟩ := State.ahead_append.1 hs
  have e := reads_readBits 2 m s h1
  have e6 := h1.consume_append (bitsOf 4 po)
  simp only [List.length_append, length_bitsOf] at e e6 h2
  have h := fun pbits esc r => codedResidual_rejects pbits esc r (s := s.consume 2) hpo hb h2
  rw [← e6] at h
  obtain rfl | rfl : m = 0 ∨ m = 1 := by omega
  all_goals simp only [Machine.residual, Rd.bind_run, e]; exact h _ _ _

/-! ## Everything it can do -/

namespace Sound

theorem riceDecode {code : StatusCode} (r : Nat) : Sound code (riceDecode r) :=
  bind readUnary fun _ => bind (readBits _) fun _ => pure _

theorem partition {code : StatusCode} (pbits esc n : Nat) : Sound code (partition pbits esc n) := by
  refine bind (readBits _) fun r => ?_
  split
  · exact bind (readBits _) fun _ => readMany (readSigned _) _
  · exact readMany (riceDecode _) _

theorem partitions {code : StatusCode} (pbits esc n k : Nat) : Sound code (partitions pbits esc n k) := by
  induction k with
  | zero => exact pure []
  | succ k ih => exact bind (partition _ _ _) fun _ => bind ih fun _ => pure _

theorem codedResidual (pbits esc : Nat) (rice2 : Bool) :
    Sound .badSubframe (codedResidual pbits esc rice2) :=
  bind get fun _ => bind (readBits _) fun _ => bind (reject _ _ _ _) fun _ =>
    bind (partition _ _ _) fun _ => bind (partitions _ _ _ _) fun _ => setResidual _

theorem reservedResidual : Sound .badSubframe reservedResidual := throw _ _ _

theorem residual : Sound .badSubframe residual := by
  refine bind (readBits _) fun m => ?_
  split
  · exact reservedResidual
  · split
    · exact codedResidual _ _ _
    · exact codedResidual _ _ _

end Sound

end Sys2Proof.Machine
end

