-- ==== Sys2Proof/Laws/Subframe.lean ====
section
/-! SUPPORT. Laws of the subframe decoder (`43_subframe.md`, `44_fixed.md`, `45_lpc_rice.md` R280 to R284):
the predictors, reading back what an encoder writes, and everything it can do. -/

namespace Sys2Proof.Machine

/-! ## Predictors -/

theorem extend_eq (pred : List Sample → Sample) (newest res : List Sample) :
    ∃ added, extend pred newest res = added ++ newest ∧ added.length = res.length ∧
      ∀ i (h : i < res.length), ((added ++ newest).reverse).getD (newest.length + i) 0 =
        pred (((added ++ newest).reverse.take (newest.length + i)).reverse) + res[i] := by
  induction res generalizing newest with
  | nil => exact ⟨[], rfl, rfl, fun i h => absurd h (by simp)⟩
  | cons r rs ih =>
    obtain ⟨added, h1, h2, h3⟩ := ih ((pred newest + r) :: newest)
    refine ⟨added ++ [pred newest + r], by simp [extend, h1], by simp [h2], ?_⟩
    intro i hi
    have e : (added ++ [pred newest + r]) ++ newest = added ++ (pred newest + r) :: newest := by simp
    rw [e]
    cases i with
    | zero =>
      have ht : ((added ++ (pred newest + r) :: newest).reverse.take (newest.length + 0)).reverse = newest := by
        simp
      rw [ht]
      simp
    | succ i =>
      have := h3 i (by simpa using hi)
      rw [List.length_cons] at this
      rw [show newest.length + (i + 1) = newest.length + 1 + i by omega]
      simpa using this

theorem length_reconstruct (pred : List Sample → Sample) (warm res : List Sample) :
    (reconstruct pred warm res).length = warm.length + res.length := by
  obtain ⟨added, h1, h2, -⟩ := extend_eq pred warm.reverse res
  simp [reconstruct, h1, h2]

theorem reconstruct_warm (pred : List Sample → Sample) (warm res : List Sample) (i : Nat)
    (h : i < warm.length) : (reconstruct pred warm res).getD i 0 = warm.getD i 0 := by
  obtain ⟨added, h1, h2, -⟩ := extend_eq pred warm.reverse res
  simp [reconstruct, h1, List.getElem?_append_left h]

theorem reconstruct_step (pred : List Sample → Sample) (warm res : List Sample) (i : Nat)
    (h1 : warm.length ≤ i) (h2 : i < warm.length + res.length) :
    (reconstruct pred warm res).getD i 0 =
      pred (((reconstruct pred warm res).take i).reverse) + res.getD (i - warm.length) 0 := by
  obtain ⟨added, e1, e2, e3⟩ := extend_eq pred warm.reverse res
  have := e3 (i - warm.length) (by omega)
  rw [List.length_reverse, show warm.length + (i - warm.length) = i by omega] at this
  rw [reconstruct, e1, this]
  rw [List.getD_eq_getElem _ _ (show i - warm.length < res.length by omega)]

/-- Entry `j` of the samples before `i`, newest first, is sample `i - 1 - j`. -/
theorem getD_newest (xs : List Sample) (i j : Nat) (hj : j < i) (hi : i ≤ xs.length) :
    ((xs.take i).reverse).getD j 0 = xs.getD (i - 1 - j) 0 := by
  have hl : (xs.take i).length = i := by simp [hi]
  have h1 : j < ((xs.take i).reverse).length := by simp [hl, hj]
  rw [List.getD_eq_getElem _ _ h1, List.getElem_reverse]
  simp only [hl, List.getElem_take]
  rw [List.getD_eq_getElem _ _ (by omega)]

/-- The fixed predictors are the formulas of R261 to R265. -/
theorem fixedPred_eq (o : Fin 5) (xs : List Sample) (i : Nat) (ho : o.val ≤ i) (hi : i ≤ xs.length) :
    fixedPred o ((xs.take i).reverse) = predictFixed o xs i := by
  have g : ∀ j, j < i → ((xs.take i).reverse).getD j 0 = xs.getD (i - 1 - j) 0 :=
    fun j hj => getD_newest xs i j hj hi
  match o, ho with
  | 0, _ => rfl
  | 1, ho => simp only [fixedPred, predictFixed]; rw [g 0 (show 0 < i from ho)]; simp
  | 2, ho =>
    have ho : 2 ≤ i := ho
    simp only [fixedPred, predictFixed]; rw [g 0 (by omega), g 1 (by omega)]; simp [Nat.sub_sub]
  | 3, ho =>
    have ho : 3 ≤ i := ho
    simp only [fixedPred, predictFixed]; rw [g 0 (by omega), g 1 (by omega), g 2 (by omega)]
    simp [Nat.sub_sub]
  | 4, ho =>
    have ho : 4 ≤ i := ho
    simp only [fixedPred, predictFixed]
    rw [g 0 (by omega), g 1 (by omega), g 2 (by omega), g 3 (by omega)]
    simp [Nat.sub_sub]

theorem weightedSum_eq (coeff newest : List Sample) (h : coeff.length ≤ newest.length) :
    weightedSum coeff newest =
      ((List.range coeff.length).map fun j => coeff.getD j 0 * newest.getD j 0).sum := by
  induction coeff generalizing newest with
  | nil => simp [weightedSum]
  | cons c cs ih =>
    cases newest with
    | nil => simp at h
    | cons x xs =>
      rw [weightedSum, ih xs (by simpa using h), List.length_cons, List.range_succ_eq_map, List.map_cons,
        List.sum_cons, List.map_map]
      simp [Function.comp_def]

/-- The LPC predictor is the formula of R283. -/
theorem lpcPred_eq (coeff : List Sample) (shift : Nat) (xs : List Sample) (i : Nat)
    (ho : coeff.length ≤ i) (hi : i ≤ xs.length) :
    lpcPred coeff shift ((xs.take i).reverse) = predictLpc coeff shift xs i := by
  rw [lpcPred, predictLpc, lpcSum, weightedSum_eq _ _ (by simp [hi]; exact ho)]
  congr 2
  apply List.map_congr_left
  intro j hj
  rw [List.mem_range] at hj
  rw [getD_newest xs i j (by omega) hi]

/-- Reconstruction gives the block the rules describe. -/
theorem predicted_fixed (o : Fin 5) (warm res : List Sample) (h : warm.length = o.val) :
    Predicted (predictFixed o) warm res (reconstruct (fixedPred o) warm res) := by
  have hl := length_reconstruct (fixedPred o) warm res
  refine ⟨hl, fun i hi => reconstruct_warm _ _ _ i hi, fun i h1 h2 => ?_⟩
  rw [reconstruct_step _ _ _ i h1 (by omega), fixedPred_eq o _ i (by omega) (by omega)]

theorem predicted_lpc (coeff : List Sample) (shift : Nat) (warm res : List Sample)
    (h : warm.length = coeff.length) :
    Predicted (predictLpc coeff shift) warm res (reconstruct (lpcPred coeff shift) warm res) := by
  have hl := length_reconstruct (lpcPred coeff shift) warm res
  refine ⟨hl, fun i hi => reconstruct_warm _ _ _ i hi, fun i h1 h2 => ?_⟩
  rw [reconstruct_step _ _ _ i h1 (by omega), lpcPred_eq coeff shift _ i (by omega) (by omega)]

/-- All partitions together hold as many residuals as the block leaves after its warm-up samples
(R293). -/
theorem length_residualsOf {esc bs o po : Nat} {parts : List Part} (h : partsFit esc bs o po parts) :
    (residualsOf parts).length = bs - o := by
  obtain ⟨-, hmod, ho, hlen, -, hsize⟩ := h
  cases parts with
  | nil => have := Nat.two_pow_pos po; simp at hlen; omega
  | cons p parts =>
    have hp0 := hsize 0 (by simp)
    simp only [List.getElem_cons_zero, if_true] at hp0
    have hrest : ∀ q ∈ parts, q.values.length = bs / 2 ^ po := by
      intro q hq
      obtain ⟨i, hi, rfl⟩ := List.getElem_of_mem hq
      have := hsize (i + 1) (by simpa using hi)
      simpa using this
    have hsum : ∀ qs : List Part, (∀ q ∈ qs, q.values.length = bs / 2 ^ po) →
        (residualsOf qs).length = qs.length * (bs / 2 ^ po) := by
      intro qs
      induction qs with
      | nil => simp [residualsOf]
      | cons q qs ih =>
        intro hq
        rw [residualsOf, List.flatMap_cons, List.length_append, hq q (by simp)]
        have := ih fun r hr => hq r (by simp [hr])
        rw [residualsOf] at this
        rw [this, List.length_cons]
        ring
    rw [residualsOf, List.flatMap_cons, List.length_append, hp0]
    have h2 := hsum parts hrest
    rw [residualsOf] at h2
    rw [h2]
    have hbs : bs = 2 ^ po * (bs / 2 ^ po) := by
      have := Nat.div_add_mod bs (2 ^ po)
      omega
    have hl : parts.length + 1 = 2 ^ po := by simpa using hlen
    have : bs = (parts.length + 1) * (bs / 2 ^ po) := by rw [hl]; exact hbs
    have h3 : (parts.length + 1) * (bs / 2 ^ po) = parts.length * (bs / 2 ^ po) + bs / 2 ^ po := by ring
    omega

/-! ## Reading back -/

theorem reads_wastedBits (k : Nat) : Reads (wastedBits (decide (0 < k))) (wastedCode k) k := by
  cases k with
  | zero => simpa [wastedBits, wastedCode] using Reads.pure 0
  | succ k =>
    have := Reads.map (fun z => z + 1) (reads_readUnary k)
    simpa [wastedBits, wastedCode] using this

theorem residualOf_reads (o : Nat) (ho : o < 64) (rice2 : Bool) (po : Nat) (parts : List Part) (s : State)
    (hfit : partsFit (escapeValue rice2) s.hdr.blockSize.toNat o po parts)
    (hs : s.ahead (residualBits rice2 po parts)) :
    residualOf o s = .ok (residualsOf parts) ((s.consume (residualBits rice2 po parts).length).setResidual
      ⟨BitVec.ofNat 6 o, rice2, BitVec.ofNat 4 po, residualsOf parts⟩) := by
  have ho' : (BitVec.ofNat 6 o).toNat = o := by rw [BitVec.toNat_ofNat, Nat.mod_eq_of_lt (by omega)]
  have h := residual_reads rice2 po parts
    (s.setResidual { Residual.empty with order := BitVec.ofNat 6 o }) (by simpa [ho'] using hfit) hs
  simp only [residualOf, Rd.bind_run, Rd.modify_run, h, Rd.get_run, Rd.pure_run]
  rfl

theorem reads_warm {w : Nat} {warm : List Sample} (hw : ∀ x ∈ warm, fitsIn w x) :
    Reads (readMany (readSigned w) warm.length) (warm.flatMap (signedBits w)) warm :=
  reads_readMany (signedBits w) warm fun x hx => reads_readSigned (hw x hx)

theorem constantBody_reads {w bs : Nat} {x : Sample} (hx : fitsIn w x) :
    Reads (constantBody w bs) (signedBits w x) ⟨List.replicate bs x, 0, 0⟩ :=
  Reads.map (fun v => (⟨List.replicate bs v, 0, 0⟩ : Body)) (reads_readSigned hx)

theorem verbatimBody_reads {w : Nat} {xs : List Sample} (hx : ∀ x ∈ xs, fitsIn w x) :
    Reads (verbatimBody w xs.length) (xs.flatMap (signedBits w)) ⟨xs, 0, 0⟩ :=
  Reads.map (fun v => (⟨v, 0, 0⟩ : Body)) (reads_warm hx)

theorem fixedBody_reads (o : Fin 5) {w : Nat} {warm : List Sample} (ho : warm.length = o.val)
    (hw : ∀ x ∈ warm, fitsIn w x) (rice2 : Bool) (po : Nat) (parts : List Part) (s : State)
    (hfit : partsFit (escapeValue rice2) s.hdr.blockSize.toNat o.val po parts)
    (hs : s.ahead (warm.flatMap (signedBits w) ++ residualBits rice2 po parts)) :
    fixedBody o w s =
      .ok ⟨reconstruct (fixedPred o) warm (residualsOf parts), 0, 0⟩
        ((s.consume (warm.flatMap (signedBits w) ++ residualBits rice2 po parts).length).setResidual
          ⟨BitVec.ofNat 6 o.val, rice2, BitVec.ofNat 4 po, residualsOf parts⟩) := by
  obtain ⟨h1, h2⟩ := State.ahead_append.1 hs
  have e1 := reads_warm hw s h1
  rw [ho] at e1
  have e2 := residualOf_reads o.val (by omega) rice2 po parts (s.consume _) hfit h2
  simp only [fixedBody, Rd.bind_run, e1, e2, Rd.pure_run]
  rw [List.length_append, ← consume_add h1.1 h1.le]

/-- The bits of an LPC subframe's body (R102): the warm-up samples, the precision less 1, the shift, the
coefficients, the residual. -/
def lpcBodyBits (w : Nat) (warm coeff : List Sample) (prec shift : Nat) (rice2 : Bool) (po : Nat)
    (parts : List Part) : List Bool :=
  warm.flatMap (signedBits w) ++ (bitsOf 4 (prec - 1) ++ (bitsOf 5 shift ++
    (coeff.flatMap (signedBits prec) ++ residualBits rice2 po parts)))

theorem reads_lpcParams {prec shift : Nat} (hp : 1 ≤ prec ∧ prec ≤ 15) (hs : shift ≤ 15) :
    Reads lpcParams (bitsOf 4 (prec - 1) ++ bitsOf 5 shift) (prec, shift) := by
  unfold lpcParams
  have e1 : (BitVec.ofNat 4 (prec - 1)).toNat = prec - 1 := by
    rw [BitVec.toNat_ofNat, Nat.mod_eq_of_lt (by omega)]
  have e2 : (BitVec.ofNat 5 shift).toNat = shift := by
    rw [BitVec.toNat_ofNat, Nat.mod_eq_of_lt (by omega)]
  have b1 : (BitVec.ofNat 4 (prec - 1) == 15) = false := by
    rw [beq_eq_false_iff_ne]
    intro h
    have := congrArg BitVec.toNat h
    rw [e1] at this
    simp at this; omega
  have b2 : (BitVec.ofNat 5 shift).getLsbD 4 = false := by
    rw [BitVec.getLsbD, e2]
    exact Nat.testBit_lt_two_pow (by omega)
  refine Reads.bind (reads_readBits 4 _) ?_
  rw [← List.nil_append (bitsOf 5 shift)]
  refine Reads.bind (Reads.reject _ b1) ?_
  rw [← List.append_nil (bitsOf 5 shift)]
  refine Reads.bind (reads_readBits 5 _) ?_
  rw [← List.nil_append []]
  refine Reads.bind (Reads.reject _ b2) ?_
  rw [e1, e2, show prec - 1 + 1 = prec by omega]
  exact Reads.pure _

theorem lpcBody_reads (o : Nat) {w prec shift : Nat} {warm coeff : List Sample} (ho : warm.length = o)
    (hc : coeff.length = o) (ho64 : o < 64) (hw : ∀ x ∈ warm, fitsIn w x) (hp : 1 ≤ prec ∧ prec ≤ 15)
    (hsh : shift ≤ 15) (hcf : ∀ x ∈ coeff, fitsIn prec x) (rice2 : Bool) (po : Nat) (parts : List Part)
    (s : State) (hfit : partsFit (escapeValue rice2) s.hdr.blockSize.toNat o po parts)
    (hs : s.ahead (lpcBodyBits w warm coeff prec shift rice2 po parts)) :
    lpcBody o w s =
      .ok ⟨reconstruct (lpcPred coeff shift) warm (residualsOf parts), BitVec.ofNat 4 prec,
          BitVec.ofNat 4 shift⟩
        ((s.consume (lpcBodyBits w warm coeff prec shift rice2 po parts).length).setResidual
          ⟨BitVec.ofNat 6 o, rice2, BitVec.ofNat 4 po, residualsOf parts⟩) := by
  rw [lpcBodyBits, ← List.append_assoc (bitsOf 4 _)] at hs ⊢
  obtain ⟨h1, h2⟩ := State.ahead_append.1 hs
  obtain ⟨h2, h3⟩ := State.ahead_append.1 h2
  obtain ⟨h3, h4⟩ := State.ahead_append.1 h3
  have e1 := reads_warm hw s h1
  have e2 := reads_lpcParams hp hsh _ h2
  have e3 := reads_warm hcf _ h3
  rw [ho] at e1
  rw [hc] at e3
  have e4 := residualOf_reads o ho64 rice2 po parts (((s.consume _).consume _).consume _) hfit h4
  simp only [lpcBody, Rd.bind_run, e1, e2, e3, e4, Rd.pure_run]
  rw [h1.consume_append, h2.consume_append, h3.consume_append]

/-- What `SF_INFO[c]` says of a subframe (R235). -/
def infoOf (kind : SfKind) (o k eff : Nat) (prec shift : BitVec 4) (r : Residual) : SfInfo :=
  { kind := kind, order := BitVec.ofNat 6 o, wasted := BitVec.ofNat 6 k, bpsEff := BitVec.ofNat 6 eff,
    lpcPrec := prec, lpcShift := shift, rice2 := r.rice2, partOrder := r.partOrder }

/-- A subframe of a known kind: the wasted-bits code, then a body that reads its own bits. -/
theorem codedSubframe_reads (c : ChannelIx) (kind : SfKind) (o k : Nat) (body : Nat → Nat → Rd Body)
    (bits : List Bool) (b : Body) (r : Residual) (s : State)
    (hk : k < s.bpsEff c) (ho : o ≤ s.hdr.blockSize.toNat)
    (hs : s.ahead (wastedCode k ++ bits))
    (hbody : body (s.bpsEff c - k) s.hdr.blockSize.toNat ((s.consume (wastedCode k).length).setResidual
      Residual.empty) = .ok b (((s.consume (wastedCode k).length).consume bits.length).setResidual r)) :
    codedSubframe c kind o (decide (0 < k)) body s =
      .ok () (s.withSubframe c (infoOf kind o k (s.bpsEff c) b.prec b.shift r)
        (shiftSamples k b.samples) (wastedCode k ++ bits).length) := by
  obtain ⟨h1, h2⟩ := State.ahead_append.1 hs
  have e1 := reads_wastedBits k s h1
  have r1 : decide (s.bpsEff c ≤ k) = false := by simp; omega
  have r2 : decide (s.hdr.blockSize.toNat < o) = false := by simp; omega
  simp only [codedSubframe, Rd.bind_run, Rd.get_run, e1, r1, r2, Rd.reject_false, Rd.modify_run, hbody]
  rw [List.length_append, State.withSubframe, ← consume_add h1.1 h1.le]
  rfl

/-! ## Everything it can do -/

namespace Sound

theorem wastedBits {code : StatusCode} (flag : Bool) : Sound code (wastedBits flag) := by
  cases flag with
  | true => exact bind readUnary fun _ => pure _
  | false => exact pure _

theorem residualOf (o : Nat) : Sound .badSubframe (residualOf o) :=
  bind (setResidual _) fun _ => bind residual fun _ => bind get fun _ => pure _

theorem constantBody {code : StatusCode} (w bs : Nat) : Sound code (constantBody w bs) :=
  bind (readSigned _) fun _ => pure _

theorem verbatimBody {code : StatusCode} (w bs : Nat) : Sound code (verbatimBody w bs) :=
  bind (readMany (readSigned _) _) fun _ => pure _

theorem fixedBody (o : Fin 5) (w : Nat) : Sound .badSubframe (fixedBody o w) :=
  bind (readMany (readSigned _) _) fun _ => bind (residualOf _) fun _ => pure _

theorem lpcParams : Sound .badSubframe lpcParams :=
  bind (readBits _) fun _ => bind (reject _ _ _ _) fun _ => bind (readBits _) fun _ =>
    bind (reject _ _ _ _) fun _ => pure _

theorem lpcBody (o w : Nat) : Sound .badSubframe (lpcBody o w) :=
  bind (readMany (readSigned _) _) fun _ => bind lpcParams fun _ =>
    bind (readMany (readSigned _) _) fun _ => bind (residualOf _) fun _ => pure _

end Sound

theorem length_readMany {α : Type} {act : Rd α} {n : Nat} {s t : State} {xs : List α}
    (h : readMany act n s = .ok xs t) : xs.length = n := by
  induction n generalizing s xs with
  | zero =>
    simp only [readMany, Rd.pure_run] at h
    cases h; rfl
  | succ n ih =>
    simp only [readMany, Rd.bind_run] at h
    split at h
    · split at h
      · rename_i h2
        simp only [Rd.pure_run] at h
        cases h
        simp [ih h2]
      · cases h
    · cases h

theorem length_partition {pbits esc n : Nat} {s t : State} {xs : List Sample}
    (h : partition pbits esc n s = .ok xs t) : xs.length = n := by
  simp only [partition, Rd.bind_run] at h
  split at h
  · split at h
    · simp only [Rd.bind_run] at h
      split at h
      · exact length_readMany h
      · cases h
    · exact length_readMany h
  · cases h

theorem length_partitions {pbits esc n k : Nat} {s t : State} {xs : List Sample}
    (h : partitions pbits esc n k s = .ok xs t) : xs.length = k * n := by
  induction k generalizing s xs with
  | zero =>
    simp only [partitions, Rd.pure_run] at h
    cases h; simp
  | succ k ih =>
    simp only [partitions, Rd.bind_run] at h
    split at h
    · rename_i h1
      split at h
      · rename_i h2
        simp only [Rd.pure_run] at h
        cases h
        rw [List.length_append, length_partition h1, ih h2]
        ring
      · cases h
    · cases h

/-- A residual that is decoded has a value for each sample after the order (R293). -/
theorem length_codedResidual {pbits esc : Nat} {rice2 : Bool} {s t : State}
    (h : codedResidual pbits esc rice2 s = .ok () t) :
    t.residual.values.length = s.hdr.blockSize.toNat - s.residual.order.toNat := by
  simp only [codedResidual, Rd.bind_run, Rd.get_run] at h
  split at h
  · rename_i po s1 _
    cases hb : partitionOrderBad s.hdr.blockSize.toNat s.residual.order.toNat po.toNat with
    | true => rw [hb] at h; simp at h
    | false =>
      rw [hb] at h
      simp only [Rd.reject_false] at h
      split at h
      · rename_i h1
        split at h
        · rename_i h2
          simp only [Rd.modify_run] at h
          cases h
          simp only [partitionOrderBad, Nat.shiftRight_eq_div_pow, Bool.or_eq_false_iff,
            decide_eq_false_iff_not, not_not, not_lt] at hb
          have l1 := length_partition h1
          have l2 := length_partitions h2
          simp only [setResidual_residual, List.length_append, l1, l2, Nat.shiftRight_eq_div_pow]
          have e : s.hdr.blockSize.toNat = 2 ^ po.toNat * (s.hdr.blockSize.toNat / 2 ^ po.toNat) := by
            have := Nat.div_add_mod s.hdr.blockSize.toNat (2 ^ po.toNat)
            omega
          have hpos := Nat.two_pow_pos po.toNat
          obtain ⟨m, hm⟩ : ∃ m, 2 ^ po.toNat = m + 1 := ⟨2 ^ po.toNat - 1, by omega⟩
          rw [hm] at e hb ⊢
          have e2 : (m + 1) * (s.hdr.blockSize.toNat / (m + 1)) =
            m * (s.hdr.blockSize.toNat / (m + 1)) + s.hdr.blockSize.toNat / (m + 1) := by ring
          simp only [Nat.add_sub_cancel]
          omega
        · cases h
      · cases h
  · cases h

theorem length_residualOf {o : Nat} (ho : o < 64) {s t : State} {xs : List Sample}
    (h : residualOf o s = .ok xs t) : xs.length = s.hdr.blockSize.toNat - o := by
  have ho' : (BitVec.ofNat 6 o).toNat = o := by rw [BitVec.toNat_ofNat, Nat.mod_eq_of_lt (by omega)]
  obtain ⟨_, _, hm, h⟩ := Rd.bind_ok.1 h
  cases hm
  obtain ⟨_, t', hr, h⟩ := Rd.bind_ok.1 h
  obtain ⟨_, _, hg, h⟩ := Rd.bind_ok.1 h
  cases hg
  cases h
  obtain ⟨m, s1, hm, hr⟩ := Rd.bind_ok.1 hr
  have hs := Sound.readBits (code := .badSubframe) 2
    (s.setResidual { Residual.empty with order := BitVec.ofNat 6 o })
  rw [hm] at hs
  have hres : s1.residual.order = BitVec.ofNat 6 o := by
    obtain ⟨v, s2, h1, h2⟩ := Rd.bind_ok.1 hm
    obtain ⟨_, _, h3, h2⟩ := Rd.bind_ok.1 h2
    cases h3
    cases h2
    simp only [peekBits, Rd.bind_run, Rd.get_run] at h1
    cases hb : (s.setResidual { Residual.empty with order := BitVec.ofNat 6 o }).src.bitsAt
      (s.setResidual { Residual.empty with order := BitVec.ofNat 6 o }).pos.toNat 2 with
    | some bits => rw [hb] at h1; cases h1; rfl
    | none => rw [hb] at h1; simp only [unavailable_run] at h1; cases h1
  have hh : s1.hdr = s.hdr := by rw [hs.hdr]; rfl
  split at hr
  · cases hr
  · split at hr
    · have := length_codedResidual hr
      rw [this, hres, ho', hh]
    · have := length_codedResidual hr
      rw [this, hres, ho', hh]

/-- The body a kind selects yields as many samples as the block has, when the order fits the block. -/
def BodyLength (o : Nat) (body : Nat → Nat → Rd Body) : Prop :=
  ∀ (w : Nat) (s t : State) (b : Body), o ≤ s.hdr.blockSize.toNat →
    body w s.hdr.blockSize.toNat s = .ok b t → b.samples.length = s.hdr.blockSize.toNat

theorem BodyLength.constant : BodyLength 0 constantBody := by
  intro w s t b _ h
  simp only [constantBody, Rd.bind_run, Rd.pure_run] at h
  split at h
  · cases h; simp
  · cases h

theorem BodyLength.verbatim : BodyLength 0 verbatimBody := by
  intro w s t b _ h
  simp only [verbatimBody, Rd.bind_run, Rd.pure_run] at h
  split at h
  · rename_i h1; cases h; exact length_readMany h1
  · cases h

theorem BodyLength.fixed (o : Fin 5) : BodyLength o.val fun w _ => fixedBody o w := by
  intro w s t b ho h
  simp only [fixedBody, Rd.bind_run, Rd.pure_run] at h
  split at h
  · rename_i warm s1 h1
    split at h
    · rename_i res s2 h2
      cases h
      have hm := Sound.readMany (code := .badSubframe) (Sound.readSigned w) o.val s
      rw [h1] at hm
      have l2 := length_residualOf (by omega) h2
      rw [hm.hdr] at l2
      simp only [length_reconstruct, length_readMany h1, l2]
      omega
    · cases h
  · cases h

theorem BodyLength.lpc (o : Nat) (ho64 : o < 64) : BodyLength o fun w _ => lpcBody o w := by
  intro w s t b ho h
  simp only [lpcBody, Rd.bind_run, Rd.pure_run] at h
  split at h
  · rename_i warm s1 h1
    split at h
    · rename_i ps s2 h2
      split at h
      · rename_i coeff s3 h3
        split at h
        · rename_i res s4 h4
          cases h
          have m1 := Sound.readMany (code := .badSubframe) (Sound.readSigned w) o s
          rw [h1] at m1
          have m2 := Sound.lpcParams s1
          rw [h2] at m2
          have m3 := Sound.readMany (code := .badSubframe) (Sound.readSigned ps.1) o s2
          rw [h3] at m3
          have l4 := length_residualOf ho64 h4
          rw [m3.hdr, m2.hdr, m1.hdr] at l4
          simp only [length_reconstruct, length_readMany h1, l4]
          omega
        · cases h
      · cases h
    · cases h
  · cases h

/-- What a subframe may leave when it ends with OK. -/
def SubframeDone (c : ChannelIx) (s t : State) : Prop :=
  ∃ (u : State) (xs : List Sample) (info : SfInfo), Moves s u ∧ xs.length = s.hdr.blockSize.toNat ∧
    t = u.storeSubframe c info xs

/-- What a decode step of a subframe or of a part of one may answer; `done` relates the state before to the
state after an end with OK. -/
def PartSound (done : State → State → Prop) (act : Rd Unit) : Prop :=
  ∀ s : State, match act s with
    | .ok _ t => done s t
    | .error e t => Moves s t ∧ (e = .hold → s.srcEnded = false) ∧ (e = .endOfStream → s.srcEnded = true) ∧
        ∀ code sub x y, e = .badFrame code sub x y → code = .badSubframe

/-- What a decode step of a subframe of channel `c` may answer. -/
abbrev SubframeSound (c : ChannelIx) (act : Rd Unit) : Prop := PartSound (SubframeDone c) act

/-- A decode step of the residual is a part of a subframe that moves the cursor and the working registers. -/
theorem PartSound.of_sound {act : Rd Unit} (h : Sound .badSubframe act) : PartSound Moves act := by
  intro s
  have h := h s
  cases e : act s <;> rw [e] at h <;> exact h

theorem SubframeSound.bind {α : Type} {c : ChannelIx} {x : Rd α} {f : α → Rd Unit}
    (hx : Sound .badSubframe x) (hf : ∀ a, SubframeSound c (f a)) : SubframeSound c (x >>= f) := by
  intro s
  have h1 := hx s
  rw [Rd.bind_run]
  cases hxs : x s with
  | ok a t =>
    rw [hxs] at h1
    simp only
    have h2 := hf a t
    cases hft : f a t with
    | ok b v =>
      rw [hft] at h2
      obtain ⟨u, xs, info, hm, hl, rfl⟩ := h2
      exact ⟨u, xs, info, h1.trans hm, by rw [hl, h1.hdr], rfl⟩
    | error e u =>
      rw [hft] at h2
      simp only [h1.srcEnded] at h2
      exact ⟨h1.trans h2.1, h2.2⟩
  | error e t => rw [hxs] at h1; exact h1

theorem SubframeSound.throw {c : ChannelIx} (sub : Byte) :
    SubframeSound c (MonadExcept.throw (badSubframe sub)) := by
  intro s
  have := Sound.throw (α := Unit) (code := .badSubframe) sub 0 0 s
  exact this

theorem SubframeSound.coded (c : ChannelIx) (kind : SfKind) (o : Nat) (flag : Bool)
    (body : Nat → Nat → Rd Body) (hb : ∀ w bs, Sound .badSubframe (body w bs)) (hl : BodyLength o body) :
    SubframeSound c (codedSubframe c kind o flag body) := by
  intro s
  simp only [codedSubframe, Rd.bind_run, Rd.get_run]
  have h1 := Sound.wastedBits (code := .badSubframe) flag s
  cases e1 : wastedBits flag s with
  | error e t => rw [e1] at h1; exact h1
  | ok k s1 =>
    rw [e1] at h1
    simp only
    have r1 := Sound.reject (decide (s.bpsEff c ≤ k)) 3 0 0 (code := .badSubframe) s1
    cases hb1 : decide (s.bpsEff c ≤ k) with
    | true =>
      rw [hb1] at r1
      simp only [Rd.reject_true] at r1 ⊢
      rw [h1.srcEnded] at r1
      exact ⟨h1.trans r1.1, r1.2⟩
    | false =>
      simp only [Rd.reject_false]
      have r2 := Sound.reject (decide (s.hdr.blockSize.toNat < o)) 4 0 0 (code := .badSubframe) s1
      cases hb2 : decide (s.hdr.blockSize.toNat < o) with
      | true =>
        rw [hb2] at r2
        simp only [Rd.reject_true] at r2 ⊢
        rw [h1.srcEnded] at r2
        exact ⟨h1.trans r2.1, r2.2⟩
      | false =>
        simp only [Rd.reject_false, Rd.modify_run]
        have h2 := hb (s.bpsEff c - k) s.hdr.blockSize.toNat (s1.setResidual Residual.empty)
        have m12 : Moves s (s1.setResidual Residual.empty) := h1.trans (Moves.setResidual _ _)
        cases e2 : body (s.bpsEff c - k) s.hdr.blockSize.toNat (s1.setResidual Residual.empty) with
        | error e t =>
          rw [e2] at h2
          simp only
          rw [setResidual_srcEnded, h1.srcEnded] at h2
          exact ⟨m12.trans h2.1, h2.2⟩
        | ok b t =>
          rw [e2] at h2
          have m := m12.trans h2
          have e3 := e2
          rw [show s.hdr.blockSize = (s1.setResidual Residual.empty).hdr.blockSize by rw [m12.hdr]] at e3
          have hlen := hl _ _ _ _ (by rw [m12.hdr]; simpa using hb2) e3
          rw [m12.hdr] at hlen
          exact ⟨t, shiftSamples k b.samples,
            infoOf kind o k (s.bpsEff c) b.prec b.shift t.residual, m, by simp [shiftSamples, hlen], rfl⟩

/-- Everything a subframe's code can do (R230 to R240). -/
theorem SubframeSound.code (c : ChannelIx) (code : SubframeCode) : SubframeSound c (subframeCode c code) := by
  cases code with
  | constant w => exact coded c _ 0 w _ (fun _ _ => Sound.constantBody _ _) BodyLength.constant
  | verbatim w => exact coded c _ 0 w _ (fun _ _ => Sound.verbatimBody _ _) BodyLength.verbatim
  | fixed o w =>
    exact coded c .fixed o.val w (fun width _ => fixedBody o width) (fun width _ => Sound.fixedBody o width)
      (BodyLength.fixed o)
  | lpc o w =>
    have h : lpcOrder o < 64 := by have := o.isLt; simp only [lpcOrder]; omega
    exact coded c .lpc (lpcOrder o) w (fun width _ => lpcBody (lpcOrder o) width)
      (fun width _ => Sound.lpcBody (lpcOrder o) width) (BodyLength.lpc _ h)
  | reserved t w => exact throw 2
  | badPadding r => exact throw 1

/-- Everything a subframe can do (R230). -/
theorem SubframeSound.decode (c : ChannelIx) : SubframeSound c (decodeSubframe c) :=
  bind (Sound.readBits 8) fun x => code c (decodeSubframeByte x)

end Sys2Proof.Machine
end

