-- ==== Sys2Proof/Laws/Sync.lean ====
section
/-! SUPPORT. Laws of the synchronizer (`41_sync.md`): everything its scan can do. -/

namespace Sys2Proof.Machine

/-- From `s` to `t` bytes were consumed and lost: the cursor and the accumulators moved, and at most one
`LOST_SYNC` event was emitted, only when `LOSS_ARMED` was set, which it cleared (R164). -/
def Lost (s t : State) : Prop :=
  t = { s with pos := t.pos, crc16 := t.crc16, crc8 := t.crc8, residual := t.residual,
               lossArmed := t.lossArmed, outq := t.outq } ∧
  (s.sourceOk → s.pos.toNat ≤ t.pos.toNat ∧ t.pos.toNat ≤ 8 * s.src.length) ∧
  ((t.lossArmed = s.lossArmed ∧ t.outq = s.outq) ∨
   (s.lossArmed = true ∧ t.lossArmed = false ∧ ∃ a, t.outq = s.outq ++ [.event ⟨.lostSync, 0, a, 0, 0⟩]))

theorem Moves.lost {s t : State} (h : Moves s t) : Lost s t := by
  refine ⟨?_, h.2, .inl ⟨h.lossArmed, h.outq⟩⟩
  have := h.1
  rw [h.lossArmed, h.outq]
  exact this

theorem Lost.src {s t : State} (h : Lost s t) : t.src = s.src := by rw [h.1]

theorem Lost.srcEnded {s t : State} (h : Lost s t) : t.srcEnded = s.srcEnded := by rw [h.1]

theorem Lost.sourceOk {s t : State} (h : Lost s t) (hs : s.sourceOk) : t.sourceOk := by
  have := (h.2.1 hs).2
  refine ⟨?_, ?_, ?_⟩ <;> rw [h.src]
  · exact hs.1
  · exact hs.2.1
  · exact this

theorem Lost.trans {s t u : State} (h1 : Lost s t) (h2 : Lost t u) : Lost s u := by
  refine ⟨?_, fun hs => ?_, ?_⟩
  · have e1 := h1.1
    have e2 := h2.1
    rw [e1] at e2
    exact e2
  · have a := h1.2.1 hs
    have b := h2.2.1 (h1.sourceOk hs)
    rw [h1.src] at b
    omega
  · rcases h1.2.2 with ⟨a1, a2⟩ | ⟨a1, a2, a, a3⟩
    · rcases h2.2.2 with ⟨b1, b2⟩ | ⟨b1, b2, b, b3⟩
      · exact .inl ⟨b1.trans a1, b2.trans a2⟩
      · exact .inr ⟨a1 ▸ b1, b2, b, by rw [b3, a2]⟩
    · rcases h2.2.2 with ⟨b1, b2⟩ | ⟨b1, -, -⟩
      · exact .inr ⟨a1, b1.trans a2, a, by rw [b2, a3]⟩
      · rw [a2] at b1; cases b1

theorem Lost.lostByte (s : State) (a : Word64) : Lost s (s.lostByte a) := by
  cases h : s.lossArmed with
  | true =>
    simp only [State.lostByte, h, if_true]
    exact ⟨rfl, fun hs => ⟨le_refl _, hs.2.2⟩, .inr ⟨h, rfl, a, rfl⟩⟩
  | false =>
    simp only [State.lostByte, h, Bool.false_eq_true, if_false]
    exact ⟨rfl, fun hs => ⟨le_refl _, hs.2.2⟩, .inl ⟨rfl, rfl⟩⟩

/-- What the search for a sync may leave when it finds one: some bytes lost, then the match's writes, both
bytes of it consumed. -/
def Found (s : State) (a : Word64) (t : State) : Prop :=
  ∃ (u : State) (y : Byte), Lost s u ∧ t = u.synced a y ∧ syncTail y = true ∧
    (s.sourceOk → s.pos.toNat + 16 ≤ u.pos.toNat)

/-- What the search may answer. -/
def SyncSound (act : Rd Word64) (s : State) : Prop :=
  match act s with
  | .ok a t => Found s a t
  | .error e t => Lost s t ∧ (e = .hold → s.srcEnded = false) ∧
      (e = .endOfStream → s.srcEnded = true ∨ s.totalReached = true) ∧
      ∀ code sub x y, e ≠ .badFrame code sub x y

theorem SyncSound.of_lost {act : Rd Word64} {s t : State} (h : Lost s t) (ht : t.totalReached = s.totalReached)
    (h2 : SyncSound act t) : match act t with
      | .ok a v => Found s a v
      | .error e v => Lost s v ∧ (e = .hold → s.srcEnded = false) ∧
          (e = .endOfStream → s.srcEnded = true ∨ s.totalReached = true) ∧
          ∀ code sub x y, e ≠ .badFrame code sub x y := by
  unfold SyncSound at h2
  cases e : act t with
  | ok a v =>
    rw [e] at h2
    obtain ⟨u, y, h3, h4, h5, h6⟩ := h2
    refine ⟨u, y, h.trans h3, h4, h5, fun hs => ?_⟩
    have := h6 (h.sourceOk hs)
    have := (h.2.1 hs).1
    omega
  | error e' v =>
    rw [e] at h2
    simp only [h.srcEnded, ht] at h2
    exact ⟨h.trans h2.1, h2.2⟩

theorem Lost.totalReached {s t : State} (h : Lost s t) : t.totalReached = s.totalReached := by
  rw [h.1]; rfl

theorem readBits_pos {n : Nat} {s t : State} {v : BitVec n} (h : readBits n s = .ok v t) :
    t = s.consume n ∧ (s.sourceOk → s.pos.toNat + n ≤ 8 * s.src.length) := by
  simp only [readBits, Rd.bind_run, peekBits, Rd.get_run] at h
  cases hb : s.src.bitsAt s.pos.toNat n with
  | some bits =>
    rw [hb] at h
    simp only [Rd.pure_run, consume, Rd.modify_run] at h
    cases h
    exact ⟨rfl, fun hs => Memory.le_of_bitsAt hs.1 hb hs.2.2⟩
  | none => rw [hb] at h; simp only [unavailable_run] at h; cases h

theorem peekBits_ok {n : Nat} {s t : State} {v : BitVec n} (h : peekBits n s = .ok v t) :
    t = s ∧ (s.sourceOk → s.pos.toNat + n ≤ 8 * s.src.length) := by
  simp only [peekBits, Rd.bind_run, Rd.get_run] at h
  cases hb : s.src.bitsAt s.pos.toNat n with
  | some bits =>
    rw [hb] at h
    simp only [Rd.pure_run] at h
    cases h
    exact ⟨rfl, fun hs => Memory.le_of_bitsAt hs.1 hb hs.2.2⟩
  | none => rw [hb] at h; simp only [unavailable_run] at h; cases h

theorem peekBits_error {n : Nat} {s t : State} {e : Raise} (h : peekBits n s = .error e t) :
    t = s ∧ e = if s.srcEnded then .endOfStream else .hold := by
  simp only [peekBits, Rd.bind_run, Rd.get_run] at h
  cases hb : s.src.bitsAt s.pos.toNat n with
  | some bits => rw [hb] at h; cases h
  | none => rw [hb] at h; simp only [unavailable_run] at h; cases h; exact ⟨rfl, rfl⟩

theorem readBits_error {n : Nat} {s t : State} {e : Raise} (h : readBits n s = .error e t) :
    t = s ∧ e = if s.srcEnded then .endOfStream else .hold := by
  simp only [readBits, Rd.bind_run] at h
  cases hp : peekBits n s with
  | ok v u => rw [hp] at h; cases h
  | error e' u => rw [hp] at h; cases h; exact peekBits_error hp

theorem align_error {s t : State} {e : Raise} (h : align s = .error e t) :
    t = s ∧ e = if s.srcEnded then .endOfStream else .hold := by
  simp only [align, Rd.bind_run, Rd.get_run] at h
  cases hp : readBits (bitsToBoundary s.pos.toNat) s with
  | ok v u => rw [hp] at h; cases h
  | error e' u => rw [hp] at h; cases h; exact readBits_error hp

/-- A read that fails leaves the search where it was. -/
theorem lost_of_error {s t : State} {e : Raise} (l : Lost s t)
    (h : e = if t.srcEnded then .endOfStream else .hold) :
    Lost s t ∧ (e = .hold → s.srcEnded = false) ∧
      (e = .endOfStream → s.srcEnded = true ∨ s.totalReached = true) ∧
      ∀ code sub x y, e ≠ .badFrame code sub x y := by
  rw [l.srcEnded] at h
  subst h
  cases s.srcEnded <;> exact ⟨l, by simp, by simp, by simp⟩

/-- Everything the scan can do (R163 to R165). -/
theorem SyncSound.scan (left : Nat) (s : State) : SyncSound (scan left) s := by
  induction left generalizing s with
  | zero =>
    simp only [SyncSound, Machine.scan, unavailable_run]
    exact lost_of_error (Moves.refl s).lost rfl
  | succ left ih =>
    unfold SyncSound
    rw [Machine.scan, Rd.bind_run, Rd.get_run]
    simp only [Rd.bind_run]
    have h1 := Sound.readBits (code := .badHeader) 8 s
    cases e1 : readBits 8 s with
    | error e t =>
      obtain ⟨rfl, he⟩ := readBits_error e1
      exact lost_of_error (Moves.refl _).lost he
    | ok x s1 =>
      rw [e1] at h1
      have m1 : Moves s s1 := h1
      have p1 := readBits_pos e1
      have hpos : s.sourceOk → s1.pos.toNat = s.pos.toNat + 8 := by
        intro hs; rw [p1.1]; exact pos_consume_le hs (p1.2 hs)
      have lose : Lost s (s1.lostByte s.bytePos) := m1.lost.trans (Lost.lostByte s1 s.bytePos)
      simp only
      by_cases hx : x = 0xFF
      · rw [if_pos hx, Rd.bind_run]
        cases e2 : peekBits 8 s1 with
        | error e t =>
          obtain ⟨rfl, he⟩ := peekBits_error e2
          exact lost_of_error m1.lost he
        | ok y t =>
          obtain ⟨rfl, hav⟩ := peekBits_ok e2
          simp only
          by_cases hy : syncTail y = true
          · rw [if_pos hy]
            simp only [Rd.bind_run, consume, Rd.modify_run, Rd.pure_run]
            have hav' : t.sourceOk → t.pos.toNat + 8 ≤ 8 * t.src.length := hav
            refine ⟨t.consume 8, y, (m1.trans (Moves.consume hav')).lost, rfl, hy, fun hs => ?_⟩
            have ht := m1.sourceOk hs
            rw [pos_consume_le ht (hav' ht), hpos hs]
          · rw [if_neg hy]
            simp only [Rd.bind_run, Rd.modify_run]
            exact SyncSound.of_lost lose lose.totalReached (ih _)
      · rw [if_neg hx]
        simp only [Rd.bind_run, Rd.modify_run]
        exact SyncSound.of_lost lose lose.totalReached (ih _)

/-- Everything `FR_FIND_SYNC` can do (R161 to R165). -/
theorem SyncSound.findSync (s : State) : SyncSound findSync s := by
  unfold SyncSound Machine.findSync
  rw [Rd.bind_run, Rd.get_run]
  simp only
  rw [Rd.bind_run]
  cases ht : s.totalReached with
  | true =>
    simp only [Rd.reject_true]
    exact ⟨(Moves.refl s).lost, by simp, fun _ => .inr trivial, by simp⟩
  | false =>
    simp only [Rd.reject_false]
    rw [Rd.bind_run]
    cases e1 : align s with
    | error e t =>
      obtain ⟨rfl, he⟩ := align_error e1
      have := lost_of_error (Moves.refl _).lost he
      rw [ht] at this
      exact this
    | ok v t =>
      have h1 := Sound.align (code := .badHeader) s
      rw [e1] at h1
      have l : Lost s t := Moves.lost h1
      simp only [Rd.bind_run, Rd.get_run]
      have := SyncSound.of_lost l l.totalReached (SyncSound.scan t.bytesLeft t)
      rw [ht] at this
      exact this

/-! ## What the scan does on given bytes -/

theorem ahead_byte {s : State} {a : Nat} {b : Byte} (hs : s.sourceOk) (hp : s.pos.toNat = 8 * a) (hb : s.src.byteAt a = some b) :
    s.ahead (byteBits b) := by
  refine ⟨hs, fun i hi => ?_⟩
  have hi8 : i < 8 := by simpa [byteBits] using hi
  rw [hp, Memory.bitAt, show (8 * a + i) / 8 = a by omega, hb]
  simp only [byteBits, bitsOf_getElem]
  rw [show (8 * a + i) % 8 = i by omega]
  rfl

/-- A whole byte at an aligned cursor. -/
theorem readByte {s : State} {a : Nat} {b : Byte} (hs : s.sourceOk) (hp : s.pos.toNat = 8 * a) (hb : s.src.byteAt a = some b) :
    readBits 8 s = .ok b (s.consume 8) := by
  have := reads_readBits 8 b.toNat s (ahead_byte hs hp hb)
  simpa using this

theorem peekByte {s : State} {a : Nat} {b : Byte} (hs : s.sourceOk) (hp : s.pos.toNat = 8 * a) (hb : s.src.byteAt a = some b) :
    peekBits 8 s = .ok b s := by
  have := reads_peekBits 8 b.toNat s (ahead_byte hs hp hb)
  simpa using this

theorem lostByte_fields (s : State) (a : Word64) : s.lostByte a = { s with lossArmed := false, outq := s.outq ++ if s.lossArmed then [.event ⟨.lostSync, 0, a, 0, 0⟩] else [] } := by
  unfold State.lostByte
  cases h : s.lossArmed <;> simp [State.emit]
  rw [← h]

theorem syncPair_iff (x y : Byte) : syncPair x y ↔ x = 0xFF ∧ syncTail y = true := by
  have : ∀ y : Byte, y.toNat / 4 = 0b111110 ↔ syncTail y = true := by decide
  simp [syncPair, this]

theorem bytePos_eq {s : State} {a : Nat} (hp : s.pos.toNat = 8 * a) : s.bytePos = BitVec.ofNat 64 a := by
  apply BitVec.eq_of_toNat_eq
  have := s.pos.isLt
  simp only [State.bytePos, BitVec.toNat_ushiftRight, BitVec.toNat_ofNat, Nat.shiftRight_eq_div_pow]
  omega

/-- What a run of lost bytes from index `a` on leaves (R164). -/
def lostRun (a : Nat) (lost : List Byte) (s : State) : State :=
  if lost = [] then s else (s.consume (8 * lost.length)).lostByte (BitVec.ofNat 64 a)

theorem scan_lose {s : State} {a left : Nat} {b : Byte} (hs : s.sourceOk) (hp : s.pos.toNat = 8 * a) (hb : s.src.byteAt a = some b)
    (hn : b = 0xFF → ∃ y, s.src.byteAt (a + 1) = some y ∧ syncTail y = false) :
    scan (left + 1) s = scan left ((s.consume 8).lostByte (BitVec.ofNat 64 a)) := by
  have hlt := Memory.lt_length_of_byteAt hs.1 hb
  rw [scan, Rd.bind_run, Rd.get_run]
  simp only [Rd.bind_run, readByte hs hp hb, bytePos_eq hp]
  by_cases h : b = 0xFF
  · obtain ⟨y, hy, ht⟩ := hn h
    have hs1 : (s.consume 8).sourceOk := sourceOk_consume hs (by omega)
    have hp1 : (s.consume 8).pos.toNat = 8 * (a + 1) := by rw [pos_consume_le hs (by omega)]; omega
    rw [if_pos h]
    simp only [Rd.bind_run, peekByte hs1 hp1 hy, ht, Bool.false_eq_true, if_false, Rd.modify_run]
  · rw [if_neg h]
    simp only [Rd.bind_run, Rd.modify_run]

theorem lostRun_step {s : State} {a : Nat} {b : Byte} {bs : List Byte} (hs : s.sourceOk) (hp : s.pos.toNat = 8 * a) (hle : a + 1 ≤ s.src.length) :
    lostRun (a + 1) bs ((s.consume 8).lostByte (BitVec.ofNat 64 a)) = lostRun a (b :: bs) s := by
  cases bs with
  | nil => simp [lostRun]
  | cons c cs =>
    simp only [lostRun, List.cons_ne_nil, if_false]
    have e : (s.consume 8).consume (8 * (c :: cs).length) = s.consume (8 * (b :: c :: cs).length) := by
      rw [consume_add hs (by omega)]; congr 1; simp only [List.length_cons]; omega
    rw [← e, lostByte_fields, lostByte_fields, lostByte_fields]
    simp [State.consume]

/-- The scan over bytes none of which starts a sync pattern: they are lost, one event in all. -/
theorem scan_run {s : State} {a left : Nat} (lost : List Byte) (nextb : Byte) (hs : s.sourceOk) (hp : s.pos.toNat = 8 * a)
    (hb : s.src.holds a (lost ++ [nextb])) (hn : noSyncIn (lost ++ [nextb])) :
    scan (lost.length + left) s = scan left (lostRun a lost s) := by
  induction lost generalizing s a with
  | nil => simp [lostRun]
  | cons b bs ih =>
    have h0 := hb 0 (by simp)
    simp only [Nat.add_zero, List.cons_append, List.getElem_cons_zero] at h0
    have hlt := Memory.lt_length_of_byteAt hs.1 h0
    rw [List.length_cons, show bs.length + 1 + left = (bs.length + left) + 1 by omega, scan_lose hs hp h0 ?_]
    · rw [ih, lostRun_step hs hp (by omega)]
      · rw [lostByte_fields]; exact sourceOk_consume hs (by omega)
      · rw [lostByte_fields]; show (s.consume 8).pos.toNat = _; rw [pos_consume_le hs (by omega)]; omega
      · intro i hi
        have := hb (i + 1) (by simpa using hi)
        rw [lostByte_fields]
        show s.src.byteAt (a + 1 + i) = _
        rw [show a + 1 + i = a + (i + 1) by omega]; exact this
      · intro i hi
        exact hn (i + 1) (by simpa using hi)
    · intro hff
      have hl : 1 < ((b :: bs) ++ [nextb]).length := by simp
      refine ⟨_, hb 1 hl, ?_⟩
      have := hn 0 hl
      rw [syncPair_iff] at this
      simp only [List.cons_append, List.getElem_cons_zero, not_and] at this
      simpa using this hff

/-- `Align()` on an input whose cursor stands in it: it never runs out of bits (R134). -/
theorem align_run {s : State} (hs : s.sourceOk) : ∃ v, align s = .ok (v, (8 - s.pos.toNat % 8) % 8) (s.consume ((8 - s.pos.toNat % 8) % 8)) := by
  have hle : s.pos.toNat + (8 - s.pos.toNat % 8) % 8 ≤ 8 * s.src.length := by have := hs.2.2; omega
  obtain ⟨bits, hb⟩ := Memory.bitsAt_isSome hs.1 hle
  have ha : s.ahead bits := State.ahead_iff.2 ⟨hs, by rw [Memory.length_of_bitsAt hb]; exact hb⟩
  have := reads_readBits_any bits s ha
  have hl := Memory.length_of_bitsAt hb
  rw [hl] at this
  simp only [align, Rd.bind_run, Rd.get_run, bitsToBoundary, this, Rd.pure_run]
  exact ⟨_, rfl⟩

theorem lostRun_consume {s : State} {a : Nat} (lost : List Byte) (hs : s.sourceOk) (hp : s.pos.toNat = 8 * a)
    (hl : a + lost.length ≤ s.src.length) :
    (lostRun a lost s).sourceOk ∧ (lostRun a lost s).pos.toNat = 8 * (a + lost.length) ∧
    ∀ n, (lostRun a lost s).consume n =
      { s.consume (8 * lost.length + n) with
        lossArmed := if lost = [] then s.lossArmed else false
        outq := s.outq ++ if s.lossArmed = true ∧ lost ≠ []
          then [.event ⟨.lostSync, 0, BitVec.ofNat 64 a, 0, 0⟩] else [] } := by
  unfold lostRun
  by_cases h : lost = []
  · subst h
    simp only [if_true, List.length_nil]
    refine ⟨hs, by simpa using hp, fun n => ?_⟩
    simp [State.consume]
  · simp only [if_neg h]
    rw [lostByte_fields]
    refine ⟨sourceOk_consume hs (by omega), ?_, fun n => ?_⟩
    · show (s.consume _).pos.toNat = _
      rw [pos_consume_le hs (by omega)]; omega
    · rw [← consume_add hs (m := 8 * lost.length) (by omega)]
      cases hla : s.lossArmed <;> simp [State.consume, h, hla]

/-- The scan to the end of an input without a sync pattern (R163 to R165). -/
theorem scan_end {s : State} {a : Nat} (rest : List Byte) (hs : s.sourceOk) (hp : s.pos.toNat = 8 * a)
    (hb : s.src.holds a rest) (hl : a + rest.length = s.src.length) (hn : noSyncIn rest) :
    scan rest.length s = .error (if s.srcEnded then .endOfStream else .hold)
      { s.consume (8 * rest.length) with
        lossArmed := if rest = [] ∨ rest = [0xFF] then s.lossArmed else false
        outq := s.outq ++ if s.lossArmed = true ∧ rest ≠ [] ∧ rest ≠ [0xFF]
          then [.event ⟨.lostSync, 0, BitVec.ofNat 64 a, 0, 0⟩] else [] } := by
  rcases List.eq_nil_or_concat rest with rfl | ⟨init, last, rfl⟩
  · simp [scan, unavailable_run]
  · rw [List.concat_eq_append] at *
    rw [List.length_append] at hl
    simp only [List.length_singleton] at hl
    rw [List.length_append, List.length_singleton, scan_run (left := 1) init last hs hp hb hn]
    obtain ⟨us, up, uc⟩ := lostRun_consume init hs hp (by omega)
    have u8 := uc 8
    have u0 := uc 0
    rw [consume_zero, Nat.add_zero] at u0
    have usrc : (lostRun a init s).src = s.src := by rw [u0]; rfl
    have uend : (lostRun a init s).srcEnded = s.srcEnded := by rw [u0]; rfl
    have ub : (lostRun a init s).src.byteAt (a + init.length) = some last := by
      rw [usrc]
      have := hb init.length (by simp)
      simpa using this
    have ps : ((lostRun a init s).consume 8).sourceOk := sourceOk_consume us (by rw [usrc]; omega)
    have pp : ((lostRun a init s).consume 8).pos.toNat = 8 * s.src.length := by
      rw [pos_consume_le us (by rw [usrc]; omega)]; omega
    rw [scan, Rd.bind_run, Rd.get_run]
    simp only [Rd.bind_run, readByte us up ub, bytePos_eq up]
    have e8 : 8 * (init.length + 1) = 8 * init.length + 8 := by ring
    have enil : init ++ [last] ≠ [] := by simp
    by_cases hff : last = 0xFF
    · subst hff
      have hshort : ((lostRun a init s).consume 8).src.bitsAt ((lostRun a init s).consume 8).pos.toNat 8 = none := by
        rw [pp]
        show (lostRun a init s).src.bitsAt _ 8 = none
        rw [usrc]
        by_contra hne
        obtain ⟨bits, hbits⟩ := Option.ne_none_iff_exists'.1 hne
        have := Memory.le_of_bitsAt hs.1 hbits (le_refl _)
        omega
      simp only [if_true, Rd.bind_run, peekBits, Rd.get_run, hshort, unavailable_run]
      have e2 : init ++ [(0xFF : Byte)] = [0xFF] ↔ init = [] := by simp
      simp only [e2, enil, false_or, ne_eq, not_false_iff, true_and]
      have : ((lostRun a init s).consume 8).srcEnded = s.srcEnded := uend
      rw [this, u8, e8]
    · have e2 : init ++ [last] ≠ [0xFF] := by
        intro h
        have := congrArg List.getLast? h
        simp at this
        exact hff this
      simp only [if_neg hff, Rd.bind_run, Rd.modify_run, scan, unavailable_run]
      have : (State.lostByte (BitVec.ofNat 64 (a + init.length)) ((lostRun a init s).consume 8)).srcEnded =
          s.srcEnded := by rw [lostByte_fields]; exact uend
      rw [this, lostByte_fields, u8, e8]
      simp only [enil, e2, or_self, if_false, ne_eq, not_false_iff, and_self, and_true]
      congr 1
      by_cases hi : init = []
      · simp [hi]
      · simp [hi]

end Sys2Proof.Machine
end

