-- ==== Sys2Proof/Laws/Frame.lean ====
section
/-! SUPPORT. Laws of the steps of the frame decoder: for each primitive frame command, everything its step
can do, once (`41_sync.md` R160 to R165, `42_header.md` R180 to R195, `43_subframe.md` R230 to R240,
`47_frame.md` R340 to R343, `60_exceptions.md` R384, R386). -/

namespace Sys2Proof.Machine

/-! ## Reads that leave the working registers alone -/

/-- `act` leaves the residual decoder's working registers as they are, whatever it answers. -/
def Plain {α : Type} (act : Rd α) : Prop :=
  ∀ s : State, match act s with
    | .ok _ t => t.residual = s.residual
    | .error _ t => t.residual = s.residual

namespace Plain

variable {α β : Type}

theorem pure (v : α) : Plain (Pure.pure v : Rd α) := fun _ => rfl

theorem get : Plain (MonadState.get : Rd State) := fun _ => rfl

theorem throw (e : Raise) : Plain (MonadExcept.throw e : Rd α) := fun _ => rfl

theorem bind {x : Rd α} {f : α → Rd β} (hx : Plain x) (hf : ∀ a, Plain (f a)) : Plain (x >>= f) := by
  intro s
  have h1 := hx s
  rw [Rd.bind_run]
  cases hxs : x s with
  | error e t => rw [hxs] at h1; exact h1
  | ok a t =>
    rw [hxs] at h1
    simp only
    have h2 := hf a t
    cases hft : f a t with
    | ok b u => rw [hft] at h2; exact h2.trans h1
    | error e u => rw [hft] at h2; exact h2.trans h1

theorem modify {f : State → State} (h : ∀ s, (f s).residual = s.residual) :
    Plain (MonadStateOf.modifyGet fun s => ((), f s) : Rd Unit) := fun s => h s

theorem reject (bad : Bool) (r : Raise) : Plain (reject bad r) := by
  cases bad with
  | true => exact throw r
  | false => exact pure ()

theorem unavailable : Plain (unavailable : Rd α) := by
  intro s
  rw [unavailable_run]

theorem consume (n : Nat) : Plain (consume n) := fun _ => rfl

theorem peekBits (n : Nat) : Plain (peekBits n) := by
  refine bind get fun s => ?_
  split
  · exact pure _
  · exact unavailable

theorem readBits (n : Nat) : Plain (readBits n) :=
  bind (peekBits n) fun _ => bind (consume n) fun _ => pure _

theorem align : Plain align := bind get fun _ => bind (readBits _) fun _ => pure _

theorem scan (left : Nat) : Plain (scan left) := by
  induction left with
  | zero => exact unavailable
  | succ left ih =>
    have lose : ∀ a : Word64, Plain (Machine.scan left) →
        Plain (do MonadStateOf.modifyGet (fun s => ((), State.lostByte a s)); Machine.scan left : Rd Word64) :=
      fun a h => bind (modify fun s => by unfold State.lostByte; split <;> rfl) fun _ => h
    refine bind get fun s => bind (readBits 8) fun x => ?_
    split
    · refine bind (peekBits 8) fun y => ?_
      split
      · exact bind (consume 8) fun _ => bind (modify fun s => rfl) fun _ => pure _
      · exact lose _ ih
    · exact lose _ ih

theorem findSync : Plain findSync :=
  bind get fun _ => bind (reject _ _) fun _ => bind align fun _ => bind get fun _ => scan _

theorem continuation (m v : Nat) : Plain (continuation m v) := by
  induction m generalizing v with
  | zero => exact pure v
  | succ m ih => exact bind (readBits 8) fun _ => bind (reject _ _) fun _ => ih _

theorem codedNumber (blocking : Bool) : Plain (codedNumber blocking) := by
  refine bind (readBits 8) fun b => ?_
  split
  · exact continuation _ _
  · exact throw _

theorem blockSize (bsc : BitVec 4) : Plain (blockSize bsc) := by
  unfold Machine.blockSize
  split
  · exact bind (readBits 8) fun _ => pure _
  · split
    · exact bind (readBits 16) fun _ => pure _
    · exact pure _

theorem sampleRate (src : BitVec 4) : Plain (sampleRate src) := by
  unfold Machine.sampleRate
  split
  · exact bind (readBits 8) fun _ => pure _
  · split
    · exact bind (readBits 16) fun _ => pure _
    · split
      · exact bind (readBits 16) fun _ => pure _
      · exact bind get fun _ => pure _

theorem readHeader : Plain readHeader := by
  refine bind get fun s => bind (reject _ _) fun _ => bind (readBits 8) fun b2 => ?_
  refine bind (reject _ _) fun _ => bind (reject _ _) fun _ => bind (readBits 8) fun b3 => ?_
  refine bind (reject _ _) fun _ => bind (reject _ _) fun _ => bind (reject _ _) fun _ => ?_
  refine bind (codedNumber _) fun _ => bind (blockSize _) fun _ => bind (sampleRate _) fun _ => ?_
  exact bind get fun _ => bind (readBits 8) fun _ => bind (reject _ _) fun _ =>
    bind (reject _ _) fun _ => pure _

theorem readFooter : Plain readFooter :=
  bind align fun _ => bind (reject _ _) fun _ => bind get fun _ => bind (readBits 16) fun _ => pure _

end Plain

/-- Everything the footer's reads can do. -/
theorem Sound.readFooter : Sound .nonzeroPadding readFooter :=
  bind align fun _ => bind (reject _ _ _ _) fun _ => bind get fun _ => bind (readBits 16) fun _ => pure _

/-- From `s` to `t` only the cursor and the accumulators may differ, and the cursor does not move back nor
leave the input. -/
def Reading (s t : State) : Prop := Moves s t ∧ t.residual = s.residual

theorem Reading.eq {s t : State} (h : Reading s t) :
    t = { s with pos := t.pos, crc16 := t.crc16, crc8 := t.crc8 } := by
  have e := h.1.1
  rw [h.2] at e
  exact e

/-! ## The steps -/

/-- Everything the step of `FR_FIND_SYNC` can do. -/
theorem findSyncStep_cases (s : State) :
    (s.srcEnded = false ∧ findSyncStep s = .hold) ∨
    ((s.srcEnded = true ∨ s.totalReached = true) ∧ ∃ t : State, Lost s t ∧ t.residual = s.residual ∧
      findSyncStep s = .done ⟨.endOfStream, 0⟩ 0 { t with eof := true }) ∨
    (∃ (a : Word64) (t : State), Found s a t ∧ t.residual = s.residual ∧
      findSyncStep s = .done .okay a t) := by
  have h1 := SyncSound.findSync s
  have h2 := Plain.findSync s
  unfold SyncSound at h1
  unfold findSyncStep
  cases e : findSync s with
  | ok a t => rw [e] at h1 h2; exact .inr (.inr ⟨a, t, h1, h2, rfl⟩)
  | error r t =>
    rw [e] at h1 h2
    obtain ⟨l, hh, he, hb⟩ := h1
    cases r with
    | hold => exact .inl ⟨hh rfl, rfl⟩
    | endOfStream => exact .inr (.inl ⟨he rfl, t, l, h2, rfl⟩)
    | badFrame code sub x y => exact absurd rfl (hb code sub x y)

/-- A header that passed its checks: the registers it writes describe a frame the parameters allow. -/
def HeaderGood (s : State) (h : HeaderRegs) : Prop :=
  1 ≤ h.channels.toNat ∧ h.channels.toNat ≤ 8 ∧ 1 ≤ h.blockSize.toNat ∧
  h.blockSize.toNat ≤ s.sp.maxBlock.toNat ∧
  (h.bps = s.sp.bps ∨ (4 ≤ h.bps.toNat ∧ h.bps.toNat ≤ 32)) ∧
  (h.assign ≠ .independent → h.channels = 2)

/-- Everything the step of `FR_DECODE_HEADER` can do. -/
theorem headerStep_cases (s : State) :
    (s.srcEnded = false ∧ headerStep s = .hold) ∨
    (s.srcEnded = true ∧ ∃ t : State, Reading s t ∧
      headerStep s = .done ⟨.endOfStream, 0⟩ 0 t.withFrameCut) ∨
    (∃ (t : State) (sub : Byte) (x y : Word16), Reading s t ∧
      headerStep s = .done ⟨.badHeader, sub⟩ 0 (t.withBadFrame .badHeader sub x y)) ∨
    (∃ (t : State) (h : HeaderRegs), Reading s t ∧ HeaderGood s h ∧
      headerStep s = .done .okay (h.blockSize.setWidth 64) (t.commitHeader h)) := by
  have h1 := Sound.readHeader s
  have h2 := Plain.readHeader s
  unfold headerStep runFrameStep decodeHeader
  simp only [Rd.bind_run]
  cases e : readHeader s with
  | ok h t =>
    rw [e] at h1 h2
    exact .inr (.inr (.inr ⟨t, h, ⟨h1, h2⟩, readHeader_ok e, rfl⟩))
  | error r t =>
    rw [e] at h1 h2
    obtain ⟨m, hh, he, hb⟩ := h1
    cases r with
    | hold => exact .inl ⟨hh rfl, rfl⟩
    | endOfStream => exact .inr (.inl ⟨he rfl, t, ⟨m, h2⟩, rfl⟩)
    | badFrame code sub x y =>
      obtain rfl := hb code sub x y rfl
      exact .inr (.inr (.inl ⟨t, sub, x, y, ⟨m, h2⟩, rfl⟩))

/-- The contents of channel `c` and the working registers are given up. -/
def State.dropSubframe (c : ChannelIx) (s : State) : State :=
  (s.forgetChannel c).setResidual Residual.empty

/-- Everything a subframe, or a part of one, can do. -/
theorem runSubframe_cases {c : ChannelIx} {done : State → State → Prop} {act : Rd Unit}
    (h : PartSound done act) (s : State) :
    (s.srcEnded = false ∧ runSubframe c act s = .hold) ∨
    (s.srcEnded = true ∧ ∃ t : State, Moves s t ∧
      runSubframe c act s = .done ⟨.endOfStream, 0⟩ 0 (t.setResidual Residual.empty).withFrameCut) ∨
    (∃ (t : State) (sub : Byte) (x y : Word16), Moves s t ∧
      runSubframe c act s =
        .done ⟨.badSubframe, sub⟩ 0 ((t.dropSubframe c).withBadFrame .badSubframe sub x y)) ∨
    (∃ t : State, done s t ∧ runSubframe c act s = .done .okay 0 t) := by
  have h1 := h s
  unfold runSubframe
  cases e : act s with
  | ok _ t =>
    rw [e] at h1
    exact .inr (.inr (.inr ⟨t, h1, rfl⟩))
  | error r t =>
    rw [e] at h1
    obtain ⟨m, hh, he, hb⟩ := h1
    cases r with
    | hold => exact .inl ⟨hh rfl, rfl⟩
    | endOfStream => exact .inr (.inl ⟨he rfl, t, m, rfl⟩)
    | badFrame code sub x y =>
      obtain rfl := hb code sub x y rfl
      exact .inr (.inr (.inl ⟨t, sub, x, y, m, rfl⟩))

/-- A subframe, or a part of one, that is rejected loses its channel (R240, R384). -/
theorem runSubframe_rejects {c : ChannelIx} {act : Rd Unit} {n : Nat} {sub : Byte} {r : Residual} {s : State}
    (h : act s = .error (badSubframe sub) ((s.consume n).setResidual r)) :
    ∃ t : State, (runSubframe c act s).finish s = .next t ∧
      State.losesChannel c (s.badFrameAfter n .badSubframe sub 0 0) t := by
  unfold runSubframe
  rw [h]
  refine ⟨_, rfl, rfl, fun d hd => ?_⟩
  have hcd : ¬ c.val = d.val := fun h => hd (Fin.ext h.symm)
  simp [State.forgetChannel, State.badFrame, State.endCommand, State.badFrameAfter,
    State.errorWith, State.withBadFrame, hcd]

theorem nextChannel_eq {s : State} {c : ChannelIx} (h : s.sfDone.toNat = c.val) : s.nextChannel = c := by
  apply Fin.ext
  simp [State.nextChannel, h]

/-- Everything the step of `FR_CHECK_FOOTER` can do. -/
theorem footerStep_cases (s : State) :
    (s.srcEnded = false ∧ footerStep s = .hold) ∨
    (s.srcEnded = true ∧ ∃ t : State, Reading s t ∧
      footerStep s = .done ⟨.endOfStream, 0⟩ 0 t.withFrameCut) ∨
    (∃ (t : State) (sub : Byte) (x y : Word16), Reading s t ∧
      footerStep s = .done ⟨.nonzeroPadding, sub⟩ 0 (t.withBadFrame .nonzeroPadding sub x y)) ∨
    (∃ (t : State) (x : Word16), Reading s t ∧
      footerStep s = .done .okay (s.hdr.blockSize.setWidth 64) ((t.setFooter x x).deliver true)) ∨
    (∃ (t : State) (x y : Word16), Reading s t ∧ x ≠ y ∧
      footerStep s =
        .done ⟨.crcMismatch, 0⟩ 0 (((t.setFooter x y).crcMismatch x y).deliver false)) := by
  have h1 := Sound.readFooter s
  have h2 := Plain.readFooter s
  unfold footerStep runFrameStep checkFooter
  simp only [Rd.bind_run]
  cases e : readFooter s with
  | ok v t =>
    rw [e] at h1 h2
    obtain ⟨x, y⟩ := v
    have m : Reading s t := ⟨h1, h2⟩
    by_cases hxy : x = y
    · subst hxy
      refine .inr (.inr (.inr (.inl ⟨t, x, m, ?_⟩)))
      simp only [Rd.modify_run, Rd.get_run, Rd.pure_run, State.closeFrame, if_true]
      have hh : ((t.setFooter x x).deliver true).hdr = s.hdr := m.1.hdr
      rw [hh]
    · refine .inr (.inr (.inr (.inr ⟨t, x, y, m, hxy, ?_⟩)))
      simp only [Rd.modify_run, Rd.get_run, Rd.pure_run, State.closeFrame, if_neg hxy]
  | error r t =>
    rw [e] at h1 h2
    obtain ⟨m, hh, he, hb⟩ := h1
    cases r with
    | hold => exact .inl ⟨hh rfl, rfl⟩
    | endOfStream => exact .inr (.inl ⟨he rfl, t, ⟨m, h2⟩, rfl⟩)
    | badFrame code sub x y =>
      obtain rfl := hb code sub x y rfl
      exact .inr (.inr (.inl ⟨t, sub, x, y, ⟨m, h2⟩, rfl⟩))

/-! ## What every step keeps -/

/-- What a primitive step of the frame decoder never writes: the parameters, the input, the stream
parameters, `FATAL`, the command interface and the host. -/
structure SameOutside (s t : State) : Prop where
  params : t.params = s.params
  src : t.src = s.src
  srcEnded : t.srcEnded = s.srcEnded
  fatal : t.fatal = s.fatal
  lastErr : t.lastErr = s.lastErr
  sp : t.sp = s.sp
  spValid : t.spValid = s.spValid
  slot : t.slot = s.slot
  dataIn : t.dataIn = s.dataIn
  result : t.result = s.result
  statusOut : t.statusOut = s.statusOut
  stop : t.stop = s.stop
  host : t.host = s.host

/-- `t` holds the records of `s` and then `added`, and its counters count them (`10_state.md` R34, R35). -/
def Counted (s t : State) (added : List Record) : Prop :=
  t.outq = s.outq ++ added ∧
  t.badFrames = s.badFrames + BitVec.ofNat 32 (added.filter Record.isBadFrame).length ∧
  t.samplesDecoded = s.samplesDecoded + BitVec.ofNat 64 (added.map Record.sampleCount).sum

/-- Everything a primitive step of the frame decoder keeps, and the codes it may end with. -/
structure StepKeeps (codes : List StatusCode) (s : State) (st : Status) (res : Word64) (t : State) :
    Prop where
  outside : SameOutside s t
  cursor : s.sourceOk → s.pos.toNat ≤ t.pos.toNat ∧ t.pos.toNat ≤ 8 * s.src.length
  records : ∃ added, Counted s t added
  eof : t.eof = s.eof ∨ (t.eof = true ∧ st = ⟨.endOfStream, 0⟩)
  code : st.code ∈ codes
  okay : st.code = .ok → st.sub = 0
  result : st.code ≠ .ok → res = 0

/-- What a step of the frame decoder may answer: it holds only while the source has not ended. -/
def Ended.keeps (codes : List StatusCode) (s : State) : Ended → Prop
  | .hold => s.srcEnded = false
  | .done st res t => StepKeeps codes s st res t

theorem Moves.outside {s t : State} (h : Moves s t) : SameOutside s t :=
  ⟨h.params, h.src, h.srcEnded, h.fatal, h.lastErr, h.sp, h.spValid, h.slot, h.dataIn, h.result, h.statusOut,
    h.stop, h.host⟩

theorem Lost.outside {s t : State} (h : Lost s t) : SameOutside s t := by
  have e := h.1
  constructor <;> rw [e]

theorem Counted.none {s t : State} (h1 : t.outq = s.outq) (h2 : t.badFrames = s.badFrames)
    (h3 : t.samplesDecoded = s.samplesDecoded) : Counted s t [] := by
  refine ⟨by rw [h1, List.append_nil], ?_, ?_⟩
  · rw [h2]; simp
  · rw [h3]; simp

theorem Moves.counted {s t : State} (h : Moves s t) : Counted s t [] :=
  Counted.none h.outq h.badFrames h.samplesDecoded

theorem Lost.counted {s t : State} (h : Lost s t) : ∃ added, Counted s t added := by
  have e2 : t.badFrames = s.badFrames := by rw [h.1]
  have e3 : t.samplesDecoded = s.samplesDecoded := by rw [h.1]
  rcases h.2.2 with ⟨-, e1⟩ | ⟨-, -, a, e1⟩
  · exact ⟨[], Counted.none e1 e2 e3⟩
  · refine ⟨_, e1, ?_, ?_⟩
    · rw [e2]; simp [Record.isBadFrame]
    · rw [e3]; simp [Record.sampleCount]

theorem Counted.badFrame {s t : State} (code : StatusCode) (sub : Byte) (x y : Word16) (h : Counted s t [])
    (hc : code = .badHeader ∨ code = .badSubframe ∨ code = .nonzeroPadding) :
    Counted s (t.withBadFrame code sub x y) [.event ⟨code, sub, t.pos >>> 3, x, y⟩] := by
  obtain ⟨h1, h2, h3⟩ := h
  simp only [List.filter_nil, List.length_nil, List.map_nil, List.sum_nil, BitVec.add_zero,
    List.append_nil] at h1 h2 h3
  refine ⟨?_, ?_, ?_⟩
  · simp [h1]
  · rw [withBadFrame_badFrames, h2]
    rcases hc with rfl | rfl | rfl <;> simp [Record.isBadFrame]
  · rw [withBadFrame_samplesDecoded, h3]
    simp [Record.sampleCount]

theorem findSyncStep_keeps (s : State) : (findSyncStep s).keeps [.ok, .endOfStream] s := by
  rcases findSyncStep_cases s with ⟨h, e⟩ | ⟨-, t, l, -, e⟩ | ⟨a, t, ⟨u, y, l, rfl, -, hp⟩, -, e⟩ <;> rw [e]
  · exact h
  · have o := l.outside
    exact ⟨⟨o.1, o.2, o.3, o.4, o.5, o.6, o.7, o.8, o.9, o.10, o.11, o.12, o.13⟩, l.2.1, l.counted,
      .inr ⟨rfl, rfl⟩, by simp, by simp, by simp⟩
  · have o := l.outside
    refine ⟨⟨o.1, o.2, o.3, o.4, o.5, o.6, o.7, o.8, o.9, o.10, o.11, o.12, o.13⟩, l.2.1, ?_, .inl ?_,
      by simp [Status.okay], by simp [Status.okay], by simp [Status.okay]⟩
    · exact l.counted
    · have := l.1
      rw [this]; rfl

theorem headerStep_keeps (s : State) : (headerStep s).keeps [.ok, .endOfStream, .badHeader] s := by
  rcases headerStep_cases s with ⟨h, e⟩ | ⟨-, t, m, e⟩ | ⟨t, sub, x, y, m, e⟩ | ⟨t, h, m, -, e⟩ <;> rw [e]
  · exact h
  all_goals have o := m.1.outside
  · exact ⟨⟨o.1, o.2, o.3, o.4, o.5, o.6, o.7, o.8, o.9, o.10, o.11, o.12, o.13⟩, m.1.2, ⟨_, m.1.counted⟩,
      .inr ⟨rfl, rfl⟩, by simp, by simp, by simp⟩
  · exact ⟨⟨o.1, o.2, o.3, o.4, o.5, o.6, o.7, o.8, o.9, o.10, o.11, o.12, o.13⟩, m.1.2,
      ⟨_, Counted.badFrame _ _ _ _ m.1.counted (.inl rfl)⟩, .inl m.1.eof, by simp, by simp, by simp⟩
  · refine ⟨⟨o.1, o.2, o.3, o.4, o.5, o.6, o.7, o.8, o.9, o.10, o.11, o.12, o.13⟩, m.1.2,
      ⟨[.header (headerRecord h t.frameStart)], ?_, ?_, ?_⟩, .inl m.1.eof, by simp [Status.okay],
      by simp [Status.okay], by simp [Status.okay]⟩
    · have := m.1.outq
      simp [State.commitHeader, this]
    · have := m.1.badFrames
      simp [State.commitHeader, this, Record.isBadFrame]
    · have := m.1.samplesDecoded
      simp [State.commitHeader, this, Record.sampleCount]

/-- What an end with OK of a subframe or of a part of one keeps. -/
def DoneKeeps (done : State → State → Prop) : Prop :=
  ∀ s t : State, done s t → StepKeeps [.ok, .endOfStream, .badSubframe] s .okay 0 t

theorem DoneKeeps.subframe (c : ChannelIx) : DoneKeeps (SubframeDone c) := by
  rintro s t ⟨u, xs, info, m, -, rfl⟩
  have o := m.outside
  exact ⟨⟨o.1, o.2, o.3, o.4, o.5, o.6, o.7, o.8, o.9, o.10, o.11, o.12, o.13⟩, m.2, ⟨_, m.counted⟩,
    .inl m.eof, by simp [Status.okay], by simp [Status.okay], by simp [Status.okay]⟩

theorem DoneKeeps.moves : DoneKeeps Moves := fun _ _ m =>
  ⟨m.outside, m.2, ⟨_, m.counted⟩, .inl m.eof, by simp [Status.okay], by simp [Status.okay],
    by simp [Status.okay]⟩

theorem runSubframe_keeps {c : ChannelIx} {done : State → State → Prop} {act : Rd Unit}
    (h : PartSound done act) (hd : DoneKeeps done) (s : State) :
    (runSubframe c act s).keeps [.ok, .endOfStream, .badSubframe] s := by
  rcases runSubframe_cases h s with ⟨h, e⟩ | ⟨-, t, m, e⟩ | ⟨t, sub, x, y, m, e⟩ | ⟨t, k, e⟩ <;> rw [e]
  · exact h
  · have o := m.outside
    exact ⟨⟨o.1, o.2, o.3, o.4, o.5, o.6, o.7, o.8, o.9, o.10, o.11, o.12, o.13⟩, m.2, ⟨_, m.counted⟩,
      .inr ⟨rfl, rfl⟩, by simp, by simp, by simp⟩
  · have o := m.outside
    exact ⟨⟨o.1, o.2, o.3, o.4, o.5, o.6, o.7, o.8, o.9, o.10, o.11, o.12, o.13⟩, m.2,
      ⟨_, Counted.badFrame (t := t.dropSubframe c) _ _ _ _ m.counted (.inr (.inl rfl))⟩, .inl m.eof, by simp, by simp, by simp⟩
  · exact hd s t k

theorem decorrelate_fields (a : Assign) (s : State) : s.decorrelate a = { s with chbuf := (s.decorrelate a).chbuf } := by
  cases a <;> rfl

theorem decorrelateStep_keeps (s : State) : (decorrelateStep s).keeps [.ok] s := by
  have e := decorrelate_fields s.hdr.assign s
  unfold decorrelateStep State.decorrelated
  rw [e]
  exact ⟨⟨rfl, rfl, rfl, rfl, rfl, rfl, rfl, rfl, rfl, rfl, rfl, rfl, rfl⟩, fun h => ⟨le_refl _, h.2.2⟩,
    ⟨[], Counted.none rfl rfl rfl⟩, .inl rfl, by simp [Status.okay], by simp [Status.okay],
    by simp [Status.okay]⟩

theorem footerStep_keeps (s : State) :
    (footerStep s).keeps [.ok, .endOfStream, .nonzeroPadding, .crcMismatch] s := by
  rcases footerStep_cases s with ⟨h, e⟩ | ⟨-, t, m, e⟩ | ⟨t, sub, x, y, m, e⟩ | ⟨t, x, m, e⟩ |
    ⟨t, x, y, m, -, e⟩ <;> rw [e]
  · exact h
  all_goals have o := m.1.outside
  · exact ⟨⟨o.1, o.2, o.3, o.4, o.5, o.6, o.7, o.8, o.9, o.10, o.11, o.12, o.13⟩, m.1.2, ⟨_, m.1.counted⟩,
      .inr ⟨rfl, rfl⟩, by simp, by simp, by simp⟩
  · exact ⟨⟨o.1, o.2, o.3, o.4, o.5, o.6, o.7, o.8, o.9, o.10, o.11, o.12, o.13⟩, m.1.2,
      ⟨_, Counted.badFrame _ _ _ _ m.1.counted (.inr (.inr rfl))⟩, .inl m.1.eof, by simp, by simp, by simp⟩
  · refine ⟨⟨o.1, o.2, o.3, o.4, o.5, o.6, o.7, o.8, o.9, o.10, o.11, o.12, o.13⟩, m.1.2,
      ⟨[.frame ((t.setFooter x x).frameRecord true)], ?_, ?_, ?_⟩, .inl m.1.eof, by simp [Status.okay],
      by simp [Status.okay], by simp [Status.okay]⟩
    · have := m.1.outq
      simp [State.deliver, this]
    · have := m.1.badFrames
      simp [State.deliver, this, Record.isBadFrame]
    · have e1 := m.1.samplesDecoded
      have e2 := m.1.hdr
      simp [State.deliver, e1, Record.sampleCount, State.frameRecord]
  · have o' : SameOutside s (((t.setFooter x y).crcMismatch x y).deliver false) := by
      constructor <;> simp [State.deliver, State.crcMismatch, o.1, o.2, o.3, o.4, o.5, o.6, o.7, o.8, o.9, o.10,
        o.11, o.12, o.13]
    have hp : (((t.setFooter x y).crcMismatch x y).deliver false).pos = t.pos := by
      simp [State.deliver, State.crcMismatch]
    have he : (((t.setFooter x y).crcMismatch x y).deliver false).eof = t.eof := by
      simp [State.deliver, State.crcMismatch]
    refine ⟨o', by rw [hp]; exact m.1.2,
      ⟨[.event ⟨.crcMismatch, 0, t.pos >>> 3, x, y⟩,
        .frame (((t.setFooter x y).crcMismatch x y).frameRecord false)], ?_, ?_, ?_⟩, .inl (he.trans m.1.eof), by simp,
      by simp, by simp⟩
    · have := m.1.outq
      simp [State.deliver, State.crcMismatch, this, State.bytePos]
    · have := m.1.badFrames
      simp [State.deliver, State.crcMismatch, this, Record.isBadFrame]
    · have e1 := m.1.samplesDecoded
      simp [State.deliver, State.crcMismatch, e1, Record.sampleCount, State.frameRecord]

/-! ## The footer, on given bits -/

theorem replicate_false (n : Nat) : List.replicate n false = bitsOf n 0 := by
  induction n with
  | zero => rfl
  | succ n ih => rw [List.replicate_succ, bitsOf, ih]; simp

/-- `Align()` over given padding bits: their value and their number (R134). -/
theorem align_reads {s : State} {pad v : Nat} (hp : pad = (8 - s.pos.toNat % 8) % 8) (hv : v < 2 ^ pad)
    (ha : s.ahead (bitsOf pad v)) : align s = .ok (v, pad) (s.consume pad) := by
  have h := reads_readBits pad v s ha
  have e : bitsToBoundary s.pos.toNat = pad := hp.symm
  rw [length_bitsOf] at h
  simp only [align, Rd.bind_run, Rd.get_run]
  rw [e, h]
  simp only [Rd.pure_run, BitVec.toNat_ofNat, Nat.mod_eq_of_lt hv]

/-- The footer after zero padding: the computed and the stored CRC (R341, R342). -/
theorem readFooter_reads {s : State} {pad : Nat} {actual : Word16} (hp : pad = (8 - s.pos.toNat % 8) % 8)
    (ha : s.ahead (List.replicate pad false ++ bitsOf 16 actual.toNat)) :
    readFooter s = .ok ((s.consume pad).crc16, actual) (s.consume (pad + 16)) := by
  obtain ⟨h1, h2⟩ := State.ahead_append.1 ha
  rw [replicate_false] at h1
  have e1 := align_reads hp (Nat.two_pow_pos pad) h1
  rw [List.length_replicate] at h2
  have e2 := reads_readBits 16 actual.toNat _ h2
  have e3 := consume_add h1.1 h1.le (n := 16)
  rw [length_bitsOf] at e3 e2
  simp only [readFooter, Rd.bind_run, e1, bne_self_eq_false, Rd.reject_false, Rd.get_run, e2, Rd.pure_run, e3]
  simp

end Sys2Proof.Machine
end

