-- ==== Sys2Proof/Laws/Exec.lean ====
section
/-! SUPPORT. Laws of the instructions: for every instruction, everything it keeps (`ExecKeeps`) and how it
may end (`Ends`), from which the whole-machine statements follow. -/

namespace Sys2Proof.Machine

/-- What no instruction but `SOFT_RESET` and `CSR_WRITE` writes, and what every one of them only adds to. -/
structure ExecKeeps (s t : State) : Prop where
  params : t.params = s.params
  src : t.src = s.src
  srcEnded : t.srcEnded = s.srcEnded
  dataIn : t.dataIn = s.dataIn
  stop : t.stop = s.stop
  host : t.host = s.host
  sp : t.sp = s.sp
  spValid : t.spValid = s.spValid
  eof : s.eof = true → t.eof = true
  fatal : s.fatal = true → t.fatal = true
  cursor : s.sourceOk → s.pos.toNat ≤ t.pos.toNat ∧ t.pos.toNat ≤ 8 * s.src.length
  records : ∃ added, Counted s t added

/-- How a command may answer: it holds, changing nothing, while the source has not ended; it is illegal; or
it ends with one of `codes`, none of them illegal, after it reached the state `u`. -/
inductive Ends (codes : List StatusCode) (s : State) : State → Prop
  | hold (h : s.srcEnded = false) : Ends codes s s
  | illegal (sub : Byte) : Ends codes s (s.errorWith .illegalCmd sub)
  | done (st : Status) (res : Word64) (u : State) (code : st.code ∈ codes) (legal : st.code ≠ .illegalCmd)
      (lastErr : u.lastErr = s.lastErr) (result : st.code ≠ .ok → res = 0) :
      Ends codes s (u.endCommand st res)

theorem ExecKeeps.refl (s : State) : ExecKeeps s s :=
  ⟨rfl, rfl, rfl, rfl, rfl, rfl, rfl, rfl, id, id, fun h => ⟨le_refl _, h.2.2⟩, ⟨[], Counted.none rfl rfl rfl⟩⟩

theorem ExecKeeps.endCommand {s t : State} (st : Status) (res : Word64) (h : ExecKeeps s t) :
    ExecKeeps s (t.endCommand st res) :=
  ⟨h.1, h.2, h.3, h.4, h.5, h.6, h.7, h.8, h.9, h.10, h.11, h.12⟩

theorem ExecKeeps.errorWith {s t : State} (code : StatusCode) (sub : Byte) (h : ExecKeeps s t) :
    ExecKeeps s (t.errorWith code sub) :=
  ⟨h.1, h.2, h.3, h.4, h.5, h.6, h.7, h.8, h.9, h.10, h.11, h.12⟩

theorem StepKeeps.exec {codes : List StatusCode} {s t : State} {st : Status} {res : Word64}
    (h : StepKeeps codes s st res t) : ExecKeeps s t := by
  have o := h.outside
  refine ⟨o.1, o.2, o.3, o.9, o.12, o.13, o.6, o.7, fun he => ?_, fun hf => o.4.trans hf, h.cursor, h.records⟩
  rcases h.eof with e | ⟨e, -⟩
  · exact e.trans he
  · exact e

theorem Moves.exec {s t : State} (h : Moves s t) : ExecKeeps s t :=
  ⟨h.params, h.src, h.srcEnded, h.dataIn, h.stop, h.host, h.sp, h.spValid, fun e => h.eof.trans e,
    fun e => h.fatal.trans e, h.2, ⟨[], h.counted⟩⟩

/-! ## One command -/

theorem finish_cases {codes : List StatusCode} {s t : State} {e : Ended} (h : e.keeps codes s)
    (hx : e.finish s = .next t) :
    (t = s ∧ s.srcEnded = false ∧ e = .hold) ∨
    (∃ st res u, e = .done st res u ∧ StepKeeps codes s st res u ∧ t = u.endCommand st res) := by
  cases e with
  | hold => cases hx; exact .inl ⟨rfl, h, rfl⟩
  | done st res u => cases hx; exact .inr ⟨st, res, u, rfl, h, rfl⟩

theorem finish_keeps {codes : List StatusCode} {s t : State} {e : Ended} (h : e.keeps codes s)
    (hx : e.finish s = .next t) : ExecKeeps s t := by
  rcases finish_cases h hx with ⟨rfl, -, -⟩ | ⟨st, res, u, -, k, rfl⟩
  · exact ExecKeeps.refl _
  · exact k.exec.endCommand st res

theorem finish_ends {codes : List StatusCode} {s t : State} {e : Ended} (h : e.keeps codes s)
    (hc : StatusCode.illegalCmd ∉ codes) (hx : e.finish s = .next t) : Ends codes s t := by
  rcases finish_cases h hx with ⟨rfl, h, -⟩ | ⟨st, res, u, -, k, rfl⟩
  · exact .hold h
  · exact .done st res u k.code (fun h => hc (h ▸ k.code)) k.outside.lastErr k.result

theorem Ends.weaken {codes more : List StatusCode} {s t : State} (h : Ends codes s t) (hm : ∀ c ∈ codes, c ∈ more) :
    Ends more s t := by
  cases h with
  | hold h => exact .hold h
  | illegal sub => exact .illegal sub
  | done st res u c l e r => exact .done st res u (hm _ c) l e r

theorem admitPlain_keeps {arg : Bool} {s t : State} {run : Out} (hx : admitPlain arg s run = .next t)
    (h : run = .next t → ExecKeeps s t) : ExecKeeps s t := by
  rcases admitPlain_cases hx with ⟨-, rfl⟩ | ⟨-, hr⟩
  · exact (ExecKeeps.refl s).errorWith _ _
  · exact h hr

theorem admitPlain_ends {codes : List StatusCode} {arg : Bool} {s t : State} {run : Out}
    (hx : admitPlain arg s run = .next t) (h : run = .next t → Ends codes s t) : Ends codes s t := by
  rcases admitPlain_cases hx with ⟨-, rfl⟩ | ⟨-, hr⟩
  · exact .illegal 2
  · exact h hr

theorem structural_keeps (s : State) : ExecKeeps s (State.errorWith .structural 1 { s with fatal := true }) :=
  ⟨rfl, rfl, rfl, rfl, rfl, rfl, rfl, rfl, id, fun _ => rfl, fun h => ⟨le_refl _, h.2.2⟩,
    ⟨[], Counted.none rfl rfl rfl⟩⟩

theorem structural_ends {codes : List StatusCode} (s : State) (h : StatusCode.structural ∈ codes) :
    Ends codes s (State.errorWith .structural 1 { s with fatal := true }) := by
  rw [← endCommand_error _ _ _ (by decide)]
  exact .done ⟨.structural, 1⟩ 0 _ h (fun h => by cases h) rfl (fun _ => rfl)

theorem admitFrame_keeps {arg seq : Bool} {s t : State} {run : Out} (hx : admitFrame arg seq s run = .next t)
    (h : run = .next t → ExecKeeps s t) : ExecKeeps s t := by
  rcases admitFrame_cases hx with ⟨-, rfl⟩ | ⟨-, rfl⟩ | ⟨-, rfl⟩ | ⟨-, -, -, hr⟩
  · exact (ExecKeeps.refl s).errorWith _ _
  · exact structural_keeps s
  · exact (ExecKeeps.refl s).errorWith _ _
  · exact h hr

theorem admitFrame_ends {codes : List StatusCode} {arg seq : Bool} {s t : State} {run : Out}
    (hx : admitFrame arg seq s run = .next t) (hc : StatusCode.structural ∈ codes)
    (h : run = .next t → Ends codes s t) : Ends codes s t := by
  rcases admitFrame_cases hx with ⟨-, rfl⟩ | ⟨-, rfl⟩ | ⟨-, rfl⟩ | ⟨-, -, -, hr⟩
  · exact .illegal 2
  · exact structural_ends s hc
  · exact .illegal 3
  · exact h hr

/-! ## The reader -/

/-- Everything a bit-reader command can do once it is admitted (R143 to R153). -/
theorem runReader_cases {code : StatusCode} {act : Rd Word64} (h : Sound code act) (hp : Plain act)
    (hn : ∀ s c sub x y t, act s ≠ .error (.badFrame c sub x y) t) {s t : State}
    (hx : runReader act s = .next t) :
    (t = s ∧ s.srcEnded = false) ∨
    (t = State.errorWith .endOfStream 0 { s with eof := true } ∧ s.srcEnded = true) ∨
    (∃ (v : Word64) (u : State), Reading s u ∧ t = u.okWith v) := by
  have h1 := h s
  have h2 := hp s
  unfold runReader at hx
  cases e : act s with
  | ok v u => rw [e] at h1 h2 hx; cases hx; exact .inr (.inr ⟨v, u, ⟨h1, h2⟩, rfl⟩)
  | error r u =>
    rw [e] at h1 hx
    cases r with
    | hold => cases hx; exact .inl ⟨rfl, h1.2.1 rfl⟩
    | endOfStream =>
      simp only at hx
      rw [endCommand_error _ _ _ (by decide)] at hx
      cases hx; exact .inr (.inl ⟨rfl, h1.2.2.1 rfl⟩)
    | badFrame c sub x y => exact absurd e (hn s c sub x y u)

/-- A read raises no BadFrame. -/
def NoBadFrame {α : Type} (act : Rd α) : Prop :=
  ∀ s c sub x y t, act s ≠ .error (.badFrame c sub x y) t

namespace NoBadFrame

variable {α β : Type}

theorem of_sound {act : Rd α} (h1 : Sound .badHeader act) (h2 : Sound .badSubframe act) : NoBadFrame act := by
  intro s c sub x y t e
  have a := h1 s
  have b := h2 s
  rw [e] at a b
  have a := a.2.2.2 c sub x y rfl
  have b := b.2.2.2 c sub x y rfl
  rw [a] at b
  cases b

end NoBadFrame

theorem Plain.readUint (n : Nat) : Plain (readUint n) := bind (readBits n) fun _ => pure _
theorem Plain.peekUint (n : Nat) : Plain (peekUint n) := bind (peekBits n) fun _ => pure _
theorem Plain.readSigned (n : Nat) : Plain (readSigned n) := bind (readBits n) fun _ => pure _
theorem Plain.readUnary : Plain readUnary := by
  refine bind get fun s => ?_
  split
  · exact bind (consume _) fun _ => pure _
  · exact unavailable
theorem Plain.readUnaryWord : Plain readUnaryWord := bind readUnary fun _ => pure _
theorem Plain.alignWord : Plain alignWord := bind align fun _ => pure _

theorem Sound.readUint {code : StatusCode} (n : Nat) : Sound code (readUint n) :=
  bind (readBits n) fun _ => pure _
theorem Sound.peekUint {code : StatusCode} (n : Nat) : Sound code (peekUint n) :=
  bind (peekBits n) fun _ => pure _
theorem Sound.readUnaryWord {code : StatusCode} : Sound code readUnaryWord :=
  bind readUnary fun _ => pure _
theorem Sound.alignWord {code : StatusCode} : Sound code alignWord := bind align fun _ => pure _

/-- The reads of the bit-reader commands. -/
def ReaderAct (act : Rd Word64) : Prop :=
  (∃ n, act = readUint n) ∨ (∃ n, act = readSigned n) ∨ (∃ n, act = peekUint n) ∨ act = readUnaryWord ∨
    act = alignWord

theorem ReaderAct.cases {act : Rd Word64} (h : ReaderAct act) {s t : State} (hx : runReader act s = .next t) :
    (t = s ∧ s.srcEnded = false) ∨
    (t = State.errorWith .endOfStream 0 { s with eof := true } ∧ s.srcEnded = true) ∨
    (∃ (v : Word64) (u : State), Reading s u ∧ t = u.okWith v) := by
  rcases h with ⟨n, rfl⟩ | ⟨n, rfl⟩ | ⟨n, rfl⟩ | rfl | rfl
  · exact runReader_cases (Sound.readUint (code := .ok) n) (Plain.readUint n)
      (NoBadFrame.of_sound (Sound.readUint n) (Sound.readUint n)) hx
  · exact runReader_cases (Sound.readSigned (code := .ok) n) (Plain.readSigned n)
      (NoBadFrame.of_sound (Sound.readSigned n) (Sound.readSigned n)) hx
  · exact runReader_cases (Sound.peekUint (code := .ok) n) (Plain.peekUint n)
      (NoBadFrame.of_sound (Sound.peekUint n) (Sound.peekUint n)) hx
  · exact runReader_cases (Sound.readUnaryWord (code := .ok)) Plain.readUnaryWord
      (NoBadFrame.of_sound Sound.readUnaryWord Sound.readUnaryWord) hx
  · exact runReader_cases (Sound.alignWord (code := .ok)) Plain.alignWord
      (NoBadFrame.of_sound Sound.alignWord Sound.alignWord) hx

theorem ReaderAct.keeps {act : Rd Word64} (h : ReaderAct act) {s t : State}
    (hx : runReader act s = .next t) : ExecKeeps s t := by
  rcases h.cases hx with ⟨rfl, -⟩ | ⟨rfl, -⟩ | ⟨v, u, m, rfl⟩
  · exact ExecKeeps.refl _
  · exact ⟨rfl, rfl, rfl, rfl, rfl, rfl, rfl, rfl, fun _ => rfl, id, fun h => ⟨le_refl _, h.2.2⟩,
      ⟨[], Counted.none rfl rfl rfl⟩⟩
  · exact m.1.exec.endCommand Status.okay v

theorem ReaderAct.ends {act : Rd Word64} (h : ReaderAct act) {s t : State}
    (hx : runReader act s = .next t) : Ends [.ok, .endOfStream, .illegalCmd] s t := by
  rcases h.cases hx with ⟨rfl, h⟩ | ⟨rfl, -⟩ | ⟨v, u, m, rfl⟩
  · exact .hold h
  · rw [← endCommand_error _ _ _ (by decide)]
    exact .done _ _ _ (by simp) (by simp) rfl (by simp)
  · exact .done Status.okay v u (by simp [Status.okay]) (by simp [Status.okay]) m.1.lastErr
      (by simp [Status.okay])

/-! ## The composite commands -/

/-- What one step of the recovery loop may answer (R351). -/
def Progress.keeps (s : State) : Progress → Prop
  | .hold => s.srcEnded = false
  | .again t => ∃ codes st res, StepKeeps codes s st res t
  | .ended st res t => StepKeeps [.ok, .endOfStream, .crcMismatch] s st res t

theorem StepKeeps.weaken {codes more : List StatusCode} {s t : State} {st : Status} {res : Word64}
    (h : StepKeeps codes s st res t) (hm : st.code ∈ more) : StepKeeps more s st res t :=
  ⟨h.outside, h.cursor, h.records, h.eof, hm, h.okay, h.result⟩

theorem goOn_keeps {codes : List StatusCode} {s : State} {e : Ended} {recovered : StatusCode}
    (h : e.keeps codes s) (hc : ∀ c ∈ codes, c = .ok ∨ c = recovered ∨ c = .endOfStream) :
    (e.goOn recovered).keeps s := by
  cases e with
  | hold => exact h
  | done st res t =>
    have h : StepKeeps codes s st res t := h
    unfold Ended.goOn
    simp only
    split
    · exact ⟨codes, st, res, h⟩
    · rename_i hn
      rw [not_or] at hn
      refine h.weaken ?_
      rcases hc _ h.code with h1 | h1 | h1
      · exact absurd h1 hn.1
      · exact absurd h1 hn.2
      · rw [h1]; simp

theorem last_keeps {s : State} {e : Ended}
    (h : e.keeps [.ok, .endOfStream, .nonzeroPadding, .crcMismatch] s) : e.last.keeps s := by
  cases e with
  | hold => exact h
  | done st res t =>
    have h : StepKeeps _ s st res t := h
    unfold Ended.last
    simp only
    split
    · exact ⟨_, st, res, h⟩
    · rename_i hn
      refine h.weaken ?_
      have := h.code
      simp only [List.mem_cons, List.not_mem_nil, or_false] at this ⊢
      rcases this with h1 | h1 | h1 | h1
      · exact .inl h1
      · exact .inr (.inl h1)
      · exact absurd h1 hn
      · exact .inr (.inr h1)

theorem subframeStep_keeps (c : ChannelIx) (s : State) :
    (subframeStep c s).keeps [.ok, .endOfStream, .badSubframe] s := 
      runSubframe_keeps (SubframeSound.decode c) (DoneKeeps.subframe c) s

/-- Everything one step of the recovery loop keeps. -/
theorem nextFrameStep_keeps (s : State) : (nextFrameStep s).keeps s := by
  unfold nextFrameStep
  cases s.phase with
  | searching => exact goOn_keeps (findSyncStep_keeps s) (by simp)
  | synced => exact goOn_keeps (headerStep_keeps s) (by simp)
  | headerDone =>
    simp only
    split
    · exact goOn_keeps (subframeStep_keeps _ s) (by simp)
    · exact goOn_keeps (decorrelateStep_keeps s) (by simp)
  | decorrelated => exact last_keeps (footerStep_keeps s)

theorem ExecKeeps.setSlot {s t : State} (x : Slot) (h : ExecKeeps s t) : ExecKeeps s { t with slot := x } :=
  ⟨h.1, h.2, h.3, h.4, h.5, h.6, h.7, h.8, h.9, h.10, h.11, h.12⟩

theorem readNextFrameStep_keeps {s t : State} (hx : readNextFrameStep s = .next t) : ExecKeeps s t := by
  have h := nextFrameStep_keeps s
  unfold readNextFrameStep at hx
  cases e : nextFrameStep s with
  | hold => rw [e] at hx; cases hx; exact ExecKeeps.refl s
  | again u => rw [e] at hx h; cases hx; obtain ⟨_, _, _, k⟩ := h; exact k.exec.setSlot _
  | ended st res u =>
    rw [e] at hx h; cases hx
    have h : StepKeeps _ s st res u := h
    exact h.exec.endCommand st res

theorem decodeStep_keeps {n : Nat} {s t : State} (hx : decodeStep n s = .next t) : ExecKeeps s t := by
  have h := nextFrameStep_keeps s
  unfold decodeStep at hx
  cases e : nextFrameStep s with
  | hold => rw [e] at hx; cases hx; exact ExecKeeps.refl s
  | again u => rw [e] at hx h; cases hx; obtain ⟨_, _, _, k⟩ := h; exact k.exec.setSlot _
  | ended st res u =>
    rw [e] at hx h
    have h : StepKeeps _ s st res u := h
    simp only at hx
    split at hx
    · cases hx; exact h.exec.endCommand _ _
    · split at hx
      · cases hx; exact h.exec.endCommand _ _
      · cases hx; exact h.exec.setSlot _

theorem readNextFrameStep_ends {s t : State} (hx : readNextFrameStep s = .next t) :
    t.slot = .readingNext ∨ Ends [.ok, .endOfStream, .crcMismatch] s t := by
  have h := nextFrameStep_keeps s
  unfold readNextFrameStep at hx
  cases e : nextFrameStep s with
  | hold => rw [e] at hx h; cases hx; exact .inr (.hold h)
  | again u => rw [e] at hx; cases hx; exact .inl rfl
  | ended st res u =>
    rw [e] at hx h; cases hx
    have h : StepKeeps _ s st res u := h
    refine .inr (.done st res u h.code ?_ h.outside.lastErr h.result)
    intro hc
    have := h.code
    rw [hc] at this
    simp at this

/-- How a step of `DECODE` may answer: its result counts frames, whatever the status. -/
theorem decodeStep_ends {n : Nat} {s t : State} (hx : decodeStep n s = .next t) :
    (t = s ∧ s.srcEnded = false) ∨ (∃ m, t.slot = .decoding m) ∨
    (∃ u st res, (st.code = .endOfStream ∨ st.code = .stopped) ∧ t = State.endCommand st res u) := by
  have h := nextFrameStep_keeps s
  unfold decodeStep at hx
  cases e : nextFrameStep s with
  | hold => rw [e] at hx h; cases hx; exact .inl ⟨rfl, h⟩
  | again u => rw [e] at hx; cases hx; exact .inr (.inl ⟨n, rfl⟩)
  | ended st res u =>
    rw [e] at hx h
    simp only at hx
    split at hx
    · rename_i hc
      cases hx
      exact .inr (.inr ⟨u, _, _, .inl hc, rfl⟩)
    · split at hx
      · cases hx; exact .inr (.inr ⟨u, _, _, .inr rfl, rfl⟩)
      · cases hx; exact .inr (.inl ⟨n + 1, rfl⟩)

/-! ## Every instruction -/

theorem execReadNextFrame_cases {a : Byte} {s t : State} (hx : execReadNextFrame a s = .next t) :
    readNextFrameStep s = .next t ∨
    admitFrame (legalN a) (s.phase == .searching) s (readNextFrameStep s) = .next t := by
  unfold execReadNextFrame at hx
  split at hx
  · exact .inl hx
  · exact .inr hx
  · exact .inr hx
  · exact .inr hx

theorem execDecode_cases {a : Byte} {s t : State} (hx : execDecode a s = .next t) :
    (∃ n, s.slot = .decoding n ∧ decodeStep n s = .next t) ∨
    admitFrame (legalN a) (s.phase == .searching) s (decodeStep 0 s) = .next t := by
  unfold execDecode at hx
  split at hx
  · rename_i n hs; exact .inl ⟨n, hs, hx⟩
  · exact .inr hx
  · exact .inr hx
  · exact .inr hx

theorem chbuf_keeps {s t : State} (h : t = { s with chbuf := t.chbuf }) : ExecKeeps s t := by
  rw [h]
  exact ⟨rfl, rfl, rfl, rfl, rfl, rfl, rfl, rfl, id, id, fun h => ⟨le_refl _, h.2.2⟩,
    ⟨[], Counted.none rfl rfl rfl⟩⟩

theorem decorrelate_keeps (a : Assign) (s : State) : ExecKeeps s (s.decorrelate a) :=
  chbuf_keeps (decorrelate_fields a s)

/-- A subframe of channel `SF_DONE` after its header byte (log 2). -/
theorem runCode_keeps (code : SubframeCode) (s : State) :
    (runSubframe s.nextChannel (subframeCode s.nextChannel code) s).keeps [.ok, .endOfStream, .badSubframe] s :=
  runSubframe_keeps (SubframeSound.code _ _) (DoneKeeps.subframe _) s

/-- The residual of a subframe by itself (log 2). -/
theorem runResidual_keeps {act : Rd Unit} (h : Sound .badSubframe act) (s : State) :
    (runSubframe s.nextChannel act s).keeps [.ok, .endOfStream, .badSubframe] s :=
  runSubframe_keeps (PartSound.of_sound h) DoneKeeps.moves s

theorem runFrameStep_throw_keeps (sub : Byte) (s : State) :
    (runFrameStep (throw (badHeader sub)) s).keeps [.badHeader] s :=
  ⟨⟨rfl, rfl, rfl, rfl, rfl, rfl, rfl, rfl, rfl, rfl, rfl, rfl, rfl⟩, (Moves.refl s).2,
    ⟨_, Counted.badFrame (t := s) .badHeader _ _ _ (Moves.refl s).counted
    (.inl rfl)⟩, .inl rfl, by simp, by simp, by simp⟩

/-- What every instruction but `SOFT_RESET` and `CSR_WRITE` keeps. -/
theorem exec_keeps (i : Instr) (s t : State) (hw : ∀ a, i ≠ .csrWrite a) (hr : i ≠ .softReset 0)
    (hx : exec i s = .next t) : ExecKeeps s t := by
  have ill : ∀ {sub}, illegal sub s = .next t → ExecKeeps s t := by
    intro sub h
    rw [illegal_eq] at h
    cases h
    exact (ExecKeeps.refl s).errorWith _ _
  have okay : ∀ {v : Word64} {u : State}, ExecKeeps s u → (.next (u.endCommand .okay v) : Out) = .next t →
      ExecKeeps s t := by
    intro v u k h
    cases h
    exact k.endCommand _ _
  cases i with
  | nop a => exact admitPlain_keeps hx (okay (ExecKeeps.refl s))
  | softReset a =>
    have ha : legalN a = false := legalN_false fun h => hr (h ▸ rfl)
    have hx : admitPlain (legalN a) s _ = .next t := hx
    rw [admitPlain_illegal ha] at hx
    cases hx
    exact (ExecKeeps.refl s).errorWith _ _
  | csrRead a =>
    have hx : execCsrRead a s = .next t := hx
    unfold execCsrRead at hx
    split at hx
    · exact okay (ExecKeeps.refl s) hx
    · exact ill hx
  | csrWrite a => exact absurd rfl (hw a)
  | bufRead c =>
    refine admitPlain_keeps hx fun hx => ?_
    split at hx
    · exact ill hx
    · split at hx
      · exact ill hx
      · exact okay (ExecKeeps.refl s) hx
  | brReadUint n => exact admitPlain_keeps hx (ReaderAct.keeps (.inl ⟨_, rfl⟩))
  | brReadInt n => exact admitPlain_keeps hx (ReaderAct.keeps (.inr (.inl ⟨_, rfl⟩)))
  | brPeekUint n => exact admitPlain_keeps hx (ReaderAct.keeps (.inr (.inr (.inl ⟨_, rfl⟩))))
  | brReadUnary a => exact admitPlain_keeps hx (ReaderAct.keeps (.inr (.inr (.inr (.inl rfl)))))
  | brAlign a => exact admitPlain_keeps hx (ReaderAct.keeps (.inr (.inr (.inr (.inr rfl)))))
  | brIsAligned a => exact admitPlain_keeps hx (okay (ExecKeeps.refl s))
  | brCrc16Reset a =>
    refine admitPlain_keeps hx (okay ?_)
    exact ⟨rfl, rfl, rfl, rfl, rfl, rfl, rfl, rfl, id, id, fun h => ⟨le_refl _, h.2.2⟩,
      ⟨[], Counted.none rfl rfl rfl⟩⟩
  | brCrc16Read a => exact admitPlain_keeps hx (okay (ExecKeeps.refl s))
  | brCrc8Reset a =>
    refine admitPlain_keeps hx (okay ?_)
    exact ⟨rfl, rfl, rfl, rfl, rfl, rfl, rfl, rfl, id, id, fun h => ⟨le_refl _, h.2.2⟩,
      ⟨[], Counted.none rfl rfl rfl⟩⟩
  | brCrc8Read a => exact admitPlain_keeps hx (okay (ExecKeeps.refl s))
  | frFindSync a => exact admitFrame_keeps hx (finish_keeps (findSyncStep_keeps s))
  | frDecodeHeader a => exact admitFrame_keeps hx (finish_keeps (headerStep_keeps s))
  | frDecodeSubframe c => exact admitFrame_keeps hx (finish_keeps (subframeStep_keeps _ s))
  | frDecorrelate a => exact admitFrame_keeps hx (finish_keeps (decorrelateStep_keeps s))
  | frCheckFooter a => exact admitFrame_keeps hx (finish_keeps (footerStep_keeps s))
  | readNextFrame a =>
    rcases execReadNextFrame_cases hx with h | h
    · exact readNextFrameStep_keeps h
    · exact admitFrame_keeps h readNextFrameStep_keeps
  | decode a =>
    rcases execDecode_cases hx with ⟨n, -, h⟩ | h
    · exact decodeStep_keeps h
    · exact admitFrame_keeps h decodeStep_keeps
  | reservedOpcode op a => exact ill hx
  | subframeConstant w => exact finish_keeps (runCode_keeps _ s) hx
  | subframeVerbatim w => exact finish_keeps (runCode_keeps _ s) hx
  | subframeFixed0 w => exact finish_keeps (runCode_keeps _ s) hx
  | subframeFixed1 w => exact finish_keeps (runCode_keeps _ s) hx
  | subframeFixed2 w => exact finish_keeps (runCode_keeps _ s) hx
  | subframeFixed3 w => exact finish_keeps (runCode_keeps _ s) hx
  | subframeFixed4 w => exact finish_keeps (runCode_keeps _ s) hx
  | subframeLpc o w => exact finish_keeps (runCode_keeps _ s) hx
  | subframeReserved y w => exact finish_keeps (runCode_keeps (.reserved y w) s) hx
  | subframeBadPadding r => exact finish_keeps (runCode_keeps (.badPadding r) s) hx
  | frameSync r b =>
    refine okay (u := s.synced _ _) ?_ hx
    exact ⟨rfl, rfl, rfl, rfl, rfl, rfl, rfl, rfl, id, id, fun h => ⟨le_refl _, h.2.2⟩,
      ⟨[], Counted.none rfl rfl rfl⟩⟩
  | residualRice => exact finish_keeps (runResidual_keeps (Sound.codedResidual _ _ _) s) hx
  | residualRice2 => exact finish_keeps (runResidual_keeps (Sound.codedResidual _ _ _) s) hx
  | residualReserved l => exact finish_keeps (runResidual_keeps Sound.reservedResidual s) hx
  | chIndependent n => exact okay (decorrelate_keeps _ s) hx
  | chLeftSide => exact okay (decorrelate_keeps _ s) hx
  | chRightSide => exact okay (decorrelate_keeps _ s) hx
  | chMidSide => exact okay (decorrelate_keeps _ s) hx
  | chReserved c => exact finish_keeps (runFrameStep_throw_keeps 5 s) hx

/-- The codes an instruction may end with: R398 for the commands; for the code words of the bitstream, those
of the command they are part of (log 2); `BR_ALIGN` may raise END_OF_STREAM when the cursor stands outside
the input, where no run brings it. -/
def answerCodes (i : Instr) : List StatusCode :=
  match i with
  | .brAlign _ => [.ok, .endOfStream, .illegalCmd]
  | i => (commandCodes i).getD [.ok, .endOfStream, .badHeader, .badSubframe]

/-- How every instruction but a reset and the composite commands may end. -/
theorem exec_ends (i : Instr) (s t : State) (hr : i ≠ .softReset 0)
    (hn : ∀ a : Byte, i ≠ .readNextFrame a ∧ i ≠ .decode a) (hx : exec i s = .next t) :
    Ends (answerCodes i) s t := by
  have ill : ∀ {sub codes}, illegal sub s = .next t → Ends codes s t := by
    intro sub codes h
    rw [illegal_eq] at h
    cases h
    exact .illegal _
  have okay : ∀ {codes v} {u : State}, .ok ∈ codes →
      (.next (u.endCommand .okay v) : Out) = .next t → u.lastErr = s.lastErr → Ends codes s t := by
    intro codes v u hc h k
    cases h
    exact .done _ _ _ hc (by simp [Status.okay]) k (by simp [Status.okay])
  have sub : ∀ code, runCode code s = .next t →
      Ends [.ok, .endOfStream, .badHeader, .badSubframe] s t := by
    intro code hx
    exact (finish_ends (runCode_keeps code s) (by simp) hx).weaken (by simp)
  have res : ∀ {act}, Sound .badSubframe act → runResidual act s = .next t →
      Ends [.ok, .endOfStream, .badHeader, .badSubframe] s t := by
    intro act h hx
    exact (finish_ends (runResidual_keeps h s) (by simp) hx).weaken (by simp)
  cases i with
  | nop a => exact admitPlain_ends hx fun hx => okay (by simp [answerCodes, commandCodes]) hx rfl
  | softReset a =>
    have ha : legalN a = false := legalN_false fun h => hr (h ▸ rfl)
    have hx : admitPlain (legalN a) s _ = .next t := hx
    rw [admitPlain_illegal ha] at hx
    cases hx
    exact .illegal _
  | csrRead a =>
    have hx : execCsrRead a s = .next t := hx
    unfold execCsrRead at hx
    split at hx
    · exact okay (by simp [answerCodes, commandCodes]) hx rfl
    · exact ill hx
  | csrWrite a =>
    have hx : execCsrWrite a s = .next t := hx
    unfold execCsrWrite writeSpValid at hx
    split at hx
    · split at hx
      · exact ill hx
      · exact okay (by simp [answerCodes, commandCodes]) hx rfl
    · split at hx
      · split at hx
        · exact ill hx
        · split at hx
          · exact ill hx
          · split at hx
            · exact okay (by simp [answerCodes, commandCodes]) hx rfl
            · cases hx
              exact .done _ _ _ (by simp [answerCodes, commandCodes]) (by simp) rfl (by simp)
      · exact ill hx
  | bufRead c =>
    refine admitPlain_ends hx fun hx => ?_
    split at hx
    · exact ill hx
    · split at hx
      · exact ill hx
      · exact okay (by simp [answerCodes, commandCodes]) hx rfl
  | brReadUint n => exact admitPlain_ends hx (ReaderAct.ends (.inl ⟨_, rfl⟩))
  | brReadInt n => exact admitPlain_ends hx (ReaderAct.ends (.inr (.inl ⟨_, rfl⟩)))
  | brPeekUint n => exact admitPlain_ends hx (ReaderAct.ends (.inr (.inr (.inl ⟨_, rfl⟩))))
  | brReadUnary a => exact admitPlain_ends hx (ReaderAct.ends (.inr (.inr (.inr (.inl rfl)))))
  | brAlign a => exact admitPlain_ends hx (ReaderAct.ends (.inr (.inr (.inr (.inr rfl)))))
  | brIsAligned a => exact admitPlain_ends hx fun hx => okay (by simp [answerCodes, commandCodes]) hx rfl
  | brCrc16Reset a => exact admitPlain_ends hx fun hx => okay (by simp [answerCodes, commandCodes]) hx rfl
  | brCrc16Read a => exact admitPlain_ends hx fun hx => okay (by simp [answerCodes, commandCodes]) hx rfl
  | brCrc8Reset a => exact admitPlain_ends hx fun hx => okay (by simp [answerCodes, commandCodes]) hx rfl
  | brCrc8Read a => exact admitPlain_ends hx fun hx => okay (by simp [answerCodes, commandCodes]) hx rfl
  | frFindSync a =>
    exact admitFrame_ends hx (by simp [answerCodes, commandCodes]) fun hx =>
      (finish_ends (findSyncStep_keeps s) (by simp) hx).weaken (by simp [answerCodes, commandCodes])
  | frDecodeHeader a =>
    exact admitFrame_ends hx (by simp [answerCodes, commandCodes]) fun hx =>
      (finish_ends (headerStep_keeps s) (by simp) hx).weaken (by simp [answerCodes, commandCodes])
  | frDecodeSubframe c =>
    exact admitFrame_ends hx (by simp [answerCodes, commandCodes]) fun hx =>
      (finish_ends (subframeStep_keeps _ s) (by simp) hx).weaken (by simp [answerCodes, commandCodes])
  | frDecorrelate a =>
    exact admitFrame_ends hx (by simp [answerCodes, commandCodes]) fun hx =>
      (finish_ends (decorrelateStep_keeps s) (by simp) hx).weaken (by simp [answerCodes, commandCodes])
  | frCheckFooter a =>
    exact admitFrame_ends hx (by simp [answerCodes, commandCodes]) fun hx =>
      (finish_ends (footerStep_keeps s) (by simp) hx).weaken (by simp [answerCodes, commandCodes])
  | readNextFrame a => exact absurd rfl (hn a).1
  | decode a => exact absurd rfl (hn a).2
  | reservedOpcode op a => exact ill hx
  | subframeConstant w => exact sub (.constant w) hx
  | subframeVerbatim w => exact sub (.verbatim w) hx
  | subframeFixed0 w => exact sub (.fixed 0 w) hx
  | subframeFixed1 w => exact sub (.fixed 1 w) hx
  | subframeFixed2 w => exact sub (.fixed 2 w) hx
  | subframeFixed3 w => exact sub (.fixed 3 w) hx
  | subframeFixed4 w => exact sub (.fixed 4 w) hx
  | subframeLpc o w => exact sub (.lpc o w) hx
  | subframeReserved y w => exact sub (.reserved y w) hx
  | subframeBadPadding r => exact sub (.badPadding r) hx
  | frameSync r b =>
    exact okay (codes := answerCodes (.frameSync r b)) (by simp [answerCodes, commandCodes])
      hx rfl
  | residualRice => exact res (Sound.codedResidual _ _ _) hx
  | residualRice2 => exact res (Sound.codedResidual _ _ _) hx
  | residualReserved l => exact res Sound.reservedResidual hx
  | chIndependent n =>
    exact okay (codes := answerCodes (.chIndependent n)) (by simp [answerCodes, commandCodes])
      hx (by rw [decorrelate_fields])
  | chLeftSide =>
    exact okay (codes := answerCodes .chLeftSide) (by simp [answerCodes, commandCodes])
      hx (by rw [decorrelate_fields])
  | chRightSide =>
    exact okay (codes := answerCodes .chRightSide) (by simp [answerCodes, commandCodes])
      hx (by rw [decorrelate_fields])
  | chMidSide =>
    exact okay (codes := answerCodes .chMidSide) (by simp [answerCodes, commandCodes])
      hx (by rw [decorrelate_fields])
  | chReserved c =>
    exact (finish_ends (runFrameStep_throw_keeps 5 s) (by simp) hx).weaken (by simp [answerCodes, commandCodes])

/-- Everything `CSR_WRITE` can do (R371). -/
theorem csrWrite_cases {a : Byte} {s t : State} (hx : exec (.csrWrite a) s = .next t) :
    (∃ sub, t = s.errorWith .illegalCmd sub) ∨ t = s.errorWith .structural 2 ∨
    (s.spValid = false ∧ ∃ sp, t = State.okWith 0 { s with sp := sp }) ∨
    (s.spValid = false ∧ s.sp.acceptable s.params.bufDepth = true ∧
      t = State.okWith 0 { s with spValid := true }) := by
  have hx : execCsrWrite a s = .next t := hx
  have ill : ∀ {sub}, illegal sub s = .next t → ∃ sub, t = s.errorWith .illegalCmd sub := by
    intro sub h
    rw [illegal_eq] at h
    cases h
    exact ⟨sub, rfl⟩
  unfold execCsrWrite writeSpValid at hx
  split at hx
  · split at hx
    · exact .inl (ill hx)
    · rename_i hv; cases hx; exact .inr (.inr (.inl ⟨by simpa using hv, _, rfl⟩))
  · split at hx
    · split at hx
      · exact .inl (ill hx)
      · rename_i hv
        split at hx
        · exact .inl (ill hx)
        · split at hx
          · rename_i ha; cases hx; exact .inr (.inr (.inr ⟨by simpa using hv, ha, rfl⟩))
          · rw [endCommand_error _ _ _ (by decide)] at hx
            cases hx; exact .inr (.inl rfl)
    · exact .inl (ill hx)

/-! ## The loop's steps are primitive commands -/

/-- One step of the recovery loop is the primitive command the sequencer's state selects; it goes on or ends
by the status that command ends with (R351, R352). -/
theorem nextCommand_runs {s : State} (h1 : s.spValid = true) (h2 : s.fatal = false)
    (h3 : s.sfDone.toNat ≤ s.hdr.channels.toNat) (h4 : s.hdr.channels.toNat ≤ 8) :
    ∃ (e : Ended) (codes : List StatusCode), exec (nextCommand s) s = e.finish s ∧ e.keeps codes s ∧
      (e = .hold → nextFrameStep s = .hold) ∧
      ∀ st res t, e = .done st res t →
        (loopGoesOn s.phase st.code → nextFrameStep s = .again t) ∧
        (¬ loopGoesOn s.phase st.code → nextFrameStep s = .ended st res t) := by
  have en := framesEnabled_true h1 h2
  have go : ∀ {e : Ended} {codes : List StatusCode} {recovered : StatusCode} {p : Phase}, e.keeps codes s →
      (∀ c ∈ codes, loopGoesOn p c ↔ c = .ok ∨ c = recovered) →
      (e = .hold → e.goOn recovered = .hold) ∧
      ∀ st res t, e = .done st res t → (loopGoesOn p st.code → e.goOn recovered = .again t) ∧
        (¬ loopGoesOn p st.code → e.goOn recovered = .ended st res t) := by
    intro e codes recovered p k hc
    refine ⟨fun h => by rw [h]; rfl, fun st res t h => ?_⟩
    subst h
    have k : StepKeeps codes s st res t := k
    unfold Ended.goOn
    simp only [hc _ k.code]
    exact ⟨fun h => if_pos h, fun h => if_neg h⟩
  unfold nextCommand nextFrameStep
  cases hp : s.phase with
  | searching =>
    refine ⟨findSyncStep s, _, admitFrame_run legalN_zero en (by simp [hp]), findSyncStep_keeps s, ?_⟩
    exact go (findSyncStep_keeps s) (by simp [loopGoesOn])
  | synced =>
    refine ⟨headerStep s, _, admitFrame_run legalN_zero en (by simp [hp]), headerStep_keeps s, ?_⟩
    exact go (headerStep_keeps s) (by simp [loopGoesOn])
  | headerDone =>
    simp only
    by_cases hlt : s.sfDone.toNat < s.hdr.channels.toNat
    · simp only [if_pos hlt]
      have hw : (s.sfDone.setWidth 8).toNat = s.sfDone.toNat := by simp; omega
      have hc : channelOf (s.sfDone.setWidth 8) = s.nextChannel := by
        simp only [channelOf, State.nextChannel, hw]
      refine ⟨subframeStep s.nextChannel s, _, ?_, subframeStep_keeps _ s, ?_⟩
      · rw [← hc]
        exact admitFrame_run (legalC_true (by omega)) en (by simp only [hp, hw]; simp [hlt])
      · exact go (subframeStep_keeps _ s) (by simp [loopGoesOn])
    · simp only [if_neg hlt]
      have he : s.sfDone = s.hdr.channels := BitVec.eq_of_toNat_eq (by omega)
      refine ⟨decorrelateStep s, _, ?_, decorrelateStep_keeps s, ?_⟩
      · exact admitFrame_run legalN_zero en (by simp [hp, he])
      · exact go (decorrelateStep_keeps s) (by simp [loopGoesOn])
  | decorrelated =>
    have k := footerStep_keeps s
    refine ⟨footerStep s, _, admitFrame_run legalN_zero en (by simp [hp]), k, ?_, ?_⟩
    · intro h; simp only [h]; rfl
    · intro st res t h
      rw [h] at k ⊢
      have k : StepKeeps _ s st res t := k
      have hc : loopGoesOn .decorrelated st.code ↔ st.code = .nonzeroPadding := by
        have := k.code
        simp only [List.mem_cons, List.not_mem_nil, or_false] at this
        rcases this with h | h | h | h <;> simp [loopGoesOn, h]
      unfold Ended.last
      simp only [hc]
      exact ⟨fun h => if_pos h, fun h => if_neg h⟩

/-! ## The step -/

/-- Everything a step can do: run an instruction in the block's turn, from `s` or from `s` with the host's
yield taken; stay idle; or make a move of the host. -/
theorem step_cases {s t : State} (hx : step s = .next t) :
    ∃ r : State, (r = s ∧ s.host = [] ∨ ∃ m rest, s.host = m :: rest ∧ r = { s with host := rest }) ∧
      (((s.host = [] ∨ ∃ rest, s.host = .yield :: rest) ∧
          ((s.slot = .idle ∧ t = r) ∨
           (∃ c i, s.slot = .pending c ∧ decode c = .ok i ∧ exec i r = .next t) ∨
           (s.slot = .readingNext ∧ exec (.readNextFrame 0) r = .next t) ∨
           (∃ n, s.slot = .decoding n ∧ exec (.decode 0) r = .next t))) ∨
       (∃ cmd v rest, s.host = .issue cmd v :: rest ∧ s.slot = .idle ∧
          t = { r with slot := .pending (.command cmd), dataIn := v }) ∨
       (∃ b rest, s.host = .supply b :: rest ∧ s.srcEnded = false ∧ s.src.length + 1 < 2 ^ 61 ∧
          t = { r with src := s.src.append b }) ∨
       (∃ rest, s.host = .endInput :: rest ∧ t = { r with srcEnded := true }) ∨
       (∃ rest, s.host = .drain :: rest ∧ t = { r with outq := s.outq.tail }) ∨
       (∃ level rest, s.host = .setStop level :: rest ∧ t = { r with stop := level }) ∨
       (∃ rest, s.host = .powerReset :: rest ∧ t = r.toReset)) := by
  have turn : ∀ r : State, r.slot = s.slot → blockTurn r = .next t →
      (s.slot = .idle ∧ t = r) ∨ (∃ c i, s.slot = .pending c ∧ decode c = .ok i ∧ exec i r = .next t) ∨
      (s.slot = .readingNext ∧ exec (.readNextFrame 0) r = .next t) ∨
      (∃ n, s.slot = .decoding n ∧ exec (.decode 0) r = .next t) := by
    intro r hr h
    unfold blockTurn at h
    rw [hr] at h
    split at h
    · rename_i hs; cases h; exact .inl ⟨hs, rfl⟩
    · rename_i c hs
      split at h
      · rename_i i hd; exact .inr (.inl ⟨c, i, hs, hd, h⟩)
      · cases h
    · rename_i hs; exact .inr (.inr (.inl ⟨hs, h⟩))
    · rename_i n hs; exact .inr (.inr (.inr ⟨n, hs, h⟩))
  cases hh : s.host with
  | nil =>
    unfold step at hx
    rw [hh] at hx
    exact ⟨s, .inl ⟨rfl, rfl⟩, .inl ⟨.inl rfl, turn s rfl hx⟩⟩
  | cons m rest =>
    unfold step at hx
    rw [hh] at hx
    refine ⟨{ s with host := rest }, .inr ⟨m, rest, rfl, rfl⟩, ?_⟩
    cases m with
    | yield => exact .inl ⟨.inr ⟨rest, rfl⟩, turn { s with host := rest } rfl hx⟩
    | issue cmd v =>
      simp only [hostMove] at hx
      split at hx
      · rename_i hs; cases hx; exact .inr (.inl ⟨cmd, v, rest, rfl, hs, rfl⟩)
      · cases hx
    | supply b =>
      simp only [hostMove] at hx
      split at hx
      · cases hx
      · rename_i h1
        split at hx
        · cases hx
        · rename_i h2
          cases hx
          exact .inr (.inr (.inl ⟨b, rest, rfl, by simpa using h1, by omega, rfl⟩))
    | endInput => cases hx; exact .inr (.inr (.inr (.inl ⟨rest, rfl, rfl⟩)))
    | drain => cases hx; exact .inr (.inr (.inr (.inr (.inl ⟨rest, rfl, rfl⟩))))
    | setStop level => cases hx; exact .inr (.inr (.inr (.inr (.inr (.inl ⟨level, rest, rfl, rfl⟩)))))
    | powerReset => cases hx; exact .inr (.inr (.inr (.inr (.inr (.inr ⟨rest, rfl, rfl⟩)))))

end Sys2Proof.Machine
end

