-- ==== Sys2Proof/Laws/Invariant.lean ====
section
/-! SUPPORT. Laws of the invariant `State.Inv`: which steps of the frame decoder keep it. The part of it that
does not speak of the command slot is `Core`. -/

namespace Sys2Proof.Machine

/-- The invariant but for the command slot. -/
structure Core (s : State) : Prop where
  source : s.sourceOk
  params : s.params.legal = true
  accepted : s.spValid = true → s.sp.acceptable s.params.bufDepth = true
  enabled : s.phase ≠ .searching → s.framesEnabled = true
  waiting : s.phase = .searching ∨ s.phase = .synced → s.sfDone = 0
  framed : s.phase = .headerDone ∨ s.phase = .decorrelated →
    s.bufValid = false ∧ s.headerOk ∧ s.sfDone.toNat ≤ s.hdr.channels.toNat
  complete : s.phase = .decorrelated → s.sfDone = s.hdr.channels
  delivered : s.bufValid = true → s.spValid = true ∧ s.headerOk
  filled : ∀ c : ChannelIx, c.val < s.channelsFilled → s.hdr.blockSize.toNat ≤ s.chbuf[c].samples.length
  bounded : ∀ c : ChannelIx, s.chbuf[c].samples.length ≤ s.params.bufDepth
  residual : s.residual = Residual.empty

theorem inv_iff {s : State} : s.Inv ↔ Core s ∧ s.slotOk := by
  constructor
  · rintro ⟨a, b, c, d, e, f, g, h, i, j, k, l⟩
    exact ⟨⟨a, b, c, d, e, f, g, h, i, j, k⟩, l⟩
  · rintro ⟨⟨a, b, c, d, e, f, g, h, i, j, k⟩, l⟩
    exact ⟨a, b, c, d, e, f, g, h, i, j, k, l⟩

/-- The fields the invariant speaks of, but for the input, the phase and the slot. -/
structure SameCore (s t : State) : Prop where
  params : t.params = s.params
  sp : t.sp = s.sp
  spValid : t.spValid = s.spValid
  fatal : t.fatal = s.fatal
  hdr : t.hdr = s.hdr
  chbuf : t.chbuf = s.chbuf
  bufValid : t.bufValid = s.bufValid
  residual : t.residual = s.residual

theorem SameCore.headerOk {s t : State} (h : SameCore s t) : t.headerOk = s.headerOk := by
  simp only [State.headerOk, h.hdr, h.sp]

theorem SameCore.enabled {s t : State} (h : SameCore s t) : t.framesEnabled = s.framesEnabled := by
  simp only [State.framesEnabled, h.spValid, h.fatal]

/-- A state that differs from one with the invariant only in fields the invariant does not read. -/
theorem Core.same {s t : State} (k : Core s) (h : SameCore s t) (hs : t.sourceOk) (hp : t.phase = s.phase)
    (hd : t.sfDone = s.sfDone) : Core t := by
  have hf : t.channelsFilled = s.channelsFilled := by
    simp only [State.channelsFilled, hp, hd, h.bufValid, h.hdr]
  refine ⟨hs, ?_, ?_, ?_, ?_, ?_, ?_, ?_, ?_, ?_, ?_⟩
  · rw [h.params]; exact k.params
  · rw [h.spValid, h.sp, h.params]; exact k.accepted
  · rw [hp, h.enabled]; exact k.enabled
  · rw [hp, hd]; exact k.waiting
  · rw [hp, hd, h.bufValid, h.headerOk, h.hdr]; exact k.framed
  · rw [hp, hd, h.hdr]; exact k.complete
  · rw [h.bufValid, h.spValid, h.headerOk]; exact k.delivered
  · rw [hf, h.hdr, h.chbuf]; exact k.filled
  · rw [h.params, h.chbuf]; exact k.bounded
  · rw [h.residual]; exact k.residual

/-- A frame is given up, or the search goes on: the phase is `SEARCHING` and `SF_DONE` is 0. -/
theorem Core.searching {s t : State} (k : Core s) (h : SameCore s t) (hs : t.sourceOk)
    (hp : t.phase = .searching) (hd : t.sfDone = 0) : Core t := by
  refine ⟨hs, ?_, ?_, ?_, ?_, ?_, ?_, ?_, ?_, ?_, ?_⟩
  · rw [h.params]; exact k.params
  · rw [h.spValid, h.sp, h.params]; exact k.accepted
  · intro hn; exact absurd hp hn
  · intro _; exact hd
  · rw [hp]; simp
  · rw [hp]; simp
  · rw [h.bufValid, h.spValid, h.headerOk]; exact k.delivered
  · intro c hc
    simp only [State.channelsFilled, hp, h.bufValid, h.hdr] at hc
    rw [h.hdr, h.chbuf]
    have hb : s.bufValid = true := by
      by_contra hn
      simp [hn] at hc
    simp only [hb, if_true] at hc
    refine k.filled c ?_
    unfold State.channelsFilled
    cases hph : s.phase with
    | searching => simpa [hb] using hc
    | synced => simpa [hb] using hc
    | headerDone => have := (k.framed (.inl hph)).1; rw [hb] at this; cases this
    | decorrelated => have := (k.framed (.inr hph)).1; rw [hb] at this; cases this
  · rw [h.params, h.chbuf]; exact k.bounded
  · rw [h.residual]; exact k.residual

theorem Reading.same {s t : State} (h : Reading s t) : SameCore s t :=
  ⟨h.1.params, h.1.sp, h.1.spValid, h.1.fatal, h.1.hdr, h.1.chbuf, h.1.bufValid, h.2⟩

theorem Lost.same {s t : State} (h : Lost s t) (hr : t.residual = s.residual) : SameCore s t := by
  have e := h.1
  refine ⟨?_, ?_, ?_, ?_, ?_, ?_, ?_, hr⟩ <;> rw [e]

theorem Lost.phase {s t : State} (h : Lost s t) : t.phase = s.phase := by rw [h.1]

theorem Lost.sfDone {s t : State} (h : Lost s t) : t.sfDone = s.sfDone := by rw [h.1]

theorem SameCore.trans {s t u : State} (h1 : SameCore s t) (h2 : SameCore t u) : SameCore s u :=
  ⟨h2.1.trans h1.1, h2.2.trans h1.2, h2.3.trans h1.3, h2.4.trans h1.4, h2.5.trans h1.5, h2.6.trans h1.6,
    h2.7.trans h1.7, h2.8.trans h1.8⟩

theorem Core.endCommand {s : State} (k : Core s) (st : Status) (res : Word64) : Core (s.endCommand st res) :=
  k.same ⟨rfl, rfl, rfl, rfl, rfl, rfl, rfl, rfl⟩ k.source rfl rfl

theorem Core.errorWith {s : State} (k : Core s) (code : StatusCode) (sub : Byte) :
    Core (s.errorWith code sub) :=
  k.same ⟨rfl, rfl, rfl, rfl, rfl, rfl, rfl, rfl⟩ k.source rfl rfl

theorem Core.structural {s : State} (k : Core s) (h : s.framesEnabled = false) :
    Core (State.errorWith .structural 1 { s with fatal := true }) := by
  have hp : s.phase = .searching := by
    by_contra hn
    rw [k.enabled hn] at h
    cases h
  refine ⟨k.source, k.params, k.accepted, fun hn => absurd hp hn, k.waiting, k.framed, k.complete, k.delivered,
    k.filled, k.bounded, k.residual⟩

/-! ## The steps of the frame decoder -/

theorem Core.setEof {s : State} (k : Core s) : Core { s with eof := true } :=
  k.same ⟨rfl, rfl, rfl, rfl, rfl, rfl, rfl, rfl⟩ k.source rfl rfl

theorem Core.findSync {s t : State} {st : Status} {res : Word64} (k : Core s) (en : s.framesEnabled = true)
    (hp : s.phase = .searching) (h : findSyncStep s = .done st res t) : Core t := by
  have hd := k.waiting (.inl hp)
  rcases findSyncStep_cases s with ⟨-, e⟩ | ⟨-, u, l, hr, e⟩ | ⟨a, u, ⟨v, y, l, rfl, -, -⟩, hr, e⟩ <;> rw [e] at h <;>
    cases h
  · exact (k.same (l.same hr) (l.sourceOk k.source) l.phase l.sfDone).setEof
  · have hr : v.residual = s.residual := hr
    have k2 := k.same (l.same hr) (l.sourceOk k.source) l.phase l.sfDone
    have en2 : v.framesEnabled = true := (l.same hr).enabled.trans en
    have hp2 : v.phase = .searching := l.phase.trans hp
    refine ⟨k2.source, k2.params, k2.accepted, fun _ => en2, fun _ => k2.waiting (.inl hp2), by simp [State.synced],
      by simp [State.synced], k2.delivered, ?_, k2.bounded, k2.residual⟩
    have f := k2.filled
    simp only [State.channelsFilled, hp2] at f
    exact f

theorem Core.header {s t : State} {st : Status} {res : Word64} (k : Core s) (en : s.framesEnabled = true)
    (h : headerStep s = .done st res t) : Core t := by
  rcases headerStep_cases s with ⟨-, e⟩ | ⟨-, u, m, e⟩ | ⟨u, sub, x, y, m, e⟩ | ⟨u, hd, m, hg, e⟩ <;> rw [e] at h <;>
    cases h
  · exact k.searching (m.same.trans ⟨rfl, rfl, rfl, rfl, rfl, rfl, rfl, rfl⟩) (m.1.sourceOk k.source) rfl rfl
  · exact k.searching (m.same.trans ⟨rfl, rfl, rfl, rfl, rfl, rfl, rfl, rfl⟩) (m.1.sourceOk k.source) rfl rfl
  · have en2 : u.framesEnabled = true := m.same.enabled.trans en
    have hv : s.spValid = true := (framesEnabled_iff.1 en).1
    have acc := k.accepted hv
    simp only [StreamParams.acceptable, Bool.and_eq_true, decide_eq_true_eq] at acc
    obtain ⟨g1, g2, g3, g4, g5, g6⟩ := hg
    have hok : (u.commitHeader hd).headerOk := by
      refine ⟨g1, g2, g3, ?_, ?_, ?_, g6⟩
      · show hd.blockSize.toNat ≤ u.sp.maxBlock.toNat; rw [m.1.sp]; exact g4
      · show 4 ≤ hd.bps.toNat; rcases g5 with e | ⟨a, -⟩
        · rw [e]; omega
        · exact a
      · show hd.bps.toNat ≤ 32; rcases g5 with e | ⟨-, a⟩
        · rw [e]; omega
        · exact a
    refine ⟨m.1.sourceOk k.source, ?_, ?_, fun _ => en2, ?_, fun _ => ⟨rfl, hok, ?_⟩, ?_, ?_, ?_, ?_, ?_⟩
    · show u.params.legal = true; rw [m.1.params]; exact k.params
    · show u.spValid = true → u.sp.acceptable u.params.bufDepth = true
      rw [m.1.spValid, m.1.sp, m.1.params]; exact k.accepted
    · simp [State.commitHeader]
    · show (0 : BitVec 4).toNat ≤ _; simp
    · simp [State.commitHeader]
    · simp [State.commitHeader]
    · intro c hc
      simp [State.channelsFilled, State.commitHeader] at hc
    · show ∀ c : ChannelIx, u.chbuf[c].samples.length ≤ u.params.bufDepth
      rw [m.1.chbuf, m.1.params]; exact k.bounded
    · show u.residual = _; rw [m.2]; exact k.residual

theorem length_write (ch : Channel) (new : List Sample) :
    (ch.write new).samples.length = max new.length ch.samples.length := by
  simp only [Channel.write, List.length_append, List.length_drop]
  omega

theorem Core.subframe {s t : State} {st : Status} {res : Word64} {c : ChannelIx} {act : Rd Unit}
    (k : Core s) (hs : SubframeSound c act) (hp : s.phase = .headerDone) (hc : c.val = s.sfDone.toNat)
    (hlt : s.sfDone.toNat < s.hdr.channels.toNat) (h : runSubframe c act s = .done st res t) : Core t := by
  obtain ⟨hb, hok, hle⟩ := k.framed (.inl hp)
  have en := k.enabled (by rw [hp]; simp)
  have hv : s.spValid = true := (framesEnabled_iff.1 en).1
  have acc := k.accepted hv
  simp only [StreamParams.acceptable, Bool.and_eq_true, decide_eq_true_eq] at acc
  have drop : ∀ u : State, Moves s u → ∀ v : State, v.params = u.params → v.sp = u.sp → v.spValid = u.spValid →
      v.fatal = u.fatal → v.hdr = u.hdr →
      (∀ d : ChannelIx, v.chbuf[d].samples.length ≤ u.chbuf[d].samples.length) → v.bufValid = u.bufValid →
      v.residual = Residual.empty → v.src = u.src → v.pos = u.pos → v.phase = .searching → v.sfDone = 0 →
      Core v := by
    intro u m v e1 e2 e3 e4 e5 e6 e7 e8 e9 e10 e11 e12
    have hbv : v.bufValid = false := by rw [e7, m.bufValid]; exact hb
    refine ⟨?_, ?_, ?_, fun hn => absurd e11 hn, fun _ => e12, by rw [e11]; simp, by rw [e11]; simp,
      by rw [hbv]; simp, ?_, ?_, e8⟩
    · have := m.sourceOk k.source
      exact ⟨by rw [e9]; exact this.1, by rw [e9]; exact this.2.1, by rw [e9, e10]; exact this.2.2⟩
    · rw [e1, m.params]; exact k.params
    · rw [e3, e2, e1, m.spValid, m.sp, m.params]; exact k.accepted
    · intro d hd
      simp [State.channelsFilled, e11, hbv] at hd
    · intro d
      have := e6 d
      rw [m.chbuf] at this
      rw [e1, m.params]
      exact this.trans (k.bounded d)
  have forgotten : ∀ (u : State) (d : ChannelIx),
      ((u.chbuf.set c ⟨u.freeCount, []⟩)[d]).samples.length ≤ u.chbuf[d].samples.length := by
    intro u d
    by_cases hcd : c.val = d.val
    · have : d = c := Fin.ext hcd.symm
      subst this
      simp
    · rw [show (u.chbuf.set c ⟨u.freeCount, []⟩)[d] = u.chbuf[d] from Vector.getElem_set_ne _ _ hcd]
  rcases runSubframe_cases hs s with ⟨-, e⟩ | ⟨-, u, m, e⟩ | ⟨u, sub, x, y, m, e⟩ |
    ⟨u, ⟨v, xs, info, m, hl, rfl⟩, e⟩ <;> rw [e] at h <;> cases h
  · exact drop u m _ rfl rfl rfl rfl rfl (fun _ => le_refl _) rfl rfl rfl rfl rfl rfl
  · exact drop u m _ rfl rfl rfl rfl rfl (forgotten u) rfl rfl rfl rfl rfl rfl
  · have hsf : (v.storeSubframe c info xs).sfDone = s.sfDone + 1 := by simp [m.sfDone]
    have hsn : (s.sfDone + 1).toNat = s.sfDone.toNat + 1 := by
      have := hok.2.1
      rw [BitVec.toNat_add]
      show (s.sfDone.toNat + 1) % 16 = _
      omega
    have hch : ∀ d : ChannelIx, ((v.storeSubframe c info xs).chbuf[d]).samples.length =
        if c.val = d.val then max xs.length (s.chbuf[d].samples.length) else s.chbuf[d].samples.length := by
      intro d
      show ((v.chbuf.set c (v.chbuf[c].write xs))[d]).samples.length = _
      by_cases hcd : c.val = d.val
      · have : d = c := Fin.ext hcd.symm
        subst this
        rw [if_pos rfl]
        rw [show (v.chbuf.set d (v.chbuf[d].write xs))[d] = v.chbuf[d].write xs by simp, length_write, m.chbuf]
      · rw [if_neg hcd, show (v.chbuf.set c (v.chbuf[c].write xs))[d] = v.chbuf[d] from
          Vector.getElem_set_ne _ _ hcd, m.chbuf]
    have hph : (v.storeSubframe c info xs).phase = .headerDone := m.phase.trans hp
    have hhd : (v.storeSubframe c info xs).hdr = s.hdr := m.hdr
    refine ⟨m.sourceOk k.source, ?_, ?_, ?_, by rw [hph]; simp, ?_, by rw [hph]; simp, ?_, ?_, ?_, rfl⟩
    · show v.params.legal = true; rw [m.params]; exact k.params
    · show v.spValid = true → v.sp.acceptable v.params.bufDepth = true
      rw [m.spValid, m.sp, m.params]; exact k.accepted
    · intro _
      show (v.spValid && !v.fatal) = true
      rw [m.spValid, m.fatal]; exact en
    · intro _
      refine ⟨m.bufValid.trans hb, ?_, ?_⟩
      · simp only [State.headerOk, hhd, storeSubframe_sp, m.sp]; exact hok
      · rw [hsf, hsn, hhd]; omega
    · rw [show (v.storeSubframe c info xs).bufValid = false from m.bufValid.trans hb]; simp
    · intro d hd
      simp only [State.channelsFilled, hph, hsf, hsn] at hd
      rw [hhd, hch d]
      split
      · rw [hl]; exact Nat.le_max_left _ _
      · refine k.filled d ?_
        simp only [State.channelsFilled, hp]
        omega
    · intro d
      have hb := k.bounded d
      have := hok.2.2.2.1
      rw [hch d]
      show _ ≤ v.params.bufDepth
      rw [m.params]
      split
      · rw [hl]; omega
      · exact hb

/-- Undoing the coding trick keeps every channel as long as it is, but for growing it to the block. -/
theorem length_decorrelate (a : Assign) (s : State) (d : ChannelIx) :
    s.chbuf[d].samples.length ≤ ((s.decorrelate a).chbuf[d]).samples.length ∧
    ((s.decorrelate a).chbuf[d]).samples.length ≤ max s.hdr.blockSize.toNat s.chbuf[d].samples.length := by
  have one : ∀ (u : State) (c : ChannelIx) (xs : List Sample), xs.length = s.hdr.blockSize.toNat →
      (∀ d : ChannelIx, s.chbuf[d].samples.length ≤ (u.chbuf[d]).samples.length ∧
        (u.chbuf[d]).samples.length ≤ max s.hdr.blockSize.toNat s.chbuf[d].samples.length) →
      ∀ d : ChannelIx, s.chbuf[d].samples.length ≤ ((u.writeChannel c xs).chbuf[d]).samples.length ∧
        ((u.writeChannel c xs).chbuf[d]).samples.length ≤
          max s.hdr.blockSize.toNat s.chbuf[d].samples.length := by
    intro u c xs hl hu d
    have h := hu d
    show _ ≤ ((u.chbuf.set c (u.chbuf[c].write xs))[d]).samples.length ∧ _
    show _ ∧ ((u.chbuf.set c (u.chbuf[c].write xs))[d]).samples.length ≤ _
    by_cases hcd : c.val = d.val
    · have : d = c := Fin.ext hcd.symm
      subst this
      rw [show (u.chbuf.set d (u.chbuf[d].write xs))[d] = u.chbuf[d].write xs by simp, length_write, hl]
      omega
    · rw [show (u.chbuf.set c (u.chbuf[c].write xs))[d] = u.chbuf[d] from Vector.getElem_set_ne _ _ hcd]
      exact h
  have zero : ∀ d : ChannelIx, s.chbuf[d].samples.length ≤ (s.chbuf[d]).samples.length ∧
      (s.chbuf[d]).samples.length ≤ max s.hdr.blockSize.toNat s.chbuf[d].samples.length :=
    fun d => ⟨le_refl _, Nat.le_max_right _ _⟩
  cases a with
  | independent => exact zero d
  | leftSide => exact one s 1 _ (by simp [length_window]) zero d
  | rightSide => exact one s 0 _ (by simp [length_window]) zero d
  | midSide => exact one _ 1 _ (by simp [length_window]) (one s 0 _ (by simp [length_window]) zero) d

theorem Core.decorrelated {s : State} (k : Core s) (hp : s.phase = .headerDone)
    (hd : s.sfDone = s.hdr.channels) : Core s.decorrelated := by
  obtain ⟨hb, hok, hle⟩ := k.framed (.inl hp)
  have en := k.enabled (by rw [hp]; simp)
  have acc := k.accepted (framesEnabled_iff.1 en).1
  simp only [StreamParams.acceptable, Bool.and_eq_true, decide_eq_true_eq] at acc
  have e := decorrelate_fields s.hdr.assign s
  have hch : ∀ d : ChannelIx, s.decorrelated.chbuf[d] = (s.decorrelate s.hdr.assign).chbuf[d] := fun d => rfl
  have f : s.decorrelated = { s with chbuf := (s.decorrelate s.hdr.assign).chbuf, phase := .decorrelated } := by
    unfold State.decorrelated
    rw [e]; rfl
  have hbuf : s.decorrelated.chbuf = (s.decorrelate s.hdr.assign).chbuf := rfl
  have hl := fun d => length_decorrelate s.hdr.assign s d
  rw [← hbuf] at f hl
  generalize s.decorrelated.chbuf = buf at f hl
  rw [f]
  refine ⟨k.source, k.params, k.accepted, fun _ => en, by simp, fun _ => ⟨hb, hok, hle⟩, fun _ => hd,
    k.delivered, ?_, ?_, k.residual⟩
  · intro d hdl
    refine (k.filled d ?_).trans (hl d).1
    simp only [State.channelsFilled] at hdl
    simp only [State.channelsFilled, hp]
    exact hdl
  · intro d
    refine (hl d).2.trans ?_
    have := hok.2.2.2.1
    exact max_le (by show _ ≤ s.params.bufDepth; omega) (k.bounded d)

theorem length_zeroFrame (s : State) (d : ChannelIx) :
    s.chbuf[d].samples.length ≤ (s.zeroFrame.chbuf[d]).samples.length ∧
    (s.zeroFrame.chbuf[d]).samples.length ≤ max s.hdr.blockSize.toNat s.chbuf[d].samples.length := by
  have e : s.zeroFrame.chbuf[d] = if d.val < s.hdr.channels.toNat
      then s.chbuf[d].write (List.replicate s.hdr.blockSize.toNat 0) else s.chbuf[d] := by
    show (Vector.ofFn _)[d] = _
    simp [Fin.getElem_fin]
  rw [e]
  split
  · rw [length_write, List.length_replicate]; omega
  · omega

/-- A delivery from a state whose frame is complete. -/
theorem Core.deliver {s t : State} (k : Core s) (hp : s.phase = .decorrelated)
    (hs : t.sourceOk) (e1 : t.params = s.params) (e2 : t.sp = s.sp) (e3 : t.spValid = s.spValid)
    (e4 : t.hdr = s.hdr) (e5 : t.residual = s.residual) (e6 : t.phase = .searching)
    (e7 : t.sfDone = 0)
    (hl : ∀ d : ChannelIx, s.chbuf[d].samples.length ≤ (t.chbuf[d]).samples.length ∧
      (t.chbuf[d]).samples.length ≤ max s.hdr.blockSize.toNat s.chbuf[d].samples.length) : Core t := by
  obtain ⟨hb, hok, hle⟩ := k.framed (.inr hp)
  have hc := k.complete hp
  have en := k.enabled (by rw [hp]; simp)
  have hv := (framesEnabled_iff.1 en).1
  have acc := k.accepted hv
  simp only [StreamParams.acceptable, Bool.and_eq_true, decide_eq_true_eq] at acc
  refine ⟨hs, ?_, ?_, fun hn => absurd e6 hn, fun _ => e7, by rw [e6]; simp, by rw [e6]; simp, ?_, ?_, ?_, ?_⟩
  · rw [e1]; exact k.params
  · rw [e3, e2, e1]; exact k.accepted
  · intro _
    refine ⟨e3.trans hv, ?_⟩
    simp only [State.headerOk, e4, e2]; exact hok
  · intro d hd
    rw [e4]
    refine (k.filled d ?_).trans (hl d).1
    have : d.val < s.hdr.channels.toNat := by
      simp only [State.channelsFilled, e6, e4] at hd
      split at hd
      · exact hd
      · omega
    simp only [State.channelsFilled, hp, hc]
    exact this
  · intro d
    refine (hl d).2.trans ?_
    have := hok.2.2.2.1
    rw [e1]
    exact max_le (by omega) (k.bounded d)
  · rw [e5]; exact k.residual

theorem Core.footer {s t : State} {st : Status} {res : Word64} (k : Core s) (hp : s.phase = .decorrelated)
    (h : footerStep s = .done st res t) : Core t := by
  rcases footerStep_cases s with ⟨-, e⟩ | ⟨-, u, m, e⟩ | ⟨u, sub, x, y, m, e⟩ | ⟨u, x, m, e⟩ |
    ⟨u, x, y, m, -, e⟩ <;> rw [e] at h <;> cases h
  · exact k.searching (m.same.trans ⟨rfl, rfl, rfl, rfl, rfl, rfl, rfl, rfl⟩) (m.1.sourceOk k.source) rfl rfl
  · exact k.searching (m.same.trans ⟨rfl, rfl, rfl, rfl, rfl, rfl, rfl, rfl⟩) (m.1.sourceOk k.source) rfl rfl
  · have k2 : Core u := k.same m.same (m.1.sourceOk k.source) m.1.phase m.1.sfDone
    exact k2.deliver (m.1.phase.trans hp) k2.source rfl rfl rfl rfl rfl rfl rfl
      fun d => ⟨le_refl _, Nat.le_max_right _ _⟩
  · have k2 : Core u := k.same m.same (m.1.sourceOk k.source) m.1.phase m.1.sfDone
    have src : (((u.setFooter x y).crcMismatch x y).deliver false).sourceOk := by
      have := k2.source
      simpa [State.sourceOk, State.deliver, State.crcMismatch] using this
    refine k2.deliver (m.1.phase.trans hp) src ?_ ?_ ?_ ?_ ?_ ?_ ?_ ?_
    all_goals try (simp [State.deliver, State.crcMismatch]; done)
    have e : (((u.setFooter x y).crcMismatch x y).deliver false).chbuf = u.zeroFrame.chbuf := by
      simp only [State.deliver, State.crcMismatch, countFrame_chbuf, emit_chbuf]
      rfl
    rw [e]
    exact length_zeroFrame u

end Sys2Proof.Machine
end

