-- ==== Sys2Proof/Laws/PerInstr.lean ====
section
/-! SUPPORT. One lemma per instruction: the word of every well-formed instruction is covered by a row of
spec/opcode_table.json that carries its mnemonic (family `TableRow`). -/

namespace Sys2Proof.Laws

open Sys2Proof.Machine

/-- A row of spec/opcode_table.json: the space it is in, its mask and its match. A command row gives the
high bytes of mask and match, whose low bytes are `00`. -/
inductive TableRow.Row
  | command (mask value : Byte)
  | sync (mask value : Word16)
  | subframeByte (mask value : Byte)
  | residualMethod (mask value : BitVec 2)
  | channelCode (mask value : BitVec 4)
  deriving DecidableEq, Repr

/-- The row covers the word: the word's bits under the mask are the match. -/
def TableRow.covers : TableRow.Row → CodeWord → Bool
  | .command mask value, .command w => opcodeOf w &&& mask == value
  | .sync mask value, .sync w => w &&& mask == value
  | .subframeByte mask value, .subframeByte x => x &&& mask == value
  | .residualMethod mask value, .residualMethod m => m &&& mask == value
  | .channelCode mask value, .channelCode c => c &&& mask == value
  | _, _ => false

/-- The rows that carry the instruction's mnemonic. -/
def TableRow.rowsOf : Instr → List TableRow.Row
  | .nop _ => [.command 0xFF 0x00]
  | .softReset _ => [.command 0xFF 0x01]
  | .csrRead _ => [.command 0xFF 0x02]
  | .csrWrite _ => [.command 0xFF 0x03]
  | .bufRead _ => [.command 0xFF 0x04]
  | .brReadUint _ => [.command 0xFF 0x10]
  | .brReadInt _ => [.command 0xFF 0x11]
  | .brReadUnary _ => [.command 0xFF 0x12]
  | .brPeekUint _ => [.command 0xFF 0x13]
  | .brIsAligned _ => [.command 0xFF 0x14]
  | .brAlign _ => [.command 0xFF 0x15]
  | .brCrc16Reset _ => [.command 0xFF 0x16]
  | .brCrc16Read _ => [.command 0xFF 0x17]
  | .brCrc8Reset _ => [.command 0xFF 0x18]
  | .brCrc8Read _ => [.command 0xFF 0x19]
  | .frFindSync _ => [.command 0xFF 0x20]
  | .frDecodeHeader _ => [.command 0xFF 0x21]
  | .frDecodeSubframe _ => [.command 0xFF 0x22]
  | .frDecorrelate _ => [.command 0xFF 0x23]
  | .frCheckFooter _ => [.command 0xFF 0x24]
  | .readNextFrame _ => [.command 0xFF 0x30]
  | .decode _ => [.command 0xFF 0x31]
  | .reservedOpcode _ _ =>
    [.command 0xFF 0x05, .command 0xFE 0x06, .command 0xF8 0x08, .command 0xFE 0x1A, .command 0xFC 0x1C,
      .command 0xFF 0x25, .command 0xFE 0x26, .command 0xF8 0x28, .command 0xFE 0x32, .command 0xFC 0x34,
      .command 0xF8 0x38, .command 0xC0 0x40, .command 0x80 0x80]
  | .subframeConstant _ => [.subframeByte 0xFE 0x00]
  | .subframeVerbatim _ => [.subframeByte 0xFE 0x02]
  | .subframeFixed0 _ => [.subframeByte 0xFE 0x10]
  | .subframeFixed1 _ => [.subframeByte 0xFE 0x12]
  | .subframeFixed2 _ => [.subframeByte 0xFE 0x14]
  | .subframeFixed3 _ => [.subframeByte 0xFE 0x16]
  | .subframeFixed4 _ => [.subframeByte 0xFE 0x18]
  | .subframeLpc _ _ => [.subframeByte 0xC0 0x40]
  | .subframeReserved _ _ =>
    [.subframeByte 0xFC 0x04, .subframeByte 0xF8 0x08, .subframeByte 0xFE 0x1A, .subframeByte 0xFC 0x1C,
      .subframeByte 0xE0 0x20]
  | .subframeBadPadding _ => [.subframeByte 0x80 0x80]
  | .frameSync _ _ => [.sync 0xFFFC 0xFFF8]
  | .residualRice => [.residualMethod 0b11 0b00]
  | .residualRice2 => [.residualMethod 0b11 0b01]
  | .residualReserved _ => [.residualMethod 0b11 0b10, .residualMethod 0b11 0b11]
  | .chIndependent _ => [.channelCode 0x8 0x0]
  | .chLeftSide => [.channelCode 0xF 0x8]
  | .chRightSide => [.channelCode 0xF 0x9]
  | .chMidSide => [.channelCode 0xF 0xA]
  | .chReserved _ => [.channelCode 0xF 0xB, .channelCode 0xC 0xC]

/-- A well-formed instruction's word is covered by a row with its mnemonic. -/
def TableRow.Statement (i : Instr) : Prop :=
  i.wellFormed = true → (TableRow.rowsOf i).any (fun r => TableRow.covers r (encode i)) = true

theorem TableRow.covers_command (mask value op a : Byte) :
    TableRow.covers (.command mask value) (commandWord op a) = (op &&& mask == value) := by
  simp only [TableRow.covers, commandWord, opcodeOf_append]

theorem TableRow.nop (a : Byte) : TableRow.Statement (.nop a) := fun _ => by
  simp only [TableRow.rowsOf, encode, List.any_cons, List.any_nil, TableRow.covers_command]
  decide

theorem TableRow.softReset (a : Byte) : TableRow.Statement (.softReset a) := fun _ => by
  simp only [TableRow.rowsOf, encode, List.any_cons, List.any_nil, TableRow.covers_command]
  decide

theorem TableRow.csrRead (a : Byte) : TableRow.Statement (.csrRead a) := fun _ => by
  simp only [TableRow.rowsOf, encode, List.any_cons, List.any_nil, TableRow.covers_command]
  decide

theorem TableRow.csrWrite (a : Byte) : TableRow.Statement (.csrWrite a) := fun _ => by
  simp only [TableRow.rowsOf, encode, List.any_cons, List.any_nil, TableRow.covers_command]
  decide

theorem TableRow.bufRead (a : Byte) : TableRow.Statement (.bufRead a) := fun _ => by
  simp only [TableRow.rowsOf, encode, List.any_cons, List.any_nil, TableRow.covers_command]
  decide

theorem TableRow.brReadUint (a : Byte) : TableRow.Statement (.brReadUint a) := fun _ => by
  simp only [TableRow.rowsOf, encode, List.any_cons, List.any_nil, TableRow.covers_command]
  decide

theorem TableRow.brReadInt (a : Byte) : TableRow.Statement (.brReadInt a) := fun _ => by
  simp only [TableRow.rowsOf, encode, List.any_cons, List.any_nil, TableRow.covers_command]
  decide

theorem TableRow.brReadUnary (a : Byte) : TableRow.Statement (.brReadUnary a) := fun _ => by
  simp only [TableRow.rowsOf, encode, List.any_cons, List.any_nil, TableRow.covers_command]
  decide

theorem TableRow.brPeekUint (a : Byte) : TableRow.Statement (.brPeekUint a) := fun _ => by
  simp only [TableRow.rowsOf, encode, List.any_cons, List.any_nil, TableRow.covers_command]
  decide

theorem TableRow.brIsAligned (a : Byte) : TableRow.Statement (.brIsAligned a) := fun _ => by
  simp only [TableRow.rowsOf, encode, List.any_cons, List.any_nil, TableRow.covers_command]
  decide

theorem TableRow.brAlign (a : Byte) : TableRow.Statement (.brAlign a) := fun _ => by
  simp only [TableRow.rowsOf, encode, List.any_cons, List.any_nil, TableRow.covers_command]
  decide

theorem TableRow.brCrc16Reset (a : Byte) : TableRow.Statement (.brCrc16Reset a) := fun _ => by
  simp only [TableRow.rowsOf, encode, List.any_cons, List.any_nil, TableRow.covers_command]
  decide

theorem TableRow.brCrc16Read (a : Byte) : TableRow.Statement (.brCrc16Read a) := fun _ => by
  simp only [TableRow.rowsOf, encode, List.any_cons, List.any_nil, TableRow.covers_command]
  decide

theorem TableRow.brCrc8Reset (a : Byte) : TableRow.Statement (.brCrc8Reset a) := fun _ => by
  simp only [TableRow.rowsOf, encode, List.any_cons, List.any_nil, TableRow.covers_command]
  decide

theorem TableRow.brCrc8Read (a : Byte) : TableRow.Statement (.brCrc8Read a) := fun _ => by
  simp only [TableRow.rowsOf, encode, List.any_cons, List.any_nil, TableRow.covers_command]
  decide

theorem TableRow.frFindSync (a : Byte) : TableRow.Statement (.frFindSync a) := fun _ => by
  simp only [TableRow.rowsOf, encode, List.any_cons, List.any_nil, TableRow.covers_command]
  decide

theorem TableRow.frDecodeHeader (a : Byte) : TableRow.Statement (.frDecodeHeader a) := fun _ => by
  simp only [TableRow.rowsOf, encode, List.any_cons, List.any_nil, TableRow.covers_command]
  decide

theorem TableRow.frDecodeSubframe (a : Byte) : TableRow.Statement (.frDecodeSubframe a) := fun _ => by
  simp only [TableRow.rowsOf, encode, List.any_cons, List.any_nil, TableRow.covers_command]
  decide

theorem TableRow.frDecorrelate (a : Byte) : TableRow.Statement (.frDecorrelate a) := fun _ => by
  simp only [TableRow.rowsOf, encode, List.any_cons, List.any_nil, TableRow.covers_command]
  decide

theorem TableRow.frCheckFooter (a : Byte) : TableRow.Statement (.frCheckFooter a) := fun _ => by
  simp only [TableRow.rowsOf, encode, List.any_cons, List.any_nil, TableRow.covers_command]
  decide

theorem TableRow.readNextFrame (a : Byte) : TableRow.Statement (.readNextFrame a) := fun _ => by
  simp only [TableRow.rowsOf, encode, List.any_cons, List.any_nil, TableRow.covers_command]
  decide

theorem TableRow.decode (a : Byte) : TableRow.Statement (.decode a) := fun _ => by
  simp only [TableRow.rowsOf, encode, List.any_cons, List.any_nil, TableRow.covers_command]
  decide

theorem TableRow.reservedOpcode (op a : Byte) : TableRow.Statement (.reservedOpcode op a) := by
  simp only [TableRow.Statement, Instr.wellFormed, TableRow.rowsOf, encode, List.any_cons, List.any_nil,
    TableRow.covers_command]
  revert op
  decide

theorem TableRow.subframeConstant (w : Bool) : TableRow.Statement (.subframeConstant w) := fun _ => by cases w <;> decide

theorem TableRow.subframeVerbatim (w : Bool) : TableRow.Statement (.subframeVerbatim w) := fun _ => by cases w <;> decide

theorem TableRow.subframeFixed0 (w : Bool) : TableRow.Statement (.subframeFixed0 w) := fun _ => by cases w <;> decide

theorem TableRow.subframeFixed1 (w : Bool) : TableRow.Statement (.subframeFixed1 w) := fun _ => by cases w <;> decide

theorem TableRow.subframeFixed2 (w : Bool) : TableRow.Statement (.subframeFixed2 w) := fun _ => by cases w <;> decide

theorem TableRow.subframeFixed3 (w : Bool) : TableRow.Statement (.subframeFixed3 w) := fun _ => by cases w <;> decide

theorem TableRow.subframeFixed4 (w : Bool) : TableRow.Statement (.subframeFixed4 w) := fun _ => by cases w <;> decide

theorem TableRow.subframeLpc (o : BitVec 5) (w : Bool) : TableRow.Statement (.subframeLpc o w) := fun _ => by
  revert o w; decide

theorem TableRow.subframeReserved (t : BitVec 6) (w : Bool) : TableRow.Statement (.subframeReserved t w) := by
  unfold TableRow.Statement; revert t w; decide

theorem TableRow.subframeBadPadding (r : BitVec 7) : TableRow.Statement (.subframeBadPadding r) := fun _ => by
  revert r; decide

theorem TableRow.frameSync (r b : Bool) : TableRow.Statement (.frameSync r b) := fun _ => by
  revert r b; decide

theorem TableRow.residualRice : TableRow.Statement .residualRice := fun _ => by decide

theorem TableRow.residualRice2 : TableRow.Statement .residualRice2 := fun _ => by decide

theorem TableRow.residualReserved (l : Bool) : TableRow.Statement (.residualReserved l) := fun _ => by
  revert l; decide

theorem TableRow.chIndependent (n : BitVec 3) : TableRow.Statement (.chIndependent n) := fun _ => by
  revert n; decide

theorem TableRow.chLeftSide : TableRow.Statement .chLeftSide := fun _ => by decide

theorem TableRow.chRightSide : TableRow.Statement .chRightSide := fun _ => by decide

theorem TableRow.chMidSide : TableRow.Statement .chMidSide := fun _ => by decide

theorem TableRow.chReserved (c : BitVec 4) : TableRow.Statement (.chReserved c) := by
  unfold TableRow.Statement; revert c; decide

end Sys2Proof.Laws
end

