-- ==== Sys2Proof/Tests/Slice0.lean ====
section
/-! SUPPORT. The model's own tests. Expected values come from `95_test_vectors.md` (its vector ids stand in
the docstrings) or from the rules by hand. Words are written out from the tables of `30_encoding.md`. -/

set_option maxRecDepth 100000

namespace Sys2Proof.Tests
open Sys2Proof.Machine

/-! ## Helpers -/

/-- The answer is a next state with property `p`. -/
def nexts (o : Out) (p : State → Bool) : Bool :=
  match o with
  | .next t => p t
  | .fault _ | .refused _ => false

/-- Reset, then the host supplied `bytes` and ended the input; a command is in progress. -/
def supplied (bytes : List Byte) : State :=
  { State.reset with src := Memory.ofBytes bytes, srcEnded := true, slot := .pending (.command 0) }

/-- `supplied`, after `CONFIGURE min, max, 0, 0, 44100, 2, bps, 0`. -/
def configured (bytes : List Byte) (min max : BitVec 16) (bps : BitVec 6) : State :=
  { supplied bytes with
    sp := { StreamParams.reset with
      minBlock := min, maxBlock := max, sampleRate := 44100, channels := 2, bps := bps }
    spValid := true }

/-- The state after `FR_FIND_SYNC` has matched `FF` and `y` in front of `rest`, bytes 0 and 1. -/
def synced (y : Byte) (rest : List Byte) (min max : BitVec 16) (bps : BitVec 6) : State :=
  { configured (0xFF :: y :: rest) min max bps with
    pos := 16, phase := .synced, syncByte1 := y
    crc16 := crc16Update (crc16Update 0 0xFF) y, crc8 := crc8Update (crc8Update 0 0xFF) y }

/-- Two channels of `bs` samples, `c` of them decoded (part L2.5: `PHASE = 2`, `SRC` from `POS = 0`). -/
def framed (bytes : List Byte) (bs : BitVec 16) (bps : BitVec 6) (a : Assign) (c : BitVec 4) : State :=
  { configured bytes 4 4 8 with
    phase := .headerDone, sfDone := c
    hdr := { HeaderRegs.reset with blockSize := bs, bps := bps, channels := 2, assign := a } }

/-- Channels 0 and 1 hold `xs` and `ys`; both are decoded (part L2.8). -/
def filled (xs ys : List Sample) (a : Assign) : State :=
  { framed [] (BitVec.ofNat 16 xs.length) 8 a 2 with
    chbuf := ((chbufUnspecified 0).set 0 ⟨0, xs⟩).set 1 ⟨1, ys⟩ }

/-- Both channels are decorrelated; the footer stands at the cursor. -/
def atFooter (bytes : List Byte) (pos : Word64) (crc : Word16) : State :=
  { filled [10, -20, 30, -40] [1, 2, 3, 4] .independent with
    src := Memory.ofBytes bytes, pos := pos, crc16 := crc, phase := .decorrelated }

/-- P1's frame. -/
def frameP1 : List Byte :=
  [0xFF, 0xF8, 0x69, 0x12, 0x00, 0x03, 0x31, 0x02, 0x0A, 0xEC, 0x1E, 0xD8, 0x14, 0x01, 0x02, 0x00, 0x68,
    0x3E, 0x18]

/-! ## Well-formedness: one ill-formed term for each check -/

/-- `0x31` is `DECODE` (R81), so no reserved opcode. -/
theorem test_wellFormed_opcode : (Instr.reservedOpcode 0x31 0).wellFormed = false := by decide

/-- Type `001000` is FIXED order 0 (R100). -/
theorem test_wellFormed_subframe : (Instr.subframeReserved 0b001000 true).wellFormed = false := by decide

/-- Code `1010` is mid-side (R94). -/
theorem test_wellFormed_channel : (Instr.chReserved 0b1010).wellFormed = false := by decide

/-! ## Decoding: a word of every constructor, written out from the spec's encoding -/

/-- The control commands (R81, examples of R83). -/
theorem test_decode_control :
    [0x0000, 0x0100, 0x0216, 0x0316, 0x0401, 0x0507].map decodeCommand =
      [.nop 0, .softReset 0, .csrRead 0x16, .csrWrite 0x16, .bufRead 1, .reservedOpcode 0x05 0x07] := by
  decide

/-- The bit-reader commands (R81). -/
theorem test_decode_bitReader :
    [0x1010, 0x1105, 0x1200, 0x1340, 0x1400, 0x1500, 0x1600, 0x1700, 0x1800, 0x1900].map decodeCommand =
      [.brReadUint 16, .brReadInt 5, .brReadUnary 0, .brPeekUint 64, .brIsAligned 0, .brAlign 0,
        .brCrc16Reset 0, .brCrc16Read 0, .brCrc8Reset 0, .brCrc8Read 0] := by decide

/-- The frame and composite commands (R81). -/
theorem test_decode_frame :
    [0x2000, 0x2100, 0x2207, 0x2300, 0x2400, 0x3000, 0x3100].map decodeCommand =
      [.frFindSync 0, .frDecodeHeader 0, .frDecodeSubframe 7, .frDecorrelate 0, .frCheckFooter 0,
        .readNextFrame 0, .decode 0] := by decide

/-- The edges of the reserved ranges of R82. -/
theorem test_decode_reserved :
    [0x0F00, 0x1AFF, 0x1F01, 0x2500, 0x2F00, 0x3200, 0xFF00].map decodeCommand =
      [.reservedOpcode 0x0F 0, .reservedOpcode 0x1A 0xFF, .reservedOpcode 0x1F 1, .reservedOpcode 0x25 0,
        .reservedOpcode 0x2F 0, .reservedOpcode 0x32 0, .reservedOpcode 0xFF 0] := by decide

/-- Subframe header bytes, `0 tttttt w` (R100); `0x14` and `0x42` are those of F2 and LP1. -/
theorem test_decode_subframe :
    [0b00000000, 0b00000011, 0b00010000, 0b00010011, 0b00010100, 0b00010110, 0b00011001, 0b01000010,
        0b01111111].map (fun x : Byte => (decodeSubframeByte x).toInstr) =
      [.subframeConstant false, .subframeVerbatim true, .subframeFixed0 false, .subframeFixed1 true,
        .subframeFixed2 false, .subframeFixed3 false, .subframeFixed4 true, .subframeLpc 1 false,
        .subframeLpc 31 true] := by decide

/-- The edges of the reserved types and the padding bit (R100; E1 to E4). -/
theorem test_decode_subframeReserved :
    [0b00000100, 0b00001111, 0b00011010, 0b00111111, 0b10000000, 0b11111111].map
        (fun x : Byte => (decodeSubframeByte x).toInstr) =
      [.subframeReserved 2 false, .subframeReserved 7 true, .subframeReserved 13 false,
        .subframeReserved 31 true, .subframeBadPadding 0, .subframeBadPadding 0x7F] := by decide

/-- The four sync patterns (R110), and Y4's `FF FC`, which is none. -/
theorem test_decode_sync :
    decodeSync 0xFFF8 = .ok (.frameSync false false) ∧ decodeSync 0xFFF9 = .ok (.frameSync false true) ∧
      decodeSync 0xFFFA = .ok (.frameSync true false) ∧ decodeSync 0xFFFB = .ok (.frameSync true true) ∧
      decodeSync 0xFFFC = .error (.notASyncPattern 0xFFFC) := by decide

/-- Residual methods (R104) and channel codes (R94). -/
theorem test_decode_codes :
    [0b00, 0b01, 0b10, 0b11].map decodeResidualMethod =
        [.residualRice, .residualRice2, .residualReserved false, .residualReserved true] ∧
      [0, 7, 8, 9, 10, 11, 15].map decodeChannelCode =
        [.chIndependent 0, .chIndependent 7, .chLeftSide, .chRightSide, .chMidSide, .chReserved 11,
          .chReserved 15] := by decide

/-- The opcode table's numbering, one row of each width. -/
theorem test_decodeTableWord :
    decodeTableWord 16 0x2000 = some (.frFindSync 0) ∧ decodeTableWord 16 0xFFF9 = some (.frameSync false true) ∧
      decodeTableWord 8 0x1A = some (.subframeReserved 13 false) ∧
      decodeTableWord 4 10 = some .chMidSide ∧ decodeTableWord 2 1 = some .residualRice2 := by decide

/-- `withFetchWord` makes the very next step from reset run the word: `CSR_READ STATUS` (X1). -/
theorem test_withFetchWord :
    nexts (step (State.reset.withFetchWord 16 0x0200)) (fun t => t.result == 0x8 && t.host == []) = true := by
  decide

/-! ## The CRC functions (part L2.1) -/

/-- CR2 to CR4. -/
theorem test_crc :
    crc8Over 0 [0xFF, 0xF8] = 0x31 ∧ crc16Over 0 [0xFF, 0xF8] = 0x001C ∧ crc8Over 0 [0xA5] = 0x72 ∧
      crc16Over 0 [0xA5] = 0x03DE ∧ crc8Over 0 [0xA5, 0x3C] = 0xED ∧
      crc16Over 0 [0xA5, 0x3C] = 0xDE82 := by decide

/-- CR5 and CR6: the residue. -/
theorem test_crc_residue :
    crc8Over 0 [0xFF, 0xF8, 0xC9, 0x18, 0x00, 0xC2] = 0 ∧ crc16Over 0 frameP1 = 0 := by decide

/-! ## Control commands (part L2.11) -/

/-- X2. -/
theorem test_nop_argument :
    nexts (exec (.nop 1) (supplied [])) (fun t => t.statusOut.bits == 0x0208 && t.lastErr.bits == 0x0208) =
      true := by decide

/-- X13: `FATAL` is the bit only reset clears; the argument must be 0 (R80). -/
theorem test_softReset :
    nexts (exec (.softReset 0) { supplied [1] with fatal := true, pos := 8 })
      (fun t => !t.fatal && t.pos == 0 && t.src == [] && t.statusBits == 0x8) = true ∧
    nexts (exec (.softReset 1) (supplied [1])) (fun t => t.statusOut.bits == 0x0208 && t.src != []) =
      true := by decide

/-- X4, and P1's line 19. -/
theorem test_csrRead :
    nexts (exec (.csrRead 0x0A) (supplied [])) (fun t => t.statusOut.bits == 0x0408) = true ∧
    nexts (exec (.csrRead 0x08) { supplied [] with footer := 0x3E183E18 })
      (fun t => t.result == 0x3E183E18) = true := by decide

/-- X8, X5 and X6. -/
theorem test_csrWrite :
    nexts (exec (.csrWrite 0x15) { supplied [] with dataIn := 0x12 }) (fun t => t.sp.channels == 2) = true ∧
    nexts (exec (.csrWrite 0x04) { supplied [] with dataIn := 5 })
      (fun t => t.statusOut.bits == 0x0408 && t.pos == 0) = true ∧
    nexts (exec (.csrWrite 0x18) { supplied [] with dataIn := 2 })
      (fun t => t.statusOut.bits == 0x0208 && !t.spValid) = true := by decide

/-- The registers of a validation vector (V1 to V7), written to `SP_VALID`. -/
def validated (min max : BitVec 16) (channels : BitVec 4) (bps : BitVec 6) (depth : Nat) : State :=
  { supplied [] with
    params := ⟨depth, .bits32⟩, dataIn := 1
    sp := { StreamParams.reset with
      minBlock := min, maxBlock := max, sampleRate := 44100, channels := channels, bps := bps } }

/-- V1 to V7 and X15's parameters. -/
theorem test_csrWrite_spValid :
    [validated 4 4 0 8 65535, validated 4 4 9 8 65535, validated 4 4 2 3 65535, validated 4 4 2 33 65535,
        validated 0 0 2 8 65535, validated 8 4 2 8 65535, validated 4 2048 2 8 1024].all
      (fun s => nexts (exec (.csrWrite 0x18) s)
        (fun t => t.statusOut.bits == 0x0207 && !t.spValid && !t.fatal)) = true ∧
    nexts (exec (.csrWrite 0x18) (validated 4 4 2 8 65535)) (fun t => t.spValid && t.statusBits == 0xA8) =
      true := by decide

/-- P1's line 16, and X21. -/
theorem test_bufRead :
    nexts (exec (.bufRead 0)
        { filled [10, -20, 30, -40] [1, 2, 3, 4] .independent with bufValid := true, dataIn := 3 })
      (fun t => t.result == 0xFFFFFFFFFFFFFFD8) = true ∧
    nexts (exec (.bufRead 1)
        { filled [10, -20, 30, -40] [1, 2, 3, 4] .independent with bufValid := true, dataIn := 4 })
      (fun t => t.statusOut.bits == 0x0608) = true := by decide

/-- X3. -/
theorem test_reservedOpcode :
    nexts (exec (.reservedOpcode 0x05 0) (supplied [])) (fun t => t.statusOut.bits == 0x0108) = true := by
  decide

/-! ## The bit reader (part L2.2) -/

/-- B1 and B17's source for a read of 17 bits. -/
theorem test_brReadUint :
    nexts (exec (.brReadUint 4) (supplied [0xA5, 0x3C, 0x0F, 0x80]))
      (fun t => t.result == 0xA && t.pos == 4 && t.crc16 == 0) = true ∧
    nexts (exec (.brReadUint 17) (supplied [0, 0]))
      (fun t => t.statusOut.bits == 0x0001 && t.pos == 0 && t.eof) = true := by decide

/-- B2 and B15. -/
theorem test_brReadInt :
    nexts (exec (.brReadInt 4) { supplied [0xA5, 0x3C] with pos := 4 })
      (fun t => t.result == 5 && t.pos == 8 && t.crc16 == 0x03DE && t.crc8 == 0x72) = true ∧
    nexts (exec (.brReadInt 1) (supplied [0xFF, 0xFF])) (fun t => t.result == 0xFFFFFFFFFFFFFFFF) = true := by
  decide

/-- B11 and B17. -/
theorem test_brReadUnary :
    nexts (exec (.brReadUnary 0) { supplied [0xA5, 0x3C, 0x0F, 0x80] with pos := 16 })
      (fun t => t.result == 4 && t.pos == 21) = true ∧
    nexts (exec (.brReadUnary 0) (supplied [0, 0]))
      (fun t => t.statusOut.bits == 0x0001 && t.pos == 0 && t.eof && t.result == 0) = true := by decide

/-- B7 and B18. -/
theorem test_brPeekUint :
    nexts (exec (.brPeekUint 8) { supplied [0xA5, 0x3C, 0x0F, 0x80] with pos := 12 })
      (fun t => t.result == 0xC0 && t.pos == 12) = true ∧
    nexts (exec (.brPeekUint 16) (supplied [0, 0])) (fun t => t.result == 0 && t.statusOut.bits == 0) =
      true := by decide

/-- B5. -/
theorem test_brIsAligned :
    nexts (exec (.brIsAligned 0) { supplied [0xA5, 0x3C] with pos := 8 }) (fun t => t.result == 1) = true ∧
    nexts (exec (.brIsAligned 0) { supplied [0xA5, 0x3C] with pos := 9 }) (fun t => t.result == 0) = true := by
  decide

/-- B8. -/
theorem test_brAlign :
    nexts (exec (.brAlign 0) { supplied [0xA5, 0x3C, 0x0F, 0x80] with pos := 12, crc16 := 0x03DE, crc8 := 0x72 })
      (fun t => t.result == 4 && t.pos == 16 && t.crc16 == 0xDE82 && t.crc8 == 0xED) = true := by decide

/-- B3, B4 and B23. -/
theorem test_brCrc :
    nexts (exec (.brCrc16Read 0) { supplied [] with crc16 := 0x03DE }) (fun t => t.result == 0x03DE) = true ∧
    nexts (exec (.brCrc8Read 0) { supplied [] with crc8 := 0x72 }) (fun t => t.result == 0x72) = true ∧
    nexts (exec (.brCrc16Reset 0) { supplied [] with crc16 := 0x0336, crc8 := 0x72 })
      (fun t => t.crc16 == 0 && t.crc8 == 0x72 && t.result == 0) = true ∧
    nexts (exec (.brCrc8Reset 0) { supplied [] with crc16 := 0x0336, crc8 := 0x72 })
      (fun t => t.crc8 == 0 && t.crc16 == 0x0336) = true := by decide

/-- B19: a read that holds changes no state. -/
theorem test_hold :
    nexts (exec (.brReadUint 12) { supplied [0xA5] with srcEnded := false })
      (fun t => t.pos == 0 && t.slot == .pending (.command 0) && t.statusOut.bits == 0) = true := by decide

/-! ## The synchronizer (part L2.3) -/

/-- Y1. -/
theorem test_frFindSync_found :
    nexts (exec (.frFindSync 0) (configured [0x00, 0xFF, 0x12, 0xFF, 0xF8, 0xC9] 4096 4096 16))
      (fun t => t.result == 3 && t.pos == 40 && t.phase == .synced && t.syncByte1 == 0xF8 &&
        t.frameStart == 3 && t.crc16 == 0x001C && t.crc8 == 0x31 &&
        t.outq == [.event ⟨.lostSync, 0, 0, 0, 0⟩]) = true := by decide

/-- Y4. -/
theorem test_frFindSync_ended :
    nexts (exec (.frFindSync 0) (configured [0xFF, 0xFC] 4096 4096 16))
      (fun t => t.statusOut.bits == 0x0001 && t.pos == 16 && t.phase == .searching && t.crc16 == 0x8007 &&
        t.crc8 == 0x2D && t.eof && t.outq == [.event ⟨.lostSync, 0, 0, 0, 0⟩]) = true := by decide

/-- The writes of R163 for Y2's two bytes, already consumed. -/
theorem test_frameSync :
    nexts (exec (.frameSync false true) { configured [0xFF, 0xF9] 4096 4096 16 with pos := 16 })
      (fun t => t.phase == .synced && t.syncByte1 == 0xF9 && t.frameStart == 0 && t.crc16 == 0x8019 &&
        t.crc8 == 0x36) = true := by decide

/-! ## The header decoder (part L2.4) -/

/-- H1. -/
theorem test_frDecodeHeader :
    nexts (exec (.frDecodeHeader 0) (synced 0xF8 [0xC9, 0x18, 0x00, 0xC2] 4096 4096 16))
      (fun t => t.result == 4096 && t.pos == 48 && t.crc8 == 0 && t.hdr.codes == 0x419C &&
        t.hdr.sampleRate == 44100 && t.hdr.channels == 2 && t.hdr.bps == 16 && t.phase == .headerDone) =
      true := by decide

/-- H2, H28 and H25. -/
theorem test_frDecodeHeader_rejected :
    nexts (exec (.frDecodeHeader 0) (synced 0xF8 [0xC9, 0x18, 0x00, 0xC3] 4096 4096 16))
      (fun t => t.outq == [.event ⟨.badHeader, 1, 6, 0xC2, 0xC3⟩] && t.badFrames == 1) = true ∧
    nexts (exec (.frDecodeHeader 0) (synced 0xF8 [0xC9, 0x18, 0xC2, 0x41, 0x00] 4096 4096 16))
      (fun t => t.statusOut.bits == 0x0703 && t.pos == 48) = true ∧
    nexts (exec (.frDecodeHeader 0)
        { synced 0xF8 [0x69, 0x0E, 0x00, 0x09, 0x5F] 10 10 16 with params := ⟨65535, .reserved⟩ })
      (fun t => t.statusOut.bits == 0x0603 && t.pos == 32) = true := by decide

/-! ## The subframe decoder (parts L2.5 to L2.7) -/

/-- W2 and SD2: wasted bits, and the side channel's extra bit. -/
theorem test_frDecodeSubframe :
    nexts (exec (.frDecodeSubframe 0) (framed [0x03, 0xB4, 0xEC] 2 8 .independent 0))
      (fun t => t.pos == 23 && t.chbuf[0].samples == [104, -20] && t.sfInfo[0].bits == 0x40202 &&
        t.sfDone == 1) = true ∧
    nexts (exec (.frDecodeSubframe 1) (framed [0x00, 0x7F, 0x80] 2 8 .midSide 1))
      (fun t => t.pos == 17 && t.chbuf[1].samples == [255, 255] && t.sfInfo[1].bits == 0x48001) = true := by
  decide

/-- A VERBATIM subframe that the end of the stream cuts off, as command and as code: `CHBUF` is as it was
(`60_exceptions.md` R386, by hand). -/
theorem test_frDecodeSubframe_cut :
    nexts (exec (.frDecodeSubframe 0) (framed [0x02, 0x01] 3 8 .independent 0))
      (fun t => t.statusOut.bits == 0x0001 && t.eof && t.pos == 16 && t.freeCount == 8 &&
        t.chbuf == (framed [] 3 8 .independent 0).chbuf) = true ∧
    nexts (exec (.subframeVerbatim false) (framed [0x01] 3 8 .independent 0))
      (fun t => t.statusOut.bits == 0x0001 && t.eof && t.pos == 8 && t.freeCount == 8 &&
        t.chbuf == (framed [] 3 8 .independent 0).chbuf) = true := by decide

/-- SF1 and SF3, from after the header byte on. -/
theorem test_subframeConstant_subframeVerbatim :
    nexts (exec (.subframeConstant false) { framed [0x00, 0xFF, 0xFE] 4 16 .independent 0 with pos := 8 })
      (fun t => t.pos == 24 && t.chbuf[0].samples == [-2, -2, -2, -2] && t.sfInfo[0].bits == 0x80001) = true ∧
    nexts (exec (.subframeVerbatim false)
        { framed [0x02, 0x7F, 0x80, 0x01] 3 8 .independent 0 with pos := 8 })
      (fun t => t.pos == 32 && t.chbuf[0].samples == [127, -128, 1] && t.sfInfo[0].bits == 0x40002) = true := by
  decide

/-- F0 and F1. -/
theorem test_subframeFixed0_subframeFixed1 :
    nexts (exec (.subframeFixed0 false)
        { framed [0x10, 0x00, 0x8C, 0xB0, 0x60] 4 8 .independent 0 with pos := 8 })
      (fun t => t.pos == 36 && t.chbuf[0].samples == [5, -3, 0, 7] && t.sfInfo[0].bits == 0x40003) = true ∧
    nexts (exec (.subframeFixed1 false)
        { framed [0x12, 0x0A, 0x00, 0xB5, 0x40] 4 8 .independent 0 with pos := 8 })
      (fun t => t.pos == 36 && t.chbuf[0].samples == [10, 11, 10, 12] && t.sfInfo[0].bits == 0x4000B) = true := by
  decide

/-- F2, F3 and F4. -/
theorem test_subframeFixed2_subframeFixed3_subframeFixed4 :
    nexts (exec (.subframeFixed2 false)
        { framed [0x14, 0x01, 0x02, 0x00, 0x64] 4 8 .independent 0 with pos := 8 })
      (fun t => t.pos == 39 && t.chbuf[0].samples == [1, 2, 3, 5] && t.sfInfo[0].bits == 0x40013) = true ∧
    nexts (exec (.subframeFixed3 false)
        { framed [0x16, 0x00, 0x01, 0x04, 0x00, 0xA0] 4 8 .independent 0 with pos := 8 })
      (fun t => t.pos == 45 && t.chbuf[0].samples == [0, 1, 4, 9] && t.sfInfo[0].bits == 0x4001B) = true ∧
    nexts (exec (.subframeFixed4 false)
        { framed [0x18, 0x01, 0x02, 0x03, 0x04, 0x00, 0x28] 6 8 .independent 0 with pos := 8 })
      (fun t => t.pos == 53 && t.chbuf[0].samples == [1, 2, 3, 4, 5, 5] && t.sfInfo[0].bits == 0x40023) =
      true := by decide

/-- LP1 and LP2: the shift floors. -/
theorem test_subframeLpc :
    nexts (exec (.subframeLpc 1 false)
        { framed [0x42, 0x04, 0x06, 0x30, 0x9F, 0x80, 0x2B] 4 8 .independent 0 with pos := 8 })
      (fun t => t.pos == 56 && t.chbuf[0].samples == [4, 6, 8, 8] && t.sfInfo[0].bits == 0x2840014) = true ∧
    nexts (exec (.subframeLpc 0 false)
        { framed [0x40, 0xFD, 0x10, 0xA0, 0x0D, 0x40] 4 8 .independent 0 with pos := 8 })
      (fun t => t.pos == 43 && t.chbuf[0].samples == [-3, -2, -1, -1] && t.sfInfo[0].bits == 0x244000C) =
      true := by decide

/-- E1 and E3: the header byte is consumed, nothing after it. -/
theorem test_subframeBadPadding_subframeReserved :
    nexts (exec (.frDecodeSubframe 0) (framed [0x80] 4 8 .independent 0))
      (fun t => t.statusOut.bits == 0x0104 && t.outq == [.event ⟨.badSubframe, 1, 1, 0, 0⟩]) = true ∧
    nexts (exec (.subframeReserved 13 false) { framed [0x1A] 4 8 .independent 0 with pos := 8 })
      (fun t => t.statusOut.bits == 0x0204 && t.pos == 8 && t.phase == .searching && t.badFrames == 1) =
      true := by decide

/-- RS1 (an escaped partition) and RS2, from after the header byte and the method on. -/
theorem test_residualRice_residualRice2 :
    nexts (exec .residualRice { framed [0x10, 0x07, 0xC8, 0x78, 0x06] 4 8 .independent 0 with pos := 10 })
      (fun t => t.pos == 39 && t.residual == ⟨0, false, 1, [3, -4, 1, 0]⟩) = true ∧
    nexts (exec .residualRice2
        { framed [0x10, 0x40, 0xA0, 0x50, 0x04, 0xF0, 0x44] 4 8 .independent 0 with pos := 10 })
      (fun t => t.pos == 55 && t.residual == ⟨0, true, 0, [100, -100, 0, 1]⟩) = true := by decide

/-- RS6 and RS7. -/
theorem test_residualReserved :
    nexts (exec (.frDecodeSubframe 0) (framed [0x10, 0x80] 4 8 .independent 0))
      (fun t => t.statusOut.bits == 0x0704 && t.pos == 10) = true ∧
    nexts (exec (.residualReserved false) { framed [0x10, 0x80] 4 8 .independent 0 with pos := 10 })
      (fun t => t.statusOut.bits == 0x0704 && t.pos == 10 && t.residual == Residual.empty) = true ∧
    nexts (exec (.frDecodeSubframe 0) (framed [0x10, 0x0C] 4 8 .independent 0))
      (fun t => t.statusOut.bits == 0x0804 && t.pos == 14) = true := by decide

/-! ## Channels (part L2.8) -/

/-- DC2, DC3 and DC4 by `FR_DECORRELATE`. -/
theorem test_frDecorrelate :
    nexts (exec (.frDecorrelate 0) (filled [8, -2] [3, -7] .midSide))
      (fun t => t.chbuf[0].samples == [10, -5] && t.chbuf[1].samples == [7, 2] && t.phase == .decorrelated &&
        t.pos == 0) = true ∧
    nexts (exec (.frDecorrelate 0) { filled [8, -2] [3, -7] .midSide with sfDone := 1 })
      (fun t => t.statusOut.bits == 0x0308) = true := by decide

/-- DC1, DC2, DC3 and DC5 by the channel codes. -/
theorem test_channelCodes :
    nexts (exec (.chIndependent 1) (filled [1, 2] [3, 4] .independent))
      (fun t => t.chbuf[0].samples == [1, 2] && t.chbuf[1].samples == [3, 4]) = true ∧
    nexts (exec .chLeftSide (filled [10] [3] .leftSide))
      (fun t => t.chbuf[0].samples == [10] && t.chbuf[1].samples == [7]) = true ∧
    nexts (exec .chRightSide (filled [3] [7] .rightSide))
      (fun t => t.chbuf[0].samples == [10] && t.chbuf[1].samples == [7]) = true ∧
    nexts (exec .chMidSide (filled [5, -5, 5, -1] [5, 5, -1, 1] .midSide))
      (fun t => t.chbuf[0].samples == [8, -2, 5, 0] && t.chbuf[1].samples == [3, -7, 6, -1]) = true := by
  decide

/-- H23's code 11. -/
theorem test_chReserved :
    nexts (exec (.chReserved 11) { synced 0xF8 [0xC9, 0xB8] 4096 4096 16 with pos := 32 })
      (fun t => t.statusOut.bits == 0x0503 && t.outq == [.event ⟨.badHeader, 5, 4, 0, 0⟩]) = true := by decide

/-! ## The footer and the composite commands (part L2.9, P1, P2) -/

/-- P1's line 15, and PK1. -/
theorem test_frCheckFooter :
    nexts (exec (.frCheckFooter 0) (atFooter frameP1 134 0xEC3D))
      (fun t => t.result == 4 && t.pos == 152 && t.crc16 == 0 && t.footer == 0x3E183E18 && t.bufValid &&
        t.samplesDecoded == 4 && t.outq.map (fun r => match r with | .frame f => f.pcm | _ => []) ==
          [[0x8A, 0x81, 0x6C, 0x82, 0x9E, 0x83, 0x58, 0x84]]) = true := by decide

/-- FT2, and P2's mismatch. -/
theorem test_frCheckFooter_rejected :
    nexts (exec (.frCheckFooter 0) (atFooter (frameP1.set 16 0x69) 134 0xEC3D))
      (fun t => t.statusOut.bits == 0x0005 && t.pos == 136 && t.footer == 0 && t.badFrames == 1 &&
        t.outq == [.event ⟨.nonzeroPadding, 0, 17, 0, 0⟩]) = true ∧
    nexts (exec (.frCheckFooter 0) (atFooter (frameP1.set 17 0x3F) 134 0xEC3D))
      (fun t => t.statusOut.bits == 0x0006 && t.footer == 0x3E183F18 && t.samplesDecoded == 4 &&
        t.chbuf[0].samples == [0, 0, 0, 0] && t.chbuf[1].samples == [0, 0, 0, 0]) = true := by decide

/-- The last step of `READ_NEXT_FRAME` over P1's frame; its argument must be 0. -/
theorem test_readNextFrame :
    nexts (exec (.readNextFrame 0) { atFooter frameP1 134 0xEC3D with slot := .readingNext })
      (fun t => t.slot == .idle && t.result == 4 && t.statusOut.bits == 0) = true ∧
    nexts (exec (.readNextFrame 1) (supplied [])) (fun t => t.statusOut.bits == 0x0208) = true := by decide

/-- A step of `DECODE` that delivers its first frame, with `STOP` 1 (P4) and 0. -/
theorem test_decode :
    nexts (exec (.decode 0) { atFooter frameP1 134 0xEC3D with slot := .decoding 0, stop := true })
      (fun t => t.slot == .idle && t.result == 1 && t.statusOut.bits == 0x0009) = true ∧
    nexts (exec (.decode 0) { atFooter frameP1 134 0xEC3D with slot := .decoding 0 })
      (fun t => t.slot == .decoding 1 && t.samplesDecoded == 4) = true := by decide

/-! ## Witnesses: for every statement of Obligations.lean that has hypotheses, states and operands that meet
them together, clause by clause, at boundary values. The clauses stand in the statement's order. -/

/-- The cursor stands at `p`. -/
def posAt (p : Word64) (s : State) : State := { s with pos := p }

/-- The command in progress. -/
def inSlot (x : Slot) (s : State) : State := { s with slot := x }

/-- The host has not ended the input. -/
def notEnded (s : State) : State := { s with srcEnded := false }

/-- `STOP` is 1. -/
def stopping (s : State) : State := { s with stop := true }

/-- The sample count is limited, and `done` samples are decoded. -/
def limited (total : BitVec 36) (done : Word64) (s : State) : State :=
  { s with sp := { s.sp with totalSamples := total }, samplesDecoded := done }

/-- A check that a computation can make of `State.ahead`. -/
theorem ahead_of {s : State} {bits : List Bool}
    (h : s.src.wf = true ∧ s.src.length < 2 ^ 61 ∧ s.pos.toNat ≤ 8 * s.src.length ∧
      s.src.bitsAt s.pos.toNat bits.length = some bits) : s.ahead bits :=
  State.ahead_iff.2 ⟨⟨h.1, h.2.1, h.2.2.1⟩, h.2.2.2⟩

/-- A check that a computation can make of `noSyncIn`. -/
theorem noSync_of {bytes : List Byte}
    (h : ∀ i : Nat, i < bytes.length - 1 →
      ¬ (bytes.getD i 0 = 0xFF ∧ (bytes.getD (i + 1) 0).toNat / 4 = 0b111110)) : noSyncIn bytes := by
  intro i hi
  have hd := h i (by omega)
  rw [List.getD_eq_getElem _ _ (by omega : i < bytes.length), List.getD_eq_getElem _ _ hi] at hd
  exact hd

/-- An answer that is a next state has one. -/
theorem next_of {o : Out} {p : State → Bool} (h : nexts o p = true) : ∃ t, o = .next t ∧ p t = true := by
  cases o with
  | next t => exact ⟨t, rfl, h⟩
  | fault _ => cases h
  | refused _ => cases h

theorem witness_DecodeEncodeRoundTrip :
    (Instr.reservedOpcode 0x05 0).wellFormed = true ∧ (Instr.subframeReserved 31 true).wellFormed = true ∧
      (Instr.chReserved 11).wellFormed = true ∧ (Instr.subframeLpc 31 true).wellFormed = true := by decide

theorem witness_DecodedWordIsItsEncoding :
    decode (.sync 0xFFFB) = .ok (.frameSync true true) ∧
      decode (.command 0xFF00) = .ok (.reservedOpcode 0xFF 0) := by decide

theorem witness_SubframeHeaderByteMap :
    128 ≤ (0x80 : Byte).toNat ∧ (0x01 : Byte).toNat / 2 = 0 ∧ (0x03 : Byte).toNat / 2 = 1 ∧
      (2 ≤ (0x04 : Byte).toNat / 2 ∧ (0x0F : Byte).toNat / 2 ≤ 7) ∧
      (13 ≤ (0x1A : Byte).toNat / 2 ∧ (0x3F : Byte).toNat / 2 ≤ 31) ∧
      (0x10 : Byte).toNat / 2 = 8 + (0 : Fin 5).val ∧ (0x19 : Byte).toNat / 2 = 8 + (4 : Fin 5).val ∧
      (32 ≤ (0x40 : Byte).toNat / 2 ∧ (0x7F : Byte).toNat / 2 ≤ 63) := by decide

theorem witness_StepRunsDecodedInstruction :
    (∃ s : State, s.host = [] ∧ s.slot = .pending (.command 0x1004) ∧
      decode (.command 0x1004) = .ok (.brReadUint 4)) ∧
    (∃ s t : State, t = { s with host := .yield :: s.host } ∧ s.slot = .pending (.command 0x1004) ∧
      decode (.command 0x1004) = .ok (.brReadUint 4)) ∧
    (∃ s : State, s.host = [] ∧ s.slot = .pending (.sync 0xFFFC) ∧
      decode (.sync 0xFFFC) = .error (.notASyncPattern 0xFFFC)) ∧
    (State.reset.host = [] ∧ State.reset.slot = .idle) ∧
    (∃ s : State, s.host = [] ∧ s.slot = .readingNext) ∧ (∃ s : State, s.host = [] ∧ s.slot = .decoding 0) ∧
    decodeTableWord 16 0x1004 = some (.brReadUint 4) :=
  ⟨⟨{ State.reset with slot := .pending (.command 0x1004) }, rfl, rfl, by decide⟩,
    ⟨{ State.reset with slot := .pending (.command 0x1004) }, _, rfl, rfl, by decide⟩,
    ⟨{ State.reset with slot := .pending (.sync 0xFFFC) }, rfl, rfl, by decide⟩, ⟨rfl, rfl⟩,
    ⟨{ State.reset with slot := .readingNext }, rfl, rfl⟩,
    ⟨{ State.reset with slot := .decoding 0 }, rfl, rfl⟩, by decide⟩

theorem long_input (n : Nat) : ∃ s : State, s.srcEnded = false ∧ s.src.length = n :=
  ⟨{ State.reset with src := List.replicate n (0, 0) }, rfl, List.length_replicate⟩

theorem witness_HostMoves :
    State.reset.slot = .idle ∧ (supplied []).slot ≠ .idle ∧ (supplied []).srcEnded = true ∧
    (State.reset.srcEnded = false ∧ State.reset.src.length + 1 < 2 ^ 61) ∧
    (∃ s : State, s.srcEnded = false ∧ 2 ^ 61 ≤ s.src.length + 1) := by
  obtain ⟨s, h, hn⟩ := long_input (2 ^ 61 - 1)
  exact ⟨rfl, by decide, rfl, by decide, s, h, by omega⟩

theorem witness_SuppliedBytesNeverChange :
    (∃ s t : State, s.src.wf = true ∧ step s = .next t ∧ ¬ s.resetNext ∧ s.src.byteAt 0 = some 7 ∧
      s.srcEnded = true ∧ ∀ b : Byte, s.host.head? ≠ some (.supply b)) ∧
    (∃ s t : State, s.src.wf = true ∧ step s = .next t ∧ ¬ s.resetNext ∧ s.host.head? = some (.supply 9)) := by
  refine ⟨⟨{ supplied [7] with host := [.drain] }, _, by decide, rfl, by unfold State.resetNext; decide,
    by decide, rfl, ?_⟩, ⟨{ State.reset with host := [.supply 9] }, _, by decide, rfl,
    by unfold State.resetNext; decide, rfl⟩⟩
  intro b h
  cases h

theorem witness_SoftResetRestoresReset :
    ∃ s p : State, s.fatal = true ∧ p = { s with host := .powerReset :: s.host } :=
  ⟨{ State.reset with fatal := true }, _, rfl, rfl⟩

/-- Channel 0 of a frame of two channels is to be decoded. -/
theorem framed_inv : (framed [] 4 8 .independent 0).Inv := by
  refine ⟨⟨by decide, by decide, by decide⟩, by decide, by decide, by decide, by decide, ?_, by decide,
    fun h => absurd h (by decide), by decide, by decide, rfl, trivial⟩
  unfold State.headerOk
  decide

theorem witness_EveryStepKeepsTheInvariant :
    ∃ s t : State, s.Inv ∧ s.phase = .headerDone ∧ step s = .next t :=
  ⟨framed [] 4 8 .independent 0, _, framed_inv, rfl, rfl⟩

theorem witness_NopDoesNothing : (1 : Byte) ≠ 0 := by decide

theorem witness_CsrReadReturnsRegister :
    ((0x37, State.reset.sfInfo[7].bits) : Byte × Word64) ∈ csrMap State.reset ∧
      (0x38 : Byte) ∉ (csrMap State.reset).map Prod.fst ∧
      (0x0A : Byte) ∉ (csrMap State.reset).map Prod.fst := by decide

theorem witness_CsrWriteRules :
    (∃ sp : StreamParams, ((0x17 : Byte), sp) ∈ spWrites State.reset.sp State.reset.dataIn ∧
      State.reset.spValid = false) ∧
    (0x10 ≤ (0x18 : Byte).toNat ∧ (0x18 : Byte).toNat ≤ 0x18 ∧ (configured [] 4 4 8).spValid = true) ∧
    (State.reset.spValid = false ∧ State.reset.dataIn ≠ 1) ∧
    (∃ s : State, s.spValid = false ∧ s.dataIn = 1 ∧ parametersAccepted s.params.bufDepth s.sp) ∧
    (∃ s : State, s.spValid = false ∧ s.dataIn = 1 ∧ ¬ parametersAccepted s.params.bufDepth s.sp) ∧
    ((0x0F : Byte).toNat < 0x10 ∧ 0x18 < (0x19 : Byte).toNat) :=
  ⟨⟨{ State.reset.sp with totalSamples := 0 }, by decide, rfl⟩, by decide, by decide,
    ⟨validated 4 4 8 32 4, rfl, rfl, by unfold parametersAccepted; decide⟩,
    ⟨validated 4 4 9 32 4, rfl, rfl, by unfold parametersAccepted; decide⟩, by decide⟩

theorem witness_BufReadReturnsSample :
    7 < (8 : Byte).toNat ∧ (7 : Byte).toNat = (7 : ChannelIx).val ∧ State.reset.bufValid = false ∧
    (∃ s : State, s.bufValid = true ∧ s.hdr.channels.toNat ≤ (2 : ChannelIx).val) ∧
    (∃ s : State, s.bufValid = true ∧ s.hdr.blockSize.toNat ≤ s.dataIn.toNat) ∧
    (∃ (s : State) (d : ChannelIx), s.bufValid = true ∧ d.val < s.hdr.channels.toNat ∧
      s.dataIn.toNat < s.hdr.blockSize.toNat ∧ s.chbuf[d].samples[s.dataIn.toNat]? = some 4) :=
  ⟨by decide, by decide, rfl,
    ⟨{ filled [1, 2] [3, 4] .independent with bufValid := true }, rfl, by decide⟩,
    ⟨{ filled [1, 2] [3, 4] .independent with bufValid := true, dataIn := 2 }, rfl, by decide⟩,
    ⟨{ filled [1, 2] [3, 4] .independent with bufValid := true, dataIn := 1 }, 1, rfl, by decide, by decide,
      by decide⟩⟩

theorem witness_AdmissionChecksInOrder :
    (∃ s : State, s.slot = .pending (.command 0x2000) ∧ s.spValid = false ∧ s.bufValid = false ∧
      s.dataIn ≠ 1 ∧ (0x38 : Byte) ∉ (csrMap s).map Prod.fst) ∧
    (∃ s : State, s.slot = .pending (.command 0x2000) ∧ s.spValid = true ∧ s.fatal = true) ∧
    ((1 : Byte) ≠ 0 ∧ 64 < (65 : Byte).toNat ∧ 7 < (8 : Byte).toNat ∧ (7 : Byte).toNat ≤ 7) ∧
    (∃ s : State, s.slot = .pending (.command 0x2000) ∧ s.spValid = true ∧ s.fatal = false ∧
      s.phase ≠ .searching ∧ s.phase ≠ .synced ∧ s.phase ≠ .decorrelated ∧ s.sfDone ≠ s.hdr.channels ∧
      (1 : Byte).toNat ≠ s.sfDone.toNat) ∧
    (∃ s : State, s.slot = .pending (.command 0x2200) ∧ s.spValid = true ∧ s.fatal = false ∧
      s.phase = .headerDone ∧ s.sfDone = 2 ∧ s.hdr.channels.toNat ≤ (2 : Byte).toNat) :=
  ⟨⟨{ State.reset with slot := .pending (.command 0x2000) }, rfl, rfl, rfl, by decide, by decide⟩,
    ⟨{ configured [] 4 4 8 with slot := .pending (.command 0x2000), fatal := true }, rfl, rfl, rfl⟩, by decide,
    ⟨(inSlot (.pending (.command 0x2000)) (framed [] 4 8 .independent 0)), rfl, rfl, rfl, by decide,
      by decide, by decide, by decide, by decide⟩,
    ⟨(inSlot (.pending (.command 0x2200)) (framed [] 4 8 .independent 2)), rfl, rfl, rfl, rfl, rfl,
      by decide⟩⟩

theorem witness_ConsumeFeedsCompletedBytes :
    ∃ (s : State) (n : Nat) (bytes : List Byte), s.sourceOk ∧ s.pos.toNat + n ≤ 8 * s.src.length ∧
      bytes.length = (s.pos.toNat + n) / 8 - s.pos.toNat / 8 ∧ s.src.holds (s.pos.toNat / 8) bytes :=
  ⟨(posAt 4 (supplied [0xA5, 0x3C])), 12, [0xA5, 0x3C], by unfold State.sourceOk; decide, by decide,
    by decide, by unfold Memory.holds; decide⟩

theorem witness_FixedWidthReadsReturnBits :
    (∃ (s : State) (n : Byte) (v : Nat), n = 64 ∧ n.toNat ≤ 64 ∧ v < 2 ^ n.toNat ∧
      s.ahead (bitsOf n.toNat v)) ∧
    (∃ (s : State) (n : Byte), n = 0 ∧ s.ahead (bitsOf n.toNat 0) ∧ fitsIn n.toNat 0) ∧
    (∃ (s : State) (n : Byte) (x : Sample), n = 8 ∧ x = -128 ∧ fitsIn n.toNat x ∧
      s.ahead (signedBits n.toNat x)) :=
  ⟨⟨supplied [0x80, 0, 0, 0, 0, 0, 0, 1], 64, 0x8000000000000001, rfl, by decide, by decide,
      ahead_of (by decide)⟩,
    ⟨supplied [], 0, rfl, ahead_of (by decide), by unfold fitsIn; decide⟩,
    ⟨supplied [0x80], 8, -128, rfl, rfl, by unfold fitsIn; decide, ahead_of (by decide)⟩⟩

theorem witness_ReadUnaryCountsZeros : ∃ s : State, s.ahead (unaryBits 4) :=
  ⟨(posAt 16 (supplied [0xA5, 0x3C, 0x0F, 0x80])), ahead_of (by decide)⟩

theorem witness_AlignAndAlignmentQuery :
    ∃ s t : State, s.sourceOk ∧ s.pos.toNat % 8 ≠ 0 ∧ t.sourceOk ∧ t.pos.toNat % 8 = 0 :=
  ⟨(posAt 1 (supplied [0xA5])), (posAt 8 (supplied [0xA5])), by unfold State.sourceOk; decide,
    by decide, by unfold State.sourceOk; decide, by decide⟩

theorem witness_ReaderRunsOutOfBits :
    (∃ (s : State) (n : Byte), s.sourceOk ∧ n.toNat ≤ 64 ∧ 8 * s.src.length < s.pos.toNat + n.toNat ∧
      s.srcEnded = true) ∧
    (∃ (s : State) (n : Byte), s.sourceOk ∧ n.toNat ≤ 64 ∧ 8 * s.src.length < s.pos.toNat + n.toNat ∧
      s.srcEnded = false) ∧
    (∃ s : State, s.sourceOk ∧ s.pos.toNat < 8 * s.src.length ∧
      ∀ p : Nat, s.pos.toNat ≤ p → p < 8 * s.src.length → s.src.bitAt p = some false) := by
  refine ⟨⟨supplied [0, 0], 17, by unfold State.sourceOk; decide, by decide, by decide, rfl⟩,
    ⟨(notEnded (supplied [0xA5])), 12, by unfold State.sourceOk; decide, by decide, by decide, rfl⟩,
    ⟨supplied [0, 0], by unfold State.sourceOk; decide, by decide, ?_⟩⟩
  intro p _ hp
  have h : ∀ p : Nat, p < 16 → (supplied [0, 0]).src.bitAt p = some false := by decide
  exact h p hp

theorem witness_BitReaderFrame :
    ∃ s t : State, exec (.brReadUint 17) s = .next t ∧ t.eof ≠ s.eof := by
  obtain ⟨t, h, ht⟩ := next_of (o := exec (.brReadUint 17) (supplied [0, 0])) (p := fun t => t.eof) (by decide)
  exact ⟨_, t, h, by rw [ht]; decide⟩

theorem witness_CrcDetectsOneChangedByte : (0x0A : Byte) ≠ 0x0B := by decide

theorem witness_FindSyncFindsFirstSync_1 :
    ∃ s : State, s.sourceOk ∧ s.spValid = true ∧ s.fatal = false ∧ s.phase = .searching ∧
      s.sp.totalSamples = 0 ∧ s.lossArmed = true ∧ 1 = (s.pos.toNat + 7) / 8 ∧
      s.src.holds 1 ([0x12, 0xFF] ++ [0xFF, 0xF8]) ∧ syncPair 0xFF 0xF8 ∧ noSyncIn ([0x12, 0xFF] ++ [0xFF]) :=
  ⟨(posAt 3 (configured [0x55, 0x12, 0xFF, 0xFF, 0xF8] 4 4 8)), by unfold State.sourceOk; decide, rfl,
      rfl, rfl, rfl, rfl, by decide, by unfold Memory.holds; decide, by unfold syncPair; decide,
      noSync_of (by decide)⟩

theorem witness_FindSyncFindsFirstSync_2 :
    ∃ s : State, s.sourceOk ∧ s.spValid = true ∧ s.fatal = false ∧ s.phase = .searching ∧
      s.samplesDecoded.toNat < s.sp.totalSamples.toNat ∧ 0 = (s.pos.toNat + 7) / 8 ∧
      s.src.holds 0 ([] ++ [0xFF, 0xFB]) ∧ syncPair 0xFF 0xFB ∧ noSyncIn ([] ++ [0xFF]) :=
  ⟨limited 1 0 (configured [0xFF, 0xFB] 4 4 8),
      by unfold State.sourceOk; decide, rfl, rfl, rfl, by decide, by decide, by unfold Memory.holds; decide,
      by unfold syncPair; decide, noSync_of (by decide)⟩

theorem witness_FindSyncEnds :
    (∃ s : State, s.spValid = true ∧ s.fatal = false ∧ s.phase = .searching ∧ s.sp.totalSamples ≠ 0 ∧
      s.sp.totalSamples.toNat ≤ s.samplesDecoded.toNat ∧ ∀ n : Nat, s.slot ≠ .decoding n) ∧
    (∃ (s : State) (rest : List Byte), rest ≠ [] ∧ s.spValid = true ∧ s.fatal = false ∧
      s.phase = .searching ∧ s.sourceOk ∧ s.sp.totalSamples = 0 ∧ 1 = (s.pos.toNat + 7) / 8 ∧
      s.src.holds 1 rest ∧ 1 + rest.length = s.src.length ∧ noSyncIn rest ∧ s.srcEnded = true ∧
      s.lossArmed = true) ∧
    (∃ (s : State) (rest : List Byte), rest = [] ∧ s.spValid = true ∧ s.fatal = false ∧
      s.phase = .searching ∧ s.sourceOk ∧ s.sp.totalSamples = 0 ∧ 1 = (s.pos.toNat + 7) / 8 ∧
      s.src.holds 1 rest ∧ 1 + rest.length = s.src.length ∧ noSyncIn rest ∧ s.srcEnded = false) := by
  refine ⟨⟨limited 4 4 (configured [0xFF, 0xF8] 4 4 8), rfl, rfl, rfl, by decide,
      by decide, ?_⟩,
    ⟨(posAt 1 (configured [0x55, 0xFF, 0xFC] 4 4 8)), [0xFF, 0xFC], by decide, rfl, rfl, rfl,
      by unfold State.sourceOk; decide, rfl, by decide, by unfold Memory.holds; decide, by decide,
      noSync_of (by decide), rfl, rfl⟩,
    ⟨(posAt 8 (notEnded (configured [0x55] 4 4 8))), [], rfl, rfl, rfl, rfl,
      by unfold State.sourceOk; decide, rfl, by decide, by unfold Memory.holds; decide, by decide,
      noSync_of (by decide), rfl⟩⟩
  intro n h
  cases h

theorem witness_FrameSyncCodeStartsFrame :
    ∃ (s : State) (y : Byte) (a : Word64), y = 0xF8 + (if true then 2 else 0) + (if true then 1 else 0) ∧
      y = 0xFB ∧ a = (s.pos >>> 3) - 2 ∧ a = 0 :=
  ⟨(posAt 16 (configured [0xFF, 0xFB] 4 4 8)), 0xFB, 0, rfl, rfl, by decide, rfl⟩

/-- H1's header, and H19's: the longest coded number, with a block size and a rate in extra bits. -/
def headerH1 : HeaderFields :=
  { bsCode := 12, rateCode := 9, channelCode := 1, sizeCode := 4, numberLength := 0, blockSize := 4096,
    rate := 44100, channels := 2, assign := .independent, bps := 16, blocking := false, number := 0 }

/-- H19's header. -/
def headerH19 : HeaderFields :=
  { bsCode := 6, rateCode := 9, channelCode := 1, sizeCode := 4, numberLength := 6, blockSize := 10,
    rate := 44100, channels := 2, assign := .independent, bps := 16, blocking := true, number := 2 ^ 36 - 1 }

theorem headerH1_coded (p : Params) (sp : StreamParams) : headerH1.coded p sp :=
  ⟨.inr (.inr (.inr (.inr ⟨by decide, by decide⟩))), .inl (by simp [headerH1]),
    .inl ⟨by decide, rfl, rfl⟩, .inl (by simp [headerH1]), .inl ⟨rfl, by decide⟩⟩

theorem headerH19_coded (p : Params) (sp : StreamParams) : headerH19.coded p sp :=
  ⟨.inr (.inr (.inl ⟨rfl, by decide, by decide⟩)), .inl (by simp [headerH19]),
    .inl ⟨by decide, rfl, rfl⟩, .inl (by simp [headerH19]), .inr ⟨by decide, by decide, by decide, fun _ => rfl⟩⟩

theorem witness_HeaderReadsBack_1 :
    ∃ (s : State) (h : HeaderFields) (crc : Byte), h = headerH1 ∧ s.spValid = true ∧ s.fatal = false ∧
      s.phase = .synced ∧ s.syncByte1.getLsbD 1 = false ∧ s.syncByte1.getLsbD 0 = h.blocking ∧
      h.coded s.params s.sp ∧ h.blockSize ≤ s.sp.maxBlock.toNat ∧ crc = (s.consume h.bits.length).crc8 ∧
      s.ahead (h.bits ++ byteBits crc) :=
  ⟨synced 0xF8 [0xC9, 0x18, 0x00, 0xC2] 4096 4096 16, headerH1, 0xC2, rfl, rfl, rfl, rfl, by decide, by decide,
      headerH1_coded _ _, by decide, by decide, ahead_of (by decide)⟩

theorem witness_HeaderReadsBack_2 :
    ∃ (s : State) (h : HeaderFields) (crc : Byte), h = headerH19 ∧ s.spValid = true ∧ s.fatal = false ∧
      s.phase = .synced ∧ s.syncByte1.getLsbD 1 = false ∧ s.syncByte1.getLsbD 0 = h.blocking ∧
      h.coded s.params s.sp ∧ h.blockSize ≤ s.sp.maxBlock.toNat ∧ crc = (s.consume h.bits.length).crc8 ∧
      s.ahead (h.bits ++ byteBits crc) :=
  ⟨synced 0xF9 [0x69, 0x18, 0xFE, 0xBF, 0xBF, 0xBF, 0xBF, 0xBF, 0xBF, 0x09, 0x73] 8 16 16, headerH19, 0x73, rfl,
      rfl, rfl, rfl, by decide, by decide, headerH19_coded _ _, by decide, by decide, ahead_of (by decide)⟩

/-- H20 to H26. -/
theorem witness_HeaderBytesRejected_1 :
    ∃ s : State, s.spValid = true ∧ s.fatal = false ∧ s.phase = .synced ∧ s.syncByte1.getLsbD 1 = true :=
  ⟨synced 0xFA [] 4 4 8, rfl, rfl, rfl, by decide⟩

theorem witness_HeaderBytesRejected_2 :
    ∃ s : State, s.spValid = true ∧ s.fatal = false ∧ s.phase = .synced ∧ s.syncByte1.getLsbD 1 = false ∧
      s.ahead (byteBits 0x09) ∧ (0x09 : Byte).toNat / 16 = 0 :=
  ⟨synced 0xF8 [0x09] 4 4 8, rfl, rfl, rfl, by decide, ahead_of (by decide), by decide⟩

theorem witness_HeaderBytesRejected_3 :
    ∃ s : State, s.syncByte1.getLsbD 1 = false ∧ s.ahead (byteBits 0x1F) ∧ (0x1F : Byte).toNat / 16 ≠ 0 ∧
      (0x1F : Byte).toNat % 16 = 15 :=
  ⟨synced 0xF8 [0x1F] 4 4 8, by decide, ahead_of (by decide), by decide, by decide⟩

theorem witness_HeaderBytesRejected_4 :
    ∃ s : State, s.ahead (byteBits 0x1E ++ byteBits 0xB8) ∧ (0x1E : Byte).toNat / 16 ≠ 0 ∧
      (0x1E : Byte).toNat % 16 ≠ 15 ∧ 11 ≤ (0xB8 : Byte).toNat / 16 :=
  ⟨synced 0xF8 [0x1E, 0xB8] 4 4 8, ahead_of (by decide), by decide, by decide, by decide⟩

theorem witness_HeaderBytesRejected_5 :
    ∃ s : State, s.ahead (byteBits 0xC9 ++ byteBits 0xA6) ∧ (0xA6 : Byte).toNat / 16 ≤ 10 ∧
      (0xA6 : Byte).toNat / 2 % 8 = 3 :=
  ⟨synced 0xF8 [0xC9, 0xA6] 4 4 8, ahead_of (by decide), by decide, by decide⟩

theorem witness_HeaderBytesRejected_6 :
    ∃ s : State, s.ahead (byteBits 0xC9 ++ byteBits 0x0E) ∧ (0x0E : Byte).toNat / 16 ≤ 10 ∧
      (0x0E : Byte).toNat / 2 % 8 = 7 ∧ s.params.bps7 = .reserved :=
  ⟨{ synced 0xF8 [0xC9, 0x0E] 4 4 8 with params := ⟨4, .reserved⟩ }, ahead_of (by decide), by decide, by decide,
      rfl⟩

theorem witness_HeaderBytesRejected_7 :
    ∃ s : State, s.ahead (byteBits 0xC9 ++ byteBits 0x0F) ∧ (0x0F : Byte).toNat / 16 ≤ 10 ∧
      (0x0F : Byte).toNat / 2 % 8 ≠ 3 ∧ ((0x0F : Byte).toNat / 2 % 8 = 7 → s.params.bps7 = .bits32) ∧
      (0x0F : Byte).toNat % 2 = 1 :=
  ⟨synced 0xF8 [0xC9, 0x0F] 4 4 8, ahead_of (by decide), by decide, by decide, fun _ => rfl, by decide⟩

/-- H27 to H30, H28, H2 and H31. -/
theorem witness_HeaderNumberCrcAndSizeRejected_1 :
    ∃ s : State, s.spValid = true ∧ s.fatal = false ∧ s.phase = .synced ∧ s.syncByte1.getLsbD 1 = false ∧
      headBytesOk s.params 0xC9 0x18 ∧ leadInvalid (s.syncByte1.getLsbD 0) 0xFE ∧
      s.ahead (byteBits 0xC9 ++ byteBits 0x18 ++ byteBits 0xFE) :=
  ⟨synced 0xF8 [0xC9, 0x18, 0xFE] 4 4 8, rfl, rfl, rfl, by decide, by unfold headBytesOk; decide,
      by unfold leadInvalid; decide, ahead_of (by decide)⟩

theorem witness_HeaderNumberCrcAndSizeRejected_2 :
    ∃ (s : State) (lead bad : Byte) (good : List Byte), s.syncByte1.getLsbD 1 = false ∧
      headBytesOk s.params 0xC9 0x18 ∧ ¬ leadInvalid (s.syncByte1.getLsbD 0) lead ∧
      good.length + 1 = continuationsOf lead ∧ (∀ b ∈ good, b.toNat / 64 = 2) ∧ bad.toNat / 64 ≠ 2 ∧
      s.ahead (byteBits 0xC9 ++ byteBits 0x18 ++ byteBits lead ++ good.flatMap byteBits ++ byteBits bad) :=
  ⟨synced 0xF8 [0xC9, 0x18, 0xE0, 0x80, 0xC0] 4 4 8, 0xE0, 0xC0, [0x80], by decide,
      by unfold headBytesOk; decide, by unfold leadInvalid; decide, by decide, by decide, by decide,
      ahead_of (by decide)⟩

theorem witness_HeaderNumberCrcAndSizeRejected_3 :
    ∃ (s : State) (h : HeaderFields) (expected actual : Byte), s.syncByte1.getLsbD 1 = false ∧
      s.syncByte1.getLsbD 0 = h.blocking ∧ h.coded s.params s.sp ∧
      expected = (s.consume h.bits.length).crc8 ∧ s.ahead (h.bits ++ byteBits actual) ∧ expected ≠ actual :=
  ⟨synced 0xF8 [0xC9, 0x18, 0x00, 0xC3] 4096 4096 16, headerH1, 0xC2, 0xC3, by decide, by decide,
      headerH1_coded _ _, by decide, ahead_of (by decide), by decide⟩

theorem witness_HeaderNumberCrcAndSizeRejected_4 :
    ∃ (s : State) (h : HeaderFields) (expected actual : Byte), s.syncByte1.getLsbD 1 = false ∧
      s.syncByte1.getLsbD 0 = h.blocking ∧ h.coded s.params s.sp ∧
      expected = (s.consume h.bits.length).crc8 ∧ s.ahead (h.bits ++ byteBits actual) ∧ expected = actual ∧
      s.sp.maxBlock.toNat < h.blockSize :=
  ⟨synced 0xF8 [0xC9, 0x18, 0x00, 0xC2] 4095 4095 16, headerH1, 0xC2, 0xC2, by decide, by decide,
      headerH1_coded _ _, by decide, ahead_of (by decide), rfl, by decide⟩

theorem witness_SyncAndHeaderFrame :
    (∃ s t : State, exec (.frFindSync 0) s = .next t ∧ t.phase = .synced) ∧
    (∃ s t : State, exec (.frDecodeHeader 0) s = .next t ∧ t ≠ s ∧ t.statusOut ≠ ⟨.ok, 0⟩) := by
  obtain ⟨t, h, ht⟩ := next_of (o := exec (.frFindSync 0) (configured [0xFF, 0xF8] 4 4 8))
    (p := fun t => decide (t.phase = .synced)) (by decide)
  obtain ⟨u, k, hu⟩ := next_of (o := exec (.frDecodeHeader 0) (synced 0xFA [] 4 4 8))
    (p := fun t => decide (t.phase ≠ .synced ∧ t.statusOut ≠ ⟨.ok, 0⟩)) (by decide)
  refine ⟨⟨_, t, h, of_decide_eq_true ht⟩, ⟨_, u, k, fun e => ?_, (of_decide_eq_true hu).2⟩⟩
  exact (of_decide_eq_true hu).1 (by rw [e]; rfl)

theorem witness_SubframeCommandRunsItsCode :
    ∃ s t : State, s.spValid = true ∧ s.fatal = false ∧ s.phase = .headerDone ∧
      s.sfDone.toNat = (1 : ChannelIx).val ∧ (1 : ChannelIx).val < s.hdr.channels.toNat ∧
      s.ahead (byteBits 0x00) ∧ decode (.subframeByte 0x00) = .ok (.subframeConstant false) ∧
      exec (.subframeConstant false) (s.consume 8) = .next t := by
  obtain ⟨t, h, _⟩ := next_of
    (o := exec (.subframeConstant false) ((framed [0x00, 0x7F, 0x80] 2 8 .midSide 1).consume 8))
    (p := fun _ => true) (by decide)
  exact ⟨_, t, rfl, rfl, rfl, by decide, by decide, ahead_of (by decide), by decide, h⟩

/-- A check that a computation can make of values and their width. -/
theorem fits_all {w : Nat} {xs : List Sample}
    (h : xs.all (fun x => (x.setWidth w).signExtend 64 == x) = true) : ∀ x ∈ xs, fitsIn w x :=
  fun x hx => eq_of_beq (List.all_eq_true.1 h x hx)

theorem framed_depth (bytes : List Byte) (bs : BitVec 16) (c : BitVec 4) :
    (framed bytes bs 8 .independent c).depthOf 0 = 8 := rfl

theorem framed_depth_side (bytes : List Byte) (bs : BitVec 16) (c : BitVec 4) :
    (framed bytes bs 8 .midSide c).depthOf 1 = 9 := rfl

/-- SD2 (no wasted bits) and W3 (the most for 8 bits), as command and as code. -/
theorem witness_ConstantSubframeReadsBack_1 :
    ∃ s : State, s.sfDone.toNat = (1 : ChannelIx).val ∧ s.depthOf 1 = 9 ∧ fitsIn (s.depthOf 1 - 0) 255 ∧
      s.spValid = true ∧ s.fatal = false ∧ s.phase = .headerDone ∧ (1 : ChannelIx).val < s.hdr.channels.toNat ∧
      s.ahead (byteBits 0x00 ++ (wastedCode 0 ++ signedBits (s.depthOf 1 - 0) 255)) :=
  ⟨framed [0x00, 0x7F, 0x80] 2 8 .midSide 1, by decide, by decide, by rw [framed_depth_side]; unfold fitsIn; decide, rfl, rfl, rfl,
      by decide, ahead_of (by rw [framed_depth_side]; decide)⟩

theorem witness_ConstantSubframeReadsBack_2 :
    ∃ s : State, s.sfDone.toNat = (0 : ChannelIx).val ∧ 7 + 1 = s.depthOf 0 ∧ fitsIn (s.depthOf 0 - 7) 0 ∧
      s.ahead (wastedCode 7 ++ signedBits (s.depthOf 0 - 7) 0) :=
  ⟨framed [0x02] 4 8 .independent 0, by decide, by decide, by rw [framed_depth]; unfold fitsIn; decide, ahead_of (by rw [framed_depth]; decide)⟩

/-- W2, as command and as code. -/
theorem witness_VerbatimSubframeReadsBack_1 :
    ∃ (s : State) (xs : List Sample), s.sfDone.toNat = (0 : ChannelIx).val ∧ 1 < s.depthOf 0 ∧
      xs.length = s.hdr.blockSize.toNat ∧ (∀ x ∈ xs, fitsIn (s.depthOf 0 - 1) x) ∧ s.spValid = true ∧
      s.fatal = false ∧ s.phase = .headerDone ∧ (0 : ChannelIx).val < s.hdr.channels.toNat ∧
      s.ahead (byteBits 0x03 ++ (wastedCode 1 ++ xs.flatMap (signedBits (s.depthOf 0 - 1)))) :=
  ⟨framed [0x03, 0xB4, 0xEC] 2 8 .independent 0, [52, -10], by decide, by decide, by decide,
      by rw [framed_depth]; exact fits_all (by decide), rfl, rfl, rfl, by decide, ahead_of (by rw [framed_depth]; decide)⟩

theorem witness_VerbatimSubframeReadsBack_2 :
    ∃ (s : State) (xs : List Sample), s.sfDone.toNat = (0 : ChannelIx).val ∧ 1 < s.depthOf 0 ∧
      xs.length = s.hdr.blockSize.toNat ∧ (∀ x ∈ xs, fitsIn (s.depthOf 0 - 1) x) ∧
      s.ahead (wastedCode 1 ++ xs.flatMap (signedBits (s.depthOf 0 - 1))) :=
  ⟨framed [0xB4, 0xEC] 2 8 .independent 0, [52, -10], by decide, by decide, by decide,
      by rw [framed_depth]; exact fits_all (by decide), ahead_of (by rw [framed_depth]; decide)⟩

/-- RS1's two partitions, the first escaped; the Rice codes by their folded values. -/
def partsRS1 : List Part := [.escaped 4 [3, -4], .rice 0 [2, 0]]

theorem partsRS1_fit : partsFit 15 4 0 1 partsRS1 := by
  refine ⟨by decide, by decide, by decide, by decide, ?_, ?_⟩
  · intro p hp
    simp only [partsRS1, List.mem_cons, List.not_mem_nil, or_false] at hp
    rcases hp with rfl | rfl
    · exact ⟨by decide, fits_all (by decide)⟩
    · simp only [Part.codable]
      decide
  · decide

/-- RS2's partition, with RICE2. -/
def partsRS2 : List Part := [.rice 5 [200, 199, 0, 2]]

theorem partsRS2_fit : partsFit 31 4 0 0 partsRS2 := by
  refine ⟨by decide, by decide, by decide, by decide, ?_, ?_⟩
  · intro p hp
    simp only [partsRS2, List.mem_cons, List.not_mem_nil, or_false] at hp
    subst hp
    simp only [Part.codable]
    decide
  · decide

/-- F1's partition: order 1. -/
def partsF1 : List Part := [.rice 2 [2, 1, 4]]

theorem partsF1_fit : partsFit 15 4 1 0 partsF1 := by
  refine ⟨by decide, by decide, by decide, by decide, ?_, ?_⟩
  · intro p hp
    simp only [partsF1, List.mem_cons, List.not_mem_nil, or_false] at hp
    subst hp
    simp only [Part.codable]
    decide
  · decide

/-- F1, RS1 and RS2. -/
theorem witness_FixedSubframeReadsBack_1 :
    ∃ s : State, s.sfDone.toNat = (0 : ChannelIx).val ∧ 0 < s.depthOf 0 ∧
      (1 : Fin 5).val ≤ s.hdr.blockSize.toNat ∧ (∀ x ∈ [(10 : Sample)], fitsIn (s.depthOf 0 - 0) x) ∧
      partsFit (escapeValue false) s.hdr.blockSize.toNat (1 : Fin 5).val 0 partsF1 ∧
      s.ahead (wastedCode 0 ++ ([(10 : Sample)].flatMap (signedBits (s.depthOf 0 - 0)) ++
        residualBits false 0 partsF1)) :=
  ⟨framed [0x0A, 0x00, 0xB5, 0x40] 4 8 .independent 0, by decide, by decide, by decide,
      by rw [framed_depth]; exact fits_all (by decide), partsF1_fit, ahead_of (by rw [framed_depth]; decide)⟩

theorem witness_FixedSubframeReadsBack_2 :
    ∃ s : State, s.sfDone.toNat = (0 : ChannelIx).val ∧ 0 < s.depthOf 0 ∧
      partsFit (escapeValue false) s.hdr.blockSize.toNat (0 : Fin 5).val 1 partsRS1 ∧
      s.ahead (wastedCode 0 ++ (([] : List Sample).flatMap (signedBits (s.depthOf 0 - 0)) ++
        residualBits false 1 partsRS1)) :=
  ⟨framed [0x07, 0xC8, 0x78, 0x06] 4 8 .independent 0, by decide, by decide, partsRS1_fit,
      ahead_of (by rw [framed_depth]; decide)⟩

theorem witness_FixedSubframeReadsBack_3 :
    ∃ s : State, s.sfDone.toNat = (0 : ChannelIx).val ∧ 0 < s.depthOf 0 ∧
      partsFit (escapeValue true) s.hdr.blockSize.toNat (0 : Fin 5).val 0 partsRS2 ∧
      s.ahead (wastedCode 0 ++ (([] : List Sample).flatMap (signedBits (s.depthOf 0 - 0)) ++
        residualBits true 0 partsRS2)) :=
  ⟨framed [0x40, 0xA0, 0x50, 0x04, 0xF0, 0x44] 4 8 .independent 0, by decide, by decide, partsRS2_fit,
      ahead_of (by rw [framed_depth]; decide)⟩

/-- LP1's partition: order 2. -/
def partsLP1 : List Part := [.rice 1 [2, 1]]

theorem partsLP1_fit : partsFit 15 4 2 0 partsLP1 := by
  refine ⟨by decide, by decide, by decide, by decide, ?_, ?_⟩
  · intro p hp
    simp only [partsLP1, List.mem_cons, List.not_mem_nil, or_false] at hp
    subst hp
    simp only [Part.codable]
    decide
  · decide

/-- LP1. -/
theorem witness_LpcSubframeReadsBack :
    ∃ (s : State) (warm coeff : List Sample) (body : List Bool), 2 = (1 : BitVec 5).toNat + 1 ∧
      s.sfDone.toNat = (0 : ChannelIx).val ∧ 0 < s.depthOf 0 ∧ 2 ≤ s.hdr.blockSize.toNat ∧ warm.length = 2 ∧
      coeff.length = 2 ∧ (∀ x ∈ warm, fitsIn (s.depthOf 0 - 0) x) ∧ (∀ x ∈ coeff, fitsIn 4 x) ∧
      partsFit (escapeValue false) s.hdr.blockSize.toNat 2 0 partsLP1 ∧
      body = wastedCode 0 ++ (warm.flatMap (signedBits (s.depthOf 0 - 0)) ++ (bitsOf 4 (4 - 1) ++
        (bitsOf 5 1 ++ (coeff.flatMap (signedBits 4) ++ residualBits false 0 partsLP1)))) ∧
      s.ahead body :=
  ⟨framed [0x04, 0x06, 0x30, 0x9F, 0x80, 0x2B] 4 8 .independent 0, [4, 6], [3, -1], _, by decide, by decide,
    by decide, by decide, rfl, rfl, by rw [framed_depth]; exact fits_all (by decide), fits_all (by decide), partsLP1_fit, rfl,
    ahead_of (by rw [framed_depth]; decide)⟩

theorem witness_ResidualReadsBack_1 :
    ∃ s : State, partsFit 15 s.hdr.blockSize.toNat s.residual.order.toNat 1 partsRS1 ∧
      s.ahead (partsBits 4 15 1 partsRS1) :=
  ⟨(posAt 2 (framed [0x07, 0xC8, 0x78, 0x06] 4 8 .independent 0)), partsRS1_fit, ahead_of (by decide)⟩

theorem witness_ResidualReadsBack_2 :
    ∃ s : State, partsFit 31 s.hdr.blockSize.toNat s.residual.order.toNat 0 partsRS2 ∧
      s.ahead (partsBits 5 31 0 partsRS2) :=
  ⟨(posAt 2 (framed [0x40, 0xA0, 0x50, 0x04, 0xF0, 0x44] 4 8 .independent 0)), partsRS2_fit,
      ahead_of (by decide)⟩

theorem witness_ReservedCodesEndTheFrame : (framed [] 4 8 .independent 1).sfDone.toNat = (1 : ChannelIx).val := by
  decide

/-- W4, E6 and E5. -/
theorem witness_SubframeHeaderRejected_1 :
    ∃ s : State, s.sfDone.toNat = (0 : ChannelIx).val ∧ s.depthOf 0 = 7 + 1 ∧ s.ahead (unaryBits 7) :=
  ⟨framed [0x01] 4 8 .independent 0, by decide, by decide, ahead_of (by decide)⟩

theorem witness_SubframeHeaderRejected_2 :
    ∃ s : State, s.sfDone.toNat = (0 : ChannelIx).val ∧ 1 < s.depthOf 0 ∧
      s.hdr.blockSize.toNat < (4 : Fin 5).val ∧ s.ahead (wastedCode 1) :=
  ⟨framed [0x80] 3 8 .independent 0, by decide, by decide, by decide, ahead_of (by decide)⟩

theorem witness_SubframeHeaderRejected_3 :
    ∃ s : State, s.sfDone.toNat = (0 : ChannelIx).val ∧ 0 < s.depthOf 0 ∧
      s.hdr.blockSize.toNat < (4 : BitVec 5).toNat + 1 ∧ s.ahead (wastedCode 0) :=
  ⟨framed [] 4 8 .independent 0, by decide, by decide, by decide, ahead_of (by decide)⟩

/-- LP3, LP4, RS6, RS7 and FX2; then LP1 with method 2, with partition order 3 and, with RICE2, with partition
order 2; then RS7 and FX2 from after the method on. -/
theorem witness_SubframeBodyRejected_1 :
    ∃ s : State, s.sfDone.toNat = (0 : ChannelIx).val ∧ 0 < s.depthOf 0 ∧
      (∀ x ∈ [(1 : Sample)], fitsIn (s.depthOf 0 - 0) x) ∧ [(1 : Sample)].length ≤ s.hdr.blockSize.toNat ∧
      [(1 : Sample)].length = (0 : BitVec 5).toNat + 1 ∧
      s.ahead (wastedCode 0 ++ [(1 : Sample)].flatMap (signedBits (s.depthOf 0 - 0)) ++ bitsOf 4 15) :=
  ⟨framed [0x01, 0xF0] 4 8 .independent 0, by decide, by decide, by rw [framed_depth]; exact fits_all (by decide), by decide, by decide,
      ahead_of (by rw [framed_depth]; decide)⟩

theorem witness_SubframeBodyRejected_2 :
    ∃ s : State, s.sfDone.toNat = (0 : ChannelIx).val ∧
      s.ahead (wastedCode 0 ++ [(1 : Sample)].flatMap (signedBits (s.depthOf 0 - 0)) ++ bitsOf 4 3 ++
        bitsOf 5 31) :=
  ⟨framed [0x01, 0x3F, 0x80] 4 8 .independent 0, by decide, ahead_of (by rw [framed_depth]; decide)⟩

theorem witness_SubframeBodyRejected_3 :
    ∃ s : State, s.sfDone.toNat = (0 : ChannelIx).val ∧ 0 < s.depthOf 0 ∧ ([] : List Sample).length = (0 : Fin 5).val ∧
      s.ahead (wastedCode 0 ++ ([] : List Sample).flatMap (signedBits (s.depthOf 0 - 0)) ++ bitsOf 2 2) :=
  ⟨framed [0x80] 4 8 .independent 0, by decide, by decide, by decide, ahead_of (by rw [framed_depth]; decide)⟩

theorem witness_SubframeBodyRejected_4 :
    ∃ s : State, s.sfDone.toNat = (0 : ChannelIx).val ∧ s.hdr.blockSize.toNat % 2 ^ 3 ≠ 0 ∧
      s.ahead (wastedCode 0 ++ ([] : List Sample).flatMap (signedBits (s.depthOf 0 - 0)) ++ bitsOf 2 0 ++
        bitsOf 4 3) :=
  ⟨framed [0x0C] 4 8 .independent 0, by decide, by decide, ahead_of (by rw [framed_depth]; decide)⟩

theorem witness_SubframeBodyRejected_5 :
    ∃ s : State, s.sfDone.toNat = (0 : ChannelIx).val ∧ s.hdr.blockSize.toNat / 2 ^ 2 < (2 : Fin 5).val ∧
      (∀ x ∈ [(0 : Sample), 0], fitsIn (s.depthOf 0 - 0) x) ∧
      s.ahead (wastedCode 0 ++ [(0 : Sample), 0].flatMap (signedBits (s.depthOf 0 - 0)) ++ bitsOf 2 0 ++
        bitsOf 4 2) :=
  ⟨framed [0x00, 0x00, 0x08] 4 8 .independent 0, by decide, by decide, by rw [framed_depth]; exact fits_all (by decide),
      ahead_of (by rw [framed_depth]; decide)⟩

theorem witness_SubframeBodyRejected_6 :
    ∃ (s : State) (warm coeff : List Sample), s.sfDone.toNat = (0 : ChannelIx).val ∧ 0 < s.depthOf 0 ∧
      (∀ x ∈ warm, fitsIn (s.depthOf 0 - 0) x) ∧ warm.length ≤ s.hdr.blockSize.toNat ∧
      warm.length = (1 : BitVec 5).toNat + 1 ∧ coeff.length = (1 : BitVec 5).toNat + 1 ∧
      (∀ x ∈ coeff, fitsIn (3 + 1) x) ∧
      s.ahead (wastedCode 0 ++ warm.flatMap (signedBits (s.depthOf 0 - 0)) ++ (bitsOf 4 3 ++ (bitsOf 5 1 ++
        coeff.flatMap (signedBits (3 + 1)))) ++ bitsOf 2 2) :=
  ⟨framed [0x04, 0x06, 0x30, 0x9F, 0xC0] 4 8 .independent 0, [4, 6], [3, -1], by decide, by decide,
    by rw [framed_depth]; exact fits_all (by decide), by decide, by decide, by decide, fits_all (by decide),
    ahead_of (by rw [framed_depth]; decide)⟩

theorem witness_SubframeBodyRejected_7 :
    ∃ (s : State) (warm coeff : List Sample), s.sfDone.toNat = (0 : ChannelIx).val ∧
      s.hdr.blockSize.toNat % 2 ^ 3 ≠ 0 ∧
      s.ahead (wastedCode 0 ++ warm.flatMap (signedBits (s.depthOf 0 - 0)) ++ (bitsOf 4 3 ++ (bitsOf 5 1 ++
        coeff.flatMap (signedBits (3 + 1)))) ++ bitsOf 2 0 ++ bitsOf 4 3) :=
  ⟨framed [0x04, 0x06, 0x30, 0x9F, 0x86] 4 8 .independent 0, [4, 6], [3, -1], by decide, by decide,
    ahead_of (by rw [framed_depth]; decide)⟩

theorem witness_SubframeBodyRejected_8 :
    ∃ (s : State) (warm coeff : List Sample), s.sfDone.toNat = (0 : ChannelIx).val ∧
      s.hdr.blockSize.toNat / 2 ^ 2 < (1 : BitVec 5).toNat + 1 ∧
      s.ahead (wastedCode 0 ++ warm.flatMap (signedBits (s.depthOf 0 - 0)) ++ (bitsOf 4 3 ++ (bitsOf 5 1 ++
        coeff.flatMap (signedBits (3 + 1)))) ++ bitsOf 2 1 ++ bitsOf 4 2) :=
  ⟨framed [0x04, 0x06, 0x30, 0x9F, 0xA4] 4 8 .independent 0, [4, 6], [3, -1], by decide, by decide,
    ahead_of (by rw [framed_depth]; decide)⟩

theorem witness_SubframeBodyRejected_9 :
    ∃ s : State, s.sfDone.toNat = (0 : ChannelIx).val ∧ s.hdr.blockSize.toNat % 2 ^ 3 ≠ 0 ∧
      s.ahead (bitsOf 4 3) :=
  ⟨framed [0x30] 4 8 .independent 0, by decide, by decide, ahead_of (by decide)⟩

theorem witness_SubframeBodyRejected_10 :
    ∃ s : State, s.sfDone.toNat = (0 : ChannelIx).val ∧
      s.hdr.blockSize.toNat / 2 ^ 2 < s.residual.order.toNat ∧ s.ahead (bitsOf 4 2) :=
  ⟨(framed [0x20] 4 8 .independent 0).setResidual ⟨2, false, 0, []⟩, by decide, by decide,
    ahead_of (by decide)⟩

theorem witness_SubframeFrame :
    (∃ s t : State, exec (.frDecodeSubframe 0) s = .next t ∧ t.statusOut = ⟨.ok, 0⟩) ∧
    (∃ s t : State, exec (.frDecodeSubframe 0) s = .next t ∧ t.statusOut ≠ ⟨.ok, 0⟩) ∧
    (∃ s t : State, exec (.frDecodeSubframe 0) s = .next t ∧ t.statusOut = ⟨.endOfStream, 0⟩) := by
  obtain ⟨t, h, ht⟩ := next_of (o := exec (.frDecodeSubframe 0) (framed [0x00, 0x80] 3 8 .independent 0))
    (p := fun t => decide (t.statusOut = ⟨.ok, 0⟩)) (by decide)
  obtain ⟨u, k, hu⟩ := next_of (o := exec (.frDecodeSubframe 0) (framed [0x80] 3 8 .independent 0))
    (p := fun t => decide (t.statusOut ≠ ⟨.ok, 0⟩)) (by decide)
  obtain ⟨v, l, hv⟩ := next_of (o := exec (.frDecodeSubframe 0) (framed [0x02, 0x01] 3 8 .independent 0))
    (p := fun t => decide (t.statusOut = ⟨.endOfStream, 0⟩)) (by decide)
  exact ⟨⟨_, t, h, of_decide_eq_true ht⟩, ⟨_, u, k, of_decide_eq_true hu⟩, ⟨_, v, l, of_decide_eq_true hv⟩⟩

theorem witness_ChannelCodesTransform :
    ∃ (s : State) (n : BitVec 3), (Instr.chMidSide, Assign.midSide) ∈
        [(Instr.chIndependent n, Assign.independent), (.chLeftSide, .leftSide), (.chRightSide, .rightSide),
          (.chMidSide, .midSide)] ∧ 0 < s.hdr.blockSize.toNat :=
  ⟨filled [8, -2] [3, -7] .midSide, 1, by decide, by decide⟩

theorem witness_DecorrelateUndoesAssignment :
    ∃ s : State, s.spValid = true ∧ s.fatal = false ∧ s.phase = .headerDone ∧ s.sfDone = s.hdr.channels ∧
      s.hdr.assign = .midSide :=
  ⟨filled [8, -2] [3, -7] .midSide, rfl, rfl, rfl, rfl, rfl⟩

theorem witness_MidSideRoundTrip :
    ∃ mid side : Sample, -(2 ^ 61) ≤ mid.toInt ∧ mid.toInt < 2 ^ 61 ∧ mid.toInt = -(2 ^ 61) ∧
      -(2 ^ 61) ≤ side.toInt ∧ side.toInt < 2 ^ 61 ∧ side.toInt = 2 ^ 61 - 1 :=
  ⟨-(2 ^ 61), 2 ^ 61 - 1, by decide, by decide, by decide, by decide, by decide, by decide⟩

/-- FT1, in a command of its own, in `READ_NEXT_FRAME` and in `DECODE`. -/
theorem witness_FooterDeliversFrame :
    ∃ s r d0 d1 : State, s.spValid = true ∧ s.fatal = false ∧ s.phase = .decorrelated ∧
      2 = (8 - s.pos.toNat % 8) % 8 ∧
      s.ahead (List.replicate 2 false ++ bitsOf 16 (s.consume 2).crc16.toNat) ∧
      r = { s with slot := .readingNext } ∧ d0 = { s with slot := .decoding 0 } ∧
      d1 = { s with slot := .decoding 0, stop := true } ∧ s.stop = false :=
  ⟨atFooter frameP1 134 0xEC3D, _, _, _, rfl, rfl, rfl, by decide, ahead_of (by decide), rfl, rfl, rfl, rfl⟩

theorem witness_FooterMismatchZeroesFrame :
    ∃ s : State, s.spValid = true ∧ s.fatal = false ∧ s.phase = .decorrelated ∧
      2 = (8 - s.pos.toNat % 8) % 8 ∧ 0x3E18 = (s.consume 2).crc16 ∧ (0x3E18 : Word16) ≠ 0x3F18 ∧
      s.ahead (List.replicate 2 false ++ bitsOf 16 (0x3F18 : Word16).toNat) :=
  ⟨atFooter (frameP1.set 17 0x3F) 134 0xEC3D, rfl, rfl, rfl, by decide, by decide, by decide,
    ahead_of (by decide)⟩

/-- FT2. -/
theorem witness_NonzeroPaddingDropsFrame :
    ∃ s : State, s.spValid = true ∧ s.fatal = false ∧ s.phase = .decorrelated ∧
      2 = (8 - s.pos.toNat % 8) % 8 ∧ 1 < 2 ^ 2 ∧ s.ahead (bitsOf 2 1) :=
  ⟨atFooter (frameP1.set 16 0x69) 134 0xEC3D, rfl, rfl, rfl, by decide, by decide, ahead_of (by decide)⟩

/-- H33, E7 and FT3. -/
theorem witness_EndOfStreamDropsFrame :
    (∃ s t : State, s.slot ≠ .idle ∧ s.residual = Residual.empty ∧ exec (.frDecodeHeader 0) s = .next t ∧
      t.slot = .idle ∧ t.statusOut = ⟨.endOfStream, 0⟩) ∧
    (∃ s t : State, s.slot ≠ .idle ∧ s.residual = Residual.empty ∧ exec (.frDecodeSubframe 0) s = .next t ∧
      t.slot = .idle ∧ t.statusOut = ⟨.endOfStream, 0⟩) ∧
    (∃ s t : State, s.slot ≠ .idle ∧ s.residual = Residual.empty ∧ exec (.frCheckFooter 0) s = .next t ∧
      t.slot = .idle ∧ t.statusOut = ⟨.endOfStream, 0⟩) := by
  obtain ⟨t, h, ht⟩ := next_of (o := exec (.frDecodeHeader 0) (synced 0xF8 [0xC9, 0x18] 4096 4096 16))
    (p := fun t => decide (t.slot = .idle ∧ t.statusOut = ⟨.endOfStream, 0⟩)) (by decide)
  obtain ⟨u, k, hu⟩ := next_of (o := exec (.frDecodeSubframe 0) (framed [0x02, 0x01] 3 8 .independent 0))
    (p := fun t => decide (t.slot = .idle ∧ t.statusOut = ⟨.endOfStream, 0⟩)) (by decide)
  obtain ⟨v, l, hv⟩ := next_of (o := exec (.frCheckFooter 0) (atFooter (frameP1.take 18) 134 0xEC3D))
    (p := fun t => decide (t.slot = .idle ∧ t.statusOut = ⟨.endOfStream, 0⟩)) (by decide)
  exact ⟨⟨_, t, by decide, rfl, h, of_decide_eq_true ht⟩, ⟨_, u, by decide, rfl, k, of_decide_eq_true hu⟩,
    ⟨_, v, by decide, rfl, l, of_decide_eq_true hv⟩⟩

/-- Steps that go on, hold, and end, of `READ_NEXT_FRAME`. -/
theorem witness_ReadNextFrameRunsItsSteps :
    (∃ s t : State, s.spValid = true ∧ s.fatal = false ∧ s.sfDone.toNat ≤ s.hdr.channels.toNat ∧
      s.hdr.channels.toNat ≤ 8 ∧ s.slot = .pending (.command 0) ∧ s.phase = .searching ∧
      exec (nextCommand s) s = .next t ∧ t ≠ s ∧ loopGoesOn s.phase t.statusOut.code) ∧
    (∃ s t : State, s.spValid = true ∧ s.fatal = false ∧ s.slot = .readingNext ∧
      exec (nextCommand s) s = .next t ∧ t = s) ∧
    (∃ s t : State, s.spValid = true ∧ s.fatal = false ∧ s.sfDone.toNat ≤ s.hdr.channels.toNat ∧
      s.hdr.channels.toNat ≤ 8 ∧ s.slot = .readingNext ∧ exec (nextCommand s) s = .next t ∧ t ≠ s ∧
      ¬ loopGoesOn s.phase t.statusOut.code) := by
  obtain ⟨t, h, ht⟩ := next_of (o := exec (.frFindSync 0) (configured [0xFF, 0xF8] 4 4 8))
    (p := fun t => decide (t.slot = .idle ∧ t.statusOut.code = .ok)) (by decide)
  obtain ⟨v, l, hv⟩ := next_of (o := exec (.frCheckFooter 0)
      (inSlot (.readingNext) (atFooter frameP1 134 0xEC3D)))
    (p := fun t => decide (t.slot = .idle ∧ t.statusOut.code = .ok)) (by decide)
  refine ⟨⟨configured [0xFF, 0xF8] 4 4 8, t, rfl, rfl, by decide, by decide, rfl, rfl, h, fun e => ?_, .inr (.inr (.inr ⟨?_, by decide⟩))⟩,
    ⟨(inSlot (.readingNext) (notEnded (configured [] 4 4 8))), _, rfl, rfl, rfl, rfl, rfl⟩,
    ⟨inSlot .readingNext (atFooter frameP1 134 0xEC3D), v, rfl, rfl, by decide, by decide, rfl, l, fun e => ?_, ?_⟩⟩
  · exact absurd (of_decide_eq_true ht).1 (by rw [e]; decide)
  · exact (of_decide_eq_true ht).2
  · exact absurd (of_decide_eq_true hv).1 (by rw [e]; decide)
  · unfold loopGoesOn
    rw [(of_decide_eq_true hv).2]
    decide

/-- Steps of `DECODE`: one that goes on, one that holds, one at the end of the input, one that delivers. -/
theorem witness_DecodeRunsItsSteps :
    (∃ s t : State, s.spValid = true ∧ s.fatal = false ∧ s.sfDone.toNat ≤ s.hdr.channels.toNat ∧
      s.hdr.channels.toNat ≤ 8 ∧ s.slot = .pending (.command 0) ∧ s.phase = .searching ∧
      exec (nextCommand s) s = .next t ∧ t ≠ s ∧ loopGoesOn s.phase t.statusOut.code) ∧
    (∃ s t : State, s.spValid = true ∧ s.fatal = false ∧ s.slot = .decoding 3 ∧
      exec (nextCommand s) s = .next t ∧ t = s) ∧
    (∃ s t : State, s.spValid = true ∧ s.fatal = false ∧ s.slot = .decoding 3 ∧
      exec (nextCommand s) s = .next t ∧ t ≠ s ∧ t.statusOut.code = .endOfStream) ∧
    (∃ s t : State, s.spValid = true ∧ s.fatal = false ∧ s.sfDone.toNat ≤ s.hdr.channels.toNat ∧
      s.hdr.channels.toNat ≤ 8 ∧ s.slot = .decoding 3 ∧ s.phase = .decorrelated ∧ s.stop = true ∧
      exec (nextCommand s) s = .next t ∧ t ≠ s ∧ t.statusOut.code = .ok) ∧
    (∃ s t : State, s.spValid = true ∧ s.fatal = false ∧ s.slot = .decoding 3 ∧ s.stop = false ∧
      exec (nextCommand s) s = .next t ∧ t ≠ s ∧ t.statusOut.code = .crcMismatch) := by
  obtain ⟨t, h, ht⟩ := next_of (o := exec (.frFindSync 0) (configured [0xFF, 0xF8] 4 4 8))
    (p := fun t => decide (t.slot = .idle ∧ t.statusOut.code = .ok)) (by decide)
  obtain ⟨u, k, hu⟩ := next_of (o := exec (.frFindSync 0)
      (inSlot (.decoding 3) (configured [] 4 4 8)))
    (p := fun t => decide (t.slot = .idle ∧ t.statusOut.code = .endOfStream)) (by decide)
  obtain ⟨v, l, hv⟩ := next_of (o := exec (.frCheckFooter 0)
      (inSlot (.decoding 3) (stopping (atFooter frameP1 134 0xEC3D))))
    (p := fun t => decide (t.slot = .idle ∧ t.statusOut.code = .ok)) (by decide)
  obtain ⟨w, m, hw⟩ := next_of (o := exec (.frCheckFooter 0)
      (inSlot (.decoding 3) (atFooter (frameP1.set 17 0x3F) 134 0xEC3D)))
    (p := fun t => decide (t.slot = .idle ∧ t.statusOut.code = .crcMismatch)) (by decide)
  refine ⟨⟨configured [0xFF, 0xF8] 4 4 8, t, rfl, rfl, by decide, by decide, rfl, rfl, h, fun e => ?_, .inr (.inr (.inr ⟨?_, by decide⟩))⟩,
    ⟨(inSlot (.decoding 3) (notEnded (configured [] 4 4 8))), _, rfl, rfl, rfl, rfl, rfl⟩,
    ⟨inSlot (.decoding 3) (configured [] 4 4 8), u, rfl, rfl, rfl, k, fun e => ?_, (of_decide_eq_true hu).2⟩,
    ⟨inSlot (.decoding 3) (stopping (atFooter frameP1 134 0xEC3D)), v, rfl, rfl, by decide, by decide, rfl, rfl,
      rfl, l, fun e => ?_, (of_decide_eq_true hv).2⟩,
    ⟨inSlot (.decoding 3) (atFooter (frameP1.set 17 0x3F) 134 0xEC3D), w, rfl, rfl, rfl, rfl, m, fun e => ?_, (of_decide_eq_true hw).2⟩⟩
  · exact absurd (of_decide_eq_true ht).1 (by rw [e]; decide)
  · exact (of_decide_eq_true ht).2
  · exact absurd (of_decide_eq_true hu).1 (by rw [e]; decide)
  · exact absurd (of_decide_eq_true hv).1 (by rw [e]; decide)
  · exact absurd (of_decide_eq_true hw).1 (by rw [e]; decide)

theorem witness_RecoveryLoopEnds :
    (∃ s : State, s.Inv ∧ s.host = [] ∧ s.srcEnded = true ∧ s.slot = .readingNext) ∧
    (∃ s : State, s.Inv ∧ s.host = [] ∧ s.srcEnded = true ∧ s.slot = .decoding 1) ∧
    (∃ s : State, s.Inv ∧ s.host = [] ∧ s.srcEnded = true ∧ s.slot = .pending (.command 0x3100)) := by
  obtain ⟨h1, h2, h3, h4, h5, h6, h7, h8, h9, h10, h11, _⟩ := framed_inv
  exact ⟨⟨(inSlot (.readingNext) (framed [] 4 8 .independent 0)),
      ⟨h1, h2, h3, h4, h5, h6, h7, h8, h9, h10, h11, rfl⟩, rfl, rfl, rfl⟩,
    ⟨(inSlot (.decoding 1) (framed [] 4 8 .independent 0)),
      ⟨h1, h2, h3, h4, h5, h6, h7, h8, h9, h10, h11, rfl⟩, rfl, rfl, rfl⟩,
    ⟨(inSlot (.pending (.command 0x3100)) (framed [] 4 8 .independent 0)),
      ⟨h1, h2, h3, h4, h5, h6, h7, h8, h9, h10, h11, trivial⟩, rfl, rfl, rfl⟩⟩

theorem witness_CommandsCompleteOrHold :
    ∃ (i : Instr) (s : State), (∀ a : Byte, i ≠ .readNextFrame a ∧ i ≠ .decode a) ∧ s.slot ≠ .idle ∧
      s.srcEnded = true :=
  ⟨.brReadUint 8, supplied [], fun _ => ⟨by simp, by simp⟩, by decide, rfl⟩

theorem witness_NoInstructionWritesTheInput :
    ∃ (i : Instr) (s t : State), i ≠ .softReset 0 ∧ exec i s = .next t ∧ ∀ a : Byte, i ≠ .csrWrite a :=
  ⟨.nop 0, supplied [], _, by decide, rfl, by simp⟩

theorem witness_OnlyResetTakesBack :
    ∃ s t : State, s.sourceOk ∧ step s = .next t ∧ ¬ s.resetNext ∧ s.eof = true ∧ s.fatal = true ∧
      s.spValid = true :=
  ⟨{ configured [7] 4 4 8 with eof := true, fatal := true, pos := 8 }, _, by unfold State.sourceOk; decide, rfl,
    by unfold State.resetNext; decide, rfl, rfl, rfl⟩

theorem witness_CountersAgreeWithRecords :
    ∃ s t : State, step s = .next t ∧ ¬ s.resetNext ∧ s.host.head? ≠ some .drain ∧ s.slot = .readingNext :=
  ⟨(inSlot (.readingNext) (notEnded (configured [] 4 4 8))), _, rfl,
    by unfold State.resetNext; decide, by decide, rfl⟩

theorem witness_IllegalCommandsChangeOnlyLastErr :
    ∃ s t : State, s.slot ≠ .idle ∧ exec (.nop 1) s = .next t ∧ t.slot = .idle ∧
      t.statusOut.code = .illegalCmd :=
  ⟨supplied [], _, by decide, rfl, rfl, rfl⟩

theorem witness_StatusCodesOfCommands :
    (∃ (s t : State) (codes : List StatusCode), commandCodes (.nop 0) = some codes ∧ s.sourceOk ∧
      s.slot ≠ .idle ∧ exec (.nop 0) s = .next t ∧ t.slot = .idle ∧ t.statusOut.code = .ok) ∧
    (∃ (s t : State) (codes : List StatusCode), commandCodes (.nop 1) = some codes ∧ s.sourceOk ∧
      s.slot ≠ .idle ∧ exec (.nop 1) s = .next t ∧ t.slot = .idle ∧ t.statusOut.code ≠ .ok) :=
  ⟨⟨supplied [], _, _, rfl, by unfold State.sourceOk; decide, by decide, rfl, rfl, rfl⟩,
    ⟨supplied [], _, _, rfl, by unfold State.sourceOk; decide, by decide, rfl, rfl, by decide⟩⟩

end Sys2Proof.Tests
end

section
/-! SUPPORT. The block's turn and the machine's step, one equation per content of the command slot
(`20_memory.md` R69; log 1, log 4), and what a step runs (O6). -/

namespace Sys2Proof.Machine

/-! ## The block's turn -/

theorem blockTurn_idle {s : State} (hs : s.slot = .idle) : blockTurn s = .next s := by
  rw [blockTurn, hs]

theorem blockTurn_readingNext {s : State} (hs : s.slot = .readingNext) :
    blockTurn s = exec (.readNextFrame 0) s := by
  rw [blockTurn, hs]

theorem blockTurn_decoding {s : State} {n : Nat} (hs : s.slot = .decoding n) :
    blockTurn s = exec (.decode 0) s := by
  rw [blockTurn, hs]

theorem blockTurn_pending {s : State} {w : CodeWord} {i : Instr} (hs : s.slot = .pending w)
    (hd : decode w = .ok i) : blockTurn s = exec i s := by
  simp only [blockTurn, hs, hd]

theorem blockTurn_notASyncPattern {s : State} {w : CodeWord} {v : Word16} (hs : s.slot = .pending w)
    (hd : decode w = .error (.notASyncPattern v)) : blockTurn s = .refused (.notASyncPattern v) := by
  simp only [blockTurn, hs, hd]

/-! ## Whose step it is -/

/-- With no host move to come, the step is the block's turn. -/
theorem step_of_no_move {s : State} (hh : s.host = []) : step s = blockTurn s := by
  rw [step, hh]

/-- A yield gives the block its turn, in the state without that yield. -/
theorem step_yield (s : State) : step { s with host := .yield :: s.host } = blockTurn s := rfl

theorem decode_tableWord {nbits w : Nat} {i : Instr} (h : decodeTableWord nbits w = some i) :
    decode (tableWord nbits w) = .ok i := by
  unfold decodeTableWord at h
  split at h
  · next j hj => rw [hj, Option.some.inj h]
  · cases h

/-- Settles O6: each clause is the block's turn for one content of the slot, reached with no host move to
come or through a yield. -/
theorem stepRunsDecodedInstruction : Obligations.StepRunsDecodedInstruction := by
  unfold Obligations.StepRunsDecodedInstruction
  refine ⟨?noMove, ?yielded, ?refused, ?idle, ?readingNext, ?decoding, ?fetched⟩
  case noMove =>
    intro s w i hh hs hd
    rw [step_of_no_move hh, blockTurn_pending hs hd]
  case yielded =>
    rintro s _ w i rfl hs hd
    rw [step_yield, blockTurn_pending hs hd]
  case refused =>
    intro s w v hh hs hd
    rw [step_of_no_move hh, blockTurn_notASyncPattern hs hd]
  case idle =>
    intro s hh hs
    rw [step_of_no_move hh, blockTurn_idle hs]
  case readingNext =>
    intro s hh hs
    rw [step_of_no_move hh, blockTurn_readingNext hs]
  case decoding =>
    intro s n hh hs
    rw [step_of_no_move hh, blockTurn_decoding hs]
  case fetched =>
    intro s nbits w i hd
    exact (step_yield { s with slot := .pending (tableWord nbits w) }).trans
      (blockTurn_pending rfl (decode_tableWord hd))

end Sys2Proof.Machine
end

section
/-! SUPPORT. Every meaning answers a next state (SPEC.md, Stops): totality of each shared operation, then of
every instruction; and how a primitive instruction leaves the command slot (O55). -/

namespace Sys2Proof.Machine

/-- The meaning answers a next state: no fault and no refusal. -/
def Answers (o : Out) : Prop := ∃ t : State, o = .next t

theorem answers_next (t : State) : Answers (.next t) := ⟨t, rfl⟩

theorem answers_illegal (sub : Byte) (s : State) : Answers (illegal sub s) := ⟨_, rfl⟩

theorem answers_structural (s : State) : Answers (structural s) := ⟨_, rfl⟩

theorem answers_ite {p : Prop} [Decidable p] {a b : Out} (ha : Answers a) (hb : Answers b) :
    Answers (if p then a else b) := by
  split
  · exact ha
  · exact hb

theorem answers_admitPlain {s : State} {run : Out} (arg : Bool) (h : Answers run) :
    Answers (admitPlain arg s run) :=
  answers_ite (answers_illegal 2 s) h

theorem answers_admitFrame {s : State} {run : Out} (arg seq : Bool) (h : Answers run) :
    Answers (admitFrame arg seq s run) :=
  answers_ite (answers_illegal 2 s) (answers_ite (answers_structural s) (answers_ite (answers_illegal 3 s) h))

theorem answers_finish (e : Ended) (s : State) : Answers (e.finish s) := by
  cases e with
  | done st res t => exact answers_next _
  | hold => exact answers_next s

theorem answers_runReader (act : Rd Word64) (s : State) : Answers (runReader act s) := by
  unfold runReader
  split <;> exact answers_next _

theorem answers_runCode (code : SubframeCode) (s : State) : Answers (runCode code s) := answers_finish _ s

theorem answers_runResidual (act : Rd Unit) (s : State) : Answers (runResidual act s) := answers_finish _ s

theorem answers_readNextFrameStep (s : State) : Answers (readNextFrameStep s) := by
  unfold readNextFrameStep
  split <;> exact answers_next _

theorem answers_decodeStep (n : Nat) (s : State) : Answers (decodeStep n s) := by
  unfold decodeStep
  split
  · exact answers_next _
  · exact answers_ite (answers_next _) (answers_ite (answers_next _) (answers_next _))
  · exact answers_next _

theorem answers_execCsrRead (a : Byte) (s : State) : Answers (execCsrRead a s) := by
  unfold execCsrRead
  split
  · exact answers_next _
  · exact answers_illegal 4 s

theorem answers_writeSpValid (s : State) : Answers (writeSpValid s) :=
  answers_ite (answers_illegal 5 s) (answers_ite (answers_illegal 2 s)
    (answers_ite (answers_next _) (answers_next _)))

theorem answers_execCsrWrite (a : Byte) (s : State) : Answers (execCsrWrite a s) := by
  unfold execCsrWrite
  split
  · exact answers_ite (answers_illegal 5 s) (answers_next _)
  · exact answers_ite (answers_writeSpValid s) (answers_illegal 4 s)

theorem answers_execBufRead (c : Byte) (s : State) : Answers (execBufRead c s) :=
  answers_admitPlain _ (answers_ite (answers_illegal 3 s) (answers_ite (answers_illegal 6 s) (answers_next _)))

theorem answers_execReadNextFrame (a : Byte) (s : State) : Answers (execReadNextFrame a s) := by
  unfold execReadNextFrame
  split
  · exact answers_readNextFrameStep s
  all_goals exact answers_admitFrame _ _ (answers_readNextFrameStep s)

theorem answers_execDecode (a : Byte) (s : State) : Answers (execDecode a s) := by
  unfold execDecode
  split
  · exact answers_decodeStep _ s
  all_goals exact answers_admitFrame _ _ (answers_decodeStep 0 s)

/-- Every instruction runs to a next state, from every state. -/
theorem exec_answers (i : Instr) (s : State) : Answers (exec i s) := by
  cases i with
  | csrRead a => exact answers_execCsrRead a s
  | csrWrite a => exact answers_execCsrWrite a s
  | bufRead c => exact answers_execBufRead c s
  | readNextFrame a => exact answers_execReadNextFrame a s
  | decode a => exact answers_execDecode a s
  | reservedOpcode op a => exact answers_illegal 1 s
  | nop | softReset | brIsAligned | brCrc16Reset | brCrc16Read | brCrc8Reset | brCrc8Read =>
    exact answers_admitPlain _ (answers_next _)
  | brReadUint | brReadInt | brReadUnary | brPeekUint | brAlign =>
    exact answers_admitPlain _ (answers_runReader _ s)
  | frFindSync | frDecodeHeader | frDecodeSubframe | frDecorrelate | frCheckFooter =>
    exact answers_admitFrame _ _ (answers_finish _ s)
  | subframeConstant | subframeVerbatim | subframeFixed0 | subframeFixed1 | subframeFixed2 | subframeFixed3
  | subframeFixed4 | subframeLpc =>
    exact answers_runCode _ s
  | subframeReserved type w => exact answers_runCode (.reserved type w) s
  | subframeBadPadding rest => exact answers_runCode (.badPadding rest) s
  | residualRice | residualRice2 => exact answers_runResidual _ s
  | residualReserved => exact answers_runResidual reservedResidual s
  | chReserved => exact answers_finish (runFrameStep (throw (badHeader 5)) s) s
  | frameSync | chIndependent | chLeftSide | chRightSide | chMidSide => exact answers_next _

/-- A command that ended left the block idle; one that did not has changed nothing, and the source has not
ended (`20_memory.md` R62). -/
theorem Ends.idle_or_held {codes : List StatusCode} {s t : State} (h : Ends codes s t) :
    t.slot = .idle ∨ (t = s ∧ s.srcEnded = false) := by
  cases h with
  | hold h => exact .inr ⟨rfl, h⟩
  | illegal sub => exact .inl rfl
  | done st res u => exact .inl rfl

theorem exec_softReset_idle {s t : State} (hx : exec (.softReset 0) s = .next t) : t.slot = .idle := by
  cases hx
  rfl

/-- How a primitive instruction leaves the command slot: a reset empties it, any other ends or holds. -/
theorem exec_idle_or_held {i : Instr} {s t : State} (hp : ∀ a : Byte, i ≠ .readNextFrame a ∧ i ≠ .decode a)
    (hx : exec i s = .next t) : t.slot = .idle ∨ (t = s ∧ s.srcEnded = false) := by
  by_cases hr : i = .softReset 0
  · subst hr
    exact .inl (exec_softReset_idle hx)
  · exact (exec_ends i s t hr hp hx).idle_or_held

/-- Settles O55: the next state is the one `exec_answers` gives, and a primitive either leaves the slot idle or
holds, which it cannot once the source has ended. -/
theorem commandsCompleteOrHold : Obligations.CommandsCompleteOrHold := by
  intro i s
  obtain ⟨t, hx⟩ := exec_answers i s
  refine ⟨t, hx, fun hp _ => exec_idle_or_held hp hx, fun hended hp => ?_⟩
  rcases exec_idle_or_held hp hx with hidle | ⟨-, hnotEnded⟩
  · exact hidle
  · rw [hended] at hnotEnded
    cases hnotEnded

end Sys2Proof.Machine
end

section
/-! SUPPORT. The packed views bit by bit: each field of `STATUS`, of `SF_INFO[c]` and of a status word is read
back from its place in the concatenation, after the fields below it are passed over (`10_state.md` R31, R38,
R41, R45; O15). -/

namespace Sys2Proof.Machine

/-! ## Reading a field of a concatenation -/

/-- A bit at or above the low part of a concatenation is a bit of the high part. -/
theorem getLsbD_append_of_le {v w i : Nat} {hi : BitVec v} {lo : BitVec w} (h : w ≤ i) :
    (hi ++ lo).getLsbD i = hi.getLsbD (i - w) := by
  rw [BitVec.getLsbD_append, if_neg (Nat.not_lt.2 h)]

/-- The bit of a flag that is the low part of a concatenation. -/
theorem getLsbD_append_ofBool {v : Nat} {hi : BitVec v} {b : Bool} :
    (hi ++ BitVec.ofBool b).getLsbD 0 = b := by
  rw [BitVec.getLsbD_append, if_pos Nat.one_pos, BitVec.getLsbD_ofBool]
  simp

/-! ## `STATUS` (R45) -/

theorem statusBits_phase (s : State) : s.statusBits.extractLsb' 0 2 = s.phase.bits :=
  BitVec.extractLsb'_append_eq_right

theorem statusBits_eof (s : State) : s.statusBits.getLsbD 2 = s.eof := by
  unfold State.statusBits
  rw [getLsbD_append_of_le (by decide)]
  exact getLsbD_append_ofBool

theorem statusBits_lossArmed (s : State) : s.statusBits.getLsbD 3 = s.lossArmed := by
  unfold State.statusBits
  iterate 2 rw [getLsbD_append_of_le (by decide)]
  exact getLsbD_append_ofBool

theorem statusBits_fatal (s : State) : s.statusBits.getLsbD 4 = s.fatal := by
  unfold State.statusBits
  iterate 3 rw [getLsbD_append_of_le (by decide)]
  exact getLsbD_append_ofBool

theorem statusBits_spValid (s : State) : s.statusBits.getLsbD 5 = s.spValid := by
  unfold State.statusBits
  iterate 4 rw [getLsbD_append_of_le (by decide)]
  exact getLsbD_append_ofBool

theorem statusBits_bufValid (s : State) : s.statusBits.getLsbD 6 = s.bufValid := by
  unfold State.statusBits
  iterate 5 rw [getLsbD_append_of_le (by decide)]
  exact getLsbD_append_ofBool

theorem statusBits_srcEnded (s : State) : s.statusBits.getLsbD 7 = s.srcEnded := by
  unfold State.statusBits
  iterate 6 rw [getLsbD_append_of_le (by decide)]
  exact getLsbD_append_ofBool

theorem statusBits_sfDone (s : State) : s.statusBits.extractLsb' 8 4 = s.sfDone := by
  unfold State.statusBits
  iterate 7 rw [BitVec.extractLsb'_append_eq_of_le (by decide)]
  exact BitVec.extractLsb'_append_eq_right

theorem statusBits_unused (s : State) : s.statusBits.extractLsb' 12 52 = 0 := by
  unfold State.statusBits
  iterate 8 rw [BitVec.extractLsb'_append_eq_of_le (by decide)]
  decide

/-! ## `SF_INFO[c]` (R31) -/

theorem sfInfoBits_kind (i : SfInfo) : i.bits.extractLsb' 0 3 = i.kind.bits :=
  BitVec.extractLsb'_append_eq_right

theorem sfInfoBits_order (i : SfInfo) : i.bits.extractLsb' 3 6 = i.order := by
  unfold SfInfo.bits
  rw [BitVec.extractLsb'_append_eq_of_le (by decide)]
  exact BitVec.extractLsb'_append_eq_right

theorem sfInfoBits_wasted (i : SfInfo) : i.bits.extractLsb' 9 6 = i.wasted := by
  unfold SfInfo.bits
  iterate 2 rw [BitVec.extractLsb'_append_eq_of_le (by decide)]
  exact BitVec.extractLsb'_append_eq_right

theorem sfInfoBits_bpsEff (i : SfInfo) : i.bits.extractLsb' 15 6 = i.bpsEff := by
  unfold SfInfo.bits
  iterate 3 rw [BitVec.extractLsb'_append_eq_of_le (by decide)]
  exact BitVec.extractLsb'_append_eq_right

theorem sfInfoBits_lpcPrec (i : SfInfo) : i.bits.extractLsb' 21 4 = i.lpcPrec := by
  unfold SfInfo.bits
  iterate 4 rw [BitVec.extractLsb'_append_eq_of_le (by decide)]
  exact BitVec.extractLsb'_append_eq_right

theorem sfInfoBits_lpcShift (i : SfInfo) : i.bits.extractLsb' 25 4 = i.lpcShift := by
  unfold SfInfo.bits
  iterate 5 rw [BitVec.extractLsb'_append_eq_of_le (by decide)]
  exact BitVec.extractLsb'_append_eq_right

theorem sfInfoBits_rice2 (i : SfInfo) : i.bits.getLsbD 29 = i.rice2 := by
  unfold SfInfo.bits
  iterate 6 rw [getLsbD_append_of_le (by decide)]
  exact getLsbD_append_ofBool

theorem sfInfoBits_partOrder (i : SfInfo) : i.bits.extractLsb' 30 4 = i.partOrder := by
  unfold SfInfo.bits
  iterate 7 rw [BitVec.extractLsb'_append_eq_of_le (by decide)]
  exact BitVec.extractLsb'_append_eq_right

theorem sfInfoBits_unused (i : SfInfo) : i.bits.extractLsb' 34 30 = 0 := by
  unfold SfInfo.bits
  iterate 8 rw [BitVec.extractLsb'_append_eq_of_le (by decide)]
  decide

/-! ## The status word (R38, R41) -/

theorem statusWord_code (st : Status) : st.bits.extractLsb' 0 8 = st.code.bits :=
  BitVec.extractLsb'_append_eq_right

theorem statusWord_sub (st : Status) : st.bits.extractLsb' 8 8 = st.sub :=
  BitVec.extractLsb'_append_eq_left

/-- Settles O15: one lemma per field of each packed view, then the numbers of the named codes, one case each. -/
theorem statusAndSubframeInfoLayout : Obligations.StatusAndSubframeInfoLayout := by
  unfold Obligations.StatusAndSubframeInfoLayout
  refine ⟨fun s => ⟨?phase, statusBits_eof s, statusBits_lossArmed s, statusBits_fatal s, statusBits_spValid s,
      statusBits_bufValid s, statusBits_srcEnded s, statusBits_sfDone s, statusBits_unused s⟩,
    by decide,
    fun i => ⟨?kind, sfInfoBits_order i, sfInfoBits_wasted i, sfInfoBits_bpsEff i, sfInfoBits_lpcPrec i,
      sfInfoBits_lpcShift i, sfInfoBits_rice2 i, sfInfoBits_partOrder i, sfInfoBits_unused i⟩,
    fun st => ⟨?code, statusWord_sub st⟩, ?assign⟩
  case phase =>
    rw [statusBits_phase]
    cases s.phase <;> rfl
  case kind =>
    rw [sfInfoBits_kind]
    cases i.kind <;> rfl
  case code =>
    rw [statusWord_code]
    cases st.code <;> rfl
  case assign =>
    intro a
    cases a <;> rfl

end Sys2Proof.Machine
end

section
/-! SUPPORT. What a step that does not reset the block leaves: it runs an instruction other than `SOFT_RESET`, or
it makes a move of the host (O56 to O58). -/

namespace Sys2Proof.Machine

/-! ## `CSR_WRITE` -/

/-- `CSR_WRITE` writes the stream parameters, which it leaves alone once they are accepted, and the command
interface (`47_frame.md` R371, `10_state.md` R40). -/
theorem csrWrite_writes {a : Byte} {s t : State} (hx : exec (.csrWrite a) s = .next t) :
    t = { s with sp := t.sp, spValid := t.spValid, slot := t.slot, statusOut := t.statusOut,
                 result := t.result, lastErr := t.lastErr } ∧
    (s.spValid = true → t.spValid = true ∧ t.sp = s.sp) := by
  rcases csrWrite_cases hx with ⟨sub, rfl⟩ | rfl | ⟨hv, sp, rfl⟩ | ⟨hv, -, rfl⟩
  · exact ⟨rfl, fun h => ⟨h, rfl⟩⟩
  · exact ⟨rfl, fun h => ⟨h, rfl⟩⟩
  · exact ⟨rfl, fun h => absurd (hv.symm.trans h) Bool.false_ne_true⟩
  · exact ⟨rfl, fun _ => ⟨rfl, rfl⟩⟩

theorem instr_csrWrite_or (i : Instr) : (∃ a, i = .csrWrite a) ∨ ∀ a, i ≠ .csrWrite a := by
  by_cases h : ∃ a, i = .csrWrite a
  · exact .inl h
  · exact .inr fun a ha => h ⟨a, ha⟩

/-! ## The input and the parameters -/

/-- Settles O56: `exec_keeps` holds every one of these fields for any instruction but the two, and `CSR_WRITE`
writes none of them. -/
theorem noInstructionWritesTheInput : Obligations.NoInstructionWritesTheInput := by
  intro i s t hreset hx
  rcases instr_csrWrite_or i with ⟨a, rfl⟩ | hw
  · have ht := (csrWrite_writes hx).1
    rw [ht]
    exact ⟨fun _ => rfl, rfl, rfl, rfl, rfl, rfl, rfl, fun h => absurd rfl (h a)⟩
  · have k := exec_keeps i s t hw hreset hx
    exact ⟨fun n => congrArg (Memory.byteAt · n) k.src, k.src, k.srcEnded, k.params, k.dataIn, k.stop, k.host,
      fun _ => ⟨k.sp, k.spValid⟩⟩

/-! ## What only a reset takes back -/

/-- From `s` to `t` nothing that only a reset takes back was taken back: `EOF`, `FATAL`, the accepted parameters,
`BUF_DEPTH` and `P_BPS7`, and the cursor (`10_state.md` R22, R36, R37, R39). -/
structure Lasts (s t : State) : Prop where
  eof : s.eof = true → t.eof = true
  fatal : s.fatal = true → t.fatal = true
  accepted : s.spValid = true → t.spValid = true ∧ t.sp = s.sp
  params : t.params = s.params
  cursor : s.sourceOk → s.pos.toNat ≤ t.pos.toNat

theorem ExecKeeps.lasts {s t : State} (k : ExecKeeps s t) : Lasts s t :=
  ⟨k.eof, k.fatal, fun h => ⟨k.spValid.trans h, k.sp⟩, k.params, fun h => (k.cursor h).1⟩

theorem exec_lasts {i : Instr} {s t : State} (hreset : i ≠ .softReset 0) (hx : exec i s = .next t) :
    Lasts s t := by
  rcases instr_csrWrite_or i with ⟨a, rfl⟩ | hw
  · obtain ⟨ht, haccepted⟩ := csrWrite_writes hx
    refine ⟨?_, ?_, haccepted, ?_, ?_⟩ <;> rw [ht]
    · exact id
    · exact id
    · exact fun _ => le_rfl
  · exact (exec_keeps i s t hw hreset hx).lasts

theorem exec_counted {i : Instr} {s t : State} (hreset : i ≠ .softReset 0) (hx : exec i s = .next t) :
    ∃ added, Counted s t added := by
  rcases instr_csrWrite_or i with ⟨a, rfl⟩ | hw
  · have ht := (csrWrite_writes hx).1
    exact ⟨[], Counted.none (by rw [ht]) (by rw [ht]) (by rw [ht])⟩
  · exact (exec_keeps i s t hw hreset hx).records

/-! ## A step that does not reset the block -/

/-- From `s` to `t` the host made one of its moves: only its own inputs and the command slot may differ, and
`OUTQ`, whose front record a drain takes (`70_reset_and_hazards.md` R448). -/
def HostWrites (s t : State) : Prop :=
  t = { s with host := t.host, slot := t.slot, dataIn := t.dataIn, src := t.src, srcEnded := t.srcEnded,
               outq := t.outq, stop := t.stop } ∧
  (s.host.head? ≠ some .drain → t.outq = s.outq)

theorem HostWrites.lasts {s t : State} (h : HostWrites s t) : Lasts s t := by
  refine ⟨?_, ?_, ?_, ?_, ?_⟩ <;> rw [h.1]
  · exact id
  · exact id
  · exact fun hv => ⟨hv, rfl⟩
  · exact fun _ => le_rfl

/-! ### The word of `SOFT_RESET` -/

theorem decodeCommand_softReset {w : Word16} (h : decodeCommand w = .softReset 0) : w = 0x0100 := by
  unfold decodeCommand at h
  split at h <;> injection h
  next hop harg =>
    have hopcode : opcodeOf w = 0x01 := BitVec.eq_of_toNat_eq hop
    calc
      w = opcodeOf w ++ argumentOf w := (append_parts w).symm
      _ = 0x0100 := by rw [hopcode, harg]; decide

theorem decodeSync_ne_softReset (w : Word16) (a : Byte) : decodeSync w ≠ .ok (.softReset a) := by
  intro h
  unfold decodeSync at h
  split at h <;> cases h

theorem toInstr_ne_softReset (code : SubframeCode) (a : Byte) : code.toInstr ≠ .softReset a := by
  intro h
  unfold SubframeCode.toInstr at h
  split at h <;> cases h

theorem decodeResidualMethod_ne_softReset (m : BitVec 2) (a : Byte) :
    decodeResidualMethod m ≠ .softReset a := by
  intro h
  unfold decodeResidualMethod at h
  split at h
  · cases h
  · split at h <;> cases h

theorem decodeChannelCode_ne_softReset (c : BitVec 4) (a : Byte) : decodeChannelCode c ≠ .softReset a := by
  intro h
  unfold decodeChannelCode at h
  split at h
  · split at h <;> cases h
  · cases h

/-- No other word decodes to `SOFT_RESET` (`30_encoding.md` R81). -/
theorem decode_softReset {c : CodeWord} (hd : decode c = .ok (.softReset 0)) : c = .command 0x0100 := by
  cases c with
  | command w => rw [decodeCommand_softReset (Except.ok.inj hd)]
  | sync w => exact absurd hd (decodeSync_ne_softReset w 0)
  | subframeByte x => exact absurd (Except.ok.inj hd) (toInstr_ne_softReset _ 0)
  | residualMethod m => exact absurd (Except.ok.inj hd) (decodeResidualMethod_ne_softReset m 0)
  | channelCode x => exact absurd (Except.ok.inj hd) (decodeChannelCode_ne_softReset x 0)

/-! ### The step -/

/-- A step that does not reset the block runs an instruction other than `SOFT_RESET`, from a state that differs
from `s` in the host's moves at most; or it leaves every element of the block but the command slot as it is. -/
theorem step_without_reset {s t : State} (hx : step s = .next t) (hreset : ¬ s.resetNext) :
    (∃ (moves : List HostMove) (i : Instr), i ≠ .softReset 0 ∧ exec i { s with host := moves } = .next t) ∨
    HostWrites s t := by
  obtain ⟨r, hr, hstep⟩ := step_cases hx
  have hr : ∃ moves, r = { s with host := moves } := by
    rcases hr with ⟨rfl, -⟩ | ⟨m, rest, -, rfl⟩
    · exact ⟨r.host, rfl⟩
    · exact ⟨rest, rfl⟩
  obtain ⟨moves, rfl⟩ := hr
  rcases hstep with ⟨hturn, hrun⟩ | ⟨cmd, v, rest, hh, -, rfl⟩ | ⟨b, rest, hh, -, -, rfl⟩ | ⟨rest, hh, rfl⟩ |
    ⟨rest, hh, rfl⟩ | ⟨level, rest, hh, rfl⟩ | ⟨rest, hh, rfl⟩
  · have hyield : s.host = [] ∨ s.host.head? = some .yield :=
      hturn.imp_right fun ⟨rest, hh⟩ => by rw [hh]; rfl
    rcases hrun with ⟨-, rfl⟩ | ⟨c, i, hslot, hd, hexec⟩ | ⟨-, hexec⟩ | ⟨n, -, hexec⟩
    · exact .inr ⟨rfl, fun _ => rfl⟩
    · refine .inl ⟨moves, i, ?_, hexec⟩
      rintro rfl
      exact hreset (.inr ⟨hyield, by rw [hslot, decode_softReset hd]⟩)
    · exact .inl ⟨moves, _, by simp, hexec⟩
    · exact .inl ⟨moves, _, by simp, hexec⟩
  · exact .inr ⟨rfl, fun _ => rfl⟩
  · exact .inr ⟨rfl, fun _ => rfl⟩
  · exact .inr ⟨rfl, fun _ => rfl⟩
  · exact .inr ⟨rfl, fun hdrain => absurd (by rw [hh]; rfl) hdrain⟩
  · exact .inr ⟨rfl, fun _ => rfl⟩
  · exact absurd (.inl (by rw [hh]; rfl)) hreset

/-- Settles O57: an instruction other than `SOFT_RESET` and a move of the host take none of it back. -/
theorem onlyResetTakesBack : Obligations.OnlyResetTakesBack := by
  intro s t hsource hx hreset
  have hlasts : Lasts s t := by
    rcases step_without_reset hx hreset with ⟨moves, i, hi, hexec⟩ | hhost
    · obtain ⟨heof, hfatal, haccepted, hparams, hcursor⟩ := exec_lasts hi hexec
      exact ⟨heof, hfatal, haccepted, hparams, hcursor⟩
    · exact hhost.lasts
  exact ⟨hlasts.eof, hlasts.fatal, hlasts.accepted, hlasts.params, hlasts.cursor hsource⟩

/-- Settles O58: an instruction other than `SOFT_RESET` counts what it emits, and a move of the host other than a
drain emits nothing and counts nothing. -/
theorem countersAgreeWithRecords : Obligations.CountersAgreeWithRecords := by
  intro s t hx hreset hdrain
  rcases step_without_reset hx hreset with ⟨moves, i, hi, hexec⟩ | ⟨hwrites, houtq⟩
  · obtain ⟨added, houtq, hbadFrames, hsamples⟩ := exec_counted hi hexec
    exact ⟨added, houtq, hbadFrames, hsamples⟩
  · exact ⟨[], Counted.none (houtq hdrain) (by rw [hwrites]) (by rw [hwrites])⟩

end Sys2Proof.Machine
end

section
/-! SUPPORT. What `FR_FIND_SYNC` and `FR_DECODE_HEADER` leave unchanged, whatever they answer (O34). -/

namespace Sys2Proof.Machine

/-! ## `FR_FIND_SYNC` -/

/-- From `s` to `t` only what `FR_FIND_SYNC` may change differs (`41_sync.md` R160 to R165). -/
def FindSyncFrame (s t : State) : Prop :=
  t = { s with
    pos := t.pos, crc16 := t.crc16, crc8 := t.crc8, syncByte1 := t.syncByte1,
    frameStart := t.frameStart, lossArmed := t.lossArmed, phase := t.phase, eof := t.eof,
    outq := t.outq, fatal := t.fatal, lastErr := t.lastErr, slot := t.slot, result := t.result,
    statusOut := t.statusOut }

theorem FindSyncFrame.trans {s t u : State} (h1 : FindSyncFrame s t) (h2 : FindSyncFrame t u) :
    FindSyncFrame s u := by
  unfold FindSyncFrame at h1 h2
  rw [h1] at h2
  exact h2

theorem FindSyncFrame.src {s t : State} (h : FindSyncFrame s t) : t.src = s.src := by rw [h]

theorem Lost.findSyncFrame {s t : State} (h : Lost s t) (hr : t.residual = s.residual) : FindSyncFrame s t := by
  have e := h.1
  rw [hr] at e
  unfold FindSyncFrame
  rw [e]

theorem findSyncStep_frame {s t : State} (hx : (findSyncStep s).finish s = .next t) : FindSyncFrame s t := by
  rcases findSyncStep_cases s with ⟨-, e⟩ | ⟨-, u, hlost, hr, e⟩ | ⟨a, u, ⟨v, y, hlost, rfl, -, -⟩, hr, e⟩ <;>
    rw [e] at hx <;> cases hx
  · exact rfl
  · exact (hlost.findSyncFrame hr).trans rfl
  · exact (hlost.findSyncFrame hr).trans rfl

theorem exec_frFindSync_frame {s t : State} {a : Byte} (hx : exec (.frFindSync a) s = .next t) :
    FindSyncFrame s t := by
  rcases admitFrame_cases hx with ⟨-, rfl⟩ | ⟨-, rfl⟩ | ⟨-, rfl⟩ | ⟨-, -, -, hrun⟩
  · exact rfl
  · exact rfl
  · exact rfl
  · exact findSyncStep_frame hrun

/-! ## `FR_DECODE_HEADER` -/

/-- From `s` to `t` only what `FR_DECODE_HEADER` may change differs (`42_header.md` R180 to R195). -/
def DecodeHeaderFrame (s t : State) : Prop :=
  t = { s with
    pos := t.pos, crc16 := t.crc16, crc8 := t.crc8, hdr := t.hdr, sfInfo := t.sfInfo,
    sfDone := t.sfDone, bufValid := t.bufValid, phase := t.phase, eof := t.eof, outq := t.outq,
    badFrames := t.badFrames, fatal := t.fatal, lastErr := t.lastErr, slot := t.slot,
    result := t.result, statusOut := t.statusOut }

theorem DecodeHeaderFrame.trans {s t u : State} (h1 : DecodeHeaderFrame s t) (h2 : DecodeHeaderFrame t u) :
    DecodeHeaderFrame s u := by
  unfold DecodeHeaderFrame at h1 h2
  rw [h1] at h2
  exact h2

theorem DecodeHeaderFrame.src {s t : State} (h : DecodeHeaderFrame s t) : t.src = s.src := by rw [h]

theorem Reading.decodeHeaderFrame {s t : State} (h : Reading s t) : DecodeHeaderFrame s t := by
  unfold DecodeHeaderFrame
  rw [h.eq]

/-- From `s` to `t` no header was committed: the header registers, `SF_INFO` and `BUF_VALID` stay, and no
`Header` record was emitted (`10_state.md` R29, R33; `42_header.md` R180). -/
structure NoHeader (s t : State) : Prop where
  hdr : t.hdr = s.hdr
  sfInfo : t.sfInfo = s.sfInfo
  bufValid : t.bufValid = s.bufValid
  records : ∀ h : HeaderRecord, Record.header h ∈ t.outq → Record.header h ∈ s.outq

theorem NoHeader.refl (s : State) : NoHeader s s := ⟨rfl, rfl, rfl, fun _ => id⟩

theorem Moves.noHeader {s t : State} (h : Moves s t) : NoHeader s t :=
  ⟨h.hdr, h.sfInfo, h.bufValid, fun _ hmem => h.outq ▸ hmem⟩

/-- What every answer of `FR_DECODE_HEADER` is: within its frame, and without a header committed unless it ends
with OK. -/
structure HeaderAnswer (s t : State) : Prop where
  frame : DecodeHeaderFrame s t
  committed : NoHeader s t ∨ t.statusOut = .okay

theorem headerStep_answer {s t : State} (hx : (headerStep s).finish s = .next t) : HeaderAnswer s t := by
  rcases headerStep_cases s with ⟨-, e⟩ | ⟨-, u, hread, e⟩ | ⟨u, sub, x, y, hread, e⟩ | ⟨u, h, hread, -, e⟩ <;>
    rw [e] at hx <;> cases hx
  · exact ⟨rfl, .inl (NoHeader.refl s)⟩
  · obtain ⟨hhdr, hsfInfo, hbufValid, hrecords⟩ := hread.1.noHeader
    exact ⟨hread.decodeHeaderFrame.trans rfl, .inl ⟨hhdr, hsfInfo, hbufValid, hrecords⟩⟩
  · obtain ⟨hhdr, hsfInfo, hbufValid, hrecords⟩ := hread.1.noHeader
    refine ⟨hread.decodeHeaderFrame.trans rfl, .inl ⟨hhdr, hsfInfo, hbufValid, fun h hmem => hrecords h ?_⟩⟩
    have hmem : Record.header h ∈ u.outq ++ [.event ⟨.badHeader, sub, u.pos >>> 3, x, y⟩] := hmem
    simpa using hmem
  · exact ⟨hread.decodeHeaderFrame.trans rfl, .inr rfl⟩

theorem exec_frDecodeHeader_answer {s t : State} {a : Byte} (hx : exec (.frDecodeHeader a) s = .next t) :
    HeaderAnswer s t := by
  rcases admitFrame_cases hx with ⟨-, rfl⟩ | ⟨-, rfl⟩ | ⟨-, rfl⟩ | ⟨-, -, -, hrun⟩
  · exact ⟨rfl, .inl ⟨rfl, rfl, rfl, fun _ => id⟩⟩
  · exact ⟨rfl, .inl ⟨rfl, rfl, rfl, fun _ => id⟩⟩
  · exact ⟨rfl, .inl ⟨rfl, rfl, rfl, fun _ => id⟩⟩
  · exact headerStep_answer hrun

/-- Settles O34: each command's frame, and a header that was not committed changed none of the header's
registers. -/
theorem syncAndHeaderFrame : Obligations.SyncAndHeaderFrame := by
  intro s t a
  refine ⟨fun hx => ?sync, fun hx => ?header⟩
  case sync =>
    have hframe := exec_frFindSync_frame hx
    exact ⟨hframe, fun k => congrArg (Memory.byteAt · k) hframe.src⟩
  case header =>
    obtain ⟨hframe, hcommitted⟩ := exec_frDecodeHeader_answer hx
    refine ⟨hframe, fun k => congrArg (Memory.byteAt · k) hframe.src, fun _ hfailed => ?_⟩
    obtain ⟨hhdr, hsfInfo, hbufValid, hrecords⟩ := hcommitted.resolve_right hfailed
    exact ⟨hhdr, hsfInfo, hbufValid, hrecords⟩

end Sys2Proof.Machine
end

section
/-! SUPPORT. The moves of the host, and what a step does to the input (`20_memory.md` R60, R61; O7, O8). -/

namespace Sys2Proof.Machine

/-! ## The moves -/

/-- The host's next move is taken from its list and made. -/
theorem step_move (m : HostMove) (s : State) : step { s with host := m :: s.host } = hostMove m s := rfl

theorem hostMove_issue_idle {s : State} (cmd : Word16) (v : Word64) (hidle : s.slot = .idle) :
    hostMove (.issue cmd v) s = .next { s with slot := .pending (.command cmd), dataIn := v } :=
  if_pos hidle

theorem hostMove_issue_busy {s : State} (cmd : Word16) (v : Word64) (hbusy : s.slot ≠ .idle) :
    hostMove (.issue cmd v) s = .fault .commandWhileBusy :=
  if_neg hbusy

theorem hostMove_supply_ended {s : State} (b : Byte) (hended : s.srcEnded = true) :
    hostMove (.supply b) s = .fault .supplyAfterEnd :=
  if_pos hended

theorem hostMove_supply_open {s : State} (b : Byte) (hopen : s.srcEnded = false) :
    hostMove (.supply b) s =
      if 2 ^ 61 ≤ s.src.length + 1 then .fault .inputTooLong else .next { s with src := s.src.append b } :=
  if_neg (Bool.eq_false_iff.1 hopen)

theorem hostMove_powerReset (s : State) : hostMove .powerReset s = exec (.softReset 0) s :=
  (admitPlain_run (s := s) legalN_zero).symm

/-- Settles O7: a step with a move to come makes it, one lemma for each outcome of the move. -/
theorem hostMoves : Obligations.HostMoves := by
  rintro s _ m rfl
  rw [step_move]
  cases m with
  | yield => rfl
  | issue cmd v => exact ⟨hostMove_issue_idle cmd v, hostMove_issue_busy cmd v⟩
  | supply b =>
    refine ⟨hostMove_supply_ended b, fun hopen hlen => ?_, fun hopen hlen => ?_⟩
    · rw [hostMove_supply_open b hopen, if_neg (Nat.not_le.2 hlen)]
      rfl
    · rw [hostMove_supply_open b hopen, if_pos hlen]
  | endInput => rfl
  | drain =>
    rw [List.drop_one]
    rfl
  | setStop level => rfl
  | powerReset => exact hostMove_powerReset s

/-! ## The input -/

/-- The state a step acts in differs from `s` in the host's moves at most. -/
theorem host_taken {s r : State}
    (hr : r = s ∧ s.host = [] ∨ ∃ m rest, s.host = m :: rest ∧ r = { s with host := rest }) :
    ∃ moves, r = { s with host := moves } := by
  rcases hr with ⟨rfl, -⟩ | ⟨m, rest, -, rfl⟩
  · exact ⟨r.host, rfl⟩
  · exact ⟨rest, rfl⟩

/-- What a step does to the input: a reset empties it, a byte the host supplies is appended, and any other step
leaves it as it is, ended if it was. -/
inductive InputStep (s t : State) : Prop
  | reset (next : s.resetNext) (src : t.src = [])
  | supplied (b : Byte) (move : s.host.head? = some (.supply b)) (notEnded : s.srcEnded = false)
      (src : t.src = s.src.append b)
  | kept (move : ∀ b : Byte, s.host.head? ≠ some (.supply b)) (src : t.src = s.src)
      (ended : s.srcEnded = true → t.srcEnded = true)

theorem softReset_src {s t : State} (hx : exec (.softReset 0) s = .next t) : t.src = [] := by
  cases hx
  rfl

/-- An instruction run in the block's turn: `SOFT_RESET` resets, any other leaves the input alone. -/
theorem InputStep.exec {s t : State} {i : Instr} {moves : List HostMove}
    (hmove : ∀ b : Byte, s.host.head? ≠ some (.supply b)) (hx : exec i { s with host := moves } = .next t)
    (hreset : i = .softReset 0 → s.resetNext) : InputStep s t := by
  by_cases hi : i = .softReset 0
  · subst hi
    exact .reset (hreset rfl) (softReset_src hx)
  · obtain ⟨-, hsrc, hended, -⟩ := noInstructionWritesTheInput i _ t hi hx
    exact .kept hmove hsrc hended.trans

theorem step_input {s t : State} (hx : step s = .next t) : InputStep s t := by
  obtain ⟨r, hr, hstep⟩ := step_cases hx
  obtain ⟨moves, rfl⟩ := host_taken hr
  rcases hstep with ⟨hturn, hrun⟩ | ⟨cmd, v, rest, hh, -, rfl⟩ | ⟨b, rest, hh, hopen, -, rfl⟩ | ⟨rest, hh, rfl⟩ |
    ⟨rest, hh, rfl⟩ | ⟨level, rest, hh, rfl⟩ | ⟨rest, hh, rfl⟩
  · have hyield : s.host = [] ∨ s.host.head? = some .yield :=
      hturn.imp_right fun ⟨rest, hh⟩ => by rw [hh]; rfl
    have hmove : ∀ b : Byte, s.host.head? ≠ some (.supply b) := by
      rcases hyield with hh | hh <;> simp [hh]
    rcases hrun with ⟨-, rfl⟩ | ⟨c, i, hslot, hd, hexec⟩ | ⟨-, hexec⟩ | ⟨n, -, hexec⟩
    · exact .kept hmove rfl id
    · exact .exec hmove hexec fun hi => .inr ⟨hyield, by rw [hslot, decode_softReset (hd.trans (congrArg _ hi))]⟩
    · exact .exec hmove hexec nofun
    · exact .exec hmove hexec nofun
  · exact .kept (by simp [hh]) rfl id
  · exact .supplied b (by rw [hh]; rfl) hopen rfl
  · exact .kept (by simp [hh]) rfl fun _ => rfl
  · exact .kept (by simp [hh]) rfl id
  · exact .kept (by simp [hh]) rfl id
  · exact .reset (.inl (by rw [hh]; rfl)) rfl

theorem InputStep.wf {s t : State} (h : InputStep s t) (hs : s.src.wf = true) : t.src.wf = true := by
  cases h with
  | reset next src => rw [src]; rfl
  | supplied b move notEnded src => rw [src]; exact Memory.wf_append b hs
  | kept move src ended => rw [src]; exact hs

/-- Settles O8: `step_input` says what a step does to the input, and a byte appended to a canonical input stands
after all the bytes it holds. -/
theorem suppliedBytesNeverChange : Obligations.SuppliedBytesNeverChange := by
  intro s t hs hx
  have h := step_input hx
  refine ⟨h.wf hs, fun hreset => ?_⟩
  cases h with
  | reset next src => exact absurd next hreset
  | supplied b move notEnded src =>
    rw [src]
    refine ⟨fun a x ha => ?_, fun hended => ?_, fun x hmove => ?_, fun hmove => absurd move (hmove b)⟩
    · have hlt : a < s.src.length := Memory.lt_length_of_byteAt hs ha
      rw [Memory.byteAt_append hs, if_neg hlt.ne, ha]
    · exact absurd (notEnded.symm.trans hended) Bool.false_ne_true
    · have hb : b = x := by simpa using move.symm.trans hmove
      rw [Memory.byteAt_append hs, if_pos rfl, hb]
  | kept move src ended =>
    rw [src]
    exact ⟨fun _ _ ha => ha, fun hended => ⟨ended hended, rfl⟩, fun b hmove => absurd hmove (move b), fun _ => rfl⟩

end Sys2Proof.Machine
end

section
/-! SUPPORT. Every step keeps the invariant (O12): each command of the command word does, and so does each move of
the host. What a command ends with meets the part `Core` of the invariant; its slot is idle, or the block goes on
inside a composite command with frames enabled. -/

namespace Sys2Proof.Machine

/-! ## The command slot -/

theorem Core.inv_of_idle {s : State} (k : Core s) (hidle : s.slot = .idle) : s.Inv :=
  inv_iff.2 ⟨k, by rw [State.slotOk, hidle]; trivial⟩

theorem Core.inv_endCommand {s : State} (k : Core s) (st : Status) (res : Word64) : (s.endCommand st res).Inv :=
  (k.endCommand st res).inv_of_idle rfl

theorem Core.inv_errorWith {s : State} (k : Core s) (code : StatusCode) (sub : Byte) : (s.errorWith code sub).Inv :=
  (k.errorWith code sub).inv_of_idle rfl

theorem Core.inv_illegal {s t : State} {sub : Byte} (k : Core s) (hx : illegal sub s = .next t) : t.Inv := by
  cases hx
  exact k.inv_endCommand _ _

/-- A step that writes nothing the invariant speaks of keeps it. -/
theorem Core.unread {s t : State} (k : Core s) (h : SameCore s t) (hsrc : t.src = s.src) (hpos : t.pos = s.pos)
    (hphase : t.phase = s.phase) (hdone : t.sfDone = s.sfDone) : Core t :=
  k.same h (by rw [State.sourceOk, hsrc, hpos]; exact k.source) hphase hdone

/-! ## The steps of the frame decoder -/

/-- The state allows a step of the frame decoder: frames are enabled (`60_exceptions.md` R387). -/
structure Ready (s : State) : Prop where
  core : Core s
  enabled : s.framesEnabled = true

theorem Ready.endCommand {s : State} (r : Ready s) (st : Status) (res : Word64) : (s.endCommand st res).Inv :=
  r.core.inv_endCommand st res

/-- Inside a composite command the slot asks for enabled frames. -/
theorem Ready.inv_readingNext {s : State} (r : Ready s) : State.Inv { s with slot := .readingNext } :=
  inv_iff.2 ⟨r.core.unread ⟨rfl, rfl, rfl, rfl, rfl, rfl, rfl, rfl⟩ rfl rfl rfl rfl, r.enabled⟩

theorem Ready.inv_decoding {s : State} (r : Ready s) (n : Nat) : State.Inv { s with slot := .decoding n } :=
  inv_iff.2 ⟨r.core.unread ⟨rfl, rfl, rfl, rfl, rfl, rfl, rfl, rfl⟩ rfl rfl rfl rfl, r.enabled⟩

/-- The state a primitive step ends in, when it does not hold, allows the next one. -/
def Ended.Ready : Ended → Prop
  | .done _ _ t => Machine.Ready t
  | .hold => True

/-- The same of a step of the recovery loop. -/
def Progress.Ready : Progress → Prop
  | .again t => Machine.Ready t
  | .ended _ _ t => Machine.Ready t
  | .hold => True

/-- No primitive step writes `SP_VALID` or `FATAL`, so only `Core` is left to show of its end. -/
theorem Ready.ended {codes : List StatusCode} {s : State} {e : Ended} (r : Ready s) (hkeeps : e.keeps codes s)
    (hcore : ∀ st res t, e = .done st res t → Core t) : e.Ready := by
  cases e with
  | hold => trivial
  | done st res t =>
    have hout : SameOutside s t := StepKeeps.outside hkeeps
    refine ⟨hcore st res t rfl, ?_⟩
    rw [State.framesEnabled, hout.spValid, hout.fatal]
    exact r.enabled

theorem Ready.findSync {s : State} (r : Ready s) (hp : s.phase = .searching) : (findSyncStep s).Ready :=
  r.ended (findSyncStep_keeps s) fun _ _ _ => r.core.findSync r.enabled hp

theorem Ready.header {s : State} (r : Ready s) : (headerStep s).Ready :=
  r.ended (headerStep_keeps s) fun _ _ _ => r.core.header r.enabled

theorem Ready.subframe {s : State} {c : ChannelIx} (r : Ready s) (hp : s.phase = .headerDone)
    (hc : c.val = s.sfDone.toNat) (hlt : s.sfDone.toNat < s.hdr.channels.toNat) : (subframeStep c s).Ready :=
  r.ended (subframeStep_keeps c s) fun _ _ _ => r.core.subframe (SubframeSound.decode c) hp hc hlt

theorem Ready.decorrelate {s : State} (r : Ready s) (hp : s.phase = .headerDone)
    (hd : s.sfDone = s.hdr.channels) : (decorrelateStep s).Ready :=
  r.ended (decorrelateStep_keeps s) fun _ _ _ h => by
    cases h
    exact r.core.decorrelated hp hd

theorem Ready.footer {s : State} (r : Ready s) (hp : s.phase = .decorrelated) : (footerStep s).Ready :=
  r.ended (footerStep_keeps s) fun _ _ _ => r.core.footer hp

theorem Ended.Ready.goOn {e : Ended} (h : e.Ready) (recovered : StatusCode) : (e.goOn recovered).Ready := by
  cases e with
  | hold => trivial
  | done st res t =>
    unfold Ended.goOn
    dsimp only
    split <;> exact h

theorem Ended.Ready.last {e : Ended} (h : e.Ready) : e.last.Ready := by
  cases e with
  | hold => trivial
  | done st res t =>
    unfold Ended.last
    dsimp only
    split <;> exact h

/-- In a frame the channel the decoder expects next is `SF_DONE` itself. -/
theorem Core.nextChannel_val {s : State} (k : Core s) (hp : s.phase = .headerDone)
    (hlt : s.sfDone.toNat < s.hdr.channels.toNat) : s.nextChannel.val = s.sfDone.toNat := by
  obtain ⟨-, ⟨-, hchannels, -⟩, -⟩ := k.framed (.inl hp)
  exact Nat.mod_eq_of_lt (by omega)

/-- When no channel is left to decode, all are decoded. -/
theorem Core.sfDone_eq {s : State} (k : Core s) (hp : s.phase = .headerDone)
    (hlt : ¬ s.sfDone.toNat < s.hdr.channels.toNat) : s.sfDone = s.hdr.channels := by
  obtain ⟨-, -, hle⟩ := k.framed (.inl hp)
  exact BitVec.eq_of_toNat_eq (by omega)

/-- One step of the recovery loop, whichever primitive step the sequencer selects (R351). -/
theorem Ready.nextFrame {s : State} (r : Ready s) : (nextFrameStep s).Ready := by
  unfold nextFrameStep
  cases hp : s.phase with
  | searching => exact (r.findSync hp).goOn _
  | synced => exact r.header.goOn _
  | headerDone =>
    dsimp only
    split
    · next hlt => exact (r.subframe hp (r.core.nextChannel_val hp hlt) hlt).goOn _
    · next hlt => exact (r.decorrelate hp (r.core.sfDone_eq hp hlt)).goOn _
  | decorrelated => exact (r.footer hp).last

/-! ## Admission and the end of a command -/

theorem admitPlain_inv {arg : Bool} {s t : State} {run : Out} (hs : s.Inv) (hx : admitPlain arg s run = .next t)
    (hrun : run = .next t → t.Inv) : t.Inv := by
  rcases admitPlain_cases hx with ⟨-, rfl⟩ | ⟨-, h⟩
  · exact (inv_iff.1 hs).1.inv_errorWith _ _
  · exact hrun h

theorem admitFrame_inv {arg seq : Bool} {s t : State} {run : Out} (hs : s.Inv)
    (hx : admitFrame arg seq s run = .next t)
    (hrun : arg = true → seq = true → Ready s → run = .next t → t.Inv) : t.Inv := by
  obtain ⟨k, -⟩ := inv_iff.1 hs
  rcases admitFrame_cases hx with ⟨-, rfl⟩ | ⟨hdisabled, rfl⟩ | ⟨-, rfl⟩ | ⟨harg, henabled, hseq, h⟩
  · exact k.inv_errorWith _ _
  · exact (k.structural hdisabled).inv_of_idle rfl
  · exact k.inv_errorWith _ _
  · exact hrun harg hseq ⟨k, henabled⟩ h

theorem Ended.Ready.finish_inv {e : Ended} {s t : State} (h : e.Ready) (hs : s.Inv)
    (hx : e.finish s = .next t) : t.Inv := by
  cases e with
  | hold => cases hx; exact hs
  | done st res u => cases hx; exact Machine.Ready.endCommand h st res

/-! ## The commands -/

theorem ReaderAct.inv {act : Rd Word64} (hact : ReaderAct act) {s t : State} (hs : s.Inv)
    (hx : runReader act s = .next t) : t.Inv := by
  obtain ⟨k, -⟩ := inv_iff.1 hs
  rcases hact.cases hx with ⟨rfl, -⟩ | ⟨rfl, -⟩ | ⟨v, u, hread, rfl⟩
  · exact hs
  · exact k.setEof.inv_errorWith _ _
  · have ku : Core u := k.same hread.same (hread.1.sourceOk k.source) hread.1.phase hread.1.sfDone
    exact ku.inv_endCommand .okay v

theorem Core.searching_of_unaccepted {s : State} (k : Core s) (hv : s.spValid = false) : s.phase = .searching := by
  by_contra hn
  have haccepted := (framesEnabled_iff.1 (k.enabled hn)).1
  exact absurd (hv.symm.trans haccepted) Bool.false_ne_true

/-- While the parameters are not accepted no frame is in progress or delivered, so they may take any value
(`10_state.md` R39, R40). -/
theorem Core.setParams {s : State} (k : Core s) (hv : s.spValid = false) (sp : StreamParams) :
    Core { s with sp := sp } := by
  have hp := k.searching_of_unaccepted hv
  have hb : s.bufValid ≠ true := fun hb =>
    absurd (hv.symm.trans (k.delivered hb).1) Bool.false_ne_true
  exact
    { source := k.source
      params := k.params
      accepted := fun h => absurd (hv.symm.trans h) Bool.false_ne_true
      enabled := k.enabled
      waiting := k.waiting
      framed := fun h => by simp [hp] at h
      complete := k.complete
      delivered := fun h => absurd h hb
      filled := k.filled
      bounded := k.bounded
      residual := k.residual }

theorem Core.acceptParams {s : State} (k : Core s) (hv : s.spValid = false)
    (hacc : s.sp.acceptable s.params.bufDepth = true) : Core { s with spValid := true } := by
  have hp := k.searching_of_unaccepted hv
  exact
    { source := k.source
      params := k.params
      accepted := fun _ => hacc
      enabled := fun hn => absurd hp hn
      waiting := k.waiting
      framed := k.framed
      complete := k.complete
      delivered := fun h => ⟨rfl, (k.delivered h).2⟩
      filled := k.filled
      bounded := k.bounded
      residual := k.residual }

theorem csrWrite_inv {a : Byte} {s t : State} (hs : s.Inv) (hx : exec (.csrWrite a) s = .next t) : t.Inv := by
  obtain ⟨k, -⟩ := inv_iff.1 hs
  rcases csrWrite_cases hx with ⟨sub, rfl⟩ | rfl | ⟨hv, sp, rfl⟩ | ⟨hv, hacc, rfl⟩
  · exact k.inv_errorWith _ _
  · exact k.inv_errorWith _ _
  · exact (k.setParams hv sp).inv_endCommand .okay 0
  · exact (k.acceptParams hv hacc).inv_endCommand .okay 0

theorem csrRead_inv {a : Byte} {s t : State} (hs : s.Inv) (hx : execCsrRead a s = .next t) : t.Inv := by
  obtain ⟨k, -⟩ := inv_iff.1 hs
  unfold execCsrRead at hx
  split at hx
  · cases hx; exact k.inv_endCommand _ _
  · exact k.inv_illegal hx

theorem bufRead_inv {c : Byte} {s t : State} (hs : s.Inv) (hx : execBufRead c s = .next t) : t.Inv := by
  obtain ⟨k, -⟩ := inv_iff.1 hs
  refine admitPlain_inv hs hx fun hx => ?_
  split at hx
  · exact k.inv_illegal hx
  · split at hx
    · exact k.inv_illegal hx
    · cases hx; exact k.inv_endCommand _ _

theorem chbufUnspecified_samples (g : Nat) (c : ChannelIx) : (chbufUnspecified g)[c].samples = [] := by
  fin_cases c <;> rfl

/-- A reset meets the invariant, whatever the state it is made in (`70_reset_and_hazards.md` R420, R421). -/
theorem Core.toReset {s : State} (k : Core s) : Core s.toReset where
  source := ⟨rfl, Nat.two_pow_pos 61, Nat.zero_le _⟩
  params := k.params
  accepted := fun h => absurd h Bool.false_ne_true
  enabled := fun h => absurd rfl h
  waiting := fun _ => rfl
  framed := fun h => by simp [State.toReset, State.reset] at h
  complete := fun h => by simp [State.toReset, State.reset] at h
  delivered := fun h => absurd h Bool.false_ne_true
  filled := fun c hc => absurd hc (Nat.not_lt_zero _)
  bounded := fun c => by
    show ((chbufUnspecified s.freeCount)[c]).samples.length ≤ _
    rw [chbufUnspecified_samples]
    exact Nat.zero_le _
  residual := rfl

theorem Ready.readNextFrameStep_inv {s t : State} (r : Ready s) (hs : s.Inv)
    (hx : readNextFrameStep s = .next t) : t.Inv := by
  have hnext := r.nextFrame
  unfold readNextFrameStep at hx
  cases e : nextFrameStep s with
  | hold => rw [e] at hx; cases hx; exact hs
  | again u => rw [e] at hx hnext; cases hx; exact Ready.inv_readingNext hnext
  | ended st res u => rw [e] at hx hnext; cases hx; exact Ready.endCommand hnext st res

theorem Ready.decodeStep_inv {n : Nat} {s t : State} (r : Ready s) (hs : s.Inv)
    (hx : decodeStep n s = .next t) : t.Inv := by
  have hnext := r.nextFrame
  unfold decodeStep at hx
  cases e : nextFrameStep s with
  | hold => rw [e] at hx; cases hx; exact hs
  | again u => rw [e] at hx hnext; cases hx; exact Ready.inv_decoding hnext n
  | ended st res u =>
    rw [e] at hx hnext
    dsimp only at hx
    split at hx
    · cases hx; exact Ready.endCommand hnext _ _
    · split at hx
      · cases hx; exact Ready.endCommand hnext _ _
      · cases hx; exact Ready.inv_decoding hnext _

theorem readNextFrame_inv {a : Byte} {s t : State} (hs : s.Inv) (hx : execReadNextFrame a s = .next t) :
    t.Inv := by
  have admitted : admitFrame (legalN a) (s.phase == .searching) s (readNextFrameStep s) = .next t → t.Inv :=
    fun h => admitFrame_inv hs h fun _ _ r => r.readNextFrameStep_inv hs
  obtain ⟨k, hslot⟩ := inv_iff.1 hs
  unfold execReadNextFrame at hx
  cases e : s.slot with
  | readingNext =>
    rw [e] at hx
    rw [State.slotOk, e] at hslot
    exact Ready.readNextFrameStep_inv ⟨k, hslot⟩ hs hx
  | idle | pending | decoding => rw [e] at hx; exact admitted hx

theorem decode_inv {a : Byte} {s t : State} (hs : s.Inv) (hx : execDecode a s = .next t) : t.Inv := by
  have admitted : admitFrame (legalN a) (s.phase == .searching) s (decodeStep 0 s) = .next t → t.Inv :=
    fun h => admitFrame_inv hs h fun _ _ r => r.decodeStep_inv hs
  obtain ⟨k, hslot⟩ := inv_iff.1 hs
  unfold execDecode at hx
  cases e : s.slot with
  | decoding n =>
    rw [e] at hx
    rw [State.slotOk, e] at hslot
    exact Ready.decodeStep_inv ⟨k, hslot⟩ hs hx
  | idle | pending | readingNext => rw [e] at hx; exact admitted hx

theorem frDecodeSubframe_inv {c : Byte} {s t : State} (hs : s.Inv) (hx : execFrDecodeSubframe c s = .next t) :
    t.Inv := by
  refine admitFrame_inv hs hx fun hlegal hseq r hrun => ?_
  simp only [Bool.and_eq_true, beq_iff_eq, decide_eq_true_eq] at hseq
  obtain ⟨⟨hp, hdone⟩, hlt⟩ := hseq
  have hc : c.toNat ≤ 7 := of_decide_eq_true hlegal
  have hchannel : (channelOf c).val = s.sfDone.toNat := (Nat.mod_eq_of_lt (by omega)).trans hdone
  exact (r.subframe hp hchannel (hdone ▸ hlt)).finish_inv hs hrun

/-- Every command of the command word keeps the invariant; the bitstream codes, which the host cannot issue, are no
commands (log 2). -/
theorem exec_inv {i : Instr} {s t : State} (hcommand : commandCodes i ≠ none) (hs : s.Inv)
    (hx : exec i s = .next t) : t.Inv := by
  obtain ⟨k, -⟩ := inv_iff.1 hs
  have okay : ∀ {u : State} {v : Word64}, Core u → (.next (u.endCommand .okay v) : Out) = .next t → t.Inv := by
    intro u v ku h
    cases h
    exact ku.inv_endCommand _ _
  cases i with
  | nop | brIsAligned | brCrc16Read | brCrc8Read => exact admitPlain_inv hs hx (okay k)
  | softReset a =>
    refine admitPlain_inv hs hx fun h => ?_
    cases h
    exact k.toReset.inv_of_idle rfl
  | csrRead a => exact csrRead_inv hs hx
  | csrWrite a => exact csrWrite_inv hs hx
  | bufRead c => exact bufRead_inv hs hx
  | brReadUint n => exact admitPlain_inv hs hx (ReaderAct.inv (.inl ⟨_, rfl⟩) hs)
  | brReadInt n => exact admitPlain_inv hs hx (ReaderAct.inv (.inr (.inl ⟨_, rfl⟩)) hs)
  | brPeekUint n => exact admitPlain_inv hs hx (ReaderAct.inv (.inr (.inr (.inl ⟨_, rfl⟩))) hs)
  | brReadUnary a => exact admitPlain_inv hs hx (ReaderAct.inv (.inr (.inr (.inr (.inl rfl)))) hs)
  | brAlign a => exact admitPlain_inv hs hx (ReaderAct.inv (.inr (.inr (.inr (.inr rfl)))) hs)
  | brCrc16Reset | brCrc8Reset =>
    exact admitPlain_inv hs hx (okay (k.unread ⟨rfl, rfl, rfl, rfl, rfl, rfl, rfl, rfl⟩ rfl rfl rfl rfl))
  | frFindSync a =>
    exact admitFrame_inv hs hx fun _ hseq r => (r.findSync (beq_iff_eq.1 hseq)).finish_inv hs
  | frDecodeHeader a => exact admitFrame_inv hs hx fun _ _ r => r.header.finish_inv hs
  | frDecodeSubframe c => exact frDecodeSubframe_inv hs hx
  | frDecorrelate a =>
    refine admitFrame_inv hs hx fun _ hseq r => ?_
    obtain ⟨hp, hd⟩ := Bool.and_eq_true_iff.1 hseq
    exact (r.decorrelate (beq_iff_eq.1 hp) (beq_iff_eq.1 hd)).finish_inv hs
  | frCheckFooter a =>
    exact admitFrame_inv hs hx fun _ hseq r => (r.footer (beq_iff_eq.1 hseq)).finish_inv hs
  | readNextFrame a => exact readNextFrame_inv hs hx
  | decode a => exact decode_inv hs hx
  | reservedOpcode op a => exact k.inv_illegal hx
  | subframeConstant | subframeVerbatim | subframeFixed0 | subframeFixed1 | subframeFixed2 | subframeFixed3
  | subframeFixed4 | subframeLpc | subframeReserved | subframeBadPadding | frameSync | residualRice
  | residualRice2 | residualReserved | chIndependent | chLeftSide | chRightSide | chMidSide | chReserved =>
    exact absurd rfl hcommand

/-! ## The step -/

/-- A command word decodes to a command (`30_encoding.md` R81, R82). -/
theorem commandCodes_decodeCommand (w : Word16) : commandCodes (decodeCommand w) ≠ none := by
  unfold decodeCommand
  split <;> exact Option.some_ne_none _

/-- What waits in the slot of a state with the invariant decodes to a command. -/
theorem State.Inv.pending_command {s : State} {c : CodeWord} {i : Instr} (hs : s.Inv) (hslot : s.slot = .pending c)
    (hd : decode c = .ok i) : commandCodes i ≠ none := by
  have hok := (inv_iff.1 hs).2
  rw [State.slotOk, hslot] at hok
  cases c with
  | command w =>
    cases hd
    exact commandCodes_decodeCommand w
  | sync | subframeByte | residualMethod | channelCode => exact hok.elim

/-- A byte supplied within the limit stands at the end of an input that stays canonical (`20_memory.md` R61,
`70_reset_and_hazards.md` R431). -/
theorem sourceOk_append {s : State} (h : s.sourceOk) (b : Byte) (hlen : s.src.length + 1 < 2 ^ 61) :
    State.sourceOk { s with src := s.src.append b } := by
  obtain ⟨hwf, -, hpos⟩ := h
  have hl : (s.src.append b).length = s.src.length + 1 := List.length_append
  exact ⟨Memory.wf_append b hwf, by rw [hl]; exact hlen, by rw [hl]; show s.pos.toNat ≤ _; omega⟩

theorem State.Inv.supply {s : State} (hs : s.Inv) (b : Byte) (hlen : s.src.length + 1 < 2 ^ 61) :
    State.Inv { s with src := s.src.append b } := by
  obtain ⟨k, hslot⟩ := inv_iff.1 hs
  exact inv_iff.2 ⟨k.same ⟨rfl, rfl, rfl, rfl, rfl, rfl, rfl, rfl⟩ (sourceOk_append k.source b hlen) rfl rfl, hslot⟩

theorem State.Inv.issue {s : State} (hs : s.Inv) (cmd : Word16) (v : Word64) :
    State.Inv { s with slot := .pending (.command cmd), dataIn := v } :=
  inv_iff.2 ⟨(inv_iff.1 hs).1.unread ⟨rfl, rfl, rfl, rfl, rfl, rfl, rfl, rfl⟩ rfl rfl rfl rfl, trivial⟩

/-- Settles O12: a step runs a command, which `exec_inv` treats, or makes a move of the host. -/
theorem everyStepKeepsTheInvariant : Obligations.EveryStepKeepsTheInvariant := by
  intro s t hs hx
  obtain ⟨r, hr, hstep⟩ := step_cases hx
  obtain ⟨moves, rfl⟩ := host_taken hr
  have hr : State.Inv { s with host := moves } := hs
  rcases hstep with ⟨-, hrun⟩ | ⟨cmd, v, rest, -, -, rfl⟩ | ⟨b, rest, -, -, hlen, rfl⟩ | ⟨rest, -, rfl⟩ |
    ⟨rest, -, rfl⟩ | ⟨level, rest, -, rfl⟩ | ⟨rest, -, rfl⟩
  · rcases hrun with ⟨-, rfl⟩ | ⟨c, i, hslot, hd, hexec⟩ | ⟨-, hexec⟩ | ⟨n, -, hexec⟩
    · exact hr
    · exact exec_inv (hs.pending_command hslot hd) hr hexec
    · exact exec_inv (i := .readNextFrame 0) (Option.some_ne_none _) hr hexec
    · exact exec_inv (i := .decode 0) (Option.some_ne_none _) hr hexec
  · exact hr.issue cmd v
  · exact hr.supply b hlen
  · exact hr
  · exact hr
  · exact hr
  · exact (inv_iff.1 hr).1.toReset.inv_of_idle rfl

end Sys2Proof.Machine
end

section
/-! SUPPORT. The decoder and the encoder are each other's inverses (`30_encoding.md` R80 to R82, R94, R100, R104,
R110): for each space of code words, the word its fields make up and the fields read back from it, then the
statements on whole words (O1 to O5). -/

namespace Sys2Proof.Machine

/-! ## A bit and the rest of a word -/

theorem ofBool_getLsbD {n : Nat} (x : BitVec n) (i : Nat) : BitVec.ofBool (x.getLsbD i) = x.extractLsb' i 1 := by
  ext j hj
  obtain rfl : j = 0 := by omega
  simp

theorem topBit_append_rest {n : Nat} (x : BitVec (1 + n)) :
    BitVec.ofBool (x.getLsbD n) ++ x.extractLsb' 0 n = x := by
  rw [ofBool_getLsbD, BitVec.extractLsb'_append_extractLsb'_eq_extractLsb' (Nat.zero_add n).symm,
    BitVec.extractLsb'_eq_self]

theorem rest_append_lowBit {n : Nat} (x : BitVec (n + 1)) :
    x.extractLsb' 1 n ++ BitVec.ofBool (x.getLsbD 0) = x := by
  rw [ofBool_getLsbD, BitVec.extractLsb'_append_extractLsb'_eq_extractLsb' (Nat.zero_add 1).symm,
    BitVec.extractLsb'_eq_self]

theorem topBit_append {n : Nat} (b : Bool) (y : BitVec n) : (BitVec.ofBool b ++ y).getLsbD n = b := by
  rw [BitVec.getLsbD_append]
  simp

theorem lowBit_append {n : Nat} (y : BitVec n) (b : Bool) : (y ++ BitVec.ofBool b).getLsbD 0 = b := by
  rw [BitVec.getLsbD_append]
  simp

/-- The top bit of a word is its weight in the word's value. -/
theorem topBit_iff {n : Nat} (x : BitVec (1 + n)) : x.getLsbD n = true ↔ 2 ^ n ≤ x.toNat := by
  have hmsb := BitVec.msb_eq_decide x
  rw [BitVec.msb_eq_getLsbD_last, Nat.add_sub_cancel_left] at hmsb
  rw [hmsb, decide_eq_true_eq]

/-! ## Command words -/

/-- The opcodes of R81 leave out exactly the ranges of R82. -/
theorem opcodeDefined_eq_false_iff (op : Byte) : opcodeDefined op = false ↔
    (0x05 ≤ op.toNat ∧ op.toNat ≤ 0x0F) ∨ (0x1A ≤ op.toNat ∧ op.toNat ≤ 0x1F) ∨
      (0x25 ≤ op.toNat ∧ op.toNat ≤ 0x2F) ∨ 0x32 ≤ op.toNat := by
  simp only [opcodeDefined, Bool.or_eq_false_iff, Bool.and_eq_false_iff, decide_eq_false_iff_not]
  omega

theorem commandWord_argumentOf {w : Word16} {op : Byte} (h : (opcodeOf w).toNat = op.toNat) :
    commandWord op (argumentOf w) = .command w := by
  rw [commandWord, ← BitVec.eq_of_toNat_eq h, append_parts]

/-- The row of R81 that fits an opcode gives the word back; with none, the opcode is one of R82. -/
theorem decodeCommand_encoded (w : Word16) :
    (decodeCommand w).wellFormed = true ∧ encode (decodeCommand w) = .command w := by
  unfold decodeCommand
  split
  case h_23 =>
    refine ⟨?_, commandWord_argumentOf rfl⟩
    rw [Instr.wellFormed, Bool.not_eq_true', opcodeDefined_eq_false_iff]
    grind
  all_goals exact ⟨rfl, commandWord_argumentOf ‹_›⟩

/-- Only an opcode that is not defined decodes to a reserved opcode (R82). -/
theorem decodeCommand_eq_reserved_iff (op arg : Byte) :
    decodeCommand (op ++ arg) = .reservedOpcode op arg ↔ opcodeDefined op = false := by
  refine ⟨fun h => ?_, decodeCommand_reserved op arg⟩
  have hwf := (decodeCommand_encoded (op ++ arg)).1
  rwa [h, Instr.wellFormed, Bool.not_eq_true'] at hwf

/-! ## Sync bytes -/

/-- The second sync byte is its top six bits and the two flags (R110). -/
theorem syncByte_parts (y : Byte) :
    (y.extractLsb' 2 6 ++ BitVec.ofBool (y.getLsbD 1) ++ BitVec.ofBool (y.getLsbD 0) : Byte) = y := by
  rw [ofBool_getLsbD, BitVec.extractLsb'_append_extractLsb'_eq_extractLsb' (Nat.one_add 1).symm]
  exact rest_append_lowBit y

theorem decodeSync_encoded {w : Word16} {i : Instr} (h : decodeSync w = .ok i) :
    i.wellFormed = true ∧ encode i = .sync w := by
  unfold decodeSync at h
  split at h
  next hmatch =>
    cases h
    simp only [syncTail, Bool.and_eq_true, beq_iff_eq] at hmatch
    obtain ⟨hhead, htail⟩ := hmatch
    refine ⟨rfl, congrArg CodeWord.sync ?_⟩
    have h0 : (argumentOf w).getLsbD 0 = w.getLsbD 0 := by simp [argumentOf]
    have h1 : (argumentOf w).getLsbD 1 = w.getLsbD 1 := by simp [argumentOf]
    rw [← hhead, ← htail, ← h0, ← h1]
    exact (congrArg (opcodeOf w ++ ·) (syncByte_parts (argumentOf w))).trans (append_parts w)
  next => cases h

theorem decodeSync_pattern (r b : Bool) :
    decodeSync (0xFF#8 ++ (0b111110#6 ++ BitVec.ofBool r ++ BitVec.ofBool b)) = .ok (.frameSync r b) := by
  cases r <;> cases b <;> rfl

/-! ## Subframe header bytes -/

theorem subframeType_low (x : Byte) : (x.extractLsb' 1 6).extractLsb' 0 5 = x.extractLsb' 1 5 := by
  ext i hi
  simp [show i < 6 by omega]

theorem subframeByte_padding (t : BitVec 6) (w : Bool) : (0#1 ++ t ++ BitVec.ofBool w : Byte).getLsbD 7 = false := by
  rw [BitVec.getLsbD_append]
  exact topBit_append false t

theorem subframeByte_type (t : BitVec 6) (w : Bool) : (0#1 ++ t ++ BitVec.ofBool w : Byte).extractLsb' 1 6 = t := by
  rw [BitVec.extractLsb'_append_eq_of_le le_rfl]
  exact BitVec.extractLsb'_append_eq_right

theorem subframeByte_flag (t : BitVec 6) (w : Bool) : (0#1 ++ t ++ BitVec.ofBool w : Byte).getLsbD 0 = w :=
  lowBit_append (0#1 ++ t) w

/-- A header byte without padding is the word of its type and its wasted-bits flag (R100). -/
theorem subframeWord_parts {x : Byte} {t : BitVec 6} (hpad : x.getLsbD 7 = false) (ht : x.extractLsb' 1 6 = t) :
    subframeWord t (x.getLsbD 0) = .subframeByte x := by
  have htop : (0#1 ++ t : BitVec 7) = x.extractLsb' 1 7 := by
    calc
      0#1 ++ t = BitVec.ofBool (x.getLsbD 7) ++ x.extractLsb' 1 6 := by rw [hpad, ht]; rfl
      _ = x.extractLsb' 1 7 := by
        rw [ofBool_getLsbD]
        exact BitVec.extractLsb'_append_extractLsb'_eq_extractLsb' rfl
  rw [subframeWord, htop]
  exact congrArg CodeWord.subframeByte (rest_append_lowBit x)

theorem subframeType_parts {t : BitVec 6} (h : t.getLsbD 5 = true) : 1#1 ++ t.extractLsb' 0 5 = t := by
  have := topBit_append_rest (n := 5) t
  rwa [h] at this

theorem subframeWord_lpc {x : Byte} (hpad : x.getLsbD 7 = false) (hlpc : (x.extractLsb' 1 6).getLsbD 5 = true) :
    subframeWord (1#1 ++ x.extractLsb' 1 5) (x.getLsbD 0) = .subframeByte x := by
  refine subframeWord_parts hpad ?_
  rw [← subframeType_parts hlpc, subframeType_low]

theorem badPadding_parts {x : Byte} (h : x.getLsbD 7 = true) : (1#1 ++ x.extractLsb' 0 7 : Byte) = x := by
  have := topBit_append_rest (n := 7) x
  rwa [h] at this

/-- The types of R100 below 32 that no other row names. -/
theorem subframeTypeReserved_iff (t : BitVec 6) : subframeTypeReserved t = true ↔
    (2 ≤ t.toNat ∧ t.toNat ≤ 7) ∨ (13 ≤ t.toNat ∧ t.toNat ≤ 31) := by
  simp [subframeTypeReserved]

theorem decodeSubframeByte_encoded (x : Byte) :
    (decodeSubframeByte x).toInstr.wellFormed = true ∧ encode (decodeSubframeByte x).toInstr = .subframeByte x := by
  simp only [decodeSubframeByte]
  split
  next hpad => exact ⟨rfl, congrArg CodeWord.subframeByte (badPadding_parts hpad)⟩
  next hpad =>
    rw [Bool.not_eq_true] at hpad
    split
    next hlpc => exact ⟨rfl, subframeWord_lpc hpad hlpc⟩
    next hlpc =>
      split
      case h_8 =>
        refine ⟨?_, subframeWord_parts hpad rfl⟩
        have := (topBit_iff (n := 5) (x.extractLsb' 1 6)).not.1 hlpc
        simp only [SubframeCode.toInstr, Instr.wellFormed, subframeTypeReserved_iff]
        grind
      all_goals exact ⟨rfl, subframeWord_parts hpad (BitVec.eq_of_toNat_eq ‹_›)⟩

/-! ## Residual methods and channel codes -/

theorem decodeResidualMethod_encoded (m : BitVec 2) :
    (decodeResidualMethod m).wellFormed = true ∧ encode (decodeResidualMethod m) = .residualMethod m := by
  revert m
  decide

theorem decodeChannelCode_encoded (c : BitVec 4) :
    (decodeChannelCode c).wellFormed = true ∧ encode (decodeChannelCode c) = .channelCode c := by
  unfold decodeChannelCode
  have hparts := topBit_append_rest (n := 3) c
  split
  next h =>
    have := (topBit_iff (n := 3) c).1 h
    split
    case h_4 =>
      refine ⟨?_, rfl⟩
      simp only [Instr.wellFormed, channelCodeReserved, decide_eq_true_eq]
      grind
    all_goals exact ⟨rfl, congrArg CodeWord.channelCode (BitVec.eq_of_toNat_eq (Eq.symm ‹_›))⟩
  next h =>
    rw [Bool.not_eq_true] at h
    exact ⟨rfl, congrArg CodeWord.channelCode (by rwa [h] at hparts)⟩

/-! ## Decoding inverts encoding -/

theorem decodeSubframeByte_reserved {t : BitVec 6} (w : Bool) (h : subframeTypeReserved t = true) :
    decodeSubframeByte (0#1 ++ t ++ BitVec.ofBool w) = .reserved t w := by
  rw [subframeTypeReserved_iff] at h
  have hlpc : ¬ t.getLsbD 5 = true := by rw [topBit_iff (n := 5) t]; omega
  simp only [decodeSubframeByte, subframeByte_padding, subframeByte_type, subframeByte_flag, hlpc, Bool.false_eq_true,
    ↓reduceIte]
  split
  case h_8 => rfl
  all_goals omega

theorem decodeSubframeByte_lpc {t : BitVec 6} (w : Bool) (h : t.getLsbD 5 = true) :
    decodeSubframeByte (0#1 ++ t ++ BitVec.ofBool w) = .lpc (t.extractLsb' 0 5) w := by
  simp only [decodeSubframeByte, ← subframeType_low, subframeByte_padding, subframeByte_type, subframeByte_flag, h]
  rfl

theorem decodeSubframeByte_badPadding (r : BitVec 7) : decodeSubframeByte (1#1 ++ r) = .badPadding r := by
  have hpad : (1#1 ++ r : Byte).getLsbD 7 = true := topBit_append true r
  rw [decodeSubframeByte, if_pos hpad]
  exact congrArg _ BitVec.extractLsb'_append_eq_right

theorem decodeChannelCode_independent (n : BitVec 3) : decodeChannelCode (0#1 ++ n) = .chIndependent n := by
  have hlow : (0#1 ++ n : BitVec 4).getLsbD 3 = false := topBit_append false n
  rw [decodeChannelCode, if_neg (by rw [hlow]; decide)]
  exact congrArg _ BitVec.extractLsb'_append_eq_right

theorem decodeChannelCode_reserved {c : BitVec 4} (h : channelCodeReserved c = true) :
    decodeChannelCode c = .chReserved c := by
  rw [channelCodeReserved, decide_eq_true_eq] at h
  have htop : c.getLsbD 3 = true := (topBit_iff (n := 3) c).2 (by omega)
  rw [decodeChannelCode, if_pos htop]
  split
  case h_4 => rfl
  all_goals omega

/-! ## Whole words -/

/-- Settles O1: in each space the decoder reads the opcode or the type, which selects its row, and then the fields,
back from the word the encoder puts together from them. -/
theorem decodeEncodeRoundTrip : Obligations.DecodeEncodeRoundTrip := by
  intro i hi
  cases i with
  | nop a | softReset a | csrRead a | csrWrite a | bufRead a | brReadUint a | brReadInt a | brReadUnary a
  | brPeekUint a | brIsAligned a | brAlign a | brCrc16Reset a | brCrc16Read a | brCrc8Reset a | brCrc8Read a
  | frFindSync a | frDecodeHeader a | frDecodeSubframe a | frDecorrelate a | frCheckFooter a | readNextFrame a
  | decode a =>
    simp only [encode, decode, commandWord, decodeCommand, opcodeOf_append, argumentOf_append]
    rfl
  | reservedOpcode op a =>
    rw [Instr.wellFormed, Bool.not_eq_true'] at hi
    exact congrArg Except.ok (decodeCommand_reserved op a hi)
  | subframeConstant w | subframeVerbatim w | subframeFixed0 w | subframeFixed1 w | subframeFixed2 w
  | subframeFixed3 w | subframeFixed4 w =>
    simp only [encode, decode, subframeWord, decodeSubframeByte, subframeByte_padding, subframeByte_type,
      subframeByte_flag]
    rfl
  | subframeLpc o w =>
    have htype : (1#1 ++ o : BitVec 6).getLsbD 5 = true := topBit_append true o
    have hcode := decodeSubframeByte_lpc w htype
    rw [BitVec.extractLsb'_append_eq_right] at hcode
    exact congrArg (Except.ok ·.toInstr) hcode
  | subframeReserved t w => exact congrArg (Except.ok ·.toInstr) (decodeSubframeByte_reserved w hi)
  | subframeBadPadding r => exact congrArg (Except.ok ·.toInstr) (decodeSubframeByte_badPadding r)
  | frameSync r b => exact decodeSync_pattern r b
  | residualReserved l => cases l <;> rfl
  | chIndependent n => exact congrArg Except.ok (decodeChannelCode_independent n)
  | chReserved c => exact congrArg Except.ok (decodeChannelCode_reserved hi)
  | residualRice | residualRice2 | chLeftSide | chRightSide | chMidSide => rfl

/-- Settles O2: each row the decoder can take encodes to a word with the same fields, and a word is its fields. -/
theorem decodedWordIsItsEncoding : Obligations.DecodedWordIsItsEncoding := by
  intro w i hd
  cases w with
  | command w => cases hd; exact decodeCommand_encoded w
  | sync w => exact decodeSync_encoded hd
  | subframeByte x => cases hd; exact decodeSubframeByte_encoded x
  | residualMethod m => cases hd; exact decodeResidualMethod_encoded m
  | channelCode c => cases hd; exact decodeChannelCode_encoded c

/-- Settles O3, by running the decoder on each of the thirteen words. -/
theorem specWordsDecode : Obligations.SpecWordsDecode := by
  unfold Obligations.SpecWordsDecode
  decide

/-! ## Header bytes by their value -/

theorem decode_of_encode {c : CodeWord} {i : Instr} (hwf : i.wellFormed = true) (h : encode i = c) :
    decode c = .ok i :=
  h ▸ decodeEncodeRoundTrip i hwf

theorem subframeByte_type_toNat (x : Byte) : (x.extractLsb' 1 6).toNat = x.toNat / 2 % 64 := by
  rw [BitVec.extractLsb'_toNat, Nat.shiftRight_eq_div_pow]

theorem subframeByte_unpadded {x : Byte} (h : x.toNat / 2 ≤ 63) : x.getLsbD 7 = false := by
  rw [← Bool.not_eq_true, topBit_iff (n := 7) x]
  omega

theorem subframeWord_of_half {x : Byte} {t : BitVec 6} (h : x.toNat / 2 = t.toNat) :
    subframeWord t (x.getLsbD 0) = .subframeByte x := by
  refine subframeWord_parts (subframeByte_unpadded (by omega)) (BitVec.eq_of_toNat_eq ?_)
  rw [subframeByte_type_toNat]
  omega

theorem fixedInstr_wellFormed (o : Fin 5) (w : Bool) : (fixedInstr o w).wellFormed = true := by
  fin_cases o <;> rfl

theorem encode_fixedInstr (o : Fin 5) (w : Bool) :
    encode (fixedInstr o w) = subframeWord (BitVec.ofNat 6 (8 + o.val)) w := by
  fin_cases o <;> rfl

theorem lpcField_of_half {x : Byte} (h : 32 ≤ x.toNat / 2 ∧ x.toNat / 2 ≤ 63) :
    BitVec.ofNat 5 (x.toNat / 2 - 32) = x.extractLsb' 1 5 := by
  apply BitVec.eq_of_toNat_eq
  rw [BitVec.toNat_ofNat, BitVec.extractLsb'_toNat, Nat.shiftRight_eq_div_pow]
  omega

/-- Settles O4: below 128, half the byte is its type (`subframeWord_of_half`), so the byte is the word of the
instruction the map gives it, and decodes to it by the round trip. -/
theorem subframeHeaderByteMap : Obligations.SubframeHeaderByteMap := by
  intro x
  refine ⟨fun h => ?badPadding, fun h => ?constant, fun h => ?verbatim, fun h => ?reserved, fun o h => ?fixed,
    fun h => ⟨?lpc, ?order⟩⟩
  case badPadding =>
    have hpad : x.getLsbD 7 = true := (topBit_iff (n := 7) x).2 h
    rw [BitVec.setWidth_eq_extractLsb' (by decide)]
    exact decode_of_encode rfl (congrArg CodeWord.subframeByte (badPadding_parts hpad))
  case constant => exact decode_of_encode rfl (subframeWord_of_half h)
  case verbatim => exact decode_of_encode rfl (subframeWord_of_half h)
  case reserved =>
    have ht : (BitVec.ofNat 6 (x.toNat / 2)).toNat = x.toNat / 2 := by rw [BitVec.toNat_ofNat]; omega
    exact decode_of_encode ((subframeTypeReserved_iff _).2 (by rwa [ht])) (subframeWord_of_half ht.symm)
  case fixed =>
    refine decode_of_encode (fixedInstr_wellFormed o _) ((encode_fixedInstr o _).trans (subframeWord_of_half ?_))
    rw [BitVec.toNat_ofNat]
    omega
  case lpc =>
    have hlpc : (x.extractLsb' 1 6).getLsbD 5 = true := by
      rw [topBit_iff (n := 5), subframeByte_type_toNat]
      omega
    rw [lpcField_of_half h]
    exact decode_of_encode rfl (subframeWord_lpc (subframeByte_unpadded h.2) hlpc)
  case order =>
    rw [lpcOrder, BitVec.toNat_ofNat]
    omega

/-! ## Reserved opcodes -/

/-- Settles O5: the ranges of R82 are the opcodes that are not defined, and only those decode to a reserved one. -/
theorem reservedOpcodesAreIllegal : Obligations.ReservedOpcodesAreIllegal := by
  refine ⟨fun op arg s => illegal_eq 1 s, fun op arg => ?_⟩
  rw [← opcodeDefined_eq_false_iff, ← decodeCommand_eq_reserved_iff op arg, decode, Except.ok.injEq]

end Sys2Proof.Machine
end

section
/-! SUPPORT. The bit reader (`40_bitreader.md` R140 to R154; O19 to O26): what consuming feeds to the accumulators,
what each `BR_*` command answers when its bits are there and when they are not, its frame, and the residue of both
CRCs. -/

namespace Sys2Proof.Machine

/-! ## Consuming (R142) -/

theorem Memory.holds_cons {m : Memory} {a : Nat} {b : Byte} {bs : List Byte} (h : m.holds a (b :: bs)) :
    m.byteAt a = some b ∧ m.holds (a + 1) bs := by
  refine ⟨h 0 (Nat.succ_pos _), fun i hi => ?_⟩
  rw [Nat.add_right_comm]
  exact h (i + 1) (Nat.succ_lt_succ hi)

theorem Memory.bytesAt_of_holds {m : Memory} {a : Nat} {bytes : List Byte} (h : m.holds a bytes) :
    m.bytesAt a bytes.length = bytes := by
  induction bytes generalizing a with
  | nil => rfl
  | cons b bs ih =>
    obtain ⟨hb, hbs⟩ := Memory.holds_cons h
    simp only [List.length_cons, Memory.bytesAt, hb, ih hbs]

/-- Settles O19: the completed bytes are the bytes in a row that `Consume` feeds, and the cursor does not wrap. -/
theorem consumeFeedsCompletedBytes : Obligations.ConsumeFeedsCompletedBytes := by
  intro s n bytes hs hn hlen hb
  have hdone : s.src.bytesAt (s.pos.toNat / 8) ((s.pos.toNat + n) / 8 - s.pos.toNat / 8) = bytes :=
    hlen ▸ Memory.bytesAt_of_holds hb
  have hpos : s.pos + BitVec.ofNat 64 n = BitVec.ofNat 64 (s.pos.toNat + n) := by
    rw [BitVec.ofNat_add, BitVec.ofNat_toNat, BitVec.setWidth_eq]
  refine ⟨pos_consume_le hs hn, ?_⟩
  simp only [State.consume, hdone, hpos, crc16Over, crc8Over]

/-! ## Admission (R143 to R152) -/

theorem exec_brReadUint {n : Byte} (hn : n.toNat ≤ 64) (s : State) :
    exec (.brReadUint n) s = runReader (readUint n.toNat) s :=
  admitPlain_run (s := s) (legalW_true hn)

theorem exec_brReadInt {n : Byte} (hn : n.toNat ≤ 64) (s : State) :
    exec (.brReadInt n) s = runReader (readSigned n.toNat) s :=
  admitPlain_run (s := s) (legalW_true hn)

theorem exec_brPeekUint {n : Byte} (hn : n.toNat ≤ 64) (s : State) :
    exec (.brPeekUint n) s = runReader (peekUint n.toNat) s :=
  admitPlain_run (s := s) (legalW_true hn)

theorem exec_brReadUnary (s : State) : exec (.brReadUnary 0) s = runReader readUnaryWord s :=
  admitPlain_run (s := s) legalN_zero

theorem exec_brAlign (s : State) : exec (.brAlign 0) s = runReader alignWord s :=
  admitPlain_run (s := s) legalN_zero

theorem exec_brIsAligned (s : State) :
    exec (.brIsAligned 0) s = .next (s.okWith (if s.pos.toNat % 8 = 0 then 1 else 0)) :=
  admitPlain_run (s := s) legalN_zero

theorem exec_brCrc16Reset (s : State) : exec (.brCrc16Reset 0) s = .next (State.okWith 0 { s with crc16 := 0 }) :=
  admitPlain_run (s := s) legalN_zero

theorem exec_brCrc16Read (s : State) : exec (.brCrc16Read 0) s = .next (s.okWith (s.crc16.setWidth 64)) :=
  admitPlain_run (s := s) legalN_zero

theorem exec_brCrc8Reset (s : State) : exec (.brCrc8Reset 0) s = .next (State.okWith 0 { s with crc8 := 0 }) :=
  admitPlain_run (s := s) legalN_zero

theorem exec_brCrc8Read (s : State) : exec (.brCrc8Read 0) s = .next (s.okWith (s.crc8.setWidth 64)) :=
  admitPlain_run (s := s) legalN_zero

/-! ## A command whose bits are there -/

theorem runReader_ok {act : Rd Word64} {s t : State} {v : Word64} (h : act s = .ok v t) :
    runReader act s = .next (t.okWith v) := by
  rw [runReader, h]
  rfl

theorem Reads.runReader {act : Rd Word64} {bits : List Bool} {v : Word64} {s : State} (h : Reads act bits v)
    (ha : s.ahead bits) : runReader act s = .next ((s.consume bits.length).okWith v) :=
  runReader_ok (h s ha)

theorem setWidth_ofNat_of_lt {n v : Nat} (hv : v < 2 ^ n) :
    (BitVec.ofNat n v).setWidth 64 = BitVec.ofNat 64 v := by
  apply BitVec.eq_of_toNat_eq
  rw [BitVec.toNat_setWidth, BitVec.toNat_ofNat, BitVec.toNat_ofNat, Nat.mod_eq_of_lt hv]

theorem reads_readUint {n v : Nat} (hv : v < 2 ^ n) :
    Reads (readUint n) (bitsOf n v) (BitVec.ofNat 64 v) := by
  rw [← setWidth_ofNat_of_lt hv]
  exact Reads.map (BitVec.setWidth 64) (reads_readBits n v)

theorem peekUint_run {n v : Nat} {s : State} (hv : v < 2 ^ n) (h : s.ahead (bitsOf n v)) :
    peekUint n s = .ok (BitVec.ofNat 64 v) s := by
  simp only [peekUint, Rd.bind_run, reads_peekBits n v s h, Rd.pure_run, setWidth_ofNat_of_lt hv]

theorem reads_readUnaryWord (z : Nat) : Reads readUnaryWord (unaryBits z) (BitVec.ofNat 64 z) :=
  Reads.map (BitVec.ofNat 64) (reads_readUnary z)

theorem alignWord_run {s : State} (hs : s.sourceOk) :
    alignWord s = .ok (BitVec.ofNat 64 ((8 - s.pos.toNat % 8) % 8)) (s.consume ((8 - s.pos.toNat % 8) % 8)) := by
  obtain ⟨v, hv⟩ := align_run hs
  simp only [alignWord, Rd.bind_run, hv, Rd.pure_run]

/-- Skipping to the boundary does not leave the input, whose length is a whole number of bytes. -/
theorem pos_aligned {s : State} (hs : s.sourceOk) :
    (s.consume ((8 - s.pos.toNat % 8) % 8)).pos.toNat % 8 = 0 := by
  have hle := hs.2.2
  rw [pos_consume_le hs (by omega)]
  omega

/-- Settles O20: each command is admitted and runs its read on the bits that stand ahead of the cursor. -/
theorem fixedWidthReadsReturnBits : Obligations.FixedWidthReadsReturnBits := by
  intro s n hn
  refine ⟨fun v hv ha => ⟨?readUint, ?peekUint⟩, fun x hx ha => ?readInt⟩
  case readUint => rw [exec_brReadUint hn, (reads_readUint hv).runReader ha, length_bitsOf]
  case peekUint => rw [exec_brPeekUint hn, runReader_ok (peekUint_run hv ha)]
  case readInt => rw [exec_brReadInt hn, (reads_readSigned hx).runReader ha, signedBits, length_bitsOf]

/-- Settles O21: the unary code of `z` is `z + 1` bits long, and `BR_READ_UNARY` reads it as `z`. -/
theorem readUnaryCountsZeros : Obligations.ReadUnaryCountsZeros := by
  intro s z ha
  have hlength : (unaryBits z).length = z + 1 := by simp [unaryBits]
  rw [exec_brReadUnary, (reads_readUnaryWord z).runReader ha, hlength]

/-- Settles O22: an alignment never runs out of bits, and the query answers the test of its definition. -/
theorem alignAndAlignmentQuery : Obligations.AlignAndAlignmentQuery := by
  intro s
  refine ⟨fun hs => ⟨?align, pos_aligned hs⟩, fun haligned => ?aligned, fun hinside => ?inside⟩
  case align => rw [exec_brAlign, runReader_ok (alignWord_run hs)]
  case aligned => rw [exec_brIsAligned, if_pos haligned]
  case inside => rw [exec_brIsAligned, if_neg hinside]

/-! ## A command whose bits are not there (R153, `20_memory.md` R62) -/

/-- `act` needs a bit that is not supplied before it changes anything. -/
def RunsOut {α : Type} (act : Rd α) (s : State) : Prop :=
  act s = .error (if s.srcEnded then .endOfStream else .hold) s

theorem RunsOut.bind {α β : Type} {x : Rd α} {s : State} (h : RunsOut x s) (f : α → Rd β) :
    RunsOut (x >>= f) s := by
  unfold RunsOut at h ⊢
  rw [Rd.bind_run, h]

theorem runsOut_peekBits {s : State} {n : Nat} (h : s.src.bitsAt s.pos.toNat n = none) :
    RunsOut (peekBits n) s := by
  simp only [RunsOut, peekBits, Rd.bind_run, Rd.get_run, h, unavailable_run]

theorem runsOut_readUnary {s : State}
    (h : s.src.zerosAt s.pos.toNat (8 * s.src.length - s.pos.toNat) = none) : RunsOut readUnary s := by
  simp only [RunsOut, readUnary, Rd.bind_run, Rd.get_run, h, unavailable_run]

/-- Where only zeros are supplied, no one is found. -/
theorem Memory.zerosAt_none {m : Memory} (hwf : m.wf = true) {p : Nat} (fuel : Nat)
    (h : ∀ q : Nat, p ≤ q → q < 8 * m.length → m.bitAt q = some false) : m.zerosAt p fuel = none := by
  rw [Option.eq_none_iff_forall_ne_some]
  intro z hz
  obtain ⟨-, -, hone⟩ := Memory.zerosAt_eq_some.1 hz
  have hzero := h (p + z) (Nat.le_add_right p z) (Memory.lt_length_of_bitAt hwf hone)
  rw [hzero] at hone
  cases hone

/-- How a command that runs out of bits answers. -/
theorem RunsOut.runReader {act : Rd Word64} {s : State} (h : RunsOut act s) :
    (s.srcEnded = true → runReader act s = .next (State.errorWith .endOfStream 0 { s with eof := true })) ∧
    (s.srcEnded = false → runReader act s = .next s) := by
  unfold RunsOut at h
  refine ⟨fun hended => ?_, fun hopen => ?_⟩
  · rw [hended] at h
    rw [Machine.runReader, h, ← endCommand_error _ _ _ (by decide)]
    rfl
  · rw [hopen] at h
    rw [Machine.runReader, h]
    rfl

/-- Settles O24: each of the four reads runs out of bits, three at their peek and the unary one at its scan. -/
theorem readerRunsOutOfBits : Obligations.ReaderRunsOutOfBits := by
  intro s i hs hi
  rcases hi with ⟨n, hn, hshort, hi⟩ | ⟨rfl, hzeros⟩
  · have hle := hs.2.2
    have hpeek : RunsOut (peekBits n.toNat) s := runsOut_peekBits (Memory.bitsAt_none hs.1 (by omega) hshort)
    have hread : RunsOut (readBits n.toNat) s := hpeek.bind _
    rcases hi with rfl | rfl | rfl
    · rw [exec_brReadUint hn]
      exact (hread.bind _).runReader
    · rw [exec_brReadInt hn]
      exact (hread.bind _).runReader
    · rw [exec_brPeekUint hn]
      exact (hpeek.bind _).runReader
  · have hscan : RunsOut readUnary s := runsOut_readUnary (Memory.zerosAt_none hs.1 _ hzeros)
    rw [exec_brReadUnary]
    exact (hscan.bind _).runReader

/-! ## The frame (R153) -/

/-- From `s` to `t` only what a bit-reader command may change differs, and `EOF` only with END_OF_STREAM. -/
structure ReaderFrame (s t : State) : Prop where
  frame : t = { s with
    pos := t.pos, crc16 := t.crc16, crc8 := t.crc8, eof := t.eof, lastErr := t.lastErr, slot := t.slot,
    result := t.result, statusOut := t.statusOut }
  eof : t.eof ≠ s.eof → t.statusOut = ⟨.endOfStream, 0⟩

theorem Reading.readerFrame {s u : State} (h : Reading s u) (v : Word64) : ReaderFrame s (u.okWith v) := by
  refine ⟨?_, fun heof => absurd h.1.eof heof⟩
  rw [h.eq]
  rfl

theorem ReaderAct.readerFrame {act : Rd Word64} (h : ReaderAct act) {s t : State}
    (hx : runReader act s = .next t) : ReaderFrame s t := by
  rcases h.cases hx with ⟨rfl, -⟩ | ⟨rfl, -⟩ | ⟨v, u, hread, rfl⟩
  · exact ⟨rfl, fun heof => absurd rfl heof⟩
  · exact ⟨rfl, fun _ => rfl⟩
  · exact hread.readerFrame v

theorem admitPlain_readerFrame {arg : Bool} {s t : State} {run : Out} (hx : admitPlain arg s run = .next t)
    (h : run = .next t → ReaderFrame s t) : ReaderFrame s t := by
  rcases admitPlain_cases hx with ⟨-, rfl⟩ | ⟨-, hrun⟩
  · exact ⟨rfl, fun heof => absurd rfl heof⟩
  · exact h hrun

/-- A command that reads no bit and writes the accumulators at most. -/
theorem accumulator_readerFrame {s t : State} (c16 : Word16) (c8 : Byte) (v : Word64)
    (hx : (.next (State.okWith v { s with crc16 := c16, crc8 := c8 }) : Out) = .next t) : ReaderFrame s t := by
  cases hx
  exact ⟨rfl, fun heof => absurd rfl heof⟩

/-- Settles O25: every bit-reader command is refused, or runs one of the five reads, or reads no bit. -/
theorem bitReaderFrame : Obligations.BitReaderFrame := by
  intro s t i a hi hx
  have hframe : ReaderFrame s t := by
    simp only [List.mem_cons, List.not_mem_nil, or_false] at hi
    rcases hi with rfl | rfl | rfl | rfl | rfl | rfl | rfl | rfl | rfl | rfl
    · exact admitPlain_readerFrame hx (ReaderAct.readerFrame (.inl ⟨_, rfl⟩))
    · exact admitPlain_readerFrame hx (ReaderAct.readerFrame (.inr (.inl ⟨_, rfl⟩)))
    · exact admitPlain_readerFrame hx (ReaderAct.readerFrame (.inr (.inr (.inr (.inl rfl)))))
    · exact admitPlain_readerFrame hx (ReaderAct.readerFrame (.inr (.inr (.inl ⟨_, rfl⟩))))
    · exact admitPlain_readerFrame hx (accumulator_readerFrame s.crc16 s.crc8 _)
    · exact admitPlain_readerFrame hx (ReaderAct.readerFrame (.inr (.inr (.inr (.inr rfl)))))
    · exact admitPlain_readerFrame hx (accumulator_readerFrame 0 s.crc8 _)
    · exact admitPlain_readerFrame hx (accumulator_readerFrame s.crc16 s.crc8 _)
    · exact admitPlain_readerFrame hx (accumulator_readerFrame s.crc16 0 _)
    · exact admitPlain_readerFrame hx (accumulator_readerFrame s.crc16 s.crc8 _)
  have hsrc : t.src = s.src := by rw [hframe.frame]
  exact ⟨hframe.frame, fun k => congrArg (Memory.byteAt · k) hsrc, hframe.eof⟩

/-! ## The accumulators (R140, R141, R149 to R152, R154) -/

/-- Settles O23: each command is admitted, and ends with OK on the accumulator it names. -/
theorem crcAccumulatorCommands : Obligations.CrcAccumulatorCommands := fun s =>
  ⟨by decide, exec_brCrc16Reset s, exec_brCrc16Read s, exec_brCrc8Reset s, exec_brCrc8Read s⟩

/-- The check value of CRC-8, by computation. -/
theorem crc8_checkValue :
    [0x31, 0x32, 0x33, 0x34, 0x35, 0x36, 0x37, 0x38, 0x39].foldl crc8Update 0 = 0xF4 := by
  simp [crc8Update, crc8Shifts, crc8Shift]

/-- The check value of CRC-16, by computation. -/
theorem crc16_checkValue :
    [0x31, 0x32, 0x33, 0x34, 0x35, 0x36, 0x37, 0x38, 0x39].foldl crc16Update 0 = 0xFEE8 := by
  simp [crc16Update, crc16Shifts, crc16Shift]

/-- A byte equal to the accumulator takes CRC-8 to 0. -/
theorem crc8Update_self (c : Byte) : crc8Update c c = 0 := by
  rw [crc8Update, BitVec.xor_self]
  rfl

/-- While no one reaches the top bit, the steps of CRC-16 shift. -/
theorem crc16Shifts_of_lt (c : Word16) (n : Nat) (h : c.toNat * 2 ^ n < 2 ^ 16) : crc16Shifts c n = c <<< n := by
  induction n generalizing c with
  | zero => rw [BitVec.shiftLeft_zero]; rfl
  | succ n ih =>
    have hpow : c.toNat * 2 * 2 ^ n < 2 ^ 16 := by rwa [Nat.mul_assoc, ← Nat.pow_succ']
    have hdouble : c.toNat * 2 < 2 ^ 16 := (Nat.le_mul_of_pos_right _ (Nat.two_pow_pos n)).trans_lt hpow
    have htop : ¬ c.getLsbD 15 = true := by
      rw [topBit_iff (n := 15) c]
      omega
    have hshift : (c <<< 1).toNat = c.toNat * 2 := by
      rw [BitVec.toNat_shiftLeft, Nat.shiftLeft_eq, pow_one, Nat.mod_eq_of_lt hdouble]
    rw [crc16Shifts, crc16Shift, if_neg htop, ih _ (by rwa [hshift]), ← BitVec.shiftLeft_add, Nat.add_comm]

theorem lowByte_shiftLeft (b : Byte) : (0#8 ++ b : Word16) <<< 8 = b ++ 0#8 := by
  apply BitVec.eq_of_toNat_eq
  rw [BitVec.toNat_shiftLeft, Nat.shiftLeft_eq, toNat_append_byte, toNat_append_byte, BitVec.toNat_ofNat]
  omega

/-- The upper byte of the accumulator cancels, and the eight steps move the lower one up. -/
theorem crc16Update_upper (hi lo : Byte) : crc16Update (hi ++ lo) hi = lo ++ 0#8 := by
  have hlow : (hi ++ lo) ^^^ (hi ++ 0#8) = (0#8 ++ lo : Word16) := by
    rw [BitVec.xor_append, BitVec.xor_self, BitVec.xor_zero]
  have hlt : (0#8 ++ lo : Word16).toNat * 2 ^ 8 < 2 ^ 16 := by
    rw [toNat_append_byte, BitVec.toNat_ofNat]
    omega
  rw [crc16Update, hlow, crc16Shifts_of_lt _ 8 hlt, lowByte_shiftLeft]

theorem crc16Update_lower (lo : Byte) : crc16Update (lo ++ 0#8) lo = 0 := by
  rw [crc16Update, BitVec.xor_self]
  rfl

/-- The accumulator's own two bytes, upper first, take CRC-16 to 0. -/
theorem crc16Update_self (c : Word16) : crc16Update (crc16Update c (c.extractLsb' 8 8)) (c.extractLsb' 0 8) = 0 := by
  have hupper : crc16Update c (opcodeOf c) = argumentOf c ++ 0#8 := by
    conv_lhs => rw [← append_parts c, opcodeOf_append]
    exact crc16Update_upper _ _
  calc
    crc16Update (crc16Update c (opcodeOf c)) (argumentOf c) = crc16Update (argumentOf c ++ 0#8) (argumentOf c) := by
      rw [hupper]
    _ = 0 := crc16Update_lower _

/-- Settles O26: the check values are computed, and an accumulator's own bytes cancel it. -/
theorem crcCheckValuesAndResidue : Obligations.CrcCheckValuesAndResidue := by
  refine ⟨crc8_checkValue, crc16_checkValue, fun c bytes => ?crc8, fun c bytes => ?crc16⟩
  case crc8 => rw [List.foldl_append, List.foldl_cons, List.foldl_nil, crc8Update_self]
  case crc16 =>
    rw [List.foldl_append, List.foldl_cons, List.foldl_cons, List.foldl_nil, crc16Update_self]

end Sys2Proof.Machine
end

section
/-! SUPPORT. The synchronizer (`41_sync.md` R160 to R165; O28 to O30): the start of the search, the match of its
scan, and what `FR_FIND_SYNC` answers with a sync pattern ahead, without one, and at the sample count. -/

namespace Sys2Proof.Machine

/-! ## The start of the search (R161, R162) -/

theorem totalReached_iff {s : State} :
    s.totalReached = true ↔
      s.sp.totalSamples ≠ 0 ∧ s.sp.totalSamples.toNat ≤ s.samplesDecoded.toNat := by
  simp only [State.totalReached, Bool.and_eq_true, decide_eq_true_eq]

theorem totalReached_false {s : State}
    (h : s.sp.totalSamples = 0 ∨ s.samplesDecoded.toNat < s.sp.totalSamples.toNat) : s.totalReached = false := by
  rw [Bool.eq_false_iff, ne_eq, totalReached_iff]
  rintro ⟨hne, hle⟩
  exact h.elim hne (Nat.not_lt.2 hle)

/-- The state from which the scan starts: `Align()` has skipped to the next byte boundary (R162). -/
def State.aligned (s : State) : State := s.consume ((8 - s.pos.toNat % 8) % 8)

theorem aligned_pos {s : State} {start : Nat} (hs : s.sourceOk) (hstart : start = (s.pos.toNat + 7) / 8) :
    s.aligned.pos.toNat = 8 * start := by
  have hle := hs.2.2
  rw [State.aligned, pos_consume_le hs (by omega)]
  omega

theorem aligned_sourceOk {s : State} (hs : s.sourceOk) : s.aligned.sourceOk :=
  have hle := hs.2.2
  sourceOk_consume hs (by omega)

/-- What is consumed after the alignment, counted from before it. -/
theorem aligned_consume {s : State} (hs : s.sourceOk) (n : Nat) :
    s.aligned.consume n = s.consume (8 * ((s.pos.toNat + 7) / 8) + n - s.pos.toNat) := by
  have hle := hs.2.2
  rw [State.aligned, consume_add hs (by omega)]
  congr 1
  omega

theorem aligned_bytesLeft {s : State} (hs : s.sourceOk) :
    s.aligned.bytesLeft = s.src.length - (s.pos.toNat + 7) / 8 := by
  rw [State.bytesLeft, aligned_pos hs rfl, Nat.mul_div_cancel_left _ (by decide)]
  rfl

theorem findSync_totalReached {s : State} (h : s.totalReached = true) : findSync s = .error .endOfStream s := by
  simp only [findSync, Rd.bind_run, Rd.get_run, h, Rd.reject_true]

theorem findSync_eq_scan {s : State} (hs : s.sourceOk) (h : s.totalReached = false) :
    findSync s = scan (s.src.length - (s.pos.toNat + 7) / 8) s.aligned := by
  obtain ⟨v, hv⟩ := align_run hs
  rw [← aligned_bytesLeft hs]
  simp only [findSync, Rd.bind_run, Rd.get_run, h, Rd.reject_false, hv]
  rfl

/-! ## The scan (R163 to R165) -/

theorem pos_consume_ofNat (s : State) (n : Nat) : (s.consume n).pos = BitVec.ofNat 64 (s.pos.toNat + n) := by
  rw [BitVec.ofNat_add, BitVec.ofNat_toNat, BitVec.setWidth_eq]
  rfl

theorem Memory.holds_append {m : Memory} {a : Nat} {xs ys : List Byte} (h : m.holds a (xs ++ ys)) :
    m.holds a xs ∧ m.holds (a + xs.length) ys := by
  refine ⟨fun i hi => ?_, fun i hi => ?_⟩
  · rw [h i (by rw [List.length_append]; omega), List.getElem_append_left hi]
  · rw [Nat.add_assoc, h (xs.length + i) (by rw [List.length_append]; omega),
      List.getElem_append_right (Nat.le_add_right _ _)]
    simp only [Nat.add_sub_cancel_left]

/-- A pass of the scan over a sync pattern: both bytes are consumed and the writes of a match are made. -/
theorem scan_match {s : State} {a : Nat} {y : Byte} (left : Nat) (hs : s.sourceOk) (hp : s.pos.toNat = 8 * a)
    (hx : s.src.byteAt a = some 0xFF) (hy : s.src.byteAt (a + 1) = some y) (htail : syncTail y = true) :
    scan (left + 1) s = .ok (BitVec.ofNat 64 a) ((s.consume 16).synced (BitVec.ofNat 64 a) y) := by
  have hlen := Memory.lt_length_of_byteAt hs.1 hx
  have hle : s.pos.toNat + 8 ≤ 8 * s.src.length := by omega
  have hs1 : (s.consume 8).sourceOk := sourceOk_consume hs hle
  have hp1 : (s.consume 8).pos.toNat = 8 * (a + 1) := by rw [pos_consume_le hs hle]; omega
  simp only [scan, Rd.bind_run, Rd.get_run, readByte hs hp hx, bytePos_eq hp, if_true, peekByte hs1 hp1 hy, htail,
    consume, Rd.modify_run, Rd.pure_run, consume_add hs hle]

/-- What a search leaves that lost `lost` from byte `start` on and then found the second sync byte `y`
(R163, R164). -/
def State.foundSync (start : Nat) (lost : List Byte) (y : Byte) (s : State) : State :=
  { s with
    pos := BitVec.ofNat 64 (8 * (start + lost.length + 2))
    crc16 := crc16Update (crc16Update 0 0xFF) y
    crc8 := crc8Update (crc8Update 0 0xFF) y
    syncByte1 := y
    frameStart := BitVec.ofNat 64 (start + lost.length)
    lossArmed := true
    phase := .synced
    outq := s.outq ++
      (if s.lossArmed = true ∧ lost ≠ [] then [.event ⟨.lostSync, 0, BitVec.ofNat 64 start, 0, 0⟩] else []) }

theorem lostRun_src (a : Nat) (lost : List Byte) (s : State) : (lostRun a lost s).src = s.src := by
  unfold lostRun
  split
  · rfl
  · rw [lostByte_fields]
    rfl

/-- The match after the lost bytes writes over whatever they left in the accumulators. -/
theorem lostRun_synced {s : State} (hs : s.sourceOk) {start : Nat} {lost : List Byte}
    (hstart : start = (s.pos.toNat + 7) / 8) (hl : start + lost.length ≤ s.src.length) (y : Byte) :
    ((lostRun start lost s.aligned).consume 16).synced (BitVec.ofNat 64 (start + lost.length)) y =
      s.foundSync start lost y := by
  have hpos := aligned_pos hs hstart
  obtain ⟨-, -, hconsume⟩ := lostRun_consume lost (aligned_sourceOk hs) hpos hl
  have hend : s.pos.toNat + (8 * start + (8 * lost.length + 16) - s.pos.toNat) = 8 * (start + lost.length + 2) := by
    omega
  rw [hconsume, aligned_consume hs, ← hstart, State.synced, State.foundSync, pos_consume_ofNat, hend]
  rfl

/-- The search with a sync pattern ahead. -/
theorem findSync_found {s : State} {lost : List Byte} {x y : Byte} {start : Nat} (hs : s.sourceOk)
    (htotal : s.totalReached = false) (hstart : start = (s.pos.toNat + 7) / 8)
    (hb : s.src.holds start (lost ++ [x, y])) (hpair : syncPair x y) (hno : noSyncIn (lost ++ [x])) :
    findSync s = .ok (BitVec.ofNat 64 (start + lost.length)) (s.foundSync start lost y) := by
  obtain ⟨rfl, htail⟩ := (syncPair_iff x y).1 hpair
  have hpos := aligned_pos hs hstart
  have hb' : s.src.holds start (lost ++ [0xFF] ++ [y]) := by rwa [List.append_assoc]
  obtain ⟨hfirst, -⟩ := Memory.holds_append hb'
  obtain ⟨-, hsync⟩ := Memory.holds_append hb
  obtain ⟨hff, hrest⟩ := Memory.holds_cons hsync
  obtain ⟨hy, -⟩ := Memory.holds_cons hrest
  have hlen := Memory.lt_length_of_byteAt hs.1 hff
  obtain ⟨left, hleft⟩ := Nat.exists_eq_add_of_lt hlen
  have hpasses : s.src.length - start = lost.length + (left + 1) := by omega
  obtain ⟨hrun, hrunPos, -⟩ := lostRun_consume lost (aligned_sourceOk hs) hpos hlen.le
  have hsrc : s.src = (lostRun start lost s.aligned).src := (lostRun_src start lost s.aligned).symm
  rw [findSync_eq_scan hs htotal, ← hstart, hpasses,
    scan_run lost 0xFF (aligned_sourceOk hs) hpos hfirst hno,
    scan_match left hrun hrunPos (hsrc ▸ hff) (hsrc ▸ hy) htail, lostRun_synced hs hstart hlen.le]

/-- What a search to the end of the input leaves that saw `rest` from byte `start` on and no sync pattern in it:
a last `0xFF` is consumed and not lost (R163 to R165). -/
def State.searchedAll (start : Nat) (rest : List Byte) (s : State) : State :=
  { s.consume (8 * s.src.length - s.pos.toNat) with
    lossArmed := if rest = [] ∨ rest = [0xFF] then s.lossArmed else false
    outq := s.outq ++
      (if s.lossArmed = true ∧ rest ≠ [] ∧ rest ≠ [0xFF]
        then [.event ⟨.lostSync, 0, BitVec.ofNat 64 start, 0, 0⟩] else []) }

/-- The search with no sync pattern ahead. -/
theorem findSync_none {s : State} {rest : List Byte} {start : Nat} (hs : s.sourceOk)
    (htotal : s.totalReached = false) (hstart : start = (s.pos.toNat + 7) / 8)
    (hb : s.src.holds start rest) (hl : start + rest.length = s.src.length) (hno : noSyncIn rest) :
    findSync s = .error (if s.srcEnded then .endOfStream else .hold) (s.searchedAll start rest) := by
  have hpos := aligned_pos hs hstart
  have hpasses : s.src.length - start = rest.length := by omega
  rw [findSync_eq_scan hs htotal, ← hstart, hpasses, scan_end rest (aligned_sourceOk hs) hpos hb hl hno,
    aligned_consume hs, ← hstart, ← Nat.mul_add, hl]
  rfl

/-! ## The step and its commands (R160, R161) -/

theorem findSyncStep_ok {s t : State} {a : Word64} (h : findSync s = .ok a t) :
    findSyncStep s = .done .okay a t := by
  rw [findSyncStep, h]

theorem findSyncStep_hold {s t : State} (h : findSync s = .error .hold t) : findSyncStep s = .hold := by
  rw [findSyncStep, h]

theorem findSyncStep_endOfStream {s t : State} (h : findSync s = .error .endOfStream t) :
    findSyncStep s = .done ⟨.endOfStream, 0⟩ 0 { t with eof := true } := by
  rw [findSyncStep, h]

theorem exec_frFindSync {s : State} (hen : s.framesEnabled = true) (hphase : s.phase = .searching) :
    exec (.frFindSync 0) s = (findSyncStep s).finish s :=
  admitFrame_run (s := s) legalN_zero hen (beq_iff_eq.2 hphase)

theorem exec_readNextFrame_searching {s : State} (hen : s.framesEnabled = true) (hphase : s.phase = .searching) :
    exec (.readNextFrame 0) s = readNextFrameStep s := by
  change execReadNextFrame 0 s = _
  unfold execReadNextFrame
  split
  · rfl
  all_goals exact admitFrame_run legalN_zero hen (beq_iff_eq.2 hphase)

theorem exec_decode_searching {s : State} (hen : s.framesEnabled = true) (hphase : s.phase = .searching)
    (hslot : ∀ n : Nat, s.slot ≠ .decoding n) : exec (.decode 0) s = decodeStep 0 s := by
  change execDecode 0 s = _
  unfold execDecode
  split
  · next n hn => exact absurd hn (hslot n)
  all_goals exact admitFrame_run legalN_zero hen (beq_iff_eq.2 hphase)

/-- A search that ends with END_OF_STREAM ends the loop of the composite commands (R161, `47_frame.md` R351). -/
theorem nextFrameStep_endOfStream {s t : State} (hphase : s.phase = .searching)
    (h : findSyncStep s = .done ⟨.endOfStream, 0⟩ 0 t) : nextFrameStep s = .ended ⟨.endOfStream, 0⟩ 0 t := by
  rw [nextFrameStep, hphase]
  simp only [h]
  rfl

/-- Settles O28: the command is admitted, and its step ends with what the search found. -/
theorem findSyncFindsFirstSync : Obligations.FindSyncFindsFirstSync := by
  intro s lost x y start hs hvalid hfatal hphase htotal hstart hb hpair hno
  have hfound := findSync_found hs (totalReached_false htotal) hstart hb hpair hno
  refine ⟨(s.foundSync start lost y).okWith (BitVec.ofNat 64 (start + lost.length)), ?_, rfl⟩
  rw [exec_frFindSync (framesEnabled_true hvalid hfatal) hphase, findSyncStep_ok hfound, finish_done, endCommand_ok]

/-- The three commands end with the search when the sample count is reached. -/
theorem exec_totalReached {s : State} (hen : s.framesEnabled = true) (hphase : s.phase = .searching)
    (htotal : s.totalReached = true) :
    exec (.frFindSync 0) s = .next (State.errorWith .endOfStream 0 { s with eof := true }) ∧
    exec (.readNextFrame 0) s = .next (State.errorWith .endOfStream 0 { s with eof := true }) ∧
    ((∀ n : Nat, s.slot ≠ .decoding n) →
      exec (.decode 0) s = .next (State.errorWith .endOfStream 0 { s with eof := true })) := by
  have hstep := findSyncStep_endOfStream (findSync_totalReached htotal)
  have hnext := nextFrameStep_endOfStream hphase hstep
  refine ⟨?findSync, ?readNext, fun hslot => ?decode⟩
  case findSync => rw [exec_frFindSync hen hphase, hstep, finish_done, endCommand_error _ _ _ (by decide)]
  case readNext =>
    rw [exec_readNextFrame_searching hen hphase, readNextFrameStep, hnext, ← endCommand_error _ _ _ (by decide)]
  case decode =>
    rw [exec_decode_searching hen hphase hslot, decodeStep, hnext, ← endCommand_error _ _ _ (by decide)]
    rfl

/-- Settles O29: the sample count is checked before the search begins; with no sync pattern ahead the search runs
to the end of the input, and there holds or ends. -/
theorem findSyncEnds : Obligations.FindSyncEnds := by
  intro s hvalid hfatal hphase
  have hen := framesEnabled_true hvalid hfatal
  refine ⟨fun hne hle => exec_totalReached hen hphase (totalReached_iff.2 ⟨hne, hle⟩), ?_⟩
  intro rest start hs htotal hstart hb hl hno
  have hsearch := findSync_none hs (totalReached_false htotal) hstart hb hl hno
  refine ⟨fun hopen => ?holds, fun hended => ?ends⟩
  case holds =>
    rw [hopen] at hsearch
    rw [exec_frFindSync hen hphase, findSyncStep_hold hsearch, finish_hold]
  case ends =>
    rw [hended] at hsearch
    have hle := hs.2.2
    have hpos : (s.consume (8 * s.src.length - s.pos.toNat)).pos = BitVec.ofNat 64 (8 * s.src.length) := by
      rw [pos_consume_ofNat, Nat.add_sub_cancel' hle]
    refine ⟨State.errorWith .endOfStream 0 { s.searchedAll start rest with eof := true }, ?_, ?_, rfl, rfl⟩
    · rw [exec_frFindSync hen hphase, findSyncStep_endOfStream hsearch, finish_done,
        endCommand_error _ _ _ (by decide)]
    · rw [← hpos]
      rfl

/-! ## The sync pattern as an instruction (`30_encoding.md` R110) -/

/-- The second sync byte: the pattern, and below it the reserved bit and the blocking bit. -/
theorem syncByte_eq (reserved blocking : Bool) :
    0b111110#6 ++ BitVec.ofBool reserved ++ BitVec.ofBool blocking =
      (0xF8 + (if reserved then 2 else 0) + (if blocking then 1 else 0) : Byte) := by
  cases reserved <;> cases blocking <;> rfl

/-- Settles O30: the instruction makes the writes of a match, over the byte its two bits stand for. -/
theorem frameSyncCodeStartsFrame : Obligations.FrameSyncCodeStartsFrame := by
  intro s reserved blocking y a hy ha
  rw [hy, ha, ← syncByte_eq]
  rfl

end Sys2Proof.Machine
end

section
/-! SUPPORT. The header decoder (`42_header.md` R180 to R195; O31 to O33): what the checks of the code bytes and of the
coded number reject, what is left to check once the header is read, and what `FR_DECODE_HEADER` answers. -/

namespace Sys2Proof.Machine

/-! ## A part of a decode step, after the bits before it -/

theorem Reads.after {α : Type} {act : Rd α} {as bs : List Bool} {v : α} {s : State} (h : Reads act bs v)
    (ha : s.ahead (as ++ bs)) : act (s.consume as.length) = .ok v (s.consume (as ++ bs).length) := by
  obtain ⟨has, hbs⟩ := State.ahead_append.1 ha
  rw [h _ hbs, has.consume_append]

/-- `act` rejects the bits `bits` with `r`: from every state with those bits ahead of the cursor it raises `r`,
having consumed them and done nothing else. -/
def Rejects {α : Type} (act : Rd α) (bits : List Bool) (r : Raise) : Prop :=
  ∀ s : State, s.ahead bits → act s = .error r (s.consume bits.length)

theorem Rejects.throw {α : Type} (r : Raise) : Rejects (throw r : Rd α) [] r := by
  intro s _
  rw [List.length_nil, consume_zero, Rd.throw_run]

theorem Rejects.reject {bad : Bool} (r : Raise) (h : bad = true) : Rejects (reject bad r) [] r := by
  subst h
  exact Rejects.throw r

/-- A step whose first part rejects. -/
theorem Rejects.bind {α β : Type} {x : Rd α} {f : α → Rd β} {bits : List Bool} {r : Raise}
    (hx : Rejects x bits r) : Rejects (x >>= f) bits r := by
  intro s h
  rw [Rd.bind_run, hx s h]

/-- A step whose first part reads, and what follows rejects. -/
theorem Reads.bind_rejects {α β : Type} {x : Rd α} {f : α → Rd β} {as bs : List Bool} {a : α} {r : Raise}
    (hx : Reads x as a) (hf : Rejects (f a) bs r) : Rejects (x >>= f) (as ++ bs) r := by
  intro s h
  obtain ⟨has, hbs⟩ := State.ahead_append.1 h
  rw [Rd.bind_run, hx s has]
  simp only
  rw [hf _ hbs, has.consume_append]

theorem Rejects.after {α : Type} {act : Rd α} {as bs : List Bool} {r : Raise} {s : State} (h : Rejects act bs r)
    (ha : s.ahead (as ++ bs)) : act (s.consume as.length) = .error r (s.consume (as ++ bs).length) := by
  obtain ⟨has, hbs⟩ := State.ahead_append.1 ha
  rw [h _ hbs, has.consume_append]

@[simp] theorem length_byteBits (b : Byte) : (byteBits b).length = 8 := length_bitsOf 8 _

@[simp] theorem length_flatMap_byteBits (bytes : List Byte) : (bytes.flatMap byteBits).length = 8 * bytes.length := by
  simp only [List.length_flatMap, length_byteBits, List.map_const', List.sum_replicate, smul_eq_mul, Nat.mul_comm]

/-! ## The code bytes (R182 to R184) -/

/-- The sample-size codes that are rejected, by their value in the fourth header byte (R184, `30_encoding.md` R95). -/
theorem sampleSizeReserved_byte3 {p : Params} {b : Byte} :
    sampleSizeReserved p (b.extractLsb' 1 3) = true ↔
      b.toNat / 2 % 8 = 3 ∨ (b.toNat / 2 % 8 = 7 ∧ p.bps7 = .reserved) := by
  obtain ⟨-, hthree, hseven, -⟩ := byte3_checks b
  simp only [sampleSizeReserved, hthree, hseven, Bool.or_eq_true, Bool.and_eq_true, decide_eq_true_eq, beq_iff_eq]

theorem sampleSizeReserved_byte3_false {p : Params} {b : Byte} (hthree : b.toNat / 2 % 8 ≠ 3)
    (hseven : b.toNat / 2 % 8 = 7 → p.bps7 = .bits32) : sampleSizeReserved p (b.extractLsb' 1 3) = false := by
  rw [Bool.eq_false_iff, ne_eq, sampleSizeReserved_byte3]
  rintro (h3 | ⟨h7, hp⟩)
  · exact hthree h3
  · rw [hseven h7] at hp
    cases hp

/-- The code bytes pass every check the decoder makes of them. -/
theorem headBytesOk_checks {p : Params} {b2 b3 : Byte} (h : headBytesOk p b2 b3) :
    (b2.extractLsb' 4 4 == 0) = false ∧ (b2.extractLsb' 0 4 == 15) = false ∧
    channelCodeReserved (b3.extractLsb' 4 4) = false ∧ sampleSizeReserved p (b3.extractLsb' 1 3) = false ∧
    b3.getLsbD 0 = false := by
  obtain ⟨hsize, hrate, hchannel, hthree, hseven, hreserved⟩ := h
  obtain ⟨eSize, eRate⟩ := byte2_checks b2
  obtain ⟨eChannel, -, -, eReserved⟩ := byte3_checks b3
  rw [eSize, eRate, eChannel, eReserved]
  exact ⟨decide_eq_false (by omega), decide_eq_false (by omega), decide_eq_false (by omega),
    sampleSizeReserved_byte3_false hthree hseven, decide_eq_false (by omega)⟩

/-- The code bytes are read in turn. -/
theorem read_codeBytes {s : State} {b2 b3 : Byte} (ha : s.ahead (byteBits b2 ++ byteBits b3)) :
    readBits 8 s = .ok b2 (s.consume 8) ∧ readBits 8 (s.consume 8) = .ok b3 (s.consume 16) := by
  have hread2 := reads_byte b2 s (State.ahead_append.1 ha).1
  have hread3 := (reads_byte b3).after ha
  rw [length_byteBits] at hread2
  rw [List.length_append, length_byteBits, length_byteBits] at hread3
  exact ⟨hread2, hread3⟩

theorem readHeader_rejects_sync {s : State} (hsync : s.syncByte1.getLsbD 1 = true) :
    readHeader s = .error (badHeader 2) (s.consume 0) := by
  simp only [readHeader, Rd.bind_run, Rd.get_run, hsync, Rd.reject_true, consume_zero]

/-- The checks of the third header byte, in their order (R183). -/
theorem readHeader_rejects_byte2 {s : State} {b2 : Byte} (hsync : s.syncByte1.getLsbD 1 = false)
    (ha : s.ahead (byteBits b2)) :
    (b2.toNat / 16 = 0 → readHeader s = .error (badHeader 3) (s.consume 8)) ∧
    (b2.toNat / 16 ≠ 0 → b2.toNat % 16 = 15 → readHeader s = .error (badHeader 4) (s.consume 8)) := by
  have hread : readBits 8 s = .ok b2 (s.consume 8) := reads_byte b2 s ha
  obtain ⟨eSize, eRate⟩ := byte2_checks b2
  simp only [readHeader, Rd.bind_run, Rd.get_run, hsync, Rd.reject_false, hread, eSize, eRate]
  refine ⟨fun hsize => ?blockSize, fun hsize hrate => ?sampleRate⟩
  case blockSize => simp only [hsize, decide_true, Rd.reject_true]
  case sampleRate => simp only [hsize, hrate, decide_false, decide_true, Rd.reject_false, Rd.reject_true]

/-- The checks of the fourth header byte, in their order, the third byte having passed its own (R184). -/
theorem readHeader_rejects_byte3 {s : State} {b2 b3 : Byte} (hsync : s.syncByte1.getLsbD 1 = false)
    (ha : s.ahead (byteBits b2 ++ byteBits b3)) (hsize : b2.toNat / 16 ≠ 0) (hrate : b2.toNat % 16 ≠ 15) :
    (11 ≤ b3.toNat / 16 → readHeader s = .error (badHeader 5) (s.consume 16)) ∧
    (¬ 11 ≤ b3.toNat / 16 →
      (sampleSizeReserved s.params (b3.extractLsb' 1 3) = true →
        readHeader s = .error (badHeader 6) (s.consume 16)) ∧
      (sampleSizeReserved s.params (b3.extractLsb' 1 3) = false → b3.toNat % 2 = 1 →
        readHeader s = .error (badHeader 2) (s.consume 16))) := by
  obtain ⟨hread2, hread3⟩ := read_codeBytes ha
  obtain ⟨eSize, eRate⟩ := byte2_checks b2
  obtain ⟨eChannel, -, -, eReserved⟩ := byte3_checks b3
  simp only [readHeader, Rd.bind_run, Rd.get_run, hsync, Rd.reject_false, hread2, eSize, eRate, hsize, hrate,
    decide_false, hread3, eChannel, eReserved]
  refine ⟨fun hchannel => ?channel, fun hchannel => ⟨fun hdepth => ?sampleSize, fun hdepth hreserved => ?reserved⟩⟩
  case channel => simp only [hchannel, decide_true, Rd.reject_true]
  case sampleSize => simp only [hchannel, hdepth, decide_false, Rd.reject_false, Rd.reject_true]
  case reserved => simp only [hchannel, hdepth, hreserved, decide_false, decide_true, Rd.reject_false, Rd.reject_true]

/-! ## The coded number (R187) -/

/-- The first byte that is not `10xxxxxx` ends the continuation. -/
theorem rejects_continuation {bad : Byte} {good : List Byte} (hgood : ∀ b ∈ good, b.toNat / 64 = 2)
    (hbad : bad.toNat / 64 ≠ 2) {m : Nat} (hm : good.length < m) (v : Nat) :
    Rejects (continuation m v) (good.flatMap byteBits ++ byteBits bad) (badHeader 7) := by
  induction good generalizing m v with
  | nil =>
    obtain ⟨m, rfl⟩ := Nat.exists_eq_add_one_of_ne_zero hm.ne'
    have hcheck : (bad.extractLsb' 6 2 != 0b10#2) = true := by rw [continuation_check, decide_eq_true hbad]
    rw [List.flatMap_nil, List.nil_append, ← List.append_nil (byteBits bad), continuation]
    exact (reads_byte bad).bind_rejects (Rejects.reject (badHeader 7) hcheck).bind
  | cons b good ih =>
    obtain ⟨m, rfl⟩ := Nat.exists_eq_add_one_of_ne_zero (Nat.ne_of_gt (Nat.zero_lt_of_lt hm))
    obtain ⟨hb, hrest⟩ := List.forall_mem_cons.1 hgood
    have hcheck : (b.extractLsb' 6 2 != 0b10#2) = false := by
      rw [continuation_check, decide_eq_false (not_not.2 hb)]
    rw [List.flatMap_cons, List.append_assoc, continuation]
    exact (reads_byte b).bind_rejects
      ((Reads.reject (badHeader 7) hcheck).bind_rejects (ih hrest (Nat.lt_of_succ_lt_succ hm) _))

theorem rejects_codedNumber_lead {blocking : Bool} {lead : Byte} (h : leadInvalid blocking lead) :
    Rejects (codedNumber blocking) (byteBits lead) (badHeader 7) := by
  have hlead : leadByte blocking lead = none :=
    (leadByte_cases blocking lead).elim (fun hc => hc.2) fun hc => absurd h hc.1
  rw [← List.append_nil (byteBits lead)]
  refine (reads_byte lead).bind_rejects ?_
  rw [hlead]
  exact Rejects.throw _

theorem rejects_codedNumber_continuation {blocking : Bool} {lead bad : Byte} {good : List Byte}
    (hlead : ¬ leadInvalid blocking lead) (hm : good.length < continuationsOf lead)
    (hgood : ∀ b ∈ good, b.toNat / 64 = 2) (hbad : bad.toNat / 64 ≠ 2) :
    Rejects (codedNumber blocking) (byteBits lead ++ (good.flatMap byteBits ++ byteBits bad)) (badHeader 7) := by
  have hcount : (leadByte blocking lead).map Prod.fst = some (continuationsOf lead) :=
    (leadByte_cases blocking lead).elim (fun hc => absurd hc.1 hlead) fun hc => hc.2
  obtain ⟨⟨m, v⟩, hsome, rfl⟩ := Option.map_eq_some_iff.1 hcount
  refine (reads_byte lead).bind_rejects ?_
  rw [hsome]
  exact rejects_continuation hgood hbad hm v

/-- A coded number that is rejected, after legal code bytes, rejects the header. -/
theorem readHeader_rejects_number {s : State} {b2 b3 : Byte} {bits : List Bool} {r : Raise}
    (hsync : s.syncByte1.getLsbD 1 = false) (hcodes : headBytesOk s.params b2 b3)
    (hnumber : Rejects (codedNumber (s.syncByte1.getLsbD 0)) bits r)
    (ha : s.ahead (byteBits b2 ++ byteBits b3 ++ bits)) :
    readHeader s = .error r (s.consume (16 + bits.length)) := by
  obtain ⟨hread2, hread3⟩ := read_codeBytes (State.ahead_append.1 ha).1
  obtain ⟨hsize, hrate, hchannel, hdepth, hreserved⟩ := headBytesOk_checks hcodes
  have hrun := hnumber.after ha
  simp only [List.length_append, length_byteBits, Nat.reduceAdd] at hrun
  simp only [readHeader, Rd.bind_run, Rd.get_run, hsync, Rd.reject_false, hread2, hsize, hrate, hread3, hchannel,
    hdepth, hreserved, hrun]

/-! ## The header read, and what is left to check (R190, R193) -/

/-- The third header byte (R183). -/
def HeaderFields.byte2 (h : HeaderFields) : Byte := h.bsCode ++ h.rateCode

/-- The fourth header byte (R184). -/
def HeaderFields.byte3 (h : HeaderFields) : Byte := h.channelCode ++ h.sizeCode ++ 0#1

theorem HeaderFields.bits_eq (h : HeaderFields) :
    h.bits = byteBits h.byte2 ++ byteBits h.byte3 ++ numberBits h.numberLength h.number ++
      blockSizeBits h.bsCode h.blockSize ++ sampleRateBits h.rateCode h.rate := by
  rw [byteBits, byteBits, HeaderFields.byte2, HeaderFields.byte3, ← header_byte2, ← header_byte3]
  simp only [HeaderFields.bits, List.append_assoc]

/-- The codes stand in their fields of the third and fourth header bytes, and the reserved bit is 0. -/
theorem HeaderFields.byte_fields (h : HeaderFields) :
    h.byte2.extractLsb' 4 4 = h.bsCode ∧ h.byte2.extractLsb' 0 4 = h.rateCode ∧
    h.byte3.extractLsb' 4 4 = h.channelCode ∧ h.byte3.extractLsb' 1 3 = h.sizeCode ∧ h.byte3.getLsbD 0 = false :=
  have ⟨hsize, hrate⟩ := header_fields2 h.bsCode h.rateCode
  ⟨hsize, hrate, header_fields3 h.channelCode h.sizeCode⟩

/-- The fields of the header are read in turn, each where the one before it ends. -/
theorem read_headerFields {s : State} {h : HeaderFields} (hcoded : h.coded s.params s.sp) (ha : s.ahead h.bits) :
    readBits 8 s = .ok h.byte2 (s.consume 8) ∧ readBits 8 (s.consume 8) = .ok h.byte3 (s.consume 16) ∧
    ∃ t u : State, codedNumber h.blocking (s.consume 16) = .ok h.number t ∧
      blockSize h.bsCode t = .ok h.blockSize u ∧ sampleRate h.rateCode u = .ok h.rate (s.consume h.bits.length) := by
  obtain ⟨hsize, hrate, -, -, hnumber⟩ := hcoded
  rw [h.bits_eq] at ha ⊢
  obtain ⟨haSize, haRate⟩ := State.ahead_append.1 ha
  have haNumber := (State.ahead_append.1 haSize).1
  obtain ⟨hread2, hread3⟩ := read_codeBytes (State.ahead_append.1 haNumber).1
  have hreadNumber := (reads_codedNumber hnumber).after haNumber
  rw [List.length_append, length_byteBits, length_byteBits] at hreadNumber
  have hreadRate := reads_sampleRate (s := s.consume _) hrate haRate
  rw [← haSize.consume_append] at hreadRate
  exact ⟨hread2, hread3, _, _, hreadNumber, (reads_blockSize hsize).after haSize, hreadRate⟩

/-- The header with every field read: it remains to compare the CRC-8 with the one over the bytes before it, and the
block size with `SP_MAX_BLOCK`. -/
theorem readHeader_coded {s : State} {h : HeaderFields} {actual : Byte} (hsync : s.syncByte1.getLsbD 1 = false)
    (hblocking : s.syncByte1.getLsbD 0 = h.blocking) (hcoded : h.coded s.params s.sp)
    (ha : s.ahead (h.bits ++ byteBits actual)) :
    readHeader s = (do
      reject ((s.consume h.bits.length).crc8 != actual)
        (.badFrame .badHeader 1 ((s.consume h.bits.length).crc8.setWidth 16) (actual.setWidth 16))
      reject (decide (s.sp.maxBlock.toNat < h.blockSize)) (badHeader 8)
      pure (h.registers s.sp actual) : Rd HeaderRegs) (s.consume (h.bits.length + 8)) := by
  obtain ⟨hread2, hread3, t, u, hnumber, hbs, hsr⟩ := read_headerFields hcoded (State.ahead_append.1 ha).1
  obtain ⟨hsize, hrate, hchannels, hdepth, -⟩ := hcoded
  obtain ⟨eSize, eRate, eChannel, eDepth, hreserved⟩ := h.byte_fields
  obtain ⟨hchannelOk, echannels⟩ := channelsCoded_ok hchannels
  obtain ⟨hdepthOk, edepth⟩ := sampleSizeCoded_ok hdepth
  have hcrc := (reads_byte actual).after ha
  rw [List.length_append, length_byteBits] at hcrc
  simp only [readHeader, Rd.bind_run, Rd.get_run, hsync, hblocking, Rd.reject_false, hread2, eSize, eRate,
    blockSizeCoded_ne hsize, sampleRateCoded_ne hrate, hread3, eChannel, eDepth, hchannelOk, hdepthOk, hreserved,
    hnumber, hbs, hsr, hcrc, echannels, edepth]
  rfl

/-! ## What the command answers (R180, R195) -/

theorem exec_frDecodeHeader {s : State} (hen : s.framesEnabled = true) (hphase : s.phase = .synced) :
    exec (.frDecodeHeader 0) s = (headerStep s).finish s :=
  admitFrame_run (s := s) legalN_zero hen (beq_iff_eq.2 hphase)

theorem exec_frDecodeHeader_rejected {s : State} {n : Nat} {sub : Byte} {x y : Word16}
    (hen : s.framesEnabled = true) (hphase : s.phase = .synced)
    (h : readHeader s = .error (.badFrame .badHeader sub x y) (s.consume n)) :
    exec (.frDecodeHeader 0) s = .next (s.badFrameAfter n .badHeader sub x y) := by
  have hdecode : decodeHeader s = .error (.badFrame .badHeader sub x y) (s.consume n) := by
    simp only [decodeHeader, Rd.bind_run, h]
  rw [exec_frDecodeHeader hen hphase, headerStep, runFrameStep_badFrame hdecode, finish_done,
    endCommand_error _ _ _ (by decide)]
  rfl

theorem exec_frDecodeHeader_committed {s : State} {n : Nat} {h : HeaderFields} {crc : Byte}
    (hen : s.framesEnabled = true) (hphase : s.phase = .synced) (hsize : h.blockSize < 2 ^ 16)
    (hread : readHeader s = .ok (h.registers s.sp crc) (s.consume n)) :
    exec (.frDecodeHeader 0) s =
      .next (((s.consume n).withHeader h crc).okWith (BitVec.ofNat 64 h.blockSize)) := by
  have hdecode : decodeHeader s = .ok (.okay, BitVec.ofNat 64 h.blockSize) ((s.consume n).withHeader h crc) := by
    simp only [decodeHeader, Rd.bind_run, hread, Rd.modify_run, Rd.pure_run, ← setWidth_ofNat_of_lt hsize]
    rfl
  rw [exec_frDecodeHeader hen hphase, headerStep, runFrameStep_ok hdecode, finish_done, endCommand_ok]

/-- Settles O31: every field is read back, and both of the last checks pass. -/
theorem headerReadsBack : Obligations.HeaderReadsBack := by
  intro s h crc hvalid hfatal hphase hsync hblocking hcoded hmax hcrc ha
  refine exec_frDecodeHeader_committed (framesEnabled_true hvalid hfatal) hphase
    (Nat.lt_of_le_of_lt hmax s.sp.maxBlock.isLt) ?_
  rw [readHeader_coded hsync hblocking hcoded ha, ← hcrc]
  simp only [Rd.bind_run, bne_self_eq_false, decide_eq_false (Nat.not_lt.2 hmax), Rd.reject_false, Rd.pure_run]

/-- Settles O32: each check of the sync byte and of the code bytes, in the order of the checks. -/
theorem headerBytesRejected : Obligations.HeaderBytesRejected := by
  intro s hvalid hfatal hphase
  have hen := framesEnabled_true hvalid hfatal
  have hrejected := fun {n sub} => exec_frDecodeHeader_rejected (n := n) (sub := sub) (x := 0) (y := 0) hen hphase
  refine ⟨fun hsync => hrejected (readHeader_rejects_sync hsync), fun hsync b2 => ?_⟩
  refine ⟨fun ha hsize => ?blockSize, fun ha hsize hrate => ?sampleRate, fun b3 ha hsize hrate => ?byte3⟩
  case blockSize => exact hrejected ((readHeader_rejects_byte2 hsync ha).1 hsize)
  case sampleRate => exact hrejected ((readHeader_rejects_byte2 hsync ha).2 hsize hrate)
  case byte3 =>
    obtain ⟨hchannelBad, hchannelOk⟩ := readHeader_rejects_byte3 hsync ha hsize hrate
    refine ⟨fun hchannel => hrejected (hchannelBad hchannel), fun hchannel => ?_⟩
    obtain ⟨hdepthBad, hdepthOk⟩ := hchannelOk (Nat.not_le.2 (Nat.lt_succ_of_le hchannel))
    exact ⟨fun hdepth => hrejected (hdepthBad (sampleSizeReserved_byte3.2 hdepth)), fun hthree hseven hreserved =>
      hrejected (hdepthOk (sampleSizeReserved_byte3_false hthree hseven) hreserved)⟩

/-- Settles O33: the coded number is rejected at its first bad byte; of a header read whole, the CRC-8 is checked
first, then the block size. -/
theorem headerNumberCrcAndSizeRejected : Obligations.HeaderNumberCrcAndSizeRejected := by
  intro s hvalid hfatal hphase hsync
  have hen := framesEnabled_true hvalid hfatal
  refine ⟨fun b2 b3 lead hcodes hlead ha => ?lead,
    fun b2 b3 lead bad good hcodes hlead hm hgood hbad ha => ?continuation,
    fun h expected actual hblocking hcoded hexpected ha => ?checks⟩
  case lead =>
    exact exec_frDecodeHeader_rejected hen hphase
      (readHeader_rejects_number hsync hcodes (rejects_codedNumber_lead hlead) ha)
  case continuation =>
    have hlen : (byteBits lead ++ (good.flatMap byteBits ++ byteBits bad)).length = 16 + 8 * good.length := by
      simp only [List.length_append, length_byteBits, length_flatMap_byteBits]
      omega
    have hread := readHeader_rejects_number hsync hcodes (rejects_codedNumber_continuation hlead hm hgood hbad)
      (by simpa only [List.append_assoc] using ha)
    rw [hlen, ← Nat.add_assoc] at hread
    exact exec_frDecodeHeader_rejected hen hphase hread
  case checks =>
    have hread := readHeader_coded hsync hblocking hcoded ha
    rw [← hexpected] at hread
    refine ⟨fun hne => ?crc, fun heq hmax => ?size⟩
    case crc =>
      refine exec_frDecodeHeader_rejected hen hphase ?_
      rw [hread, Rd.bind_run, bne_iff_ne.2 hne, Rd.reject_true]
    case size =>
      refine exec_frDecodeHeader_rejected hen hphase (?_ : readHeader s = .error (badHeader 8) _)
      rw [hread, heq]
      simp only [Rd.bind_run, bne_self_eq_false, Rd.reject_false, decide_eq_true hmax, Rd.reject_true]

end Sys2Proof.Machine
end

section
/-! SUPPORT. The subframe decoder (`43_subframe.md` R230 to R240; O35 to O37, O41, O42): a header byte and the code it
selects, what a code and the command answer when the subframe is read back or rejected, and the frame of the family
(O44). -/

namespace Sys2Proof.Machine

/-! ## A subframe code, alone and in the command (R230) -/

theorem exec_toInstr (code : SubframeCode) (s : State) : exec code.toInstr s = runCode code s := by
  cases code with
  | fixed o w => fin_cases o <;> rfl
  | constant w | verbatim w | lpc om1 w | reserved type w | badPadding rest => rfl

theorem fixedInstr_eq_toInstr (o : Fin 5) (w : Bool) : fixedInstr o w = (SubframeCode.fixed o w).toInstr := by
  fin_cases o <;> rfl

theorem runCode_eq {s : State} {c : ChannelIx} (hdone : s.sfDone.toNat = c.val) (code : SubframeCode) :
    runCode code s = (runSubframe c (subframeCode c code) s).finish s := by
  rw [runCode, nextChannel_eq hdone]

theorem exec_frDecodeSubframe {s : State} {c : ChannelIx} (hen : s.framesEnabled = true)
    (hphase : s.phase = .headerDone) (hdone : s.sfDone.toNat = c.val) (hlt : c.val < s.hdr.channels.toNat) :
    exec (.frDecodeSubframe (BitVec.ofNat 8 c.val)) s = (subframeStep c s).finish s := by
  have hlegal : legalC (BitVec.ofNat 8 c.val) = true := legalC_true (by rw [toNat_ofNat_channel]; omega)
  refine (admitFrame_run hlegal hen ?_).trans (by rw [channelOf_ofNat])
  rw [toNat_ofNat_channel, beq_iff_eq.2 hphase, decide_eq_true hdone.symm, decide_eq_true hlt]
  rfl

/-- The header byte is read, and the code it selects runs after it. -/
theorem subframeStep_eq {s : State} {c : ChannelIx} {x : Byte} (ha : s.ahead (byteBits x)) :
    subframeStep c s = runSubframe c (subframeCode c (decodeSubframeByte x)) (s.consume 8) := by
  have hread : readBits 8 s = .ok x (s.consume 8) := reads_byte x s ha
  simp only [subframeStep, runSubframe, decodeSubframe, Rd.bind_run, hread]

/-- A subframe that ends has written the phase or `SF_DONE`. -/
theorem runSubframe_done_ne {c : ChannelIx} {act : Rd Unit} (h : SubframeSound c act) {s t : State}
    (hphase : s.phase = .headerDone) {st : Status} {res : Word64} (hrun : runSubframe c act s = .done st res t) :
    t.endCommand st res ≠ s := by
  intro hsame
  have hphase' : t.phase = .headerDone := (congrArg State.phase hsame).trans hphase
  have hdone' : (t.endCommand st res).sfDone = s.sfDone := congrArg State.sfDone hsame
  rcases runSubframe_cases h s with ⟨-, e⟩ | ⟨-, u, -, e⟩ | ⟨u, sub, x, y, -, e⟩ |
    ⟨u, ⟨v, xs, info, hmoves, -, rfl⟩, e⟩ <;> rw [e] at hrun <;> cases hrun
  · cases hphase'
  · cases hphase'
  · rw [endCommand_sfDone, storeSubframe_sfDone, hmoves.sfDone] at hdone'
    bv_omega

/-- How a step run from `u` ends the command of `s`: it has held exactly when it answers `u` again, provided that none
of its ends is `u`. -/
theorem finish_from {e : Ended} {s t u : State}
    (hne : ∀ st res v, e = .done st res v → v.endCommand st res ≠ u) (hx : e.finish u = .next t) :
    e.finish s = .next (if t = u then s else t) := by
  cases e with
  | hold => cases hx; rw [if_pos rfl, finish_hold]
  | done st res v => cases hx; rw [if_neg (hne st res v rfl), finish_done]

/-- Settles O35: both run the code's decode step after the header byte, and a code that does not hold changes the
state. -/
theorem subframeCommandRunsItsCode : Obligations.SubframeCommandRunsItsCode := by
  intro s t c x i hvalid hfatal hphase hdone hlt ha hi hx
  cases hi
  rw [exec_toInstr, runCode_eq (s := s.consume 8) hdone] at hx
  rw [exec_frDecodeSubframe (framesEnabled_true hvalid hfatal) hphase hdone hlt, subframeStep_eq ha]
  exact finish_from (fun _ _ _ => runSubframe_done_ne (s := s.consume 8) (SubframeSound.code c _) hphase) hx

/-! ## A subframe that is read back -/

/-- The two header bytes of a kind: without and with wasted bits (R233). -/
theorem decodeSubframeByte_wasted {x0 x1 : Byte} {code : Bool → SubframeCode}
    (h0 : decodeSubframeByte x0 = code false) (h1 : decodeSubframeByte x1 = code true) (k : Nat) :
    decodeSubframeByte (if k = 0 then x0 else x1) = code (decide (0 < k)) := by
  by_cases hk : k = 0
  · rw [if_pos hk, h0, hk, decide_eq_false (Nat.lt_irrefl 0)]
  · rw [if_neg hk, h1, decide_eq_true (Nat.pos_of_ne_zero hk)]

theorem bpsEff_eq_depthOf (s : State) (c : ChannelIx) : s.bpsEff c = s.depthOf c := by
  unfold State.bpsEff State.depthOf isSide
  cases s.hdr.assign <;> simp

theorem depthOf_congr {s u : State} (h : u.hdr = s.hdr) (c : ChannelIx) : u.depthOf c = s.depthOf c := by
  rw [State.depthOf, h, ← State.depthOf]

theorem withSubframe_consume {s : State} {as : List Bool} (ha : s.ahead as) (c : ChannelIx) (info : SfInfo)
    (xs : List Sample) (n : Nat) :
    (s.consume as.length).withSubframe c info xs n = s.withSubframe c info xs (as.length + n) := by
  rw [State.withSubframe, State.withSubframe, consume_add ha.1 ha.le]

theorem runSubframe_finish_ok {c : ChannelIx} {act : Rd Unit} {s t u : State} (h : act s = .ok () t) :
    (runSubframe c act s).finish u = .next (t.okWith 0) := by
  rw [runSubframe, h]
  rfl

/-- A code that reads a subframe back from every state with the frame header of `s` does so from `s`, alone and, after
its header byte, in the command. -/
theorem subframe_readsBack {s : State} {c : ChannelIx} {code : SubframeCode} {x : Byte} {info : SfInfo}
    {xs : List Sample} {body : List Bool} (hcode : decodeSubframeByte x = code) (hdone : s.sfDone.toNat = c.val)
    (hread : ∀ u : State, u.hdr = s.hdr → u.ahead body →
      subframeCode c code u = .ok () (u.withSubframe c info xs body.length)) :
    (s.ahead body → exec code.toInstr s = .next ((s.withSubframe c info xs body.length).okWith 0)) ∧
    (s.spValid = true → s.fatal = false → s.phase = .headerDone → c.val < s.hdr.channels.toNat →
      s.ahead (byteBits x ++ body) →
      exec (.frDecodeSubframe (BitVec.ofNat 8 c.val)) s =
        .next ((s.withSubframe c info xs (8 + body.length)).okWith 0)) := by
  refine ⟨fun ha => ?code, fun hvalid hfatal hphase hlt ha => ?command⟩
  case code =>
    rw [exec_toInstr, runCode_eq hdone]
    exact runSubframe_finish_ok (hread s rfl ha)
  case command =>
    obtain ⟨hbyte, hbody⟩ := State.ahead_append.1 ha
    rw [exec_frDecodeSubframe (framesEnabled_true hvalid hfatal) hphase hdone hlt, subframeStep_eq hbyte, hcode,
      ← length_byteBits x, ← withSubframe_consume hbyte]
    exact runSubframe_finish_ok (hread _ rfl hbody)

/-- A subframe of order 0 without a residual: the wasted-bits code, then a body that only reads. -/
theorem codedSubframe_readsBody {s u : State} {c : ChannelIx} {kind : SfKind} {k : Nat}
    {body : Nat → Nat → Rd Body} {bits : List Bool} {b : Body} (hhdr : u.hdr = s.hdr) (hk : k < s.depthOf c)
    (hbody : Reads (body (s.depthOf c - k) s.hdr.blockSize.toNat) bits b) (ha : u.ahead (wastedCode k ++ bits)) :
    codedSubframe c kind 0 (decide (0 < k)) body u =
      .ok () (u.withSubframe c (infoOf kind 0 k (s.depthOf c) b.prec b.shift Residual.empty)
        (shiftSamples k b.samples) (wastedCode k ++ bits).length) := by
  have hdepth : u.bpsEff c = s.depthOf c := (bpsEff_eq_depthOf u c).trans (depthOf_congr hhdr c)
  have hread := hbody ((u.consume (wastedCode k).length).setResidual Residual.empty) (State.ahead_append.1 ha).2
  rw [← hdepth] at hk hread ⊢
  rw [← hhdr] at hread
  exact codedSubframe_reads c kind 0 k body bits b Residual.empty u hk (Nat.zero_le _) ha hread

/-- Settles O36: the one value is read, replicated and shifted. -/
theorem constantSubframeReadsBack : Obligations.ConstantSubframeReadsBack := by
  rintro s c k v info body hdone hk hv rfl rfl
  have hbyte := decodeSubframeByte_wasted (x0 := 0x00) (x1 := 0x01) (code := .constant) rfl rfl k
  refine subframe_readsBack hbyte hdone fun u hhdr ha => ?_
  rw [← List.map_replicate (f := fun x : Sample => x <<< k)]
  exact codedSubframe_readsBody hhdr hk (constantBody_reads hv) ha

/-- Settles O37: the block's values are read one after the other and shifted. -/
theorem verbatimSubframeReadsBack : Obligations.VerbatimSubframeReadsBack := by
  rintro s c k xs info body hdone hk hlen hxs rfl rfl
  have hbyte := decodeSubframeByte_wasted (x0 := 0x02) (x1 := 0x03) (code := .verbatim) rfl rfl k
  have hbody := verbatimBody_reads hxs
  rw [hlen] at hbody
  exact subframe_readsBack hbyte hdone fun u hhdr ha => codedSubframe_readsBody hhdr hk hbody ha

/-! ## A subframe that is rejected (R232 to R234, R239, R240) -/

theorem exec_toInstr_rejected {s : State} {c : ChannelIx} {code : SubframeCode} {n : Nat} {sub : Byte}
    (hdone : s.sfDone.toNat = c.val) (h : subframeCode c code s = .error (badSubframe sub) (s.consume n)) :
    ∃ t : State, exec code.toInstr s = .next t ∧
      State.losesChannel c (s.badFrameAfter n .badSubframe sub 0 0) t := by
  rw [exec_toInstr, runCode_eq hdone]
  exact runSubframe_rejects (r := s.residual) h

/-- A wasted-bits count not below the effective depth is rejected before the order is looked at (R234). -/
theorem codedSubframe_rejects_wasted {s : State} {c : ChannelIx} {z : Nat} (hz : s.depthOf c ≤ z + 1)
    (ha : s.ahead (unaryBits z)) (kind : SfKind) (o : Nat) (body : Nat → Nat → Rd Body) :
    codedSubframe c kind o true body s = .error (badSubframe 3) (s.consume (z + 1)) := by
  have hlen : (unaryBits z).length = z + 1 := by simp [unaryBits]
  have hread : wastedBits true s = .ok (z + 1) (s.consume (unaryBits z).length) := reads_wastedBits (z + 1) s ha
  rw [hlen] at hread
  simp only [codedSubframe, Rd.bind_run, Rd.get_run, hread, bpsEff_eq_depthOf, decide_eq_true hz, Rd.reject_true]

/-- An order above the block size is rejected, the wasted-bits count being legal (R233). -/
theorem codedSubframe_rejects_order {s : State} {c : ChannelIx} {k o : Nat} (hk : k < s.depthOf c)
    (ho : s.hdr.blockSize.toNat < o) (ha : s.ahead (wastedCode k)) (kind : SfKind)
    (body : Nat → Nat → Rd Body) :
    codedSubframe c kind o (decide (0 < k)) body s =
      .error (badSubframe 4) (s.consume (wastedCode k).length) := by
  simp only [codedSubframe, Rd.bind_run, Rd.get_run, reads_wastedBits k s ha, bpsEff_eq_depthOf,
    decide_eq_false (Nat.not_le.2 hk), Rd.reject_false, decide_eq_true ho, Rd.reject_true]

/-- Settles O42: every code with a wasted-bits flag checks the count first; the codes with an order check it next. -/
theorem subframeHeaderRejected : Obligations.SubframeHeaderRejected := by
  intro s c hdone
  refine ⟨fun z o om1 hz ha i hi => ?wasted, fun k o hk ho ha => ?fixedOrder, fun k om1 hk ho ha => ?lpcOrder⟩
  case wasted =>
    have hrejected := codedSubframe_rejects_wasted hz ha
    simp only [List.mem_cons, List.not_mem_nil, or_false, fixedInstr_eq_toInstr] at hi
    obtain rfl | rfl | rfl | rfl := hi
    · exact exec_toInstr_rejected (code := .constant true) hdone (hrejected _ _ _)
    · exact exec_toInstr_rejected (code := .verbatim true) hdone (hrejected _ _ _)
    · exact exec_toInstr_rejected (code := .fixed o true) hdone (hrejected .fixed o.val fun w _ => fixedBody o w)
    · exact exec_toInstr_rejected (code := .lpc om1 true) hdone
        (hrejected .lpc (lpcOrder om1) fun w _ => lpcBody (lpcOrder om1) w)
  case fixedOrder =>
    rw [fixedInstr_eq_toInstr]
    exact exec_toInstr_rejected hdone (codedSubframe_rejects_order hk ho ha .fixed fun w _ => fixedBody o w)
  case lpcOrder =>
    exact exec_toInstr_rejected (code := .lpc om1 _) hdone
      (codedSubframe_rejects_order hk ho ha .lpc fun w _ => lpcBody (lpcOrder om1) w)

/-- A BadFrame raised at once has no bit before it. -/
theorem throw_badSubframe_run (sub : Byte) (s : State) :
    (throw (badSubframe sub) : Rd Unit) s = .error (badSubframe sub) (s.consume 0) := by
  rw [Rd.throw_run, consume_zero]

/-- Settles O41: each reserved code raises its BadFrame at once. -/
theorem reservedCodesEndTheFrame : Obligations.ReservedCodesEndTheFrame := by
  intro s c hdone
  refine ⟨fun rest => ?padding, fun type w => ?type, fun low => ?method, fun code => ?channels⟩
  case padding => exact exec_toInstr_rejected (code := .badPadding rest) hdone (throw_badSubframe_run 1 s)
  case type => exact exec_toInstr_rejected (code := .reserved type w) hdone (throw_badSubframe_run 2 s)
  case method =>
    rw [← nextChannel_eq hdone]
    exact runSubframe_rejects (r := s.residual) (throw_badSubframe_run 7 s)
  case channels =>
    have hraise : (throw (badHeader 5) : Rd (Status × Word64)) s = .error (badHeader 5) s := Rd.throw_run _ _
    refine (congrArg (Ended.finish · s) (runFrameStep_badFrame hraise)).trans ?_
    rw [finish_done, endCommand_error _ _ _ (by decide), State.badFrameAfter, consume_zero]

/-! ## The frame of the family (R230, R240, `60_exceptions.md` R384, R386) -/

/-- From `s` to `t` only what the instructions of the subframe family may change differs. -/
def SubframeFamilyFrame (s t : State) : Prop :=
  t = { s with
    pos := t.pos, crc16 := t.crc16, crc8 := t.crc8, chbuf := t.chbuf, freeCount := t.freeCount,
    sfInfo := t.sfInfo, sfDone := t.sfDone, residual := t.residual, phase := t.phase, eof := t.eof,
    outq := t.outq, badFrames := t.badFrames, fatal := t.fatal, lastErr := t.lastErr, slot := t.slot,
    result := t.result, statusOut := t.statusOut }

theorem SubframeFamilyFrame.trans {s t u : State} (h1 : SubframeFamilyFrame s t) (h2 : SubframeFamilyFrame t u) :
    SubframeFamilyFrame s u := by
  unfold SubframeFamilyFrame at h1 h2
  rw [h1] at h2
  exact h2

theorem SubframeFamilyFrame.src {s t : State} (h : SubframeFamilyFrame s t) : t.src = s.src := by rw [h]

theorem Moves.subframeFrame {s t : State} (h : Moves s t) : SubframeFamilyFrame s t := by
  unfold SubframeFamilyFrame
  rw [h.1]

/-- From `s` to `t` every channel but `c` keeps its samples and its `SF_INFO`. -/
def KeepsOthers (c : ChannelIx) (s t : State) : Prop :=
  ∀ d : ChannelIx, d ≠ c → t.chbuf[d] = s.chbuf[d] ∧ t.sfInfo[d] = s.sfInfo[d]

theorem KeepsOthers.of_eq {c : ChannelIx} {s t : State} (hchbuf : t.chbuf = s.chbuf) (hsfInfo : t.sfInfo = s.sfInfo) :
    KeepsOthers c s t := fun _ _ => by rw [hchbuf, hsfInfo]; exact ⟨rfl, rfl⟩

theorem getElem_set_of_ne {α : Type} {c d : ChannelIx} (v : Vector α 8) (x : α) (h : d ≠ c) :
    (v.set c x)[d] = v[d] :=
  Vector.getElem_set_ne c.isLt d.isLt fun hcd => h (Fin.ext hcd.symm)

/-- What every answer of an instruction of the family is, when it decodes channel `c`: within the family's frame, the
other channels kept; `SF_INFO` is written on OK only, and `CHBUF` is not when the stream ends. -/
structure SubframeAnswer (c : ChannelIx) (s t : State) : Prop where
  frame : SubframeFamilyFrame s t
  others : KeepsOthers c s t
  committed : t.statusOut ≠ .okay → t.sfInfo = s.sfInfo
  cut : t.statusOut = ⟨.endOfStream, 0⟩ → t.chbuf = s.chbuf ∧ t.freeCount = s.freeCount

/-- An answer that leaves `CHBUF` and `SF_INFO` alone. -/
theorem SubframeAnswer.of_kept {c : ChannelIx} {s t : State} (hframe : SubframeFamilyFrame s t)
    (hchbuf : t.chbuf = s.chbuf) (hfree : t.freeCount = s.freeCount) (hsfInfo : t.sfInfo = s.sfInfo) :
    SubframeAnswer c s t :=
  ⟨hframe, .of_eq hchbuf hsfInfo, fun _ => hsfInfo, fun _ => ⟨hchbuf, hfree⟩⟩

/-- An answer with OK. -/
theorem SubframeAnswer.of_okay {c : ChannelIx} {s t : State} (hframe : SubframeFamilyFrame s t)
    (hothers : KeepsOthers c s t) : SubframeAnswer c s (t.endCommand .okay 0) :=
  ⟨hframe.trans rfl, hothers, fun hfailed => absurd rfl hfailed, nofun⟩

theorem Moves.dropSubframe_keepsOthers {s t : State} (h : Moves s t) (c : ChannelIx) :
    KeepsOthers c s (t.dropSubframe c) := by
  intro d hd
  rw [State.dropSubframe, setResidual_chbuf, setResidual_sfInfo, forgetChannel_chbuf, forgetChannel_sfInfo,
    getElem_set_of_ne _ _ hd, h.chbuf, h.sfInfo]
  exact ⟨rfl, rfl⟩

theorem SubframeDone.frame {c : ChannelIx} {s t : State} (h : SubframeDone c s t) : SubframeFamilyFrame s t := by
  obtain ⟨u, xs, info, hmoves, -, rfl⟩ := h
  exact hmoves.subframeFrame.trans rfl

theorem SubframeDone.keepsOthers {c : ChannelIx} {s t : State} (h : SubframeDone c s t) : KeepsOthers c s t := by
  obtain ⟨u, xs, info, hmoves, -, rfl⟩ := h
  intro d hd
  rw [storeSubframe_chbuf, storeSubframe_sfInfo, getElem_set_of_ne _ _ hd, getElem_set_of_ne _ _ hd, hmoves.chbuf,
    hmoves.sfInfo]
  exact ⟨rfl, rfl⟩

theorem runSubframe_answer {c : ChannelIx} {done : State → State → Prop} {act : Rd Unit} (hact : PartSound done act)
    (hframe : ∀ {s t}, done s t → SubframeFamilyFrame s t) (hothers : ∀ {s t}, done s t → KeepsOthers c s t)
    {s t : State} (hx : (runSubframe c act s).finish s = .next t) : SubframeAnswer c s t := by
  rcases runSubframe_cases (c := c) hact s with ⟨-, e⟩ | ⟨-, u, hmoves, e⟩ | ⟨u, sub, x, y, hmoves, e⟩ |
    ⟨u, hdone, e⟩ <;> rw [e] at hx <;> cases hx
  · exact .of_kept rfl rfl rfl rfl
  · exact .of_kept (hmoves.subframeFrame.trans rfl) hmoves.chbuf hmoves.freeCount hmoves.sfInfo
  · exact ⟨hmoves.subframeFrame.trans rfl, hmoves.dropSubframe_keepsOthers c, fun _ => hmoves.sfInfo, nofun⟩
  · exact .of_okay (hframe hdone) (hothers hdone)

theorem exec_toInstr_answer {s t : State} {code : SubframeCode} (hx : exec code.toInstr s = .next t) :
    SubframeAnswer s.nextChannel s t := by
  rw [exec_toInstr] at hx
  exact runSubframe_answer (SubframeSound.code _ code) SubframeDone.frame SubframeDone.keepsOthers hx

theorem runResidual_answer {s t : State} {act : Rd Unit} (hact : Sound .badSubframe act)
    (hx : runResidual act s = .next t) : SubframeAnswer s.nextChannel s t :=
  runSubframe_answer (PartSound.of_sound hact) Moves.subframeFrame (fun h => .of_eq h.chbuf h.sfInfo) hx

theorem exec_frDecodeSubframe_answer {s t : State} {a : Byte} (hx : exec (.frDecodeSubframe a) s = .next t) :
    SubframeAnswer s.nextChannel s t := by
  rcases admitFrame_cases hx with ⟨-, rfl⟩ | ⟨-, rfl⟩ | ⟨-, rfl⟩ | ⟨-, -, hseq, hrun⟩
  case inr.inr.inr =>
    simp only [Bool.and_eq_true, decide_eq_true_eq] at hseq
    obtain ⟨⟨-, hnext⟩, -⟩ := hseq
    have hchannel : channelOf a = s.nextChannel := Fin.ext (congrArg (· % 8) hnext)
    rw [hchannel] at hrun
    exact runSubframe_answer (SubframeSound.decode _) SubframeDone.frame SubframeDone.keepsOthers hrun
  all_goals exact .of_kept rfl rfl rfl rfl

/-- Settles O44: the command, the codes and the residual methods all answer as `SubframeAnswer` says, for the channel
`SF_DONE` modulo 8. -/
theorem subframeFrame : Obligations.SubframeFrame := by
  intro s t i a o om1 type rest w low hi hx
  have hanswer : SubframeAnswer s.nextChannel s t := by
    simp only [List.mem_cons, List.not_mem_nil, or_false, fixedInstr_eq_toInstr] at hi
    obtain rfl | rfl | rfl | rfl | rfl | rfl | rfl | rfl | rfl | rfl := hi
    · exact exec_frDecodeSubframe_answer hx
    · exact exec_toInstr_answer (code := .constant w) hx
    · exact exec_toInstr_answer (code := .verbatim w) hx
    · exact exec_toInstr_answer (code := .fixed o w) hx
    · exact exec_toInstr_answer (code := .lpc om1 w) hx
    · exact exec_toInstr_answer (code := .reserved type w) hx
    · exact exec_toInstr_answer (code := .badPadding rest) hx
    · exact runResidual_answer (Sound.codedResidual 4 15 false) hx
    · exact runResidual_answer (Sound.codedResidual 5 31 true) hx
    · exact runResidual_answer Sound.reservedResidual hx
  obtain ⟨hframe, hothers, hcommitted, hcut⟩ := hanswer
  exact ⟨hframe, fun k => congrArg (Memory.byteAt · k) hframe.src,
    fun d hd => hothers d fun hc => hd (congrArg Fin.val hc), hcommitted, hcut⟩

end Sys2Proof.Machine
end

section
/-! SUPPORT. The FIXED subframe reads back (`44_fixed.md` R260 to R265; O38): the code's decode step on the bits an
encoder writes, and the block it rebuilds. -/

namespace Sys2Proof.Machine

/-- A code whose decode step succeeds ends with OK and the step's state. -/
theorem exec_toInstr_ok {s t : State} {c : ChannelIx} {code : SubframeCode} (hdone : s.sfDone.toNat = c.val)
    (h : subframeCode c code s = .ok () t) : exec code.toInstr s = .next (t.okWith 0) := by
  rw [exec_toInstr, runCode_eq hdone]
  exact runSubframe_finish_ok h

/-- The block rebuilt from as many warm-up samples as the order and from the residuals of partitions that fit the
block has the block's size (R293). -/
theorem length_reconstruct_residualsOf (pred : List Sample → Sample) {warm : List Sample} {parts : List Part}
    {esc bs o po : Nat} (hwarm : warm.length = o) (ho : o ≤ bs) (hfit : partsFit esc bs o po parts) :
    (reconstruct pred warm (residualsOf parts)).length = bs := by
  rw [length_reconstruct, hwarm, length_residualsOf hfit]
  omega

/-- The FIXED code reads the wasted-bits code, the warm-up samples and the residual, and stores the block rebuilt from
them, restored by the wasted bits (R260, `43_subframe.md` R234 to R236). -/
theorem subframeCode_fixed_reads {s : State} {c : ChannelIx} {o : Fin 5} {k : Nat} {warm : List Sample}
    {rice2 : Bool} {po : Nat} {parts : List Part} {bits : List Bool} (hk : k < s.depthOf c)
    (ho : o.val ≤ s.hdr.blockSize.toNat) (hwarm : warm.length = o.val)
    (hw : ∀ x ∈ warm, fitsIn (s.depthOf c - k) x)
    (hfit : partsFit (escapeValue rice2) s.hdr.blockSize.toNat o.val po parts)
    (hbits : bits = warm.flatMap (signedBits (s.depthOf c - k)) ++ residualBits rice2 po parts)
    (ha : s.ahead (wastedCode k ++ bits)) :
    subframeCode c (.fixed o (decide (0 < k))) s =
      .ok () (s.withSubframe c
        ⟨.fixed, BitVec.ofNat 6 o.val, BitVec.ofNat 6 k, BitVec.ofNat 6 (s.depthOf c), 0, 0, rice2,
          BitVec.ofNat 4 po⟩
        (shiftSamples k (reconstruct (fixedPred o) warm (residualsOf parts)))
        (wastedCode k ++ bits).length) := by
  subst hbits
  have hbody := fixedBody_reads o hwarm hw rice2 po parts
    ((s.consume (wastedCode k).length).setResidual Residual.empty) hfit (State.ahead_append.1 ha).2
  rw [← bpsEff_eq_depthOf] at hk ha hbody ⊢
  exact codedSubframe_reads c .fixed o.val k (fun width _ => fixedBody o width) _ _ _ s hk ho ha hbody

/-- Settles O38: the code reads every field back, and the block it rebuilds is the one `Predicted` describes. -/
theorem fixedSubframeReadsBack : Obligations.FixedSubframeReadsBack := by
  rintro s c o k warm rice2 po parts body hdone hk ho hwarm hw hfit rfl ha
  refine ⟨reconstruct (fixedPred o) warm (residualsOf parts), predicted_fixed o warm _ hwarm,
    length_reconstruct_residualsOf _ hwarm ho hfit, ?_⟩
  rw [fixedInstr_eq_toInstr]
  exact exec_toInstr_ok hdone (subframeCode_fixed_reads hk ho hwarm hw hfit rfl ha)

end Sys2Proof.Machine
end

section
/-! SUPPORT. The LPC subframe and the residual (`45_lpc_rice.md` R280 to R299; O39, O40, O43): what `SUBFRAME_LPC` and
the two residual methods read back, and what the body of a subframe is rejected for. -/

namespace Sys2Proof.Machine

/-! ## Reading back -/

/-- An LPC order fits the six bits of the working register. -/
theorem lpcOrder_lt (om1 : BitVec 5) : lpcOrder om1 < 64 :=
  Nat.lt_trans (Nat.succ_lt_succ om1.isLt) (by decide)

/-- The LPC code reads the wasted-bits code, the warm-up samples, the parameters and the residual, and stores the block
rebuilt from them, restored by the wasted bits (R280 to R283, `43_subframe.md` R234 to R236). -/
theorem subframeCode_lpc_reads {s : State} {c : ChannelIx} {om1 : BitVec 5} {k prec shift : Nat}
    {warm coeff : List Sample} {rice2 : Bool} {po : Nat} {parts : List Part} (hk : k < s.depthOf c)
    (ho : lpcOrder om1 ≤ s.hdr.blockSize.toNat) (hwarm : warm.length = lpcOrder om1)
    (hcoeff : coeff.length = lpcOrder om1) (hw : ∀ x ∈ warm, fitsIn (s.depthOf c - k) x)
    (hprec : 1 ≤ prec ∧ prec ≤ 15) (hshift : shift ≤ 15) (hc : ∀ x ∈ coeff, fitsIn prec x)
    (hfit : partsFit (escapeValue rice2) s.hdr.blockSize.toNat (lpcOrder om1) po parts)
    (ha : s.ahead (wastedCode k ++ lpcBodyBits (s.depthOf c - k) warm coeff prec shift rice2 po parts)) :
    subframeCode c (.lpc om1 (decide (0 < k))) s =
      .ok () (s.withSubframe c
        ⟨.lpc, BitVec.ofNat 6 (lpcOrder om1), BitVec.ofNat 6 k, BitVec.ofNat 6 (s.depthOf c), BitVec.ofNat 4 prec,
          BitVec.ofNat 4 shift, rice2, BitVec.ofNat 4 po⟩
        (shiftSamples k (reconstruct (lpcPred coeff shift) warm (residualsOf parts)))
        (wastedCode k ++ lpcBodyBits (s.depthOf c - k) warm coeff prec shift rice2 po parts).length) := by
  have hbody := lpcBody_reads (lpcOrder om1) hwarm hcoeff (lpcOrder_lt om1) hw hprec hshift hc rice2 po parts
    ((s.consume (wastedCode k).length).setResidual Residual.empty) hfit (State.ahead_append.1 ha).2
  rw [← bpsEff_eq_depthOf] at hk ha hbody ⊢
  exact codedSubframe_reads c .lpc (lpcOrder om1) k (fun width _ => lpcBody (lpcOrder om1) width) _ _ _ s hk ho ha hbody

/-- Settles O39: the code reads every field back, and the block it rebuilds is the one `Predicted` describes. -/
theorem lpcSubframeReadsBack : Obligations.LpcSubframeReadsBack := by
  rintro s c om1 o k warm coeff prec shift rice2 po parts body rfl hdone hk ho hwarm hcoeff hw hprec1 hprec15 hshift hc
    hfit rfl ha
  refine ⟨reconstruct (lpcPred coeff shift) warm (residualsOf parts),
    predicted_lpc coeff shift warm _ (hwarm.trans hcoeff.symm), length_reconstruct_residualsOf _ hwarm ho hfit, ?_⟩
  exact exec_toInstr_ok (code := .lpc om1 _) hdone
    (subframeCode_lpc_reads hk ho hwarm hcoeff hw ⟨hprec1, hprec15⟩ hshift hc hfit ha)

/-- A residual method by itself leaves what it read in the working registers, with result 0 (R298, R299). -/
theorem runResidual_coded_ok {s : State} {rice2 : Bool} {po : Nat} {parts : List Part}
    (hfit : partsFit (escapeValue rice2) s.hdr.blockSize.toNat s.residual.order.toNat po parts)
    (ha : s.ahead (partsBits (parameterBits rice2) (escapeValue rice2) po parts)) :
    runResidual (codedResidual (parameterBits rice2) (escapeValue rice2) rice2) s =
      .next (((s.consume (partsBits (parameterBits rice2) (escapeValue rice2) po parts).length).setResidual
        ⟨s.residual.order, rice2, BitVec.ofNat 4 po, residualsOf parts⟩).okWith 0) :=
  runSubframe_finish_ok (codedResidual_reads rice2 po parts s hfit ha)

/-- Settles O40: both methods are the one coded residual, and folding is undone by `residualOfFold`. -/
theorem residualReadsBack : Obligations.ResidualReadsBack := fun _ _ _ =>
  ⟨runResidual_coded_ok (rice2 := false), runResidual_coded_ok (rice2 := true),
    fun x => ⟨foldOf_lt x, residualOfFold_foldOf x⟩⟩

/-! ## A part of a subframe that rejects, whatever it leaves in the working registers -/

/-- In a block of `bs` samples, `act` rejects the bits `bits` with BAD_SUBFRAME `sub`: from every state with those bits
ahead of the cursor it has consumed them and written nothing but the working registers. -/
def RejectsInBlock {α : Type} (bs : Nat) (act : Rd α) (bits : List Bool) (sub : Byte) : Prop :=
  ∀ s : State, s.hdr.blockSize.toNat = bs → s.ahead bits →
    ∃ r : Residual, act s = .error (badSubframe sub) ((s.consume bits.length).setResidual r)

theorem Rejects.inBlock {α : Type} {act : Rd α} {bits : List Bool} {sub : Byte} (h : Rejects act bits (badSubframe sub))
    (bs : Nat) : RejectsInBlock bs act bits sub :=
  fun s _ ha => ⟨s.residual, h s ha⟩

theorem RejectsInBlock.bind {α β : Type} {bs : Nat} {x : Rd α} {f : α → Rd β} {bits : List Bool} {sub : Byte}
    (hx : RejectsInBlock bs x bits sub) : RejectsInBlock bs (x >>= f) bits sub := by
  intro s hbs ha
  obtain ⟨r, hrun⟩ := hx s hbs ha
  exact ⟨r, by rw [Rd.bind_run, hrun]⟩

/-- A step whose first part reads, and what follows rejects. -/
theorem Reads.bind_rejectsInBlock {α β : Type} {bs : Nat} {x : Rd α} {f : α → Rd β} {as bits : List Bool} {a : α}
    {sub : Byte} (hx : Reads x as a) (hf : RejectsInBlock bs (f a) bits sub) :
    RejectsInBlock bs (x >>= f) (as ++ bits) sub := by
  intro s hbs ha
  obtain ⟨has, hbits⟩ := State.ahead_append.1 ha
  obtain ⟨r, hrun⟩ := hf (s.consume as.length) hbs hbits
  exact ⟨r, by rw [Rd.bind_run, hx s has, has.consume_append]; exact hrun⟩

/-- A step whose first part reads a value that the check after it rejects. -/
theorem Reads.rejects_check {α β : Type} {x : Rd α} {as : List Bool} {a : α} {bad : α → Bool} {r : Raise}
    {f : α → Unit → Rd β} (hx : Reads x as a) (h : bad a = true) :
    Rejects (x >>= fun v => Machine.reject (bad v) r >>= f v) as r :=
  List.append_nil as ▸ hx.bind_rejects (Rejects.reject r h).bind

/-! ## What the residual and the LPC parameters are rejected for (R281, R291, R292) -/

/-- The residual of a subframe of order `o` rejects what the residual decoder rejects with `o` in its working
register. -/
theorem residualOf_rejects {bs o : Nat} {bits : List Bool} {sub : Byte}
    (h : ∀ s : State, s.hdr.blockSize.toNat = bs → s.residual.order = BitVec.ofNat 6 o → s.ahead bits →
      Machine.residual s = .error (badSubframe sub) (s.consume bits.length)) :
    RejectsInBlock bs (residualOf o) bits sub := by
  intro s hbs ha
  have hrun := h (s.setResidual { Residual.empty with order := BitVec.ofNat 6 o }) hbs rfl ha
  refine ⟨{ Residual.empty with order := BitVec.ofNat 6 o }, ?_⟩
  simp only [residualOf, Rd.bind_run, Rd.modify_run, hrun]
  rfl

/-- A reserved method, in a subframe of any order. -/
theorem residualOf_rejects_method {m : Nat} (h2 : 2 ≤ m) (h4 : m < 4) (bs o : Nat) :
    RejectsInBlock bs (residualOf o) (bitsOf 2 m) 7 :=
  residualOf_rejects fun _ _ _ ha => length_bitsOf 2 m ▸ residual_rejects_method h2 h4 ha

/-- A partition order that does not fit the block, after either method. -/
theorem residualOf_rejects_order {m po bs o : Nat} (hm : m < 2) (hpo : po < 16) (ho : o < 64)
    (hbad : bs % 2 ^ po ≠ 0 ∨ bs / 2 ^ po < o) :
    RejectsInBlock bs (residualOf o) (bitsOf 2 m ++ bitsOf 4 po) 8 := by
  refine residualOf_rejects fun s hbs horder ha => ?_
  have hregister : s.residual.order.toNat = o := by rw [horder, BitVec.toNat_ofNat, Nat.mod_eq_of_lt ho]
  rw [← hbs, ← hregister] at hbad
  exact residual_rejects_order hm hpo hbad ha

/-- Precision code 15. -/
theorem lpcParams_rejects_precision : Rejects lpcParams (bitsOf 4 15) (badSubframe 5) :=
  (reads_readBits 4 15).rejects_check rfl

/-- A negative shift, after a legal precision code. -/
theorem lpcParams_rejects_shift {p sh : Nat} (hp : p < 15) (hneg : 16 ≤ sh) (hsh : sh < 32) :
    Rejects lpcParams (bitsOf 4 p ++ bitsOf 5 sh) (badSubframe 6) := by
  have hlegal : (BitVec.ofNat 4 p == 15) = false := beq_eq_false_iff_ne.2 (by bv_omega)
  have hsign : (BitVec.ofNat 5 sh).msb = true := by
    rw [BitVec.msb_eq_decide, BitVec.toNat_ofNat, Nat.mod_eq_of_lt hsh]
    exact decide_eq_true hneg
  exact (reads_readBits 4 p).bind_rejects
    ((Reads.reject (badSubframe 5) hlegal).bind_rejects ((reads_readBits 5 sh).rejects_check hsign))

/-! ## What a body is rejected for -/

theorem fixedBody_rejects_residual {o : Fin 5} {bs w : Nat} {warm : List Sample} {bits : List Bool} {sub : Byte}
    (hwarm : warm.length = o.val) (hw : ∀ x ∈ warm, fitsIn w x) (h : RejectsInBlock bs (residualOf o.val) bits sub) :
    RejectsInBlock bs (fixedBody o w) (warm.flatMap (signedBits w) ++ bits) sub := by
  have hread := reads_warm hw
  rw [hwarm] at hread
  exact hread.bind_rejectsInBlock h.bind

theorem lpcBody_rejects_params {o w : Nat} {warm : List Sample} {bits : List Bool} {sub : Byte}
    (hwarm : warm.length = o) (hw : ∀ x ∈ warm, fitsIn w x) (h : Rejects lpcParams bits (badSubframe sub))
    (bs : Nat) :
    RejectsInBlock bs (lpcBody o w) (warm.flatMap (signedBits w) ++ bits) sub := by
  have hread := reads_warm hw
  rw [hwarm] at hread
  exact hread.bind_rejectsInBlock (h.inBlock bs).bind

theorem lpcBody_rejects_residual {o bs w p sh : Nat} {warm coeff : List Sample} {bits : List Bool} {sub : Byte}
    (hwarm : warm.length = o) (hw : ∀ x ∈ warm, fitsIn w x) (hp : p < 15) (hsh : sh < 16) (hcoeff : coeff.length = o)
    (hc : ∀ x ∈ coeff, fitsIn (p + 1) x) (h : RejectsInBlock bs (residualOf o) bits sub) :
    RejectsInBlock bs (lpcBody o w) (warm.flatMap (signedBits w) ++
      ((bitsOf 4 p ++ bitsOf 5 sh) ++ (coeff.flatMap (signedBits (p + 1)) ++ bits))) sub := by
  have hread := reads_warm hw
  have hcoeffs := reads_warm hc
  rw [hwarm] at hread
  rw [hcoeff] at hcoeffs
  have hparams : Reads lpcParams (bitsOf 4 p ++ bitsOf 5 sh) (p + 1, sh) :=
    reads_lpcParams ⟨Nat.le_add_left 1 p, hp⟩ (Nat.le_of_lt_succ hsh)
  exact hread.bind_rejectsInBlock (hparams.bind_rejectsInBlock (hcoeffs.bind_rejectsInBlock h.bind))

/-! ## What a code does then -/

/-- A subframe whose body rejects, the wasted-bits count and the order being legal. -/
theorem codedSubframe_rejects_body {s : State} {c : ChannelIx} {k o : Nat} {body : Nat → Nat → Rd Body}
    {bits : List Bool} {sub : Byte} (hk : k < s.depthOf c) (ho : o ≤ s.hdr.blockSize.toNat)
    (hbody : RejectsInBlock s.hdr.blockSize.toNat (body (s.depthOf c - k) s.hdr.blockSize.toNat) bits sub)
    (ha : s.ahead (wastedCode k ++ bits)) (kind : SfKind) :
    ∃ r : Residual, codedSubframe c kind o (decide (0 < k)) body s =
      .error (badSubframe sub) ((s.consume (wastedCode k ++ bits).length).setResidual r) := by
  obtain ⟨hwasted, hbits⟩ := State.ahead_append.1 ha
  obtain ⟨r, hrun⟩ := hbody ((s.consume (wastedCode k).length).setResidual Residual.empty) rfl hbits
  refine ⟨r, ?_⟩
  simp only [codedSubframe, Rd.bind_run, Rd.get_run, reads_wastedBits k s hwasted, bpsEff_eq_depthOf,
    decide_eq_false (Nat.not_le.2 hk), decide_eq_false (Nat.not_lt.2 ho), Rd.reject_false, Rd.modify_run, hrun,
    hwasted.consume_append]
  rfl

/-- The code of a subframe whose body rejects: `all` are its bits after the header byte, `n` of them. -/
theorem exec_toInstr_rejects_body {s : State} {c : ChannelIx} {code : SubframeCode} {kind : SfKind} {k o n : Nat}
    {body : Nat → Nat → Rd Body} {bits all : List Bool} {sub : Byte} (hdone : s.sfDone.toNat = c.val)
    (hcode : subframeCode c code = codedSubframe c kind o (decide (0 < k)) body) (hk : k < s.depthOf c)
    (ho : o ≤ s.hdr.blockSize.toNat)
    (hbody : RejectsInBlock s.hdr.blockSize.toNat (body (s.depthOf c - k) s.hdr.blockSize.toNat) bits sub)
    (ha : s.ahead all) (hall : all = wastedCode k ++ bits) (hn : all.length = n) :
    ∃ t : State, exec code.toInstr s = .next t ∧ State.losesChannel c (s.badFrameAfter n .badSubframe sub 0 0) t := by
  subst hall hn
  obtain ⟨r, hrun⟩ := codedSubframe_rejects_body hk ho hbody ha kind
  rw [exec_toInstr, runCode_eq hdone, hcode]
  exact runSubframe_rejects hrun

theorem exec_subframeLpc_rejects_body {s : State} {c : ChannelIx} {om1 : BitVec 5} {k n : Nat} {bits all : List Bool}
    {sub : Byte} (hdone : s.sfDone.toNat = c.val) (hk : k < s.depthOf c) (ho : lpcOrder om1 ≤ s.hdr.blockSize.toNat)
    (hbody : RejectsInBlock s.hdr.blockSize.toNat (lpcBody (lpcOrder om1) (s.depthOf c - k)) bits sub)
    (ha : s.ahead all) (hall : all = wastedCode k ++ bits) (hn : all.length = n) :
    ∃ t : State, exec (.subframeLpc om1 (decide (0 < k))) s = .next t ∧
      State.losesChannel c (s.badFrameAfter n .badSubframe sub 0 0) t :=
  exec_toInstr_rejects_body (code := .lpc om1 _) (body := fun width _ => lpcBody (lpcOrder om1) width) hdone rfl hk ho
    hbody ha hall hn

theorem exec_fixedInstr_rejects_body {s : State} {c : ChannelIx} {o : Fin 5} {k n : Nat} {bits all : List Bool}
    {sub : Byte} (hdone : s.sfDone.toNat = c.val) (hk : k < s.depthOf c) (ho : o.val ≤ s.hdr.blockSize.toNat)
    (hbody : RejectsInBlock s.hdr.blockSize.toNat (fixedBody o (s.depthOf c - k)) bits sub)
    (ha : s.ahead all) (hall : all = wastedCode k ++ bits) (hn : all.length = n) :
    ∃ t : State, exec (fixedInstr o (decide (0 < k))) s = .next t ∧
      State.losesChannel c (s.badFrameAfter n .badSubframe sub 0 0) t := by
  rw [fixedInstr_eq_toInstr]
  exact exec_toInstr_rejects_body (body := fun width _ => fixedBody o width) hdone rfl hk ho hbody ha hall hn

/-- A residual method by itself, for a partition order that does not fit the block. -/
theorem runResidual_rejects_order {s : State} {c : ChannelIx} {po : Nat} (hdone : s.sfDone.toNat = c.val)
    (hpo : po < 16)
    (hbad : s.hdr.blockSize.toNat % 2 ^ po ≠ 0 ∨ s.hdr.blockSize.toNat / 2 ^ po < s.residual.order.toNat)
    (ha : s.ahead (bitsOf 4 po)) (pbits esc : Nat) (rice2 : Bool) :
    ∃ t : State, runResidual (codedResidual pbits esc rice2) s = .next t ∧
      State.losesChannel c (s.badFrameAfter 4 .badSubframe 8 0 0) t := by
  rw [← nextChannel_eq hdone]
  exact runSubframe_rejects (r := s.residual) (codedResidual_rejects pbits esc rice2 hpo hbad ha)

/-- Settles O43: each field's check rejects as soon as the field is read, and what stands before it only reads. -/
theorem subframeBodyRejected : Obligations.SubframeBodyRejected := by
  intro s c hdone
  refine ⟨fun k warm head hk hw hblock hhead => ⟨fun om1 hwarm => ?lpc, fun o hwarm => ?fixed⟩,
    fun po hpo hbad ha i hi => ?method⟩
  case lpc =>
    have hrejected {n : Nat} {bits all : List Bool} {sub : Byte} :=
      exec_subframeLpc_rejects_body (n := n) (bits := bits) (all := all) (sub := sub) hdone hk
        (hwarm.symm.trans_le hblock)
    refine ⟨fun ha => ?precision, fun p sh hp hneg hsh ha => ?shift,
      fun p sh coeff params hp hsh hcoeff hc hparams =>
        ⟨fun m h2 h4 ha => ?reserved, fun m po hm hpo hbad ha => ?order⟩⟩
    case precision =>
      have hbody := lpcBody_rejects_params hwarm hw lpcParams_rejects_precision s.hdr.blockSize.toNat
      exact hrejected hbody ha (by simp [hhead]) (by simp)
    case shift =>
      have hbody := lpcBody_rejects_params hwarm hw (lpcParams_rejects_shift hp hneg hsh) s.hdr.blockSize.toNat
      exact hrejected hbody ha (by simp [hhead]) (by simp)
    case reserved =>
      have hbody := lpcBody_rejects_residual hwarm hw hp hsh hcoeff hc
        (residualOf_rejects_method h2 h4 s.hdr.blockSize.toNat _)
      exact hrejected hbody ha (by simp [hhead, hparams]) (by simp)
    case order =>
      have hbody := lpcBody_rejects_residual hwarm hw hp hsh hcoeff hc
        (residualOf_rejects_order hm hpo (lpcOrder_lt om1) hbad)
      exact hrejected hbody ha (by simp [hhead, hparams]) (by simp)
  case fixed =>
    have hrejected {n : Nat} {bits all : List Bool} {sub : Byte} :=
      exec_fixedInstr_rejects_body (n := n) (bits := bits) (all := all) (sub := sub) hdone hk (hwarm ▸ hblock)
    refine ⟨fun m h2 h4 ha => ?reserved, fun m po hm hpo hbad ha => ?order⟩
    case reserved =>
      have hbody := fixedBody_rejects_residual hwarm hw (residualOf_rejects_method h2 h4 s.hdr.blockSize.toNat _)
      exact hrejected hbody ha (by simp [hhead]) (by simp)
    case order =>
      have hbody := fixedBody_rejects_residual hwarm hw (residualOf_rejects_order hm hpo (by omega) hbad)
      exact hrejected hbody ha (by simp [hhead]) (by simp)
  case method =>
    have hrejected := runResidual_rejects_order hdone hpo hbad ha
    simp only [List.mem_cons, List.not_mem_nil, or_false] at hi
    obtain rfl | rfl := hi
    · exact hrejected 4 15 false
    · exact hrejected 5 31 true

end Sys2Proof.Machine
end

section
/-! SUPPORT. The channel decorrelator (`46_decorrelate.md` R320 to R325; O45 to O47): what undoing an assignment does
to the state, in a channel code and in `FR_DECORRELATE`, and the arithmetic of the mid-side transform. -/

namespace Sys2Proof.Machine

/-! ## Undoing an assignment (R320 to R324) -/

/-- Settles O45: each code ends with OK on the frame whose assignment it undoes. -/
theorem channelCodesTransform : Obligations.ChannelCodesTransform := by
  intro s n i a hi
  refine ⟨s.decorrelate a, ?_, decorrelate_fields a s, decorrelate_reads a s⟩
  simp only [List.mem_cons, List.not_mem_nil, or_false] at hi
  obtain ⟨rfl, rfl⟩ | ⟨rfl, rfl⟩ | ⟨rfl, rfl⟩ | ⟨rfl, rfl⟩ := hi <;> rfl

theorem decorrelated_fields (s : State) :
    s.decorrelated = { s with chbuf := s.decorrelated.chbuf, phase := .decorrelated } :=
  congrArg State.awaitFooter (decorrelate_fields s.hdr.assign s)

theorem exec_frDecorrelate {s : State} (hen : s.framesEnabled = true) (hphase : s.phase = .headerDone)
    (hdone : s.sfDone = s.hdr.channels) : exec (.frDecorrelate 0) s = .next (s.decorrelated.okWith 0) :=
  admitFrame_run (s := s) legalN_zero hen (by rw [hphase, hdone, beq_self_eq_true, beq_self_eq_true, Bool.and_true])

/-- Settles O46: the command is admitted and ends with OK on the frame whose assignment it undoes; moving on to the
footer touches no channel. -/
theorem decorrelateUndoesAssignment : Obligations.DecorrelateUndoesAssignment := by
  intro s hvalid hfatal hphase hdone
  exact ⟨s.decorrelated, exec_frDecorrelate (framesEnabled_true hvalid hfatal) hphase hdone, decorrelated_fields s,
    decorrelate_reads s.hdr.assign s⟩

/-! ## The mid-side transform as arithmetic (R324, R325)

`m + side` and `m - side` are even, because `m` takes the parity of `side`: the halves lose nothing. -/

theorem toInt_and_one (x : Sample) : (x &&& 1).toInt = x.toInt % 2 := by
  have hx := BitVec.toInt_eq_toNat_cond x
  rw [BitVec.toInt_and, show (1 : Sample).toNat = 1 from rfl, Nat.and_one_is_mod,
    Int.bmod_eq_of_le (by omega) (by omega)]
  omega

theorem toInt_sshiftRight_one (x : Sample) : (x.sshiftRight 1).toInt = x.toInt / 2 := by
  rw [BitVec.toInt_sshiftRight, Int.shiftRight_eq_div_pow]
  rfl

/-- Two samples whose sum does not wrap. -/
theorem toInt_add_of_fits {x y : Sample} (hle : -(2 ^ 63) ≤ x.toInt + y.toInt) (hlt : x.toInt + y.toInt < 2 ^ 63) :
    (x + y).toInt = x.toInt + y.toInt := by
  rw [BitVec.toInt_add, Int.bmod_eq_of_le (by omega) (by omega)]

/-- Two samples whose difference does not wrap. -/
theorem toInt_sub_of_fits {x y : Sample} (hle : -(2 ^ 63) ≤ x.toInt - y.toInt) (hlt : x.toInt - y.toInt < 2 ^ 63) :
    (x - y).toInt = x.toInt - y.toInt := by
  rw [BitVec.toInt_sub, Int.bmod_eq_of_le (by omega) (by omega)]

/-- `mid << 1` and the parity bit share no bit, so `m` is their sum. -/
theorem midDoubled_eq_add (mid side : Sample) : midDoubled mid side = mid + mid + (side &&& 1) := by
  have hdisjoint : (mid <<< 1) &&& (side &&& 1) = 0#64 := by
    apply BitVec.eq_of_getLsbD_eq
    intro i hi
    cases i with
    | zero => simp
    | succ i => simp [BitVec.getLsbD_one]
  rw [midDoubled, ← BitVec.add_eq_or_of_and_eq_zero _ _ hdisjoint]
  bv_omega

section Bounded

variable {mid side : Sample} (hmid : -(2 ^ 61) ≤ mid.toInt) (hmidLt : mid.toInt < 2 ^ 61)
  (hside : -(2 ^ 61) ≤ side.toInt) (hsideLt : side.toInt < 2 ^ 61)

include hmid hmidLt in
theorem toInt_midDoubled : (midDoubled mid side).toInt = 2 * mid.toInt + side.toInt % 2 := by
  have hdouble : (mid + mid).toInt = mid.toInt + mid.toInt := toInt_add_of_fits (by omega) (by omega)
  have hparity := toInt_and_one side
  rw [midDoubled_eq_add, toInt_add_of_fits (by omega) (by omega)]
  omega

include hmid hmidLt hside hsideLt

theorem toInt_leftOfMidSide :
    (leftOfMidSide mid side).toInt = (2 * mid.toInt + side.toInt % 2 + side.toInt) / 2 := by
  have hdoubled := toInt_midDoubled (side := side) hmid hmidLt
  rw [leftOfMidSide, toInt_sshiftRight_one, toInt_add_of_fits (by omega) (by omega), hdoubled]

theorem toInt_rightOfMidSide :
    (rightOfMidSide mid side).toInt = (2 * mid.toInt + side.toInt % 2 - side.toInt) / 2 := by
  have hdoubled := toInt_midDoubled (side := side) hmid hmidLt
  rw [rightOfMidSide, toInt_sshiftRight_one, toInt_sub_of_fits (by omega) (by omega), hdoubled]

end Bounded

theorem pairOf_midSide (mid side : Sample) :
    pairOf .midSide mid side = (leftOfMidSide mid side, rightOfMidSide mid side) := rfl

/-- Settles O47: the halves of `m + side` and `m - side` differ by `side` and sum to `m`. -/
theorem midSideRoundTrip : Obligations.MidSideRoundTrip := by
  intro mid side hmid hmidLt hside hsideLt
  have hleft := toInt_leftOfMidSide hmid hmidLt hside hsideLt
  have hright := toInt_rightOfMidSide hmid hmidLt hside hsideLt
  have hdiff : (leftOfMidSide mid side).toInt - (rightOfMidSide mid side).toInt = side.toInt := by omega
  have hsum : (leftOfMidSide mid side).toInt + (rightOfMidSide mid side).toInt = 2 * mid.toInt + side.toInt % 2 := by
    omega
  simp only [pairOf_midSide]
  refine ⟨?_, ?_, hdiff⟩
  · rw [← BitVec.toInt_inj, toInt_sub_of_fits (by omega) (by omega), hdiff]
  · rw [← BitVec.toInt_inj, toInt_sshiftRight_one, toInt_add_of_fits (by omega) (by omega), hsum]
    omega

end Sys2Proof.Machine
end

section
/-! SUPPORT. On an input that has ended the recovery loop of the composite commands ends (O54): each of its steps
consumes a bit or more, or moves the sequencer on without reading a new part of the frame. -/

namespace Sys2Proof.Machine

/-! ## What a step consumes -/

/-- `act` ends with a value only after it consumed a bit or more. -/
def Advances {α : Type} (act : Rd α) : Prop :=
  ∀ (s t : State) (a : α), s.sourceOk → act s = .ok a t → s.pos.toNat < t.pos.toNat

theorem Sound.moves_of_ok {α : Type} {code : StatusCode} {act : Rd α} {s t : State} {a : α} (h : Sound code act)
    (hx : act s = .ok a t) : Moves s t := by
  have hs := h s
  rw [hx] at hs
  exact hs

/-- What reads a bit or more keeps having read it, whatever sound step follows. -/
theorem Advances.bind {α β : Type} {code : StatusCode} {x : Rd α} {f : α → Rd β} (hx : Advances x)
    (hsound : Sound code x) (hf : ∀ a, Sound code (f a)) : Advances (x >>= f) := by
  intro s u b hs h
  obtain ⟨a, t, hxs, hft⟩ := Rd.bind_ok.1 h
  have hback := ((hf a).moves_of_ok hft).2 ((hsound.moves_of_ok hxs).sourceOk hs)
  exact (hx s t a hs hxs).trans_le hback.1

theorem Advances.after {α β : Type} {code : StatusCode} {x : Rd α} {f : α → Rd β} (hsound : Sound code x)
    (hf : ∀ a, Advances (f a)) : Advances (x >>= f) := by
  intro s u b hs h
  obtain ⟨a, t, hxs, hft⟩ := Rd.bind_ok.1 h
  have hmoves := hsound.moves_of_ok hxs
  exact (hmoves.2 hs).1.trans_lt (hf a t u b (hmoves.sourceOk hs) hft)

theorem Advances.readBits {n : Nat} (hn : 0 < n) : Advances (readBits n) := by
  intro s t v hs h
  obtain ⟨rfl, hle⟩ := readBits_pos h
  rw [pos_consume_le hs (hle hs)]
  omega

/-- A header that passes its checks has been read from the third byte of the frame on (`42_header.md` R181). -/
theorem Advances.readHeader : Advances readHeader := by
  refine .after (code := .badHeader) .get fun s => .after (.reject _ _ _ _) fun _ => ?_
  refine .bind (code := .badHeader) (.readBits (by decide)) (.readBits 8) fun b2 => ?_
  refine .bind (.reject _ _ _ _) fun _ => .bind (.reject _ _ _ _) fun _ => .bind (.readBits 8) fun b3 => ?_
  refine .bind (.reject _ _ _ _) fun _ => .bind (.reject _ _ _ _) fun _ => .bind (.reject _ _ _ _) fun _ => ?_
  refine .bind (.codedNumber _) fun _ => .bind (.blockSize _) fun _ => .bind (.sampleRate _) fun _ => ?_
  exact .bind .get fun _ => .bind (.readBits 8) fun _ => .bind (.reject _ _ _ _) fun _ =>
    .bind (.reject _ _ _ _) fun _ => .pure _

/-- A subframe that ends with OK has read its header byte (`43_subframe.md` R230). -/
theorem Advances.decodeSubframe (c : ChannelIx) : Advances (decodeSubframe c) := by
  intro s t _ hs h
  obtain ⟨x, u, hbyte, hcode⟩ := Rd.bind_ok.1 h
  have hu := (Sound.readBits (code := .badSubframe) 8).moves_of_ok hbyte
  have hdone := SubframeSound.code c (decodeSubframeByte x) u
  rw [hcode] at hdone
  obtain ⟨v, xs, info, hv, -, rfl⟩ := hdone
  exact (Advances.readBits (by decide) s u x hs hbyte).trans_le (hv.2 (hu.sourceOk hs)).1

/-! ## How far the loop is from its end -/

/-- How many steps the loop may take from a phase on without consuming a bit, besides the step that ends it. -/
def Phase.rank : Phase → Nat
  | .searching => 0
  | .synced => 1
  | .headerDone => 2
  | .decorrelated => 1

theorem Phase.rank_le (p : Phase) : p.rank ≤ 2 := by cases p <;> decide

/-- How many more steps the loop may take before the one that ends it, on an input that has ended: three for each
bit left, and those the phase allows. -/
def State.loopBound (s : State) : Nat := 3 * (8 * s.src.length - s.pos.toNat) + s.phase.rank

/-- A step that consumes a bit or more, into a phase at most two ranks up. -/
theorem StepKeeps.loopBound_lt_of_pos {codes : List StatusCode} {s t : State} {st : Status} {res : Word64}
    (k : StepKeeps codes s st res t) (hs : s.sourceOk) (hpos : s.pos.toNat < t.pos.toNat)
    (hrank : t.phase.rank < s.phase.rank + 3) : t.loopBound < s.loopBound := by
  have hle := (k.cursor hs).2
  unfold State.loopBound
  rw [k.outside.src]
  omega

/-- A step into a phase of lower rank. -/
theorem StepKeeps.loopBound_lt_of_rank {codes : List StatusCode} {s t : State} {st : Status} {res : Word64}
    (k : StepKeeps codes s st res t) (hs : s.sourceOk) (hrank : t.phase.rank < s.phase.rank) :
    t.loopBound < s.loopBound := by
  have hback := (k.cursor hs).1
  unfold State.loopBound
  rw [k.outside.src]
  omega

/-- A primitive step brings the loop nearer to its end, unless it holds or ends with END_OF_STREAM. -/
def Ended.Nearer (s : State) : Ended → Prop
  | .done st _ t => st.code ≠ .endOfStream → t.loopBound < s.loopBound
  | .hold => True

/-- The same of a step of the recovery loop. -/
def Progress.Nearer (s : State) : Progress → Prop
  | .again t => t.loopBound < s.loopBound
  | .ended st _ t => st.code ≠ .endOfStream → t.loopBound < s.loopBound
  | .hold => True

theorem findSyncStep_nearer {s : State} (hs : s.sourceOk) (hphase : s.phase = .searching) :
    (findSyncStep s).Nearer s := by
  have k := findSyncStep_keeps s
  rcases findSyncStep_cases s with ⟨-, e⟩ | ⟨-, t, -, -, e⟩ | ⟨a, t, ⟨u, y, -, rfl, -, hpos⟩, -, e⟩ <;>
    rw [e] at k ⊢
  · trivial
  · exact fun hne => absurd rfl hne
  · exact fun _ => k.loopBound_lt_of_pos hs (by have := hpos hs; show _ < u.pos.toNat; omega)
      (by rw [hphase]; show 1 < 3; decide)

theorem headerStep_nearer {s : State} (hs : s.sourceOk) (hphase : s.phase = .synced) :
    (headerStep s).Nearer s := by
  have k := headerStep_keeps s
  unfold headerStep at k ⊢
  cases e : readHeader s with
  | ok h t =>
    have hdecode : decodeHeader s = .ok (.okay, h.blockSize.setWidth 64) (t.commitHeader h) := by
      simp only [decodeHeader, Rd.bind_run, e, Rd.modify_run, Rd.pure_run]
    rw [runFrameStep_ok hdecode] at k ⊢
    exact fun _ => k.loopBound_lt_of_pos hs (Advances.readHeader s t h hs e) (by rw [hphase]; show 2 < 4; decide)
  | error r t =>
    have hdecode : decodeHeader s = .error r t := by simp only [decodeHeader, Rd.bind_run, e]
    cases r with
    | hold => rw [runFrameStep_hold hdecode]; trivial
    | endOfStream => rw [runFrameStep_endOfStream hdecode]; exact fun hne => absurd rfl hne
    | badFrame code sub x y =>
      rw [runFrameStep_badFrame hdecode] at k ⊢
      exact fun _ => k.loopBound_lt_of_rank hs (by rw [hphase]; show 0 < 1; decide)

theorem decodeSubframe_advances (c : ChannelIx) :
    PartSound (fun s t => s.sourceOk → s.pos.toNat < t.pos.toNat ∧ t.phase = s.phase) (decodeSubframe c) := by
  intro s
  have h := SubframeSound.decode c s
  cases e : decodeSubframe c s with
  | ok _ t =>
    rw [e] at h
    obtain ⟨u, xs, info, hu, -, rfl⟩ := h
    exact fun hs => ⟨Advances.decodeSubframe c s _ () hs e, hu.phase⟩
  | error r t => rw [e] at h; exact h

theorem subframeStep_nearer {s : State} (c : ChannelIx) (hs : s.sourceOk) (hphase : s.phase = .headerDone) :
    (subframeStep c s).Nearer s := by
  have k := subframeStep_keeps c s
  unfold subframeStep at k ⊢
  rcases runSubframe_cases (decodeSubframe_advances c) s with ⟨-, e⟩ | ⟨-, t, -, e⟩ | ⟨t, sub, x, y, -, e⟩ |
    ⟨t, hdone, e⟩ <;> rw [e] at k ⊢
  · trivial
  · exact fun hne => absurd rfl hne
  · exact fun _ => k.loopBound_lt_of_rank hs (by rw [hphase]; show 0 < 2; decide)
  · obtain ⟨hpos, ht⟩ := hdone hs
    exact fun _ => k.loopBound_lt_of_pos hs hpos (by rw [ht]; omega)

theorem decorrelateStep_nearer {s : State} (hs : s.sourceOk) (hphase : s.phase = .headerDone) :
    (decorrelateStep s).Nearer s :=
  fun _ => StepKeeps.loopBound_lt_of_rank (decorrelateStep_keeps s) hs (by rw [hphase]; show 1 < 2; decide)

theorem footerStep_nearer {s : State} (hs : s.sourceOk) (hphase : s.phase = .decorrelated) :
    (footerStep s).Nearer s := by
  have k := footerStep_keeps s
  have hrank : Phase.searching.rank < s.phase.rank := by rw [hphase]; decide
  rcases footerStep_cases s with ⟨-, e⟩ | ⟨-, t, -, e⟩ | ⟨t, sub, x, y, -, e⟩ | ⟨t, x, -, e⟩ | ⟨t, x, y, -, -, e⟩ <;>
    rw [e] at k ⊢
  · trivial
  · exact fun hne => absurd rfl hne
  all_goals exact fun _ => k.loopBound_lt_of_rank hs hrank

theorem Ended.Nearer.goOn {s : State} {e : Ended} {recovered : StatusCode} (h : e.Nearer s)
    (hrecovered : recovered ≠ .endOfStream) : (e.goOn recovered).Nearer s := by
  cases e with
  | hold => trivial
  | done st res t =>
    unfold Ended.goOn
    dsimp only
    split
    · next hgo => exact h (by rcases hgo with hc | hc <;> rw [hc]; exacts [by decide, hrecovered])
    · exact h

theorem Ended.Nearer.last {s : State} {e : Ended} (h : e.Nearer s) : e.last.Nearer s := by
  cases e with
  | hold => trivial
  | done st res t =>
    unfold Ended.last
    dsimp only
    split
    · next hc => exact h (by rw [hc]; decide)
    · exact h

/-- Every step of the recovery loop, whichever primitive step the sequencer selects (R351). -/
theorem nextFrameStep_nearer {s : State} (hs : s.sourceOk) : (nextFrameStep s).Nearer s := by
  unfold nextFrameStep
  cases hphase : s.phase with
  | searching => exact (findSyncStep_nearer hs hphase).goOn (by decide)
  | synced => exact (headerStep_nearer hs hphase).goOn (by decide)
  | headerDone =>
    dsimp only
    split
    · exact (subframeStep_nearer _ hs hphase).goOn (by decide)
    · exact (decorrelateStep_nearer hs hphase).goOn (by decide)
  | decorrelated => exact (footerStep_nearer hs hphase).last

/-! ## The composite commands -/

/-- A composite command is in progress, or waits to run. -/
def State.inLoop (s : State) : Prop :=
  s.slot = .readingNext ∨ (∃ n : Nat, s.slot = .decoding n) ∨ s.slot = .pending (.command 0x3000) ∨
    s.slot = .pending (.command 0x3100)

/-- A step of a composite command ends it, or leaves it in progress and nearer to its end. -/
def LoopAdvances (s t : State) : Prop := t.slot = .idle ∨ t.inLoop ∧ t.loopBound < s.loopBound

theorem readNextFrameStep_advances {s t : State} (hs : s.sourceOk) (hended : s.srcEnded = true)
    (hx : readNextFrameStep s = .next t) : LoopAdvances s t := by
  have hnearer := nextFrameStep_nearer hs
  have hkeeps := nextFrameStep_keeps s
  unfold readNextFrameStep at hx
  cases e : nextFrameStep s with
  | hold => rw [e] at hkeeps; exact absurd (hended.symm.trans hkeeps) (by decide)
  | again u => rw [e] at hx hnearer; cases hx; exact .inr ⟨.inl rfl, hnearer⟩
  | ended st res u => rw [e] at hx; cases hx; exact .inl rfl

theorem decodeStep_advances {n : Nat} {s t : State} (hs : s.sourceOk) (hended : s.srcEnded = true)
    (hx : decodeStep n s = .next t) : LoopAdvances s t := by
  have hnearer := nextFrameStep_nearer hs
  have hkeeps := nextFrameStep_keeps s
  unfold decodeStep at hx
  cases e : nextFrameStep s with
  | hold => rw [e] at hkeeps; exact absurd (hended.symm.trans hkeeps) (by decide)
  | again u => rw [e] at hx hnearer; cases hx; exact .inr ⟨.inr (.inl ⟨n, rfl⟩), hnearer⟩
  | ended st res u =>
    rw [e] at hx hnearer
    dsimp only at hx
    split at hx
    · cases hx; exact .inl rfl
    · next hcode =>
      split at hx
      · cases hx; exact .inl rfl
      · cases hx; exact .inr ⟨.inr (.inl ⟨n + 1, rfl⟩), hnearer hcode⟩

/-- A command that is refused ends at once. -/
theorem admitFrame_advances {arg seq : Bool} {s t : State} {run : Out} (hx : admitFrame arg seq s run = .next t)
    (hrun : run = .next t → LoopAdvances s t) : LoopAdvances s t := by
  rcases admitFrame_cases hx with ⟨-, rfl⟩ | ⟨-, rfl⟩ | ⟨-, rfl⟩ | ⟨-, -, -, h⟩
  · exact .inl rfl
  · exact .inl rfl
  · exact .inl rfl
  · exact hrun h

theorem exec_readNextFrame_advances {s t : State} (hs : s.sourceOk) (hended : s.srcEnded = true)
    (hx : exec (.readNextFrame 0) s = .next t) : LoopAdvances s t := by
  rcases execReadNextFrame_cases hx with h | h
  · exact readNextFrameStep_advances hs hended h
  · exact admitFrame_advances h (readNextFrameStep_advances hs hended)

theorem exec_decode_advances {s t : State} (hs : s.sourceOk) (hended : s.srcEnded = true)
    (hx : exec (.decode 0) s = .next t) : LoopAdvances s t := by
  rcases execDecode_cases hx with ⟨n, -, h⟩ | h
  · exact decodeStep_advances hs hended h
  · exact admitFrame_advances h (decodeStep_advances hs hended)

/-- The block's turn runs the composite command that is in progress or waits. -/
theorem step_inLoop {s : State} (hhost : s.host = []) (hloop : s.inLoop) :
    step s = exec (.readNextFrame 0) s ∨ step s = exec (.decode 0) s := by
  rw [step_of_no_move hhost]
  rcases hloop with hslot | ⟨n, hslot⟩ | hslot | hslot
  · exact .inl (blockTurn_readingNext hslot)
  · exact .inr (blockTurn_decoding hslot)
  · exact .inl (blockTurn_pending hslot rfl)
  · exact .inr (blockTurn_pending hslot rfl)

/-- What holds between two steps of the loop on an input that has ended. -/
structure Looping (s : State) : Prop where
  inv : s.Inv
  host : s.host = []
  ended : s.srcEnded = true
  inLoop : s.inLoop

theorem Looping.step {s : State} (h : Looping s) :
    ∃ t : State, Machine.step s = .next t ∧ t.Inv ∧ (t.slot = .idle ∨ Looping t ∧ t.loopBound < s.loopBound) := by
  have hs := (inv_iff.1 h.inv).1.source
  have run : ∀ i : Instr, i ≠ .softReset 0 → Machine.step s = exec i s →
      (∀ t, exec i s = .next t → LoopAdvances s t) →
      ∃ t : State, Machine.step s = .next t ∧ t.Inv ∧
        (t.slot = .idle ∨ Looping t ∧ t.loopBound < s.loopBound) := by
    intro i hi hstep hadvances
    obtain ⟨t, hx⟩ := exec_answers i s
    have ht : t.Inv := everyStepKeepsTheInvariant s t h.inv (hstep.trans hx)
    obtain ⟨-, -, hended, -, -, -, hhost, -⟩ := noInstructionWritesTheInput i s t hi hx
    refine ⟨t, hstep.trans hx, ht, (hadvances t hx).imp_right fun ⟨hloop, hlt⟩ => ⟨?_, hlt⟩⟩
    exact ⟨ht, hhost.trans h.host, hended.trans h.ended, hloop⟩
  rcases step_inLoop h.host h.inLoop with hstep | hstep
  · exact run (.readNextFrame 0) nofun hstep fun _ => exec_readNextFrame_advances hs h.ended
  · exact run (.decode 0) nofun hstep fun _ => exec_decode_advances hs h.ended

/-- The loop ends within its bound and the one step more that ends it. -/
theorem Looping.ends {s : State} (h : Looping s) :
    ∃ (n : Nat) (t : State), n ≤ s.loopBound + 1 ∧ s.after n = some t ∧ t.slot = .idle ∧ t.Inv := by
  induction hbound : s.loopBound using Nat.strong_induction_on generalizing s with
  | _ bound ih =>
    obtain ⟨t, hstep, ht, hidle | ⟨hloop, hlt⟩⟩ := h.step
    · exact ⟨1, t, by omega, by simp only [State.after, hstep], hidle, ht⟩
    · obtain ⟨n, u, hn, hafter, hu⟩ := ih t.loopBound (hbound ▸ hlt) hloop rfl
      exact ⟨n + 1, u, by omega, by simp only [State.after, hstep, hafter], hu⟩

/-- Settles O54: `Looping.ends`, and no phase has a rank above two. -/
theorem recoveryLoopEnds : Obligations.RecoveryLoopEnds := by
  intro s hinv hhost hended hloop
  obtain ⟨n, t, hn, hrest⟩ := Looping.ends ⟨hinv, hhost, hended, hloop⟩
  have hrank := s.phase.rank_le
  exact ⟨n, t, by unfold State.loopBound at hn; omega, hrest⟩

end Sys2Proof.Machine
end

section
/-! SUPPORT. Reset (`70_reset_and_hazards.md` R420, R421; O9 to O11) and the control commands (`47_frame.md` R370 to
R374; O13, O14, O16, O17): which register each address names, and what each command answers. -/

namespace Sys2Proof.Machine

/-! ## Reset -/

theorem sfInfoZero_get (c : ChannelIx) : sfInfoZero[c] = SfInfo.zero := by fin_cases c <;> rfl

/-- Settles O9: every element is read off the reset state; the eight `SF_INFO` are the zero one. -/
theorem resetValues : Obligations.ResetValues := by
  have hinfo : ∀ c : ChannelIx, State.reset.sfInfo[c].bits = 0 := fun c =>
    (congrArg SfInfo.bits (sfInfoZero_get c)).trans (by decide)
  exact ⟨rfl, rfl, rfl, rfl, rfl, rfl, rfl, rfl, rfl, rfl, rfl, hinfo, rfl, rfl, rfl, rfl, rfl, rfl, rfl, rfl, rfl,
    rfl, rfl, rfl, by decide⟩

theorem exec_softReset (s : State) : exec (.softReset 0) s = .next s.toReset := admitPlain_run (s := s) legalN_zero

/-- Settles O10: both are `State.toReset`. -/
theorem softResetRestoresReset : Obligations.SoftResetRestoresReset := by
  rintro s _ rfl
  refine ⟨s.toReset, exec_softReset s, ?_, rfl⟩
  rw [step_move, hostMove_powerReset, exec_softReset]

/-- The reset state meets the invariant but for its slot (R420). -/
theorem core_reset : Core State.reset where
  source := ⟨rfl, Nat.two_pow_pos 61, Nat.zero_le _⟩
  params := by decide
  accepted := fun h => absurd h Bool.false_ne_true
  enabled := fun h => absurd rfl h
  waiting := fun _ => rfl
  framed := fun h => by rcases h with h | h <;> cases h
  complete := fun h => by cases h
  delivered := fun h => absurd h Bool.false_ne_true
  filled := fun c hc => absurd hc (Nat.not_lt_zero _)
  bounded := fun c => by
    show ((chbufUnspecified 0)[c]).samples.length ≤ _
    rw [chbufUnspecified_samples]
    exact Nat.zero_le _
  residual := rfl

/-- Settles O11: the block is idle at reset. -/
theorem invariantHoldsAtReset : Obligations.InvariantHoldsAtReset := core_reset.inv_of_idle rfl

/-! ## `NOP` (R374) -/

theorem exec_nop (s : State) : exec (.nop 0) s = .next (s.okWith 0) := admitPlain_run (s := s) legalN_zero

/-- Settles O13: a zero argument is admitted, any other is not legal. -/
theorem nopDoesNothing : Obligations.NopDoesNothing := fun s a =>
  ⟨decode_of_encode (i := .nop a) rfl rfl, exec_nop s, fun ha => admitPlain_illegal (s := s) (legalN_false ha)⟩

/-! ## `CSR_READ` (R370, `10_state.md` R44) -/

/-- The addresses of the CSR map, in its order (`10_state.md` R44). -/
def csrAddresses : List Byte :=
  [0x00, 0x01, 0x02, 0x03, 0x04, 0x05, 0x06, 0x07, 0x08, 0x09, 0x10, 0x11, 0x12, 0x13, 0x14, 0x15, 0x16, 0x17, 0x18,
    0x20, 0x21, 0x22, 0x23, 0x24, 0x25, 0x26, 0x27, 0x28, 0x29, 0x30, 0x31, 0x32, 0x33, 0x34, 0x35, 0x36, 0x37]

theorem csrMap_addresses (s : State) : (csrMap s).map Prod.fst = csrAddresses := rfl

theorem setWidth_ofBool (b : Bool) : (BitVec.ofBool b).setWidth 64 = if b then (1 : Word64) else 0 := by
  cases b <;> rfl

/-- Each entry of the map is what its address reads as. -/
theorem readCsr_of_mem {s : State} {a : Byte} {v : Word64} (h : (a, v) ∈ csrMap s) : readCsr s a = some v := by
  have hall : (csrMap s).map (fun p => readCsr s p.1) = (csrMap s).map fun p => some p.2 := by
    simp only [csrMap, ← setWidth_ofBool]
    rfl
  exact List.map_inj_left.1 hall _ h

theorem readCsr_none {s : State} {a : Byte} (h : a ∉ (csrMap s).map Prod.fst) : readCsr s a = none := by
  rw [csrMap_addresses] at h
  have ha : a = BitVec.ofNat 8 a.toNat := by rw [BitVec.ofNat_toNat, BitVec.setWidth_eq]
  unfold readCsr
  split
  case h_38 => rfl
  all_goals
    next hk =>
      rw [hk] at ha
      subst ha
      exact absurd (by decide) h

theorem exec_csrRead {s : State} {a : Byte} {v : Word64} (h : readCsr s a = some v) :
    exec (.csrRead a) s = .next (s.okWith v) := by
  change execCsrRead a s = _
  rw [execCsrRead, h]
  rfl

theorem exec_csrRead_reserved {s : State} {a : Byte} (h : a ∉ (csrMap s).map Prod.fst) :
    exec (.csrRead a) s = .next (s.errorWith .illegalCmd 4) := by
  change execCsrRead a s = _
  rw [execCsrRead, readCsr_none h]
  exact illegal_eq 4 s

/-- Settles O14: an entry of the map is what its address reads as, and no other address reads. -/
theorem csrReadReturnsRegister : Obligations.CsrReadReturnsRegister := fun _ a =>
  ⟨decode_of_encode (i := .csrRead a) rfl rfl, fun _ h => exec_csrRead (readCsr_of_mem h), exec_csrRead_reserved⟩

/-! ## `CSR_WRITE` (R371, `10_state.md` R39, R40) -/

theorem writeSp_of_mem {sp t : StreamParams} {a : Byte} {v : Word64} (h : (a, t) ∈ spWrites sp v) :
    writeSp sp a v = some t := by
  have hall : (spWrites sp v).map (fun p => writeSp sp p.1 v) = (spWrites sp v).map fun p => some p.2 := rfl
  exact List.map_inj_left.1 hall _ h

theorem writeSp_none {sp : StreamParams} {a : Byte} {v : Word64} (h : a.toNat < 0x10 ∨ 0x17 < a.toNat) :
    writeSp sp a v = none := by
  unfold writeSp
  split
  case h_9 => rfl
  all_goals omega

theorem writeSp_isSome {sp : StreamParams} {a : Byte} {v : Word64} (hlow : 0x10 ≤ a.toNat)
    (hhigh : a.toNat ≤ 0x17) : ∃ t, writeSp sp a v = some t := by
  unfold writeSp
  split
  case h_9 => grind
  all_goals exact ⟨_, rfl⟩

theorem exec_csrWrite_parameter {s : State} {a : Byte} {sp : StreamParams} (h : writeSp s.sp a s.dataIn = some sp) :
    exec (.csrWrite a) s =
      if s.spValid then .next (s.errorWith .illegalCmd 5) else .next (State.okWith 0 { s with sp := sp }) := by
  change execCsrWrite a s = _
  rw [execCsrWrite, h, ← illegal_eq]
  rfl

theorem exec_csrWrite_spValid (s : State) : exec (.csrWrite 0x18) s = writeSpValid s := by
  change execCsrWrite 0x18 s = _
  rw [execCsrWrite, writeSp_none (.inr (by decide))]
  rfl

theorem exec_csrWrite_illegal {s : State} {a : Byte} (h : a.toNat < 0x10 ∨ 0x18 < a.toNat) :
    exec (.csrWrite a) s = .next (s.errorWith .illegalCmd 4) := by
  have hne : a ≠ addrSpValid := by rintro rfl; revert h; decide
  change execCsrWrite a s = _
  rw [execCsrWrite, writeSp_none (by omega), ← illegal_eq]
  exact if_neg hne

/-- Accepted parameters are locked (`10_state.md` R39). -/
theorem exec_csrWrite_locked {s : State} {a : Byte} (hlow : 0x10 ≤ a.toNat) (hhigh : a.toNat ≤ 0x18)
    (hv : s.spValid = true) : exec (.csrWrite a) s = .next (s.errorWith .illegalCmd 5) := by
  rcases Nat.lt_or_ge 0x17 a.toNat with h | h
  · obtain rfl : a = 0x18 := BitVec.eq_of_toNat_eq (show a.toNat = 0x18 by omega)
    rw [exec_csrWrite_spValid, writeSpValid, if_pos hv, illegal_eq]
  · obtain ⟨sp, hsp⟩ := writeSp_isSome hlow h
    rw [exec_csrWrite_parameter hsp, if_pos hv]

theorem exec_csrWrite_badValue {s : State} (hv : s.spValid = false) (hdata : s.dataIn ≠ 1) :
    exec (.csrWrite 0x18) s = .next (s.errorWith .illegalCmd 2) := by
  rw [exec_csrWrite_spValid, writeSpValid, if_neg (Bool.eq_false_iff.1 hv), if_pos hdata, illegal_eq]

theorem acceptable_iff {bufDepth : Nat} {sp : StreamParams} :
    sp.acceptable bufDepth = true ↔ parametersAccepted bufDepth sp := by
  simp only [StreamParams.acceptable, parametersAccepted, Bool.and_eq_true, decide_eq_true_eq, and_assoc]

/-- A write of 1 to `SP_VALID` validates the parameters (`10_state.md` R40). -/
theorem exec_csrWrite_validate {s : State} (hv : s.spValid = false) (hdata : s.dataIn = 1) :
    exec (.csrWrite 0x18) s =
      if s.sp.acceptable s.params.bufDepth then .next (State.okWith 0 { s with spValid := true })
      else .next (s.errorWith .structural 2) := by
  rw [exec_csrWrite_spValid, writeSpValid, if_neg (Bool.eq_false_iff.1 hv), if_neg (not_not_intro hdata),
    endCommand_error _ .structural 2 (by decide)]
  rfl

/-- Settles O16: one lemma for each outcome of the write. -/
theorem csrWriteRules : Obligations.CsrWriteRules := by
  intro s
  refine ⟨fun a => decode_of_encode (i := .csrWrite a) rfl rfl, fun a sp hmem hv => ?parameter,
    fun a => exec_csrWrite_locked, exec_csrWrite_badValue, fun hv hdata hacc => ?accepted,
    fun hv hdata hacc => ?rejected, fun a => exec_csrWrite_illegal⟩
  case parameter => rw [exec_csrWrite_parameter (writeSp_of_mem hmem), if_neg (Bool.eq_false_iff.1 hv)]
  case accepted => rw [exec_csrWrite_validate hv hdata, if_pos (acceptable_iff.2 hacc)]
  case rejected => rw [exec_csrWrite_validate hv hdata, if_neg (fun h => hacc (acceptable_iff.1 h))]

/-! ## `BUF_READ` (R373) -/

theorem exec_bufRead_channel {s : State} {c : Byte} (h : 7 < c.toNat) :
    exec (.bufRead c) s = .next (s.errorWith .illegalCmd 2) :=
  admitPlain_illegal (s := s) (legalC_false h)

theorem exec_bufRead_invalid {s : State} {c : Byte} (hc : c.toNat ≤ 7) (hv : s.bufValid = false) :
    exec (.bufRead c) s = .next (s.errorWith .illegalCmd 3) := by
  refine (admitPlain_run (s := s) (legalC_true hc)).trans ?_
  rw [hv, ← illegal_eq]
  rfl

theorem channelOf_eq {c : Byte} {d : ChannelIx} (h : c.toNat = d.val) : channelOf c = d :=
  Fin.ext (by simp only [channelOf, h]; omega)

theorem exec_bufRead {s : State} {c : Byte} {d : ChannelIx} (hc : c.toNat = d.val) (hv : s.bufValid = true) :
    exec (.bufRead c) s =
      if s.hdr.channels.toNat ≤ d.val ∨ s.hdr.blockSize.toNat ≤ s.dataIn.toNat
      then .next (s.errorWith .illegalCmd 6) else .next (s.okWith (s.chbuf[d].read s.dataIn.toNat)) := by
  obtain rfl := channelOf_eq hc
  refine (admitPlain_run (s := s) (legalC_true (by omega))).trans ?_
  rw [hv, hc, ← illegal_eq]
  rfl

theorem read_of_getElem? {ch : Channel} {i : Nat} {v : Sample} (h : ch.samples[i]? = some v) : ch.read i = v := by
  rw [Channel.read, h]

/-- Settles O17: the channel, the frame and the element are checked in that order. -/
theorem bufReadReturnsSample : Obligations.BufReadReturnsSample := by
  intro s c
  refine ⟨decode_of_encode (i := .bufRead c) rfl rfl, exec_bufRead_channel, fun d hc =>
    ⟨exec_bufRead_invalid (by omega), fun hv => ⟨fun hout => ?outside, fun hd hi => ?inside⟩⟩⟩
  case outside => rw [exec_bufRead hc hv, if_pos hout]
  case inside =>
    have hread : exec (.bufRead c) s = .next (s.okWith (s.chbuf[d].read s.dataIn.toNat)) := by
      rw [exec_bufRead hc hv, if_neg (by omega)]
    exact ⟨hread, fun v h => by rw [hread, read_of_getElem? h]⟩

/-! ## The checks before a command starts (`60_exceptions.md` R392) -/

section
variable {s : State} {w : CodeWord}

theorem exec_readNextFrame_pending (hslot : s.slot = .pending w) (a : Byte) :
    exec (.readNextFrame a) s = admitFrame (legalN a) (s.phase == .searching) s (readNextFrameStep s) := by
  change execReadNextFrame a s = _
  rw [execReadNextFrame, hslot]

theorem exec_decode_pending (hslot : s.slot = .pending w) (a : Byte) :
    exec (.decode a) s = admitFrame (legalN a) (s.phase == .searching) s (decodeStep 0 s) := by
  change execDecode a s = _
  rw [execDecode, hslot]

/-- Check (2) for the commands of format N. -/
theorem exec_illegalN (hslot : s.slot = .pending w) {a : Byte} (ha : a ≠ 0) :
    ∀ i ∈ [Instr.nop a, .softReset a, .brReadUnary a, .brIsAligned a, .brAlign a, .brCrc16Reset a,
        .brCrc16Read a, .brCrc8Reset a, .brCrc8Read a, .frFindSync a, .frDecodeHeader a, .frDecorrelate a,
        .frCheckFooter a, .readNextFrame a, .decode a],
      exec i s = .next (s.errorWith .illegalCmd 2) := by
  have hlegal := legalN_false ha
  have plain : ∀ run, admitPlain (legalN a) s run = .next (s.errorWith .illegalCmd 2) :=
    fun _ => admitPlain_illegal hlegal
  have frame : ∀ seq run, admitFrame (legalN a) seq s run = .next (s.errorWith .illegalCmd 2) :=
    fun _ _ => admitFrame_illegal hlegal
  simp only [List.forall_mem_cons]
  exact ⟨plain _, plain _, plain _, plain _, plain _, plain _, plain _, plain _, plain _, frame _ _, frame _ _,
    frame _ _, frame _ _, (exec_readNextFrame_pending hslot a).trans (frame _ _),
    (exec_decode_pending hslot a).trans (frame _ _), nofun⟩

/-- Check (3), whatever the phase (`60_exceptions.md` R387). -/
theorem exec_structural (hslot : s.slot = .pending w) (h : s.spValid = false ∨ s.fatal = true) :
    (∀ i ∈ [Instr.frFindSync 0, .frDecodeHeader 0, .frDecorrelate 0, .frCheckFooter 0, .readNextFrame 0, .decode 0],
      exec i s = .next (State.errorWith .structural 1 { s with fatal := true })) ∧
    (∀ c : Byte, c.toNat ≤ 7 →
      exec (.frDecodeSubframe c) s = .next (State.errorWith .structural 1 { s with fatal := true })) := by
  have refused : ∀ {arg : Bool} (seq : Bool) (run : Out), arg = true →
      admitFrame arg seq s run = .next (State.errorWith .structural 1 { s with fatal := true }) :=
    fun _ _ harg => admitFrame_structural harg (framesEnabled_false h)
  refine ⟨?_, fun c hc => refused _ _ (legalC_true hc)⟩
  simp only [List.forall_mem_cons]
  exact ⟨refused _ _ rfl, refused _ _ rfl, refused _ _ rfl, refused _ _ rfl,
    (exec_readNextFrame_pending hslot 0).trans (refused _ _ rfl),
    (exec_decode_pending hslot 0).trans (refused _ _ rfl), nofun⟩

/-- Check (4), for a command that the phase or the channel count does not allow. -/
theorem exec_outOfSequence (hslot : s.slot = .pending w) (hen : s.framesEnabled = true) :
    (s.phase ≠ .searching → ∀ i ∈ [Instr.frFindSync 0, .readNextFrame 0, .decode 0],
      exec i s = .next (s.errorWith .illegalCmd 3)) ∧
    (s.phase ≠ .synced → exec (.frDecodeHeader 0) s = .next (s.errorWith .illegalCmd 3)) ∧
    (∀ c : Byte, c.toNat ≤ 7 →
      s.phase ≠ .headerDone ∨ c.toNat ≠ s.sfDone.toNat ∨ s.hdr.channels.toNat ≤ c.toNat →
      exec (.frDecodeSubframe c) s = .next (s.errorWith .illegalCmd 3)) ∧
    (s.phase ≠ .headerDone ∨ s.sfDone ≠ s.hdr.channels →
      exec (.frDecorrelate 0) s = .next (s.errorWith .illegalCmd 3)) ∧
    (s.phase ≠ .decorrelated → exec (.frCheckFooter 0) s = .next (s.errorWith .illegalCmd 3)) := by
  have refused : ∀ {arg seq : Bool} (run : Out), arg = true → seq = false →
      admitFrame arg seq s run = .next (s.errorWith .illegalCmd 3) :=
    fun _ harg hseq => admitFrame_sequence harg hen hseq
  refine ⟨fun hp => ?search, fun hp => refused _ rfl (beq_false_of_ne hp), fun c hc h => ?subframe,
    fun h => ?decorrelate, fun hp => refused _ rfl (beq_false_of_ne hp)⟩
  case search =>
    have hseq := beq_false_of_ne hp
    simp only [List.forall_mem_cons]
    exact ⟨refused _ rfl hseq, (exec_readNextFrame_pending hslot 0).trans (refused _ rfl hseq),
      (exec_decode_pending hslot 0).trans (refused _ rfl hseq), nofun⟩
  case subframe =>
    refine refused _ (legalC_true hc) ?_
    rw [Bool.and_assoc, Bool.and_eq_false_iff, Bool.and_eq_false_iff, beq_eq_false_iff_ne, decide_eq_false_iff_not,
      decide_eq_false_iff_not, Nat.not_lt]
    exact h
  case decorrelate =>
    refine refused _ rfl ?_
    rw [Bool.and_eq_false_iff, beq_eq_false_iff_ne, beq_eq_false_iff_ne]
    exact h

end

/-- Settles O18: one lemma for each check, in their order; the CSR commands and `BUF_READ` check as above. -/
theorem admissionChecksInOrder : Obligations.AdmissionChecksInOrder := by
  intro s w hslot
  refine ⟨fun op arg => illegal_eq 1 s, fun a => exec_illegalN hslot, fun n hn => ?countArgument,
    fun c hc => ?channelArgument, exec_structural hslot,
    fun hv hf => exec_outOfSequence hslot (framesEnabled_true hv hf), fun c => exec_bufRead_invalid,
    fun a => exec_csrRead_reserved, fun a => ⟨exec_csrWrite_illegal, exec_csrWrite_locked, ?value⟩⟩
  case countArgument =>
    have refused : ∀ run, admitPlain (legalW n) s run = .next (s.errorWith .illegalCmd 2) :=
      fun _ => admitPlain_illegal (legalW_false hn)
    simp only [List.forall_mem_cons]
    exact ⟨refused _, refused _, refused _, nofun⟩
  case channelArgument =>
    simp only [List.forall_mem_cons]
    exact ⟨exec_bufRead_channel hc, admitFrame_illegal (s := s) (legalC_false hc), nofun⟩
  case value =>
    rintro rfl
    exact exec_csrWrite_badValue

end Sys2Proof.Machine
end

section
/-! SUPPORT. Both CRCs keep apart what differs (`40_bitreader.md` R140, R141; O27): a step of either is injective,
because its polynomial is odd, so the bit shifted out at the top stands at the bottom. -/

namespace Sys2Proof.Machine

/-- A step of a CRC register, which shifts and adds the polynomial when a one is shifted out, loses nothing. -/
theorem crcStep_injective {n : Nat} (poly : BitVec (n + 1)) (hodd : poly.getLsbD 0 = true) :
    Function.Injective fun c : BitVec (n + 1) => if c.getLsbD n then (c <<< 1) ^^^ poly else c <<< 1 := by
  have hbottom : ∀ c : BitVec (n + 1),
      (if c.getLsbD n then (c <<< 1) ^^^ poly else c <<< 1).getLsbD 0 = c.getLsbD n := by
    intro c
    cases hc : c.getLsbD n <;> simp [hodd]
  intro a b h
  dsimp only at h
  have htop : a.getLsbD n = b.getLsbD n := by rw [← hbottom a, ← hbottom b, h]
  have hshift : a <<< 1 = b <<< 1 := by
    rw [htop] at h
    split at h
    · exact (BitVec.xor_left_inj _).1 h
    · exact h
  apply BitVec.eq_of_getElem_eq
  intro i hi
  rcases Nat.lt_or_ge i n with hlt | hge
  · have hbit := congrArg (·.getLsbD (i + 1)) hshift
    simpa [hlt] using hbit
  · obtain rfl : i = n := Nat.le_antisymm (Nat.le_of_lt_succ hi) hge
    simpa using htop

theorem crc8Shifts_injective (n : Nat) : Function.Injective (crc8Shifts · n) := by
  induction n with
  | zero => exact fun _ _ h => h
  | succ n ih => exact ih.comp (crcStep_injective (n := 7) 0x07#8 (by decide))

theorem crc16Shifts_injective (n : Nat) : Function.Injective (crc16Shifts · n) := by
  induction n with
  | zero => exact fun _ _ h => h
  | succ n ih => exact ih.comp (crcStep_injective (n := 15) 0x8005#16 (by decide))

/-- Two updates agree only when the accumulators and the bytes differ in the same bits. -/
theorem crc8Update_inj {c d x y : Byte} : crc8Update c x = crc8Update d y ↔ c ^^^ x = d ^^^ y :=
  (crc8Shifts_injective 8).eq_iff

theorem crc16Update_inj {c d : Word16} {x y : Byte} :
    crc16Update c x = crc16Update d y ↔ c ^^^ (x ++ 0#8) = d ^^^ (y ++ 0#8) :=
  (crc16Shifts_injective 8).eq_iff

/-- Accumulators that differ still differ after the same bytes. -/
theorem foldl_injective {α β : Type} {f : β → α → β} (hf : ∀ a, Function.Injective (f · a)) (as : List α) :
    Function.Injective (as.foldl f) := by
  induction as with
  | nil => exact fun _ _ h => h
  | cons a as ih => exact ih.comp (hf a)

/-- Two sequences that differ in one element leave different accumulators. -/
theorem foldl_ne_of_one_changed {α β : Type} {f : β → α → β} (hleft : ∀ a, Function.Injective (f · a))
    (hright : ∀ c, Function.Injective (f c)) {x y : α} (hxy : x ≠ y) (before after : List α) (c : β) :
    (before ++ x :: after).foldl f c ≠ (before ++ y :: after).foldl f c := by
  simp only [List.foldl_append, List.foldl_cons]
  exact (foldl_injective hleft after).ne ((hright _).ne hxy)

/-- Settles O27: both updates are injective in the accumulator and in the byte. -/
theorem crcDetectsOneChangedByte : Obligations.CrcDetectsOneChangedByte := by
  intro before after x y hxy
  refine ⟨foldl_ne_of_one_changed (fun b c d h => ?left8) (fun c b d h => ?right8) hxy before after,
    foldl_ne_of_one_changed (fun b c d h => ?left16) (fun c b d h => ?right16) hxy before after⟩
  case left8 => exact (BitVec.xor_left_inj _).1 (crc8Update_inj.1 h)
  case right8 => exact (BitVec.xor_right_inj _).1 (crc8Update_inj.1 h)
  case left16 => exact (BitVec.xor_left_inj _).1 (crc16Update_inj.1 h)
  case right16 =>
    have hpad := (BitVec.xor_right_inj _).1 (crc16Update_inj.1 h)
    rw [← opcodeOf_append b 0#8, hpad, opcodeOf_append]

end Sys2Proof.Machine
end

section
/-! SUPPORT. The footer check on given bits (`47_frame.md` R340 to R343; O48 to O50): what it reads, and how
`FR_CHECK_FOOTER`, `READ_NEXT_FRAME` and `DECODE` answer. -/

namespace Sys2Proof.Machine

/-! ## How the commands run the footer check -/

theorem exec_frCheckFooter {s : State} (hen : s.framesEnabled = true) (hphase : s.phase = .decorrelated) :
    exec (.frCheckFooter 0) s = (footerStep s).finish s :=
  admitFrame_run (s := s) legalN_zero hen (beq_iff_eq.2 hphase)

theorem exec_readNextFrame_inside {s : State} (hslot : s.slot = .readingNext) :
    exec (.readNextFrame 0) s = readNextFrameStep s := by
  change execReadNextFrame 0 s = _
  rw [execReadNextFrame, hslot]

theorem exec_decode_inside {s : State} {n : Nat} (hslot : s.slot = .decoding n) :
    exec (.decode 0) s = decodeStep n s := by
  change execDecode 0 s = _
  rw [execDecode, hslot]

theorem nextFrameStep_footer {s : State} (hphase : s.phase = .decorrelated) :
    nextFrameStep s = (footerStep s).last := by
  rw [nextFrameStep, hphase]

/-! ## What the footer check does once the footer is read -/

theorem checkFooter_match {s t : State} {x : Word16} (h : readFooter s = .ok (x, x) t) :
    checkFooter s = .ok (.okay, t.hdr.blockSize.setWidth 64)
      ((t.withFooter x x).withDelivery true t.samplesOfFrame) := by
  simp only [checkFooter, Rd.bind_run, h, Rd.modify_run, Rd.get_run, Rd.pure_run, State.closeFrame, if_true,
    deliver_eq]
  rfl

theorem checkFooter_mismatch {s t : State} {x y : Word16} (h : readFooter s = .ok (x, y) t) (hne : x ≠ y) :
    checkFooter s = .ok (⟨.crcMismatch, 0⟩, 0) (((t.withFooter x y).crcMismatch x y).deliver false) := by
  simp only [checkFooter, Rd.bind_run, h, Rd.modify_run, Rd.get_run, Rd.pure_run, State.closeFrame, if_neg hne]
  rfl

/-- Padding that is not zero is rejected before the footer is read (R341). -/
theorem checkFooter_nonzeroPadding {s : State} {pad v : Nat} (hpad : pad = (8 - s.pos.toNat % 8) % 8)
    (hlt : v < 2 ^ pad) (hv : v ≠ 0) (ha : s.ahead (bitsOf pad v)) :
    checkFooter s = .error (.badFrame .nonzeroPadding 0 0 0) (s.consume pad) := by
  have hreject : (v != 0) = true := bne_iff_ne.2 hv
  simp only [checkFooter, readFooter, Rd.bind_run, align_reads hpad hlt ha, hreject, Rd.reject_true]

/-! ## A frame whose CRC agrees (R342) -/

/-- Settles O48: the footer check ends with OK and the frame delivered, which ends `READ_NEXT_FRAME` too and is
counted by `DECODE`. -/
theorem footerDeliversFrame : Obligations.FooterDeliversFrame := by
  intro s d pad hvalid hfatal hphase hpad ha hd
  have hstep : footerStep s = .done .okay (s.hdr.blockSize.setWidth 64) d :=
    hd ▸ runFrameStep_ok (checkFooter_match (readFooter_reads hpad ha))
  have hnext := nextFrameStep_footer hphase
  rw [hstep] at hnext
  have hstop : d.stop = s.stop := by rw [hd]; rfl
  refine ⟨?command, fun hslot => ?readNextFrame, fun n hslot => ⟨fun hone => ?stopped, fun hzero => ?goesOn⟩⟩
  case command =>
    rw [exec_frCheckFooter (framesEnabled_true hvalid hfatal) hphase, hstep]
    rfl
  case readNextFrame =>
    rw [exec_readNextFrame_inside hslot, readNextFrameStep, hnext]
    rfl
  case stopped =>
    rw [exec_decode_inside hslot, decodeStep, hnext]
    exact if_pos (hstop.trans hone)
  case goesOn =>
    refine ⟨{ d with slot := .decoding (n + 1) }, ?_, rfl⟩
    rw [exec_decode_inside hslot, decodeStep, hnext]
    exact if_neg (Bool.eq_false_iff.1 (hstop.trans hzero))

/-! ## A frame whose CRC differs (R343) -/

theorem zeroFrame_chbuf (s : State) (c : ChannelIx) :
    s.zeroFrame.chbuf[c] =
      if c.val < s.hdr.channels.toNat then s.chbuf[c].write (List.replicate s.hdr.blockSize.toNat 0)
      else s.chbuf[c] := by
  show (Vector.ofFn _)[c] = _
  simp only [Fin.getElem_fin, Vector.getElem_ofFn]

theorem zeroFrame_read {s : State} {c : ChannelIx} (hc : c.val < s.hdr.channels.toNat) (i : Nat) :
    s.zeroFrame.chbuf[c].read i = if i < s.hdr.blockSize.toNat then 0 else s.chbuf[c].read i := by
  rw [zeroFrame_chbuf, if_pos hc, read_write]
  simp

/-- A channel of the frame is one of the first `HDR_CHANNELS` channels, read position by position. -/
theorem mem_samplesOfFrame {s : State} {ch : List Sample} (h : ch ∈ s.samplesOfFrame) :
    ∃ c : ChannelIx, c.val < s.hdr.channels.toNat ∧
      ch = (List.range s.hdr.blockSize.toNat).map s.chbuf[c].read := by
  obtain ⟨x, hx, rfl⟩ := List.mem_map.1 h
  obtain ⟨i, hi, rfl⟩ := List.mem_take_iff_getElem.1 hx
  have hi8 : i < 8 := hi.trans_le ((min_le_right _ _).trans_eq Vector.length_toList)
  exact ⟨⟨i, hi8⟩, hi.trans_le (min_le_left _ _), by rw [Vector.getElem_toList]; rfl⟩

/-- The samples of a frame that was zeroed. -/
theorem zeroFrame_samplesOfFrame {s : State} {ch : List Sample} (h : ch ∈ s.zeroFrame.samplesOfFrame) :
    ∀ v ∈ ch, v = 0 := by
  obtain ⟨c, hc, rfl⟩ := mem_samplesOfFrame h
  intro v hv
  obtain ⟨i, hi, rfl⟩ := List.mem_map.1 hv
  exact (zeroFrame_read (s := s) hc i).trans (if_pos (List.mem_range.1 hi))

theorem bytePos_consume {s : State} {n : Nat} (h : s.sourceOk) (hn : s.pos.toNat + n ≤ 8 * s.src.length) :
    (s.consume n).bytePos = BitVec.ofNat 64 ((s.pos.toNat + n) / 8) := by
  have hlen := h.2.1
  apply BitVec.eq_of_toNat_eq
  rw [State.bytePos, BitVec.toNat_ushiftRight, pos_consume_le h hn, Nat.shiftRight_eq_div_pow, BitVec.toNat_ofNat,
    Nat.mod_eq_of_lt (by omega)]

/-- What a wrong CRC leaves before the delivery: the event, the count and the zeroed frame. -/
theorem crcMismatch_eq (x y : Word16) (s : State) :
    (s.withFooter x y).crcMismatch x y =
      { s with
        footer := x ++ y
        outq := s.outq ++ [.event ⟨.crcMismatch, 0, s.bytePos, x, y⟩]
        badFrames := s.badFrames + 1
        chbuf := s.zeroFrame.chbuf } := rfl

/-- Settles O49: the footer check zeroes the frame, as `zeroFrame_chbuf` says, and delivers it. -/
theorem footerMismatchZeroesFrame : Obligations.FooterMismatchZeroesFrame := by
  intro s pad expected actual hvalid hfatal hphase hpad hexpected hne ha
  have hlength : (List.replicate pad false ++ bitsOf 16 actual.toNat).length = pad + 16 := by
    rw [List.length_append, List.length_replicate, length_bitsOf]
  have hend : s.pos.toNat + (pad + 16) ≤ 8 * s.src.length := hlength ▸ ha.le
  have hstep := runFrameStep_ok (checkFooter_mismatch (hexpected ▸ readFooter_reads hpad ha) hne)
  refine ⟨((s.consume (pad + 16)).withFooter expected actual).crcMismatch expected actual, _, ?exec, ?before, rfl,
    fun c => ⟨fun hc i => ⟨fun hi => ?zeroed, fun hi => ?after⟩, fun hc => ?other⟩, fun ch => zeroFrame_samplesOfFrame⟩
  case exec =>
    rw [exec_frCheckFooter (framesEnabled_true hvalid hfatal) hphase, footerStep, hstep, finish_done,
      endCommand_error _ _ _ (by decide), deliver_eq]
  case before =>
    rw [crcMismatch_eq, bytePos_consume ha.1 hend, Nat.add_assoc, ← pos_consume_ofNat]
    rfl
  case zeroed => exact (zeroFrame_read (s := s) hc i).trans (if_pos hi)
  case after => exact (zeroFrame_read (s := s) hc i).trans (if_neg (Nat.not_lt.2 hi))
  case other => exact (zeroFrame_chbuf s c).trans (if_neg (Nat.not_lt.2 hc))

/-! ## Padding that is not zero (R341) -/

/-- Settles O50: the check of the padding ends the frame with the padding consumed. -/
theorem nonzeroPaddingDropsFrame : Obligations.NonzeroPaddingDropsFrame := by
  intro s pad v hvalid hfatal hphase hpad hlt hv ha
  rw [exec_frCheckFooter (framesEnabled_true hvalid hfatal) hphase, footerStep,
    runFrameStep_badFrame (checkFooter_nonzeroPadding hpad hlt hv ha), finish_done,
    endCommand_error _ _ _ (by decide)]
  rfl

end Sys2Proof.Machine
end

section
/-! SUPPORT. The composite commands run the primitive commands the sequencer selects (`47_frame.md` R351, R361, R362;
O52, O53). -/

namespace Sys2Proof.Machine

/-! ## One primitive command and one step of the loop -/

/-- How the primitive command that is the loop's next step ends, and what the step of the loop makes of it: it held,
or it ended after it reached `u`, and the loop goes on from `u` or ends as the command did (R351). -/
theorem nextCommand_cases {s t : State} (hvalid : s.spValid = true) (hfatal : s.fatal = false)
    (hdone : s.sfDone.toNat ≤ s.hdr.channels.toNat) (hchannels : s.hdr.channels.toNat ≤ 8)
    (hbusy : s.slot ≠ .idle) (hx : exec (nextCommand s) s = .next t) :
    (t = s ∧ nextFrameStep s = .hold) ∨
    (t ≠ s ∧ ∃ (st : Status) (res : Word64) (u : State), t = u.endCommand st res ∧ SameOutside s u ∧
      (loopGoesOn s.phase st.code → nextFrameStep s = .again u) ∧
      (¬ loopGoesOn s.phase st.code → nextFrameStep s = .ended st res u)) := by
  obtain ⟨e, codes, hexec, hkeeps, hhold, hends⟩ := nextCommand_runs hvalid hfatal hdone hchannels
  rcases finish_cases hkeeps (hexec ▸ hx) with ⟨ht, -, he⟩ | ⟨st, res, u, he, hu, rfl⟩
  · exact .inl ⟨ht, hhold he⟩
  · obtain ⟨hagain, hended⟩ := hends st res u he
    exact .inr ⟨fun heq => hbusy (heq ▸ rfl), st, res, u, rfl, hu.outside, hagain, hended⟩

/-- END_OF_STREAM is not recovered. -/
theorem not_loopGoesOn_endOfStream (p : Phase) : ¬ loopGoesOn p .endOfStream := by simp [loopGoesOn]

/-- A footer check that delivers its frame ends the pass of the loop. -/
theorem not_loopGoesOn_delivered {p : Phase} {code : StatusCode}
    (h : code = .crcMismatch ∨ (code = .ok ∧ p = .decorrelated)) : ¬ loopGoesOn p code := by
  rcases h with rfl | ⟨rfl, rfl⟩ <;> simp [loopGoesOn]

/-! ## `READ_NEXT_FRAME` -/

theorem exec_readNextFrame_step {s : State} (hen : s.framesEnabled = true)
    (hslot : s.slot = .readingNext ∨ (∃ w : CodeWord, s.slot = .pending w) ∧ s.phase = .searching) :
    exec (.readNextFrame 0) s = readNextFrameStep s := by
  rcases hslot with hslot | ⟨-, hphase⟩
  · exact exec_readNextFrame_inside hslot
  · exact exec_readNextFrame_searching hen hphase

/-- Settles O52: the step holds, goes on or ends as `nextCommand_cases` says. -/
theorem readNextFrameRunsItsSteps : Obligations.ReadNextFrameRunsItsSteps := by
  intro s t hvalid hfatal hdone hchannels hslot hx
  have hbusy : s.slot ≠ .idle := by
    rcases hslot with h | ⟨⟨w, h⟩, -⟩ <;> rw [h] <;> nofun
  have hrun : exec (.readNextFrame 0) s = readNextFrameStep s :=
    exec_readNextFrame_step (framesEnabled_true hvalid hfatal) hslot
  rw [hrun, readNextFrameStep]
  rcases nextCommand_cases hvalid hfatal hdone hchannels hbusy hx with
    ⟨rfl, hhold⟩ | ⟨hne, st, res, u, rfl, hout, hagain, hended⟩
  · rw [hhold]
    exact ⟨fun _ => rfl, fun hne => absurd rfl hne, fun hne => absurd rfl hne⟩
  · refine ⟨fun heq => absurd heq hne, fun _ hgo => ?goesOn, fun _ hstop => ?ends⟩
    case goesOn =>
      rw [hagain hgo, ← hout.lastErr]
      exact ⟨{ u with slot := .readingNext }, rfl, rfl⟩
    case ends =>
      rw [hended hstop]

/-! ## `DECODE` -/

theorem exec_decode_step {s : State} {n : Nat} (hen : s.framesEnabled = true)
    (hslot : s.slot = .decoding n ∨ ((∃ w : CodeWord, s.slot = .pending w) ∧ s.phase = .searching ∧ n = 0)) :
    exec (.decode 0) s = decodeStep n s := by
  rcases hslot with hslot | ⟨⟨w, hslot⟩, hphase, rfl⟩
  · exact exec_decode_inside hslot
  · exact exec_decode_searching hen hphase fun m => by rw [hslot]; nofun

/-- Settles O53: the step holds, goes on or ends as `nextCommand_cases` says, and of the ends `DECODE` reports
END_OF_STREAM and counts the others. -/
theorem decodeRunsItsSteps : Obligations.DecodeRunsItsSteps := by
  intro s t n hvalid hfatal hdone hchannels hslot hx
  have hbusy : s.slot ≠ .idle := by
    rcases hslot with h | ⟨⟨w, h⟩, -⟩ <;> rw [h] <;> nofun
  have hrun : exec (.decode 0) s = decodeStep n s := exec_decode_step (framesEnabled_true hvalid hfatal) hslot
  rw [hrun, decodeStep]
  rcases nextCommand_cases hvalid hfatal hdone hchannels hbusy hx with
    ⟨rfl, hhold⟩ | ⟨hne, st, res, u, rfl, hout, hagain, hended⟩
  · rw [hhold]
    exact ⟨fun _ => rfl, fun hne => absurd rfl hne, fun hne => absurd rfl hne, fun hne => absurd rfl hne⟩
  · refine ⟨fun heq => absurd heq hne, fun _ hgo => ?goesOn, fun _ hcode => ?endOfStream, fun _ hcode => ?delivered⟩
    case goesOn =>
      rw [hagain hgo, ← hout.lastErr]
      exact ⟨{ u with slot := .decoding n }, rfl, rfl⟩
    case endOfStream =>
      have hcode : st.code = .endOfStream := hcode
      rw [hended (hcode ▸ not_loopGoesOn_endOfStream s.phase)]
      exact if_pos hcode
    case delivered =>
      have hcode : st.code = .crcMismatch ∨ (st.code = .ok ∧ s.phase = .decorrelated) := hcode
      have hnotEnd : st.code ≠ .endOfStream := by
        rcases hcode with hc | ⟨hc, -⟩ <;> rw [hc] <;> decide
      rw [hended (not_loopGoesOn_delivered hcode)]
      dsimp only
      rw [if_neg hnotEnd]
      refine ⟨fun hone => if_pos (hout.stop.trans hone), fun hzero => ⟨{ u with slot := .decoding (n + 1) }, ?_, ?_⟩⟩
      · exact if_neg (Bool.eq_false_iff.1 (hout.stop.trans hzero))
      · rw [← hout.lastErr]
        rfl

end Sys2Proof.Machine
end

section
/-! SUPPORT. How a command ends (`60_exceptions.md` R381, R386, R388, R398): END_OF_STREAM inside a frame (O51), an
illegal command (O59), and the codes of the summary (O60). -/

namespace Sys2Proof.Machine

/-! ## END_OF_STREAM inside a frame (R386, third case) -/

/-- The step of a frame command gives its frame up at the end of the stream after it only read. -/
def Ended.CutsByReading (s : State) (e : Ended) : Prop :=
  ∀ res u, e = .done ⟨.endOfStream, 0⟩ res u → res = 0 ∧ ∃ v : State, Reading s v ∧ u = v.withFrameCut

theorem headerStep_cuts (s : State) : (headerStep s).CutsByReading s := by
  intro res u h
  rcases headerStep_cases s with ⟨-, e⟩ | ⟨-, t, m, e⟩ | ⟨t, sub, x, y, -, e⟩ | ⟨t, hdr, -, -, e⟩ <;>
    rw [e] at h <;> cases h
  exact ⟨rfl, t, m, rfl⟩

/-- The working registers are emptied, as they were before (`43_subframe.md` R230; log 17). -/
theorem subframeStep_cuts {s : State} (c : ChannelIx) (hres : s.residual = Residual.empty) :
    (subframeStep c s).CutsByReading s := by
  intro res u h
  unfold subframeStep at h
  rcases runSubframe_cases (SubframeSound.decode c) s with ⟨-, e⟩ | ⟨-, t, m, e⟩ | ⟨t, sub, x, y, -, e⟩ | ⟨t, -, e⟩ <;>
    rw [e] at h <;> cases h
  exact ⟨rfl, t.setResidual Residual.empty, ⟨m.trans (Moves.setResidual _ _), hres.symm⟩, rfl⟩

theorem footerStep_cuts (s : State) : (footerStep s).CutsByReading s := by
  intro res u h
  rcases footerStep_cases s with ⟨-, e⟩ | ⟨-, t, m, e⟩ | ⟨t, sub, x, y, -, e⟩ | ⟨t, x, -, e⟩ | ⟨t, x, y, -, -, e⟩ <;>
    rw [e] at h <;> cases h
  exact ⟨rfl, t, m, rfl⟩

/-- A frame command that ended with END_OF_STREAM ran its step, which gave the frame up. -/
theorem admitFrame_cut {arg seq : Bool} {s t : State} {e : Ended} (hcuts : e.CutsByReading s)
    (hbusy : s.slot ≠ .idle) (hx : admitFrame arg seq s (e.finish s) = .next t) (hidle : t.slot = .idle)
    (hstatus : t.statusOut = ⟨.endOfStream, 0⟩) :
    ∃ v : State, Reading s v ∧ t = v.withFrameCut.errorWith .endOfStream 0 := by
  rcases admitFrame_cases hx with ⟨-, rfl⟩ | ⟨-, rfl⟩ | ⟨-, rfl⟩ | ⟨-, -, -, hrun⟩
  · cases hstatus
  · cases hstatus
  · cases hstatus
  · cases e with
    | hold => cases hrun; exact absurd hidle hbusy
    | done st res u =>
      cases hrun
      obtain rfl : st = ⟨.endOfStream, 0⟩ := hstatus
      obtain ⟨rfl, v, hv, rfl⟩ := hcuts res u rfl
      exact ⟨v, hv, endCommand_error _ _ _ (by decide)⟩

/-- Settles O51: each of the three commands gave the frame up after it only read. -/
theorem endOfStreamDropsFrame : Obligations.EndOfStreamDropsFrame := by
  intro s t i c hbusy hres hi hx hidle hstatus
  have hcut : ∃ v : State, Reading s v ∧ t = v.withFrameCut.errorWith .endOfStream 0 := by
    simp only [List.mem_cons, List.not_mem_nil, or_false] at hi
    rcases hi with rfl | rfl | rfl
    · exact admitFrame_cut (arg := legalN 0) (seq := s.phase == .synced) (headerStep_cuts s) hbusy hx hidle hstatus
    · exact admitFrame_cut (subframeStep_cuts _ hres) hbusy hx hidle hstatus
    · exact admitFrame_cut (arg := legalN 0) (seq := s.phase == .decorrelated) (footerStep_cuts s) hbusy hx hidle
        hstatus
  obtain ⟨v, hv, rfl⟩ := hcut
  refine ⟨?_, fun d n => by simp only [errorWith_chbuf, withFrameCut_chbuf, hv.1.chbuf]⟩
  have hread := hv.eq
  rw [hread]
  rfl

/-! ## How every instruction ends -/

/-- What a command that ended in `t` reports: an illegal command or a code of `codes`, in `LAST_ERR` too when it is an
error (R381); an illegal command did nothing else (R388). -/
structure Reports (codes : List StatusCode) (s t : State) : Prop where
  code : t.statusOut.code ∈ StatusCode.illegalCmd :: codes
  error : t.statusOut.code ≠ .ok → t.lastErr = t.statusOut
  okay : t.statusOut.code = .ok → t.lastErr = s.lastErr
  illegal : t.statusOut.code = .illegalCmd → t = s.errorWith .illegalCmd t.statusOut.sub

theorem Reports.endCommand {codes : List StatusCode} {s u : State} {st : Status} {res : Word64}
    (hcode : st.code ∈ codes) (hlegal : st.code ≠ .illegalCmd) (hokay : st.code = .ok → u.lastErr = s.lastErr) :
    Reports codes s (u.endCommand st res) where
  code := List.mem_cons_of_mem _ hcode
  error := fun h => if_neg h
  okay := fun h => (if_pos h).trans (hokay h)
  illegal := fun h => absurd h hlegal

theorem Ends.reports {codes : List StatusCode} {s t : State} (h : Ends codes s t) (hbusy : s.slot ≠ .idle)
    (hidle : t.slot = .idle) : Reports codes s t := by
  cases h with
  | hold => exact absurd hidle hbusy
  | illegal sub => exact ⟨List.mem_cons_self, fun _ => rfl, nofun, fun _ => rfl⟩
  | done st res u code legal lastErr result => exact .endCommand code legal fun _ => lastErr

/-- The result of a command that ends with an error is 0 (R381). -/
theorem Ends.result_zero {codes : List StatusCode} {s t : State} (h : Ends codes s t) (hbusy : s.slot ≠ .idle)
    (hidle : t.slot = .idle) (hcode : t.statusOut.code ≠ .ok) : t.result = 0 := by
  cases h with
  | hold => exact absurd hidle hbusy
  | illegal sub => rfl
  | done st res u code legal lastErr result => exact result hcode

/-- How every instruction but a reset and `DECODE` ends, when it does. -/
theorem exec_ends_of_idle {i : Instr} {s t : State} (hreset : i ≠ .softReset 0)
    (hdecode : ∀ a : Byte, i ≠ .decode a) (hx : exec i s = .next t) (hidle : t.slot = .idle) : Ends (answerCodes i) s t := by
  by_cases hloop : ∃ a, i = .readNextFrame a
  · obtain ⟨a, rfl⟩ := hloop
    have hstep : readNextFrameStep s = .next t → Ends (answerCodes (.readNextFrame a)) s t := fun h =>
      ((readNextFrameStep_ends h).resolve_left (by rw [hidle]; nofun)).weaken (by simp [answerCodes, commandCodes])
    rcases execReadNextFrame_cases hx with h | h
    · exact hstep h
    · exact admitFrame_ends h (by simp [answerCodes, commandCodes]) hstep
  · exact exec_ends i s t hreset (fun a => ⟨fun h => hloop ⟨a, h⟩, hdecode a⟩) hx

theorem exec_decode_reports {a : Byte} {s t : State} (hbusy : s.slot ≠ .idle) (hx : exec (.decode a) s = .next t)
    (hidle : t.slot = .idle) : Reports (answerCodes (.decode a)) s t := by
  have hstep : ∀ n, decodeStep n s = .next t → Reports (answerCodes (.decode a)) s t := by
    intro n h
    rcases decodeStep_ends h with ⟨rfl, -⟩ | ⟨m, hm⟩ | ⟨u, st, res, hst, rfl⟩
    · exact absurd hidle hbusy
    · rw [hm] at hidle; cases hidle
    · rcases hst with hc | hc <;>
        exact .endCommand (by simp [hc, answerCodes, commandCodes]) (by simp [hc]) (by simp [hc])
  rcases execDecode_cases hx with ⟨n, -, h⟩ | h
  · exact hstep n h
  · rcases admitFrame_cases h with ⟨-, rfl⟩ | ⟨-, rfl⟩ | ⟨-, rfl⟩ | ⟨-, -, -, h⟩
    · exact (Ends.illegal 2).reports hbusy hidle
    · exact (structural_ends s (by simp [answerCodes, commandCodes])).reports hbusy hidle
    · exact (Ends.illegal 3).reports hbusy hidle
    · exact hstep 0 h

theorem exec_reports {i : Instr} {s t : State} (hreset : i ≠ .softReset 0) (hbusy : s.slot ≠ .idle)
    (hx : exec i s = .next t) (hidle : t.slot = .idle) : Reports (answerCodes i) s t := by
  by_cases hdecode : ∃ a, i = .decode a
  · obtain ⟨a, rfl⟩ := hdecode
    exact exec_decode_reports hbusy hx hidle
  · exact (exec_ends_of_idle hreset (fun a h => hdecode ⟨a, h⟩) hx hidle).reports hbusy hidle

theorem exec_softReset_statusOut {s t : State} (hx : exec (.softReset 0) s = .next t) : t.statusOut = ⟨.ok, 0⟩ := by
  cases hx
  rfl

/-- Settles O59: a reset is no illegal command, and any other instruction reports as `exec_reports` says. -/
theorem illegalCommandsChangeOnlyLastErr : Obligations.IllegalCommandsChangeOnlyLastErr := by
  intro i s t hbusy hx hidle hcode
  have hreset : i ≠ .softReset 0 := by
    rintro rfl
    rw [exec_softReset_statusOut hx] at hcode
    cases hcode
  exact (exec_reports hreset hbusy hx hidle).illegal hcode

/-! ## The codes of the summary (R398) -/

/-- Every command may be illegal. -/
theorem illegalCmd_mem_commandCodes {i : Instr} {codes : List StatusCode} (h : commandCodes i = some codes) :
    .illegalCmd ∈ codes := by
  unfold commandCodes at h
  split at h <;> cases h <;> decide

/-- Skipping to the boundary needs no bit that is not there, while the cursor stands in the input (log 22). -/
theorem exec_brAlign_code {a : Byte} {s t : State} (hs : s.sourceOk) (hx : exec (.brAlign a) s = .next t) :
    t.statusOut.code ≠ .endOfStream := by
  rcases admitPlain_cases hx with ⟨-, rfl⟩ | ⟨-, h⟩
  · nofun
  · rw [runReader_ok (alignWord_run hs)] at h
    cases h
    nofun

/-- What an instruction reports is a code the summary gives it. -/
theorem mem_commandCodes {i : Instr} {codes : List StatusCode} {c : StatusCode} (h : commandCodes i = some codes)
    (hc : c ∈ StatusCode.illegalCmd :: answerCodes i) (halign : ∀ a, i = .brAlign a → c ≠ .endOfStream) :
    c ∈ codes := by
  rcases List.mem_cons.1 hc with rfl | hc
  · exact illegalCmd_mem_commandCodes h
  · unfold answerCodes at hc
    split at hc
    · cases h
      have hne := halign _ rfl
      simpa [hne] using hc
    · rwa [h] at hc

/-- Settles O60: a reset ends with OK; any other command reports as `exec_reports` says, and its codes are those of
the summary. -/
theorem statusCodesOfCommands : Obligations.StatusCodesOfCommands := by
  intro i s t codes hcodes hs hbusy hx hidle
  by_cases hreset : i = .softReset 0
  · subst hreset
    rw [exec_softReset_statusOut hx]
    cases hcodes
    exact ⟨by simp, fun h => absurd rfl h, fun _ h => absurd rfl h, fun h => absurd rfl h⟩
  · obtain ⟨hcode, herror, hokay, -⟩ := exec_reports hreset hbusy hx hidle
    refine ⟨mem_commandCodes hcodes hcode ?_, herror, fun h _ => hokay h, fun h hdecode => ?_⟩
    · rintro a rfl
      exact exec_brAlign_code hs hx
    · exact (exec_ends_of_idle hreset hdecode hx hidle).result_zero hbusy hidle h

end Sys2Proof.Machine
end
